-- ==== Sys2Proof/Word.lean ====
section
/-! DEFINITION. The word types of the core: the byte of the data ports and byte memories, and the 32-bit word of
the command port and of the result words (spec/30_encoding.md R140, spec/10_state.md R36). -/

namespace Sys2Proof

/-- A byte of data-in, data-out or a byte memory (spec/20_memory.md R100, R102). -/
abbrev Byte := BitVec 8

/-- A command, argument or result word (spec/30_encoding.md R140, spec/10_state.md R36). -/
abbrev Word := BitVec 32

/-- The 32-bit word that holds a number; the core has no signed quantity (spec/00_scope.md R9). -/
abbrev word (n : Nat) : Word := BitVec.ofNat 32 n

end Sys2Proof
end

