-- ==== Sys2Proof/Syntax.lean ====
section
/-! DEFINITION. The commands of the core: one constructor per row of spec/opcode_table.json (spec/30_encoding.md R147). A
command carries its operand fields at the width the format of R141 gives them, its argument words, and its payload bytes; a
payload's length field `n` is the length of the list. -/

namespace Sys2Proof

/-- A command of the core (spec/30_encoding.md R147). -/
inductive Instr where
  | bsInit (hint : Word)
  | bsAppend (count : BitVec 5) (bits : BitVec 16)
  | bsPad
  | bsPull
  | bsPop
  | bcNew (bytes : List Byte)
  | bcRebase (data : List Byte) (pointer : Word)
  | bcRead (width : BitVec 5) (offset : Word)
  | hfBuild (maxlen : BitVec 4) (freqs : List Word)
  | hfLoad (t : BitVec 2) (lengths : List Byte)
  | hfEncode (t : BitVec 2) (sym : BitVec 9)
  | hfDecode (t : BitVec 2) (avail : BitVec 5) (peek : Word)
  | wnInit (exp : BitVec 4)
  | wnUpdate (byte : Byte)
  | wnMatch (lookahead attempts goal : Word)
  | wnMatchd (lookahead attempts goal : Word)
  | wnFeed (bytes : List Byte)
  | tmMap (term : Word)
  | tmStep
  | tmGraph (n : BitVec 24)
  | tmMinimize
  | tmGeneralize
  | bwDynamic (final : Bool)
  | bwStored (last : Bool) (bytes : List Byte)
  | brStep
  | cNew (format : BitVec 2) (exp : BitVec 4) (level : Byte) (hint : Word)
  | cPush (last : Bool) (bytes : List Byte)
  | cPop
  | cPull
  | dNew (format : BitVec 2)
  | dPush (bytes : List Byte)
  | dPulln (count : Word)
  | dPull
  | ckAdler (bytes : List Byte) (value : Word)
  | ckCrc32 (bytes : List Byte) (value : Word)
deriving DecidableEq, Repr

/-- The opcodes, by name (spec/30_encoding.md R147). -/
inductive Op where
  | bsInit | bsAppend | bsPad | bsPull | bsPop
  | bcNew | bcRebase | bcRead
  | hfBuild | hfLoad | hfEncode | hfDecode
  | wnInit | wnUpdate | wnMatch | wnMatchd | wnFeed
  | tmMap | tmStep | tmGraph | tmMinimize | tmGeneralize
  | bwDynamic | bwStored
  | brStep
  | cNew | cPush | cPop | cPull
  | dNew | dPush | dPulln | dPull
  | ckAdler | ckCrc32
deriving DecidableEq, Repr

/-- The opcode of a command. -/
def Instr.op : Instr → Op
  | .bsInit _ => .bsInit
  | .bsAppend _ _ => .bsAppend
  | .bsPad => .bsPad
  | .bsPull => .bsPull
  | .bsPop => .bsPop
  | .bcNew _ => .bcNew
  | .bcRebase _ _ => .bcRebase
  | .bcRead _ _ => .bcRead
  | .hfBuild _ _ => .hfBuild
  | .hfLoad _ _ => .hfLoad
  | .hfEncode _ _ => .hfEncode
  | .hfDecode _ _ _ => .hfDecode
  | .wnInit _ => .wnInit
  | .wnUpdate _ => .wnUpdate
  | .wnMatch _ _ _ => .wnMatch
  | .wnMatchd _ _ _ => .wnMatchd
  | .wnFeed _ => .wnFeed
  | .tmMap _ => .tmMap
  | .tmStep => .tmStep
  | .tmGraph _ => .tmGraph
  | .tmMinimize => .tmMinimize
  | .tmGeneralize => .tmGeneralize
  | .bwDynamic _ => .bwDynamic
  | .bwStored _ _ => .bwStored
  | .brStep => .brStep
  | .cNew _ _ _ _ => .cNew
  | .cPush _ _ => .cPush
  | .cPop => .cPop
  | .cPull => .cPull
  | .dNew _ => .dNew
  | .dPush _ => .dPush
  | .dPulln _ => .dPulln
  | .dPull => .dPull
  | .ckAdler _ _ => .ckAdler
  | .ckCrc32 _ _ => .ckCrc32

/-- The argument words a command carries after its command word (spec/30_encoding.md R141). -/
def Instr.args : Instr → List Word
  | .bsInit hint => [hint]
  | .bcRebase _ pointer => [pointer]
  | .bcRead _ offset => [offset]
  | .hfBuild _ freqs => freqs
  | .hfDecode _ _ peek => [peek]
  | .wnMatch l a g => [l, a, g]
  | .wnMatchd l a g => [l, a, g]
  | .tmMap term => [term]
  | .cNew _ _ _ hint => [hint]
  | .dPulln count => [count]
  | .ckAdler _ value => [value]
  | .ckCrc32 _ value => [value]
  | .bsAppend _ _ | .bsPad | .bsPull | .bsPop | .bcNew _ | .hfLoad _ _ | .hfEncode _ _ | .wnInit _ | .wnUpdate _
  | .wnFeed _ | .tmStep | .tmGraph _ | .tmMinimize | .tmGeneralize | .bwDynamic _ | .bwStored _ _ | .brStep
  | .cPush _ _ | .cPop | .cPull | .dNew _ | .dPush _ | .dPull => []

/-- The payload bytes a command takes from data-in (spec/30_encoding.md R141). -/
def Instr.payload : Instr → List Byte
  | .bcNew bytes => bytes
  | .bcRebase data _ => data
  | .hfLoad _ lengths => lengths
  | .wnFeed bytes => bytes
  | .bwStored _ bytes => bytes
  | .cPush _ bytes => bytes
  | .dPush bytes => bytes
  | .ckAdler bytes _ => bytes
  | .ckCrc32 bytes _ => bytes
  | .bsInit _ | .bsAppend _ _ | .bsPad | .bsPull | .bsPop | .bcRead _ _ | .hfBuild _ _ | .hfEncode _ _ | .hfDecode _ _ _
  | .wnInit _ | .wnUpdate _ | .wnMatch _ _ _ | .wnMatchd _ _ _ | .tmMap _ | .tmStep | .tmGraph _ | .tmMinimize
  | .tmGeneralize | .bwDynamic _ | .brStep | .cNew _ _ _ _ | .cPop | .cPull | .dNew _ | .dPulln _ | .dPull => []

end Sys2Proof
end

