-- ==== Sys2Proof/WellFormed.lean ====
section
/-! DEFINITION. A command is well formed when the format of spec/30_encoding.md R141 can carry it: the length of a payload
or of a list of argument words fits the length field (R149). Operands outside their legal range (a `count` of 17, a
selector of 3) are encodable, so they are well formed here; the command's meaning refuses them (R150). -/

namespace Sys2Proof

/-- The bound that the format's length field puts on the payload and argument list of a command
(spec/30_encoding.md R141, R149): `n` of `L`, `L1` below `2^24`, of `PL` below `2^23`, of `HB` and `HT` below `2^9`. -/
def Instr.wellFormed : Instr → Bool
  | .bcNew bytes => decide (bytes.length < 2 ^ 24)
  | .bcRebase data _ => decide (data.length < 2 ^ 24)
  | .hfBuild _ freqs => decide (freqs.length < 2 ^ 9)
  | .hfLoad _ lengths => decide (lengths.length < 2 ^ 9)
  | .wnFeed bytes => decide (bytes.length < 2 ^ 24)
  | .bwStored _ bytes => decide (bytes.length < 2 ^ 23)
  | .cPush _ bytes => decide (bytes.length < 2 ^ 23)
  | .dPush bytes => decide (bytes.length < 2 ^ 24)
  | .ckAdler bytes _ => decide (bytes.length < 2 ^ 24)
  | .ckCrc32 bytes _ => decide (bytes.length < 2 ^ 24)
  | .bsInit _ | .bsAppend _ _ | .bsPad | .bsPull | .bsPop | .bcRead _ _ | .hfEncode _ _ | .hfDecode _ _ _ | .wnInit _
  | .wnUpdate _ | .wnMatch _ _ _ | .wnMatchd _ _ _ | .tmMap _ | .tmStep | .tmGraph _ | .tmMinimize | .tmGeneralize
  | .bwDynamic _ | .brStep | .cNew _ _ _ _ | .cPop | .cPull | .dNew _ | .dPulln _ | .dPull => true

end Sys2Proof
end

