-- ==== Sys2Proof/Decode.lean ====
section
/-! DEFINITION. The decoder and the encoder of commands (spec/30_encoding.md §1 and §2). The decoder reads the command port
(32-bit words) and the data-in port (bytes) and is total on any two lists: it answers a command and what is left of the
ports, or that the command is not complete yet, or a refusal by its reason (R150). -/

namespace Sys2Proof

/-- The value of the `len`-bit field of `w` whose lowest bit is bit `lo` (spec/00_scope.md R9: `w[lo+len-1:lo]`). -/
def field (w : Word) (lo len : Nat) : Nat := w.toNat / 2 ^ lo % 2 ^ len

/-- The opcode `OPC` of each command (spec/30_encoding.md R147). -/
def Op.code : Op → Nat
  | .bsInit => 0x10
  | .bsAppend => 0x11
  | .bsPad => 0x12
  | .bsPull => 0x13
  | .bsPop => 0x14
  | .bcNew => 0x20
  | .bcRebase => 0x21
  | .bcRead => 0x22
  | .hfBuild => 0x30
  | .hfLoad => 0x31
  | .hfEncode => 0x32
  | .hfDecode => 0x33
  | .wnInit => 0x40
  | .wnUpdate => 0x41
  | .wnMatch => 0x42
  | .wnMatchd => 0x43
  | .wnFeed => 0x44
  | .tmMap => 0x50
  | .tmStep => 0x51
  | .tmGraph => 0x52
  | .tmMinimize => 0x53
  | .tmGeneralize => 0x54
  | .bwDynamic => 0x60
  | .bwStored => 0x61
  | .brStep => 0x70
  | .cNew => 0x80
  | .cPush => 0x81
  | .cPop => 0x82
  | .cPull => 0x83
  | .dNew => 0x88
  | .dPush => 0x89
  | .dPulln => 0x8A
  | .dPull => 0x8B
  | .ckAdler => 0x90
  | .ckCrc32 => 0x91

/-- Every opcode of spec/30_encoding.md R147. -/
def Op.all : List Op :=
  [.bsInit, .bsAppend, .bsPad, .bsPull, .bsPop, .bcNew, .bcRebase, .bcRead, .hfBuild, .hfLoad, .hfEncode, .hfDecode,
   .wnInit, .wnUpdate, .wnMatch, .wnMatchd, .wnFeed, .tmMap, .tmStep, .tmGraph, .tmMinimize, .tmGeneralize, .bwDynamic,
   .bwStored, .brStep, .cNew, .cPush, .cPop, .cPull, .dNew, .dPush, .dPulln, .dPull, .ckAdler, .ckCrc32]

/-- The command an `OPC` value selects; none for an unlisted one (spec/30_encoding.md R148, R150). -/
def Op.ofCode (c : Nat) : Option Op := Op.all.find? (fun o => o.code == c)

/-- The reserved fields of each command's format, as (lowest bit, width): the bits marked 0 in spec/30_encoding.md R141. -/
def Op.reserved : Op → List (Nat × Nat)
  | .bsInit | .bsPad | .bsPull | .bsPop | .wnMatch | .wnMatchd | .tmMap | .tmStep | .tmMinimize | .tmGeneralize | .brStep
  | .cPop | .cPull | .dPulln | .dPull => [(0, 24)]
  | .bsAppend => [(21, 3)]
  | .bwDynamic => [(1, 23)]
  | .bcNew | .bcRebase | .wnFeed | .tmGraph | .bwStored | .cPush | .dPush | .ckAdler | .ckCrc32 => []
  | .bcRead => [(5, 19)]
  | .hfBuild => [(9, 11)]
  | .hfLoad | .hfEncode => [(18, 6), (9, 7)]
  | .hfDecode => [(18, 6), (5, 11)]
  | .wnInit => [(4, 20)]
  | .wnUpdate => [(8, 16)]
  | .cNew => [(20, 2), (0, 8)]
  | .dNew => [(0, 22)]

/-- Whether every reserved field of the command word is zero (spec/30_encoding.md R141, R150). -/
def Op.reservedClear (o : Op) (w : Word) : Bool := o.reserved.all (fun f => field w f.1 f.2 == 0)

/-- How many argument words follow the command word (spec/30_encoding.md R140, R141). -/
def Op.argCount (o : Op) (w : Word) : Nat :=
  match o with
  | .bsInit | .bcRebase | .bcRead | .hfDecode | .tmMap | .cNew | .dPulln | .ckAdler | .ckCrc32 => 1
  | .wnMatch | .wnMatchd => 3
  | .hfBuild => field w 0 9
  | .bsAppend | .bsPad | .bsPull | .bsPop | .bcNew | .hfLoad | .hfEncode | .wnInit | .wnUpdate | .wnFeed | .tmStep
  | .tmGraph | .tmMinimize | .tmGeneralize | .bwDynamic | .bwStored | .brStep | .cPush | .cPop | .cPull | .dNew | .dPush
  | .dPull => 0

/-- How many payload bytes the command takes from data-in (spec/30_encoding.md R140, R141). -/
def Op.payloadLen (o : Op) (w : Word) : Nat :=
  match o with
  | .bcNew | .bcRebase | .wnFeed | .dPush | .ckAdler | .ckCrc32 => field w 0 24
  | .bwStored | .cPush => field w 0 23
  | .hfLoad => field w 0 9
  | .bsInit | .bsAppend | .bsPad | .bsPull | .bsPop | .bcRead | .hfBuild | .hfEncode | .hfDecode | .wnInit | .wnUpdate
  | .wnMatch | .wnMatchd | .tmMap | .tmStep | .tmGraph | .tmMinimize | .tmGeneralize | .bwDynamic | .brStep | .cNew
  | .cPop | .cPull | .dNew | .dPulln | .dPull => 0

/-- The command made of a command word, its argument words and its payload: every operand is zero-extended from its field,
none is scaled or shifted (spec/30_encoding.md R148, R149). -/
def Op.assemble (o : Op) (w : Word) (args : List Word) (payload : List Byte) : Instr :=
  let a := args.getD 0 0
  match o with
  | .bsInit => .bsInit a
  | .bsAppend => .bsAppend (BitVec.ofNat 5 (field w 16 5)) (BitVec.ofNat 16 (field w 0 16))
  | .bsPad => .bsPad
  | .bsPull => .bsPull
  | .bsPop => .bsPop
  | .bcNew => .bcNew payload
  | .bcRebase => .bcRebase payload a
  | .bcRead => .bcRead (BitVec.ofNat 5 (field w 0 5)) a
  | .hfBuild => .hfBuild (BitVec.ofNat 4 (field w 20 4)) args
  | .hfLoad => .hfLoad (BitVec.ofNat 2 (field w 16 2)) payload
  | .hfEncode => .hfEncode (BitVec.ofNat 2 (field w 16 2)) (BitVec.ofNat 9 (field w 0 9))
  | .hfDecode => .hfDecode (BitVec.ofNat 2 (field w 16 2)) (BitVec.ofNat 5 (field w 0 5)) a
  | .wnInit => .wnInit (BitVec.ofNat 4 (field w 0 4))
  | .wnUpdate => .wnUpdate (BitVec.ofNat 8 (field w 0 8))
  | .wnMatch => .wnMatch a (args.getD 1 0) (args.getD 2 0)
  | .wnMatchd => .wnMatchd a (args.getD 1 0) (args.getD 2 0)
  | .wnFeed => .wnFeed payload
  | .tmMap => .tmMap a
  | .tmStep => .tmStep
  | .tmGraph => .tmGraph (BitVec.ofNat 24 (field w 0 24))
  | .tmMinimize => .tmMinimize
  | .tmGeneralize => .tmGeneralize
  | .bwDynamic => .bwDynamic (field w 0 1 == 1)
  | .bwStored => .bwStored (field w 23 1 == 1) payload
  | .brStep => .brStep
  | .cNew => .cNew (BitVec.ofNat 2 (field w 22 2)) (BitVec.ofNat 4 (field w 16 4)) (BitVec.ofNat 8 (field w 8 8)) a
  | .cPush => .cPush (field w 23 1 == 1) payload
  | .cPop => .cPop
  | .cPull => .cPull
  | .dNew => .dNew (BitVec.ofNat 2 (field w 22 2))
  | .dPush => .dPush payload
  | .dPulln => .dPulln a
  | .dPull => .dPull
  | .ckAdler => .ckAdler payload a
  | .ckCrc32 => .ckCrc32 payload a

/-- What the decoder refuses, by name: the two reasons spec/30_encoding.md R150 gives for an encoding. -/
inductive BadEncoding where
  /-- An `OPC` that R147 does not list: reason `ILLEGAL`. -/
  | illegalOpcode
  /-- A reserved bit set to 1: reason `OPERAND`. -/
  | reservedBit
deriving DecidableEq, Repr

/-- The decoder's answer. -/
inductive Fetched where
  /-- A whole command, with the words and bytes left on the two ports. -/
  | command (i : Instr) (words : List Word) (bytes : List Byte)
  /-- The ports do not hold a whole command yet. -/
  | incomplete
  /-- The command word is refused; the words after it. -/
  | bad (why : BadEncoding) (words : List Word)
deriving DecidableEq, Repr

/-- Decoding (spec/30_encoding.md R148, R150): the `OPC`, the reserved bits, then the argument words and the payload. -/
def decode (words : List Word) (bytes : List Byte) : Fetched :=
  match words with
  | [] => .incomplete
  | w :: rest =>
    match Op.ofCode (field w 24 8) with
    | none => .bad .illegalOpcode rest
    | some o =>
      if o.reservedClear w then
        if o.argCount w ≤ rest.length ∧ o.payloadLen w ≤ bytes.length then
          .command (o.assemble w (rest.take (o.argCount w)) (bytes.take (o.payloadLen w)))
            (rest.drop (o.argCount w)) (bytes.drop (o.payloadLen w))
        else .incomplete
      else .bad .reservedBit rest

/-- The operand field `w[23:0]` of a command's word (spec/30_encoding.md R141). -/
def Instr.operandField : Instr → Nat
  | .bsAppend count bits => count.toNat * 2 ^ 16 + bits.toNat
  | .bcNew bytes => bytes.length
  | .bcRebase data _ => data.length
  | .bcRead width _ => width.toNat
  | .hfBuild maxlen freqs => maxlen.toNat * 2 ^ 20 + freqs.length
  | .hfLoad t lengths => t.toNat * 2 ^ 16 + lengths.length
  | .hfEncode t sym => t.toNat * 2 ^ 16 + sym.toNat
  | .hfDecode t avail _ => t.toNat * 2 ^ 16 + avail.toNat
  | .wnInit exp => exp.toNat
  | .wnUpdate byte => byte.toNat
  | .wnFeed bytes => bytes.length
  | .tmGraph n => n.toNat
  | .bwDynamic final => final.toNat
  | .bwStored last bytes => last.toNat * 2 ^ 23 + bytes.length
  | .cNew format exp level _ => format.toNat * 2 ^ 22 + exp.toNat * 2 ^ 16 + level.toNat * 2 ^ 8
  | .cPush last bytes => last.toNat * 2 ^ 23 + bytes.length
  | .dNew format => format.toNat * 2 ^ 22
  | .dPush bytes => bytes.length
  | .ckAdler bytes _ => bytes.length
  | .ckCrc32 bytes _ => bytes.length
  | .bsInit _ | .bsPad | .bsPull | .bsPop | .wnMatch _ _ _ | .wnMatchd _ _ _ | .tmMap _ | .tmStep | .tmMinimize
  | .tmGeneralize | .brStep | .cPop | .cPull | .dPulln _ | .dPull => 0

/-- The command word of a command: `OPC` in `[31:24]`, the operand field in `[23:0]` (spec/30_encoding.md R140). -/
def Instr.commandWord (i : Instr) : Word := word (i.op.code * 2 ^ 24 + i.operandField)

/-- The words a command puts on the command port (spec/30_encoding.md R140). -/
def encode (i : Instr) : List Word := i.commandWord :: i.args

/-- The 32-bit words of an instruction numbered as spec/opcode_table.json numbers it: bit 0 is the least significant bit of
the command word, word `k` is bits `32k+31 .. 32k`; every bit at or above `nbits` is 0. -/
def tableWord (nbits w k : Nat) : Word := word (w % 2 ^ nbits / 2 ^ (32 * k))

/-- The words on the command port for a table word: the command word and as many argument words as it takes. -/
def tableWords (nbits w : Nat) : List Word :=
  let cw := tableWord nbits w 0
  let n := match Op.ofCode (field cw 24 8) with
    | none => 0
    | some o => o.argCount cw
  cw :: (List.range n).map (fun k => tableWord nbits w (k + 1))

/-- The data-in bytes for a table word: as many zero bytes as its length field asks for. -/
def tablePayload (nbits w : Nat) : List Byte :=
  let cw := tableWord nbits w 0
  match Op.ofCode (field cw 24 8) with
  | none => []
  | some o => List.replicate (o.payloadLen cw) 0

/-- The instruction the decoder reads from a table word. -/
def decodeTableWord (nbits w : Nat) : Option Instr :=
  match decode (tableWords nbits w) (tablePayload nbits w) with
  | .command i _ _ => some i
  | .incomplete | .bad _ _ => none

end Sys2Proof
end

