-- ==== Sys2Proof/Config.lean ====
section
/-! DEFINITION. What an implementation of the core fixes: the OPEN parameters of spec/00_scope.md R7 and
spec/92_eei_decisions.md, as one record every meaning of the compressor side takes as an argument, and the constraints the spec puts on them
(`Params.Legal`). The reference assignment is `Sys2Proof.Machine.referenceParams` (Machine/Params.lean); the free values
of the model, `Config.stateAfterRefusal` and `Config.disturbedReader`, are opaque constants declared in Machine/Ops.lean,
after the types they range over. -/

namespace Sys2Proof

/-- The search strategies of spec/10_state.md R34 (`C_CFG.STRATEGY`). -/
inductive Strategy where
  | greedy
  | lazy
  | full
deriving DecidableEq, Repr, Inhabited

/-- One row of `LEVEL_TABLE`: (`STRATEGY`, `ATTEMPTS`, `GOAL`, `ITERATIONS`), each as wide as the `C_CFG` field it is
copied to (spec/10_state.md R34, spec/00_scope.md R14). -/
structure LevelRow where
  strategy   : Strategy
  attempts   : BitVec 16
  goal       : BitVec 9
  iterations : BitVec 3
deriving DecidableEq, Repr, Inhabited

/-- A depth table (spec/10_state.md R48): unsigned fixed-point bit costs. `lit` has an entry per byte, `run` one per run
length 3..258 (entry `k - 3`), `dist` one per distance decade 0..29. -/
structure DepthTable where
  lit  : List Nat
  eob  : Nat
  run  : List Nat
  dist : List Nat
deriving DecidableEq, Repr, Inhabited

/-- The sizes spec/10_state.md R48 gives a depth table. -/
def DepthTable.sized (t : DepthTable) : Bool :=
  t.lit.length == 256 && t.run.length == 256 && t.dist.length == 30

/-- The OPEN parameters (spec/00_scope.md R7, spec/92_eei_decisions.md): not state (spec/10_state.md R55), but arguments of
the model. -/
structure Params where
  /-- `LEVEL_TABLE`. -/
  levelTable   : Nat → LevelRow
  /-- `HASH`, the head-table index of a 32-bit prefix key. -/
  hash         : Word → Nat
  /-- `DEFAULT_DEPTH`. -/
  defaultDepth : DepthTable
  /-- `FRAC_BITS`. -/
  fracBits     : Nat
  /-- `GRAPH_CEILING`. -/
  graphCeiling : Nat
  /-- `BLOCK_TERMS`. -/
  blockTerms   : Nat
  /-- `Build`: frequencies and length limit to code lengths (spec/41_huffman.md R270, R271). -/
  build        : List Nat → Nat → List Nat

/-- How many symbols a frequency list uses (the `m` of spec/41_huffman.md R270). -/
def usedCount (freqs : List Nat) : Nat := freqs.countP (fun f => decide (0 < f))

/-- The Kraft sum of spec/41_huffman.md R282, scaled by `2^15`. -/
def kraft (lens : List Nat) : Nat :=
  (lens.map (fun l => if l = 0 then 0 else 2 ^ (15 - l))).sum

/-- A node of a Huffman merge: its weight, and the depth of each of its leaves as (symbol, depth). -/
structure MergeNode where
  weight : Nat
  leaves : List (Nat × Nat)
deriving DecidableEq, Repr

/-- The node of two nodes: weights summed, every leaf one deeper. -/
def MergeNode.join (a b : MergeNode) : MergeNode :=
  { weight := a.weight + b.weight, leaves := (a.leaves ++ b.leaves).map (fun l => (l.1, l.2 + 1)) }

/-- Huffman's merge: two nodes of least weight are joined until one is left, ties broken in any way. -/
inductive Merges : List MergeNode → MergeNode → Prop where
  | done (root : MergeNode) : Merges [root] root
  | join (pool rest : List MergeNode) (a b root : MergeNode) :
      pool.Perm (a :: b :: rest) → (∀ c ∈ rest, a.weight ≤ c.weight ∧ b.weight ≤ c.weight) →
      Merges (a.join b :: rest) root → Merges pool root

/-- One leaf per used symbol, its weight the frequency. -/
def mergeLeaves (freqs : List Nat) : List MergeNode :=
  (freqs.zipIdx.filter (fun p => decide (0 < p.1))).map (fun p => { weight := p.1, leaves := [(p.2, 0)] })

/-- The code lengths of an unlimited Huffman tree of the frequencies: a used symbol's length is its depth, an unused symbol's 0
(spec/41_huffman.md R271, property 5). -/
def HuffmanLengths (freqs lens : List Nat) : Prop :=
  ∃ root, Merges (mergeLeaves freqs) root ∧ lens.length = freqs.length
    ∧ ∀ s, s < freqs.length →
        (0 < freqs.getD s 0 → (s, lens.getD s 0) ∈ root.leaves) ∧ (freqs.getD s 0 = 0 → lens.getD s 0 = 0)

/-- What spec/41_huffman.md R271 (properties 1 to 3) and R272 ask of a builder's answer. -/
structure BuildSpec (freqs : List Nat) (maxlen : Nat) (lens : List Nat) : Prop where
  size       : lens.length = freqs.length
  bounded    : ∀ l ∈ lens, l ≤ maxlen
  unused     : 2 ≤ usedCount freqs → ∀ s, s < freqs.length → (lens.getD s 0 = 0 ↔ freqs.getD s 0 = 0)
  complete   : 2 ≤ usedCount freqs → kraft lens = 2 ^ 15
  oneSymbol  : usedCount freqs = 1 → ∀ s, s < freqs.length → lens.getD s 0 = if 0 < freqs.getD s 0 then 1 else 0
  noSymbol   : usedCount freqs = 0 → ∀ s, s < freqs.length → lens.getD s 0 = if s = 0 then 1 else 0

/-- The constraints of spec/92_eei_decisions.md (table of OPEN parameters) and spec/10_state.md R34, R48 on an assignment. -/
structure Params.Legal (P : Params) : Prop where
  iterations : ∀ n, 1 ≤ (P.levelTable n).iterations.toNat ∧ (P.levelTable n).iterations.toNat ≤ 6
  goal       : ∀ n, 1 ≤ (P.levelTable n).goal.toNat ∧ (P.levelTable n).goal.toNat ≤ 258
  depth      : P.defaultDepth.sized = true
  ceiling    : 2048 ≤ P.graphCeiling ∧ ∃ k, P.graphCeiling = 2 ^ k
  blockTerms : 1 ≤ P.blockTerms
  build      : ∀ freqs maxlen, freqs ≠ [] → 1 ≤ maxlen → maxlen ≤ 15 → usedCount freqs ≤ 2 ^ maxlen →
                 BuildSpec freqs maxlen (P.build freqs maxlen)
  /-- R271, property 5, its definite half: where the builder's unlimited Huffman tree fits the limit, the lengths are that tree's
  (log entry 24). -/
  huffman    : ∀ freqs, 2 ≤ usedCount freqs → ∃ tree, HuffmanLengths freqs tree
                 ∧ ∀ maxlen, 1 ≤ maxlen → maxlen ≤ 15 → (∀ l ∈ tree, l ≤ maxlen) → P.build freqs maxlen = tree

end Sys2Proof
end

