-- ==== Sys2Proof/Machine/State.lean ====
section
/-! DEFINITION. The state of the core, unit by unit, as spec/10_state.md gives it, with the ports of spec/30_encoding.md
R140, the internal memories of spec/20_memory.md R100, and the power-on state of spec/70_reset_and_hazards.md R640. Everything
is plain data. -/

namespace Sys2Proof.Machine

/-! ## Codes -/

/-- Decode errors (spec/60_exceptions.md R601). -/
inductive DecodeError where
  | invalidCompressionMethod
  | invalidWindowExponent
  | invalidHeaderCheckBits
  | unexpectedPresetDictionary
  | invalidBlockType
  | invalidStoredLength
  | invalidRunLiteralCount
  | invalidCodelengthTable
  | invalidCodelengthSequence
  | invalidRunLiteralTable
  | invalidDistanceTable
  | invalidBackReference
  | checksumMismatch
deriving DecidableEq, Repr, Inhabited

/-- The refusal reasons (spec/60_exceptions.md R607). -/
inductive Reason where
  | illegal
  | operand
  | discarded
  | overread
  | table
  | noInstance
  | pushAfterLast
  | gzipFields
deriving DecidableEq, Repr, Inhabited

/-- The statuses of spec/30_encoding.md R146; `noResult` is the status the spec calls `NONE`. -/
inductive Status where
  | ok
  | needInput
  | finished
  | noResult
  | needOutput
  | error (e : DecodeError)
  | refused
deriving DecidableEq, Repr, Inhabited

/-- The stream wrappers: the `FORMAT` codes 0, 1, 2 (spec/10_state.md R34, R35); code 3 is refused and never stored. -/
inductive Format where
  | zlib
  | gzip
  | raw
deriving DecidableEq, Repr, Inhabited

/-- `C_STATE` (spec/10_state.md R33). -/
inductive CState where
  | closed
  | opened
  | finished
deriving DecidableEq, Repr, Inhabited

/-- `D_STATE` (spec/10_state.md R33); `closed` is the value the spec calls `NONE`. -/
inductive DState where
  | closed
  | streamStart
  | blockStart
  | blockTables
  | blockCompressed
  | blockUncompressed
  | streamChecksum
  | streamEnd
  | error
deriving DecidableEq, Repr, Inhabited

/-- The verdict on a set of code lengths (spec/41_huffman.md R283). -/
inductive Verdict where
  | complete
  | degenerate
  | empty
  | incomplete
  | oversubscribed
deriving DecidableEq, Repr, Inhabited

/-- The three Huffman tables: selector 0, 1, 2 (spec/30_encoding.md R142). -/
inductive Table where
  | runLit
  | dist
  | metasym
deriving DecidableEq, Repr, Inhabited

/-- The internal spaces a rule may not read before they are written (spec/20_memory.md R100, spec/60_exceptions.md R608). -/
inductive Space where
  | win
  | hist
  | bcbuf
  | tvmem
  | mgmem
  | dtmem
  | enc
  | dec
deriving DecidableEq, Repr, Inhabited

/-! ## How a step can stop -/

/-- Why the model faults. -/
inductive Fault where
  /-- A rule read a unit of an internal space that nothing has written (spec/60_exceptions.md R608; "it must stop with a
  fault rather than return any value"). Raised by any meaning that reads `space`. Safe: the hardware has no such event. -/
  | unwrittenUnit (space : Space)
  /-- A loop of a rule ran past the bound the model recurses on. Raised by `D.PUSH`, the code-length step, the compressor's driver
  and `Path()`; the bounds are chosen so that no state reaches it. Safe. -/
  | loopBound
  /-- The error state holds no error code. Raised by `BR.STEP` and `D.PUSH` in a state no run reaches: entering the error state
  always sets `D_ERR` (spec/60_exceptions.md R603). Safe. -/
  | missingError
deriving DecidableEq, Repr

/-- Why the model refuses. -/
inductive Refusal where
  /-- An instruction that has no meaning yet, by its mnemonic. Raised by `exec` only. Safe. -/
  | notModelled (mnemonic : String)
  /-- A step after a refused command: the hardware state is unspecified then and "a model stops at a refusal"
  (spec/60_exceptions.md R607). Raised by `step` only. Safe. -/
  | afterRefusal
deriving DecidableEq, Repr

/-! ## Memories -/

/-- A byte memory: (address, byte) pairs, addresses strictly rising. An unlisted address has not been written and reads as
no value (spec/20_memory.md R100). -/
abbrev Memory := List Host.Cell

/-- A memory whose units are positions (`HEAD`, `NEXT`): (address, position) pairs, addresses strictly rising; an unlisted
address holds `none` (spec/10_state.md R44). -/
abbrev Links := List (Nat × Nat)

/-! ## The bit sink `BS` (spec/10_state.md R43) -/

/-- The bit sink. `isOpen` says whether the unit has been opened (spec/70_reset_and_hazards.md R641). -/
structure Sink where
  isOpen : Bool
  done   : List Byte
  acc    : Byte
  nacc   : BitVec 3
  queue  : List (List Byte)
  hint   : Nat
deriving DecidableEq, Repr, Inhabited

/-! ## The bit cursor `BC` (spec/10_state.md R54) -/

/-- The bit cursor: `buf` is `BC_BUF`, the retained bytes followed by the 6 padding bytes; `count` is `BC_COUNT`; `ptr` is
`BC_PTR`. -/
structure Cursor where
  isOpen : Bool
  buf    : List Byte
  count  : Nat
  ptr    : Nat
deriving DecidableEq, Repr, Inhabited

/-! ## The window `WN` (spec/10_state.md R44, R45) -/

/-- The window unit. `inserted` is the number of bytes inserted so far, of which the register `WN_Q` holds the low 32 bits
(`Window.q`; positions are absolute, R45; log entry 12); `bytes` is `WN_BYTES`, the memory `WIN` by slot; `head` is `WN_HEAD` by hash value and `next` is
`WN_NEXT` by absolute position (R45); `input` is `WN_IN`; `last` is `WN_LAST`. -/
structure Window where
  isOpen : Bool
  exp    : BitVec 4
  bytes  : Memory
  inserted : Nat
  r      : Word
  head   : Links
  next   : Links
  input  : List Byte
  last   : Option (Nat × Option Nat)
deriving DecidableEq, Repr, Inhabited

/-- The register `WN_Q`: 32 bits, the number of bytes inserted modulo 2^32 (spec/10_state.md R44; log entry 12). -/
def Window.q (w : Window) : Word := word w.inserted

/-! ## Terms and the match graph (spec/10_state.md R46, R47) -/

/-- A term (spec/43_term_strategies.md R370). -/
inductive Term where
  | lit (b : Byte)
  | copy (run dist : Nat)
deriving DecidableEq, Repr, Inhabited

/-- An edge of the match graph: the longest run found in its decade, and its full distance. -/
structure Edge where
  run  : Nat
  dist : Nat
deriving DecidableEq, Repr, Inhabited

/-- A vertex `i < n` of the match graph: `LIT[i]` and `EDGE[i][D]` for the decades `D` = 0..29. -/
structure Vertex where
  lit   : Byte
  edges : List (Option Edge)
deriving DecidableEq, Repr, Inhabited

/-- The match graph: `MG_N`; the vertices `0..n-1`; `COST[0..n]` with `none` for infinity; `BACK[0..n]`, the vertex an edge
came from and the term it stands for (spec/43_term_strategies.md R396). -/
structure Graph where
  n        : Nat
  vertices : List Vertex
  cost     : List (Option Nat)
  back     : List (Option (Nat × Term))
deriving DecidableEq, Repr, Inhabited

/-! ## Huffman tables (spec/10_state.md R49, R50) -/

/-- An encode entry: the MSB-first codeword, its length, the symbol's extra-bit count. -/
structure EncEntry where
  code  : Nat
  len   : Nat
  extra : Nat
deriving DecidableEq, Repr, Inhabited

/-- An encode table; `usable` is false when it is "marked unusable" (spec/41_huffman.md R280). -/
structure EncTable where
  isOpen  : Bool
  usable  : Bool
  entries : List EncEntry
deriving DecidableEq, Repr, Inhabited

/-- A decode table: the code length of every symbol and the verdict (spec/10_state.md R50). -/
structure DecTable where
  isOpen  : Bool
  lens    : List Nat
  verdict : Verdict
deriving DecidableEq, Repr, Inhabited

/-- `ENC_LD`, `ENC_D`, `ENC_M`. -/
structure EncTables where
  runLit  : EncTable
  dist    : EncTable
  metasym : EncTable
deriving DecidableEq, Repr, Inhabited

/-- `DEC_LD`, `DEC_D`, `DEC_M`. -/
structure DecTables where
  runLit  : DecTable
  dist    : DecTable
  metasym : DecTable
deriving DecidableEq, Repr, Inhabited

/-! ## The compressor context (spec/10_state.md R33, R34, R37 to R42) -/

/-- `C_CFG`. -/
structure CConfig where
  format     : Format
  exp        : BitVec 4
  level      : BitVec 8
  strategy   : Strategy
  attempts   : BitVec 16
  goal       : BitVec 9
  iterations : BitVec 3
  hint       : Word
deriving DecidableEq, Repr, Inhabited

/-- The compressor's registers `C_*`. -/
structure Compressor where
  state      : CState
  cfg        : CConfig
  input      : List Byte
  check      : Word
  isize      : Word
  parsed     : Nat
  emitted    : Nat
  termsBytes : Nat
  last       : Bool
  graphs     : Nat
  limit      : Nat
deriving DecidableEq, Repr, Inhabited

/-! ## The decompressor context (spec/10_state.md R33, R35, R37, R51 to R53) -/

/-- The decompressor's registers `D_*` and its history memory `HIST`. `disturbed` is the model's own: set when the host
has changed `BC` or `DEC_*` under an open stream, after which the decompressor's results are unspecified
(spec/70_reset_and_hazards.md R652; log entry 8). -/
structure Decompressor where
  state      : DState
  format     : Format
  input      : List Byte
  cur        : Nat
  out        : List Byte
  drained    : Nat
  total      : Nat
  check      : Word
  hist       : Memory
  final      : Bool
  btype      : BitVec 2
  hlit       : Nat
  hdist      : Nat
  hclen      : Nat
  storedLeft : BitVec 16
  err        : Option DecodeError
  disturbed  : Bool
deriving DecidableEq, Repr, Inhabited

/-! ## The whole state -/

/-- The state of the core. `cmdIn` and `dataIn` are what the host has put on the command port and the data-in port and the
core has not taken yet (spec/30_encoding.md R140); `status`, `res`, `dataOut` are the result interface (spec/10_state.md R36);
`refused` is the sticky `REFUSED` flag (R37); `free` counts the free values drawn (the model's own; log entry 7). -/
structure State where
  cmdIn   : List Word
  dataIn  : List Byte
  status  : Status
  res     : List Word
  dataOut : List Byte
  refused : Bool
  c       : Compressor
  bs      : Sink
  wn      : Window
  tv      : List Term
  mg      : Graph
  dt      : DepthTable
  enc     : EncTables
  d       : Decompressor
  bc      : Cursor
  dec     : DecTables
  free    : Nat
deriving DecidableEq, Repr, Inhabited

/-! ## Power-on (spec/70_reset_and_hazards.md R640)

Only `C_STATE`, `D_STATE`, `REFUSED` and "not open" are the spec's; every other value here is "unspecified" there and chosen
zero or empty (DESIGN CHOICE, log entry 6: unsafe). -/

/-- The match graph before any is built. -/
def Graph.blank : Graph := { n := 0, vertices := [], cost := [], back := [] }

/-- The depth table at power-on: zeros. -/
def DepthTable.powerOn : DepthTable :=
  { lit := List.replicate 256 0, eob := 0, run := List.replicate 256 0, dist := List.replicate 30 0 }

/-- An encode table of `n` symbols at power-on: not open. -/
def EncTable.powerOn (n : Nat) : EncTable :=
  { isOpen := false, usable := false, entries := List.replicate n { code := 0, len := 0, extra := 0 } }

/-- A decode table of `n` symbols at power-on: not open. -/
def DecTable.powerOn (n : Nat) : DecTable := { isOpen := false, lens := List.replicate n 0, verdict := .empty }

/-- The compressor at power-on: `C_STATE = NONE`. -/
def Compressor.powerOn : Compressor :=
  { state := .closed
    cfg := { format := .zlib, exp := 0, level := 0, strategy := .greedy, attempts := 0, goal := 0, iterations := 0, hint := 0 }
    input := [], check := 0, isize := 0, parsed := 0, emitted := 0, termsBytes := 0, last := false, graphs := 0, limit := 0 }

/-- The decompressor at power-on: `D_STATE = NONE`. -/
def Decompressor.powerOn : Decompressor :=
  { state := .closed, format := .zlib, input := [], cur := 0, out := [], drained := 0, total := 0, check := 0, hist := []
    final := false, btype := 0, hlit := 0, hdist := 0, hclen := 0, storedLeft := 0, err := none, disturbed := false }

/-- The machine at power-on (spec/70_reset_and_hazards.md R640): no stream, no unit and no table is open, nothing has been refused,
and the host has issued nothing (R642). -/
def State.reset : State :=
  { cmdIn := [], dataIn := [], status := .ok, res := [], dataOut := [], refused := false
    c := Compressor.powerOn
    bs := { isOpen := false, done := [], acc := 0, nacc := 0, queue := [], hint := 0 }
    wn := { isOpen := false, exp := 0, bytes := [], inserted := 0, r := 0, head := [], next := [], input := [], last := none }
    tv := [], mg := Graph.blank, dt := DepthTable.powerOn
    enc := { runLit := EncTable.powerOn 288, dist := EncTable.powerOn 32, metasym := EncTable.powerOn 19 }
    d := Decompressor.powerOn
    bc := { isOpen := false, buf := [], count := 0, ptr := 0 }
    dec := { runLit := DecTable.powerOn 288, dist := DecTable.powerOn 32, metasym := DecTable.powerOn 19 }
    free := 0 }

end Sys2Proof.Machine
end

