-- ==== Sys2Proof/Machine/Flags.lean ====
section
/-! DEFINITION. The codes in which the core reports: statuses, decode errors, refusal reasons, decoder states, verdicts; and
the flags of spec/10_state.md R37. The core has no arithmetic condition codes. -/

namespace Sys2Proof.Machine

/-- The code of a decode error (spec/60_exceptions.md R601). -/
def DecodeError.code : DecodeError → BitVec 8
  | .invalidCompressionMethod => 0x10
  | .invalidWindowExponent => 0x11
  | .invalidHeaderCheckBits => 0x12
  | .unexpectedPresetDictionary => 0x13
  | .invalidBlockType => 0x20
  | .invalidStoredLength => 0x21
  | .invalidRunLiteralCount => 0x22
  | .invalidCodelengthTable => 0x30
  | .invalidCodelengthSequence => 0x31
  | .invalidRunLiteralTable => 0x32
  | .invalidDistanceTable => 0x33
  | .invalidBackReference => 0x40
  | .checksumMismatch => 0x50

/-- The 8-bit value of `STATUS` (spec/30_encoding.md R146). -/
def Status.code : Status → BitVec 8
  | .ok => 0x00
  | .needInput => 0x01
  | .finished => 0x02
  | .noResult => 0x03
  | .needOutput => 0x04
  | .error e => e.code
  | .refused => 0xFE

/-- The reason code a refusal leaves in `RES[0]` (spec/60_exceptions.md R607). -/
def Reason.code : Reason → Word
  | .illegal => 0x01
  | .operand => 0x02
  | .discarded => 0x03
  | .overread => 0x04
  | .table => 0x05
  | .noInstance => 0x06
  | .pushAfterLast => 0x07
  | .gzipFields => 0x08

/-- The code of `D_STATE` that `BR.STEP` returns (spec/45_block_reader.md R484). -/
def DState.code : DState → Word
  | .closed => 0
  | .streamStart => 1
  | .blockStart => 2
  | .blockTables => 3
  | .blockCompressed => 4
  | .blockUncompressed => 5
  | .streamChecksum => 6
  | .streamEnd => 7
  | .error => 8

/-- The code of a verdict that `HF.LOAD` returns (spec/41_huffman.md R280). -/
def Verdict.code : Verdict → Word
  | .complete => 0
  | .degenerate => 1
  | .empty => 2
  | .incomplete => 3
  | .oversubscribed => 4

/-- `C_LAST` after a `C.PUSH` whose `last` operand is given: set by `last = 1`, else kept (spec/10_state.md R37). -/
def lastFlag (old last : Bool) : Bool := old || last

/-- Whether the decompressor context has been opened (spec/70_reset_and_hazards.md R641). -/
def Decompressor.isOpen (d : Decompressor) : Bool := d.state != .closed

/-- Whether the compressor context has been opened (spec/70_reset_and_hazards.md R641). -/
def Compressor.isOpen (c : Compressor) : Bool := c.state != .closed

/-- Whether a decompressor stream is in progress, so that a host command on `BC` or `DEC_*` disturbs it
(spec/70_reset_and_hazards.md R652). After `STREAM_END` and after an error no step runs and nothing of `BC` or `DEC_*` is
read again (spec/45_block_reader.md R526, R531): DEDUCED, log entry 9. -/
def Decompressor.streaming (d : Decompressor) : Bool :=
  match d.state with
  | .closed | .streamEnd | .error => false
  | .streamStart | .blockStart | .blockTables | .blockCompressed | .blockUncompressed | .streamChecksum => true

end Sys2Proof.Machine
end

