-- ==== Sys2Proof/Machine/Ops.lean ====
section
/-! DEFINITION. The operations every meaning shares: reading and writing the internal memories, answering a command,
refusing it (spec/60_exceptions.md R607), entering the error state (R603), and what a disturbed decompressor answers
(spec/70_reset_and_hazards.md R652). -/

namespace Sys2Proof.Machine

/-! ## Sparse memories in canonical form -/

/-- The unit last written at address `k`, if any (spec/20_memory.md R100, `MemRead`). -/
def Cells.read {α : Type} (k : Nat) : List (Nat × α) → Option α
  | [] => none
  | (a, x) :: rest => if a = k then some x else Cells.read k rest

/-- Write `x` at address `k` (spec/20_memory.md R100, `MemWrite`), keeping the addresses strictly rising. -/
def Cells.write {α : Type} (k : Nat) (x : α) : List (Nat × α) → List (Nat × α)
  | [] => [(k, x)]
  | (a, y) :: rest =>
    if k < a then (k, x) :: (a, y) :: rest
    else if k = a then (k, x) :: rest
    else (a, y) :: Cells.write k x rest

/-- Make address `k` hold nothing. -/
def Cells.erase {α : Type} (k : Nat) : List (Nat × α) → List (Nat × α)
  | [] => []
  | (a, y) :: rest => if k = a then Cells.erase k rest else (a, y) :: Cells.erase k rest

/-- The canonical form: addresses strictly rising. -/
def Cells.wf {α : Type} : List (Nat × α) → Bool
  | [] => true
  | [_] => true
  | (a, _) :: (b, y) :: rest => decide (a < b) && Cells.wf ((b, y) :: rest)

/-- The canonical form of a byte memory. An unlisted address reads as no value, so no entry can equal what an unlisted
address reads as. -/
def Memory.wf (m : Memory) : Bool := Cells.wf m

/-- One byte of a byte memory; none where nothing has been written. -/
def Memory.read (m : Memory) (a : Nat) : Option Byte := Cells.read a m

/-- Write one byte of a byte memory. -/
def Memory.write (m : Memory) (a : Nat) (b : Byte) : Memory := Cells.write a b m

/-- The canonical form of `HEAD` and `NEXT`. -/
def Links.wf (m : Links) : Bool := Cells.wf m

/-- The entry of `HEAD` or `NEXT` at `a`: a position or `none` (spec/10_state.md R44). -/
def Links.get (m : Links) (a : Nat) : Option Nat := Cells.read a m

/-- Set an entry of `HEAD` or `NEXT` to a position or to `none`. -/
def Links.set (m : Links) (a : Nat) (p : Option Nat) : Links :=
  match p with
  | some v => Cells.write a v m
  | none => Cells.erase a m

/-! ## How a command's computation ends early -/

/-- Why the computation of a command stops: a refusal (spec/60_exceptions.md R607) or a model fault (R608). -/
inductive Stop where
  | refuse (r : Reason)
  | fault (f : Fault)
deriving DecidableEq, Repr

/-- The computation of a command. -/
abbrev Run := Except Stop

/-- `refuse(r)` (spec/00_scope.md R11). -/
def refuse {α : Type} (r : Reason) : Run α := .error (.refuse r)

/-- Refuse with reason `r` when the condition holds. -/
def refuseIf (c : Bool) (r : Reason) : Run Unit := if c then .error (.refuse r) else .ok ()

/-- Stop with a model fault when a unit that is about to be read has not been written (spec/60_exceptions.md R608). -/
def faultIf (c : Bool) (space : Space) : Run Unit := if c then .error (.fault (.unwrittenUnit space)) else .ok ()

/-- Read a unit that must have been written; a model fault otherwise (spec/60_exceptions.md R608). -/
def written {α : Type} (space : Space) : Option α → Run α
  | some a => .ok a
  | none => .error (.fault (.unwrittenUnit space))

/-! ## Answering a command -/

/-- The host's reading of the first `n` bytes of data-out: reading consumes them (spec/20_memory.md R110). It is an act of the host
and no command of the core: no step takes it, and what the host leaves unread the next command replaces
(spec/70_reset_and_hazards.md R651; log entry 30). -/
def State.takeDataOut (n : Nat) (s : State) : List Byte × State :=
  (s.dataOut.take n, { s with dataOut := s.dataOut.drop n })

/-- The result interface after a command: one status, the result words its rule names, and its data-out bytes, each replacing
the last command's (spec/10_state.md R36, spec/70_reset_and_hazards.md R651). -/
def State.answer (s : State) (status : Status) (res : List Word) (dataOut : List Byte) : State :=
  { s with status := status, res := res, dataOut := dataOut }

/-- The state of the core after a refused command, apart from what spec/60_exceptions.md R607 fixes: "unspecified", so a
free value, one for each draw (log entry 3). -/
opaque Config.stateAfterRefusal : Nat → State

/-- Refusal (spec/60_exceptions.md R607): `STATUS = REFUSED`, `RES[0]` the reason code, the sticky `REFUSED` flag set, and the
rest of the hardware state unspecified. What the host has still queued on the ports is the host's and stays. -/
def State.refuse (s : State) (r : Reason) : State :=
  { Config.stateAfterRefusal s.free with
    cmdIn := s.cmdIn, dataIn := s.dataIn, status := .refused, res := [r.code], refused := true, free := s.free + 1 }

/-- The outcome of a command from its computation: the next state, the refusal taken, or a model fault. -/
def State.finish (s : State) : Run State → Host.Outcome State Fault Refusal
  | .ok t => .next t
  | .error (.refuse r) => .next (s.refuse r)
  | .error (.fault f) => .fault f

/-! ## The error state of the decompressor -/

/-- Error entry, the core's whole "trap entry" (spec/60_exceptions.md R603): `D_ERR <- e`, `D_STATE <- ERROR`, and nothing else
saved or changed; control stays with the host. There is no return: only `D.NEW` leaves the error state (R604). -/
def Decompressor.raise (d : Decompressor) (e : DecodeError) : Decompressor := { d with state := .error, err := some e }

/-! ## The decompressor after its units were changed under it -/

/-- What the decompressor side of the core holds or reports, and why it would refuse. Of the cursor and the tables it names what
the spec leaves free: the retained bytes and the rebase pointer, and the code lengths (spec/10_state.md R50, R54). -/
structure ReaderSide where
  d       : Decompressor
  bytes   : List Byte
  ptr     : Nat
  runLit  : List Nat
  dist    : List Nat
  metasym : List Nat
  status  : Status
  reason  : Reason
  res     : List Word
  dataOut : List Byte
deriving DecidableEq, Repr, Inhabited

/-- What a decompressor command leaves once the host has changed `BC` or `DEC_*` under the open stream: "unspecified"
(spec/70_reset_and_hazards.md R652), so a free value, one for each draw (log entry 8). -/
opaque Config.disturbedReader : Nat → ReaderSide

/-- The decompressor after the host has changed `BC` or `DEC_*`: disturbed when a stream is in progress
(spec/70_reset_and_hazards.md R652). -/
def Decompressor.touched (d : Decompressor) : Decompressor := { d with disturbed := d.disturbed || d.streaming }

end Sys2Proof.Machine
end

