-- ==== Sys2Proof/Machine/Bits.lean ====
section
/-! DEFINITION. Bits, bytes and integer fields: the bit order of spec/00_scope.md R9, R10 and spec/20_memory.md R103, R104. -/

namespace Sys2Proof.Machine

/-- Bit `i` of the bit stream a byte sequence packs: bit `i mod 8` of byte `i div 8` (spec/00_scope.md R10). -/
def bitAt (bytes : List Byte) (i : Nat) : Bool := (bytes.getD (i / 8) 0).getLsbD (i % 8)

/-- The `n` stream bits from bit `off` on as an integer, first bit at bit 0 (spec/00_scope.md R10, R11). -/
def bitsAt (bytes : List Byte) (off : Nat) : Nat → Nat
  | 0 => 0
  | n + 1 => (bitAt bytes off).toNat + 2 * bitsAt bytes (off + 1) n

/-- `rev_n(v)`: the `n`-bit value whose bit `i` is `v[n-1-i]` (spec/00_scope.md R9). -/
def revBits : Nat → Nat → Nat
  | 0, _ => 0
  | n + 1, v => v % 2 * 2 ^ n + revBits n (v / 2)

/-- A byte with bit `i` set to `b`. -/
def setBit (x : Byte) (i : Nat) (b : Bool) : Byte :=
  if b then x ||| (1#8 <<< i) else x &&& ~~~ (1#8 <<< i)

/-- Bytes `hi` down to `lo` of a number as bytes: `byteOf v k` is `v[8k+7:8k]`. -/
def byteOf (v k : Nat) : Nat := v / 2 ^ (8 * k) % 256

/-- One more than the index of the last positive entry, 0 if there is none (spec/44_block_writer.md R434, R438: "1 + last s
with l[s] > 0"). -/
def countToLast : List Nat → Nat
  | [] => 0
  | x :: rest => if countToLast rest = 0 then (if 0 < x then 1 else 0) else countToLast rest + 1

/-- A list brought to length `n`: cut, or continued with zeros. -/
def padTo (n : Nat) (l : List Nat) : List Nat := l.take n ++ List.replicate (n - l.length) 0

end Sys2Proof.Machine
end

