-- ==== Sys2Proof/Machine/Tables.lean ====
section
/-! DEFINITION. The RFC tables of spec/30_encoding.md: run-length and distance decades (R172, R174), the fixed code (R176), the
metasymbols (R178) and the metasymbol order (R162). -/

namespace Sys2Proof.Machine

/-- A decade: its extra-bit count, its base, and the largest value it stands for (spec/30_encoding.md R172, R174). -/
structure Decade where
  extra : Nat
  base  : Nat
  top   : Nat
deriving DecidableEq, Repr

/-- Run-length decades, symbols 257..285 (spec/30_encoding.md R172). -/
def runDecades : List Decade :=
  [⟨0, 3, 3⟩, ⟨0, 4, 4⟩, ⟨0, 5, 5⟩, ⟨0, 6, 6⟩, ⟨0, 7, 7⟩, ⟨0, 8, 8⟩, ⟨0, 9, 9⟩, ⟨0, 10, 10⟩] ++
  [⟨1, 11, 12⟩, ⟨1, 13, 14⟩, ⟨1, 15, 16⟩, ⟨1, 17, 18⟩, ⟨2, 19, 22⟩, ⟨2, 23, 26⟩, ⟨2, 27, 30⟩, ⟨2, 31, 34⟩] ++
  [⟨3, 35, 42⟩, ⟨3, 43, 50⟩, ⟨3, 51, 58⟩, ⟨3, 59, 66⟩, ⟨4, 67, 82⟩, ⟨4, 83, 98⟩, ⟨4, 99, 114⟩, ⟨4, 115, 130⟩] ++
  [⟨5, 131, 162⟩, ⟨5, 163, 194⟩, ⟨5, 195, 226⟩, ⟨5, 227, 257⟩, ⟨0, 258, 258⟩]

/-- Distance decades, symbols 0..29 (spec/30_encoding.md R174). -/
def distDecades : List Decade :=
  [⟨0, 1, 1⟩, ⟨0, 2, 2⟩, ⟨0, 3, 3⟩, ⟨0, 4, 4⟩, ⟨1, 5, 6⟩, ⟨1, 7, 8⟩, ⟨2, 9, 12⟩, ⟨2, 13, 16⟩] ++
  [⟨3, 17, 24⟩, ⟨3, 25, 32⟩, ⟨4, 33, 48⟩, ⟨4, 49, 64⟩, ⟨5, 65, 96⟩, ⟨5, 97, 128⟩, ⟨6, 129, 192⟩, ⟨6, 193, 256⟩] ++
  [⟨7, 257, 384⟩, ⟨7, 385, 512⟩, ⟨8, 513, 768⟩, ⟨8, 769, 1024⟩, ⟨9, 1025, 1536⟩, ⟨9, 1537, 2048⟩] ++
  [⟨10, 2049, 3072⟩, ⟨10, 3073, 4096⟩, ⟨11, 4097, 6144⟩, ⟨11, 6145, 8192⟩] ++
  [⟨12, 8193, 12288⟩, ⟨12, 12289, 16384⟩, ⟨13, 16385, 24576⟩, ⟨13, 24577, 32768⟩]

/-- The index and the decade whose range holds `v` (spec/30_encoding.md R171). -/
def findDecade (v : Nat) : Nat → List Decade → Option (Nat × Decade)
  | _, [] => none
  | k, d :: rest => if d.base ≤ v ∧ v ≤ d.top then some (k, d) else findDecade v (k + 1) rest

/-- The run-literal symbol `L(run)` and its decade (spec/30_encoding.md R171, R172). -/
def runSymbol (run : Nat) : Option (Nat × Decade) := findDecade run 257 runDecades

/-- The distance symbol `Dd(dist)` and its decade (spec/30_encoding.md R171, R174). -/
def distSymbol (dist : Nat) : Option (Nat × Decade) := findDecade dist 0 distDecades

/-- Extra-bit counts of the metasymbols (spec/30_encoding.md R178). -/
def metaExtra (m : Nat) : Nat := if m = 16 then 2 else if m = 17 then 3 else if m = 18 then 7 else 0

/-- `extra_t(s)` (spec/41_huffman.md R278): run-literal 257..285, distance 0..29, metasymbols 16..18; 0 elsewhere. -/
def extraBits (t : Table) (s : Nat) : Nat :=
  match t with
  | .runLit => if s < 257 then 0 else ((runDecades[s - 257]?).map Decade.extra).getD 0
  | .dist => ((distDecades[s]?).map Decade.extra).getD 0
  | .metasym => metaExtra s

/-- The size of each alphabet's table (spec/30_encoding.md R142). -/
def Table.size : Table → Nat
  | .runLit => 288
  | .dist => 32
  | .metasym => 19

/-- The fixed run-literal code lengths (spec/30_encoding.md R176). -/
def fixedRunLit : List Nat :=
  List.replicate 144 8 ++ List.replicate 112 9 ++ List.replicate 24 7 ++ List.replicate 8 8

/-- The fixed distance code lengths (spec/30_encoding.md R176). -/
def fixedDist : List Nat := List.replicate 32 5

/-- The order in which metasymbol lengths are sent, `PERM` (spec/30_encoding.md R162). -/
def perm : List Nat := [16, 17, 18, 0, 8, 7, 9, 6, 10, 5, 11, 4, 12, 3, 13, 2, 14, 1, 15]

end Sys2Proof.Machine
end

