-- ==== Sys2Proof/Machine/Operands.lean ====
section
/-! DEFINITION. The operand forms whose meaning is more than a number: the table selector and the format code (spec/30_encoding.md
R142, R143), term words (R144) and position words (R145). -/

namespace Sys2Proof.Machine

/-- The table a selector names; 3 is refused with reason `OPERAND` (spec/30_encoding.md R142, R150). -/
def tableOf (t : BitVec 2) : Run Table :=
  match t.toNat with
  | 0 => .ok .runLit
  | 1 => .ok .dist
  | 2 => .ok .metasym
  | _ => refuse .operand

/-- The format a code names; 3 is refused with reason `OPERAND` (spec/30_encoding.md R143, R150). -/
def formatOf (f : BitVec 2) : Run Format :=
  match f.toNat with
  | 0 => .ok .zlib
  | 1 => .ok .gzip
  | 2 => .ok .raw
  | _ => refuse .operand

/-- The term a term word stands for; none outside the ranges of spec/30_encoding.md R144. -/
def termOfWord (w : Word) : Option Term :=
  let v := w.toNat
  if v / 2 ^ 31 = 0 then
    if v / 2 ^ 8 % 2 ^ 23 = 0 then some (.lit (BitVec.ofNat 8 v)) else none
  else
    let run := v / 2 ^ 16 % 2 ^ 9
    let dist := v % 2 ^ 16
    if v / 2 ^ 25 % 2 ^ 6 = 0 ∧ 3 ≤ run ∧ run ≤ 258 ∧ 1 ≤ dist ∧ dist ≤ 32768 then some (.copy run dist) else none

/-- The word of a term (spec/30_encoding.md R144). -/
def Term.word : Term → Word
  | .lit b => Sys2Proof.word b.toNat
  | .copy run dist => Sys2Proof.word (2 ^ 31 + run * 2 ^ 16 + dist)

/-- How many input bytes a term covers (spec/43_term_strategies.md R370). -/
def Term.covers : Term → Nat
  | .lit _ => 1
  | .copy run _ => run

/-- A position or `none` as a result word: the window slot, or `0xFFFFFFFF` (spec/30_encoding.md R145). -/
def slotWord (w : Nat) : Option Nat → Word
  | some p => word (p % w)
  | none => 0xFFFFFFFF

/-- What a term is coded as: its run-literal symbol with extra-bit count and value, and for a match its distance symbol
with extra-bit count and value (spec/30_encoding.md R171). -/
structure TermCodes where
  sym   : Nat
  extra : Nat
  value : Nat
  dist  : Option (Nat × Nat × Nat)
deriving DecidableEq, Repr

/-- The map from terms to symbols (spec/30_encoding.md R171); none for a run or distance no decade holds. -/
def Term.codes : Term → Option TermCodes
  | .lit b => some { sym := b.toNat, extra := 0, value := 0, dist := none }
  | .copy run dist =>
    match runSymbol run, distSymbol dist with
    | some (l, dl), some (k, dk) =>
      some { sym := l, extra := dl.extra, value := run - dl.base, dist := some (k, dk.extra, dist - dk.base) }
    | _, _ => none

end Sys2Proof.Machine
end

