-- ==== Sys2Proof/Machine/BitIO.lean ====
section
/-! DEFINITION. The bit output sink and the bit input cursor (spec/40_bit_io.md): `BS.*` and `BC.*`. -/

namespace Sys2Proof.Machine

/-! ## The bit sink -/

/-- An empty, open sink (spec/40_bit_io.md R230). -/
def Sink.init (hint : Nat) : Sink := { isOpen := true, done := [], acc := 0, nacc := 0, queue := [], hint := hint }

/-- One bit at the bit cursor: one turn of the loop of spec/40_bit_io.md R231. -/
def Sink.pushBit (k : Sink) (b : Bool) : Sink :=
  let acc := setBit k.acc k.nacc.toNat b
  if k.nacc = 7 then { k with done := k.done ++ [acc], acc := 0, nacc := 0 }
  else { k with acc := acc, nacc := k.nacc + 1 }

/-- The low `count` bits of `v`, least significant first (spec/40_bit_io.md R231). -/
def Sink.pushBits : Nat → Nat → Sink → Sink
  | 0, _, k => k
  | n + 1, v, k => Sink.pushBits n (v / 2) (k.pushBit (v % 2 == 1))

/-- The loop of `ChunkRelease` (spec/40_bit_io.md R232); each turn takes `hint >= 1` bytes, so `len(BS_DONE)` turns are
enough. -/
def Sink.releaseLoop : Nat → Sink → Sink
  | 0, k => k
  | n + 1, k =>
    if k.hint = 0 then k
    else if k.hint ≤ k.done.length then
      Sink.releaseLoop n { k with queue := k.queue ++ [k.done.take k.hint], done := k.done.drop k.hint }
    else k

/-- `ChunkRelease` (spec/40_bit_io.md R232). -/
def Sink.release (k : Sink) : Sink := Sink.releaseLoop k.done.length k

/-- `Append(bits, count)` (spec/40_bit_io.md R231). -/
def Sink.append (k : Sink) (bits count : Nat) : Sink := (Sink.pushBits count bits k).release

/-- `BS.PAD` on the sink (spec/40_bit_io.md R233). -/
def Sink.pad (k : Sink) : Sink := if k.nacc = 0 then k else k.append 0 (8 - k.nacc.toNat)

/-- Append bytes, 8 bits each, in order. -/
def Sink.appendBytes (k : Sink) (bytes : List Nat) : Sink := bytes.foldl (fun k b => k.append b 8) k

/-- `BS.PULL` on the sink: the bytes returned and the sink left (spec/40_bit_io.md R234). -/
def Sink.pull (k : Sink) : List Byte × Sink :=
  let done := if k.nacc = 0 then k.done else k.done ++ [k.acc]
  let acc := if k.nacc = 0 then k.acc else 0
  (k.queue.flatten ++ done, { k with queue := [], done := [], acc := acc, nacc := 0 })

/-- The oldest queued chunk and the sink left, if there is one (spec/40_bit_io.md R235). -/
def Sink.pop (k : Sink) : Option (List Byte × Sink) :=
  match k.queue with
  | [] => none
  | chunk :: rest => some (chunk, { k with queue := rest })

/-- The state after `BS.POP` on an open sink: `NONE`, or the oldest chunk on data-out (spec/40_bit_io.md R235). -/
def State.popChunk (s : State) : State :=
  match s.bs.pop with
  | none => s.answer .noResult [] []
  | some (chunk, bs) => { s with bs := bs }.answer .ok [word chunk.length] chunk

/-- `BS.INIT` (spec/40_bit_io.md R230). -/
def execBsInit (hint : Word) (s : State) : Host.Outcome State Fault Refusal :=
  s.finish do
    refuseIf (hint == 0) .operand
    pure ({ s with bs := Sink.init hint.toNat }.answer .ok [] [])

/-- `BS.APPEND` (spec/40_bit_io.md R231). -/
def execBsAppend (count : BitVec 5) (bits : BitVec 16) (s : State) : Host.Outcome State Fault Refusal :=
  s.finish do
    refuseIf (decide (16 < count.toNat)) .operand
    refuseIf (!s.bs.isOpen) .noInstance
    pure ({ s with bs := s.bs.append bits.toNat count.toNat }.answer .ok [] [])

/-- `BS.PAD` (spec/40_bit_io.md R233). -/
def execBsPad (s : State) : Host.Outcome State Fault Refusal :=
  s.finish do
    refuseIf (!s.bs.isOpen) .noInstance
    pure ({ s with bs := s.bs.pad }.answer .ok [] [])

/-- `BS.PULL` (spec/40_bit_io.md R234). -/
def execBsPull (s : State) : Host.Outcome State Fault Refusal :=
  s.finish do
    refuseIf (!s.bs.isOpen) .noInstance
    pure ({ s with bs := s.bs.pull.2 }.answer .ok [word s.bs.pull.1.length] s.bs.pull.1)

/-- `BS.POP` (spec/40_bit_io.md R235). -/
def execBsPop (s : State) : Host.Outcome State Fault Refusal :=
  s.finish do
    refuseIf (!s.bs.isOpen) .noInstance
    pure s.popChunk

/-! ## The bit cursor -/

/-- The 3 padding units of 16 bits (spec/40_bit_io.md R240, R244). -/
def cursorPadding : List Byte := List.replicate 6 0

/-- A cursor over a byte slice (spec/40_bit_io.md R240). -/
def Cursor.init (bytes : List Byte) : Cursor :=
  { isOpen := true, buf := bytes ++ cursorPadding, count := 8 * bytes.length, ptr := 0 }

/-- `BC.REBASE` on the cursor (spec/40_bit_io.md R241): whole 16-bit units before the pointer go, the data is appended, the
pointer is re-expressed. -/
def Cursor.rebase (k : Cursor) (data : List Byte) (pointer : Nat) : Cursor :=
  let u := pointer / 16
  { k with
    buf := (k.buf.take (k.count / 8)).drop (2 * u) ++ data ++ cursorPadding
    count := k.count - 16 * u + 8 * data.length
    ptr := pointer - 16 * u }

/-- The 16-bit unit `k` of the cursor's buffer: a byte pair, little-endian (spec/20_memory.md R106). -/
def Cursor.unit (c : Cursor) (k : Nat) : Nat := (c.buf.getD (2 * k) 0).toNat + 256 * (c.buf.getD (2 * k + 1) 0).toNat

/-- Stream bit `i` of the cursor: zero at and beyond `BC_COUNT`, before it a bit of a unit that must have been written
(spec/40_bit_io.md R243, spec/60_exceptions.md R608). -/
def Cursor.readBit (k : Cursor) (i : Nat) : Run Bool :=
  if i < k.count then do
    let b ← written .bcbuf k.buf[i / 8]?
    pure (b.getLsbD (i % 8))
  else pure false

/-- The loop of `BC.READ`: `width` bits from `offset` on, the first at bit 0 (spec/40_bit_io.md R243). -/
def Cursor.readBits (k : Cursor) (offset : Nat) : Nat → Run Nat
  | 0 => pure 0
  | n + 1 => do
    let b ← k.readBit offset
    let rest ← Cursor.readBits k (offset + 1) n
    pure (b.toNat + 2 * rest)

/-- Whether the buffer holds every valid byte. -/
def Cursor.holds (k : Cursor) : Bool := decide (k.count / 8 ≤ k.buf.length)

/-- `BC.NEW` (spec/40_bit_io.md R240). -/
def execBcNew (bytes : List Byte) (s : State) : Host.Outcome State Fault Refusal :=
  s.finish do
    pure ({ s with bc := Cursor.init bytes, d := s.d.touched }.answer .ok [] [])

/-- `BC.REBASE` (spec/40_bit_io.md R241). -/
def execBcRebase (data : List Byte) (pointer : Word) (s : State) : Host.Outcome State Fault Refusal :=
  s.finish do
    refuseIf (!s.bc.isOpen) .noInstance
    refuseIf (decide (pointer.toNat < s.bc.ptr) || decide (s.bc.count < pointer.toNat)) .operand
    faultIf (!s.bc.holds) .bcbuf
    let bc := s.bc.rebase data pointer.toNat
    pure ({ s with bc := bc, d := s.d.touched }.answer .ok [word bc.ptr] [])

/-- `BC.READ` (spec/40_bit_io.md R243). -/
def execBcRead (width : BitVec 5) (offset : Word) (s : State) : Host.Outcome State Fault Refusal :=
  s.finish do
    refuseIf (decide (16 < width.toNat)) .operand
    refuseIf (!s.bc.isOpen) .noInstance
    refuseIf (decide (offset.toNat < s.bc.ptr)) .discarded
    refuseIf (decide (s.bc.count + 48 < offset.toNat + width.toNat)) .overread
    let v ← s.bc.readBits offset.toNat width.toNat
    pure (s.answer .ok [word v] [])

end Sys2Proof.Machine
end

