-- ==== Sys2Proof/Machine/Checksum.lean ====
section
/-! DEFINITION. The checksums (spec/46_stream_interface.md §4): `CK.ADLER` and `CK.CRC32`, the functions the compressor's and the
decompressor's running checks use too. -/

namespace Sys2Proof.Machine

/-- The two halves of an Adler-32 after one byte (spec/46_stream_interface.md R590). -/
def adlerByte (ab : Nat × Nat) (x : Byte) : Nat × Nat :=
  let a := (ab.1 + x.toNat) % 65521
  (a, (ab.2 + a) % 65521)

/-- `CK.ADLER`: the Adler-32 of `bytes` continued from `value` (spec/46_stream_interface.md R590). -/
def adler32 (value : Word) (bytes : List Byte) : Word :=
  let ab := bytes.foldl adlerByte (value.toNat % 2 ^ 16, value.toNat / 2 ^ 16)
  word (ab.2 * 2 ^ 16 + ab.1)

/-- One bit of the CRC-32 (spec/46_stream_interface.md R591). -/
def crcBit (c : Word) : Word := (c >>> 1) ^^^ (if c.getLsbD 0 then 0xEDB88320 else 0)

/-- `n` bits of the CRC-32. -/
def crcBits : Nat → Word → Word
  | 0, c => c
  | n + 1, c => crcBits n (crcBit c)

/-- One byte of the CRC-32 (spec/46_stream_interface.md R591). -/
def crcByte (c : Word) (x : Byte) : Word := crcBits 8 (c ^^^ x.setWidth 32)

/-- `CK.CRC32`: the finished CRC-32 of `bytes` continued from `value` (spec/46_stream_interface.md R591). -/
def crc32 (value : Word) (bytes : List Byte) : Word :=
  bytes.foldl crcByte (value ^^^ 0xFFFFFFFF) ^^^ 0xFFFFFFFF

/-- The running check of a format over more bytes: Adler-32 for zlib, CRC-32 for gzip, unchanged for raw
(spec/10_state.md R39, R53). -/
def checkOver (f : Format) (value : Word) (bytes : List Byte) : Word :=
  match f with
  | .zlib => adler32 value bytes
  | .gzip => crc32 value bytes
  | .raw => value

/-- The initial running check of a format (spec/10_state.md R39, R53). -/
def checkInit (f : Format) : Word :=
  match f with
  | .zlib => 1
  | .gzip | .raw => 0

/-- `CK.ADLER` (spec/46_stream_interface.md R590). -/
def execCkAdler (bytes : List Byte) (value : Word) (s : State) : Host.Outcome State Fault Refusal :=
  s.finish (pure (s.answer .ok [adler32 value bytes] []))

/-- `CK.CRC32` (spec/46_stream_interface.md R591). -/
def execCkCrc32 (bytes : List Byte) (value : Word) (s : State) : Host.Outcome State Fault Refusal :=
  s.finish (pure (s.answer .ok [crc32 value bytes] []))

end Sys2Proof.Machine
end

