-- ==== Sys2Proof/Machine/Build.lean ====
section
/-! DEFINITION. The reference builder of code lengths (spec/41_huffman.md R272 to R275). Any builder with the properties of R271
is allowed; every meaning takes the builder as the parameter `Params.build`. -/

namespace Sys2Proof.Machine

/-- The used symbols with their frequencies, in symbol order: (frequency, symbol). -/
def usedSymbols (freqs : List Nat) : List (Nat × Nat) := freqs.zipIdx.filter (fun p => decide (0 < p.1))

/-! ## The Huffman merge (R273) -/

/-- A node of the merge: its weight, its key (the smallest symbol in it), and the depth of each of its leaves as
(symbol, depth). -/
structure HuffNode where
  weight : Nat
  key    : Nat
  leaves : List (Nat × Nat)
deriving DecidableEq, Repr

/-- The order (weight, key), lexicographic (spec/41_huffman.md R273). -/
def HuffNode.before (a b : HuffNode) : Bool :=
  decide (a.weight < b.weight) || (a.weight == b.weight && decide (a.key < b.key))

/-- A node put into a pool that is kept in the order (weight, key), so that the pool's minimum is its first node. -/
def HuffNode.insert (a : HuffNode) : List HuffNode → List HuffNode
  | [] => [a]
  | b :: rest => if a.before b then a :: b :: rest else b :: HuffNode.insert a rest

/-- The node of two nodes: weights summed, the smaller key, every leaf one deeper (spec/41_huffman.md R273). -/
def HuffNode.join (a b : HuffNode) : HuffNode :=
  { weight := a.weight + b.weight, key := min a.key b.key
    leaves := (a.leaves ++ b.leaves).map (fun l => (l.1, l.2 + 1)) }

/-- The merge: remove the two smallest nodes and insert their node, until one is left; each turn makes the pool one
shorter (spec/41_huffman.md R273). -/
def huffLoop : Nat → List HuffNode → List HuffNode
  | n + 1, a :: b :: rest => huffLoop n ((a.join b).insert rest)
  | _, pool => pool

/-- The leaves' depths after the merge. -/
def huffDepths (used : List (Nat × Nat)) : List (Nat × Nat) :=
  let pool := used.foldl (fun p u => HuffNode.insert { weight := u.1, key := u.2, leaves := [(u.2, 0)] } p) []
  match huffLoop used.length pool with
  | [] => []
  | root :: _ => root.leaves

/-! ## Length limiting by package-merge (R275) -/

/-- An item of package-merge: a weight and the symbols in it, with repeats. -/
structure Package where
  weight : Nat
  syms   : List Nat
deriving DecidableEq, Repr

/-- An item put into a list sorted by weight, after every item of no greater weight. -/
def Package.insert (x : Package) : List Package → List Package
  | [] => [x]
  | y :: rest => if y.weight ≤ x.weight then y :: Package.insert x rest else x :: y :: rest

/-- Pairing a list in order; an odd last item is dropped (spec/41_huffman.md R275). -/
def pairUp : List Package → List Package
  | a :: b :: rest => { weight := a.weight + b.weight, syms := a.syms ++ b.syms } :: pairUp rest
  | _ => []

/-- `merge(leaves, packages)` by weight, a leaf before a package of equal weight: packages are put one by one, in order,
after everything of no greater weight (spec/41_huffman.md R275). -/
def mergePackages (leaves packages : List Package) : List Package :=
  packages.foldl (fun acc p => p.insert acc) leaves

/-- `list` after `n` rounds of package-merge (spec/41_huffman.md R275). -/
def packageRounds (leaves : List Package) : Nat → List Package
  | 0 => leaves
  | n + 1 => mergePackages leaves (pairUp (packageRounds leaves n))

/-- The symbols of the first `2m - 2` items after `maxlen - 1` rounds; a symbol's length is how often it occurs
(spec/41_huffman.md R275). -/
def packageSymbols (used : List (Nat × Nat)) (maxlen : Nat) : List Nat :=
  let leaves := used.foldl (fun acc u => Package.insert { weight := u.1, syms := [u.2] } acc) []
  ((packageRounds leaves (maxlen - 1)).take (2 * used.length - 2)).flatMap Package.syms

/-! ## The builder -/

/-- The depth recorded for a symbol, 0 if it has none. -/
def depthOf (depths : List (Nat × Nat)) (s : Nat) : Nat :=
  match depths with
  | [] => 0
  | (t, d) :: rest => if t = s then d else depthOf rest s

/-- `Build(freqs, maxlen)`, the reference builder (spec/41_huffman.md R272 to R275). -/
def referenceBuild (freqs : List Nat) (maxlen : Nat) : List Nat :=
  match usedSymbols freqs with
  | [] => (List.range freqs.length).map (fun s => if s = 0 then 1 else 0)
  | [(_, only)] => (List.range freqs.length).map (fun s => if s = only then 1 else 0)
  | u :: v :: rest =>
    let used := u :: v :: rest
    let depths := huffDepths used
    if depths.all (fun l => decide (l.2 ≤ maxlen)) then (List.range freqs.length).map (depthOf depths)
    else
      let syms := packageSymbols used maxlen
      (List.range freqs.length).map (fun s => syms.count s)

end Sys2Proof.Machine
end

