-- ==== Sys2Proof/Machine/Params.lean ====
section
/-! DEFINITION. The fixed parameters of spec/00_scope.md R7 and the reference assignment of the OPEN ones (R14, spec/92_eei_decisions.md),
the assignment every compressor vector of the spec assumes. `exec` uses it (DESIGN CHOICE, log entry 11); every meaning's
own function takes the assignment as an argument. -/

namespace Sys2Proof.Machine

/-- `MIN_MATCH_EMIT` (spec/00_scope.md R7). -/
def minMatchEmit : Nat := 5

/-- `MAX_RUN` (spec/00_scope.md R7). -/
def maxRun : Nat := 258

/-- `MIN_RUN` (spec/00_scope.md R7). -/
def minRun : Nat := 3

/-- `LOOKAHEAD_MIN` (spec/00_scope.md R7). -/
def lookaheadMin : Nat := 259

/-- `GRAPH_LIMIT0` (spec/00_scope.md R7). -/
def graphLimit0 : Nat := 2048

/-- `STORED_TAIL` (spec/00_scope.md R7). -/
def storedTail : Nat := 3

/-- `HISTORY` (spec/00_scope.md R7). -/
def history : Nat := 32768

/-- A row of the level table. -/
def levelRow (strategy : Strategy) (attempts goal iterations : Nat) : LevelRow :=
  { strategy := strategy, attempts := BitVec.ofNat 16 attempts, goal := BitVec.ofNat 9 goal
    iterations := BitVec.ofNat 3 iterations }

/-- The reference `LEVEL_TABLE`; levels above 12 select the row of 12 (spec/00_scope.md R14). -/
def referenceLevel (level : Nat) : LevelRow :=
  match level with
  | 0 => levelRow .greedy 1 16 1
  | 1 => levelRow .greedy 4 32 1
  | 2 => levelRow .greedy 8 64 1
  | 3 => levelRow .lazy 8 64 1
  | 4 => levelRow .lazy 16 128 1
  | 5 => levelRow .lazy 32 258 1
  | 6 => levelRow .lazy 64 258 1
  | 7 => levelRow .full 64 258 1
  | 8 => levelRow .full 128 258 2
  | 9 => levelRow .full 256 258 3
  | 10 => levelRow .full 512 258 4
  | 11 => levelRow .full 1024 258 5
  | _ => levelRow .full 4096 258 6

/-- The reference `FRAC_BITS` (spec/92_eei_decisions.md D16). -/
def referenceFracBits : Nat := 4

/-- The reference depth of a run length: the fixed code's length and the extra bits (spec/43_term_strategies.md R400). -/
def referenceRunDepth (run : Nat) : Nat :=
  match runSymbol run with
  | some (l, d) => (if l ≤ 279 then 7 else 8) + d.extra
  | none => 0

/-- The reference `DEFAULT_DEPTH` (spec/43_term_strategies.md R400). -/
def referenceDepth : DepthTable :=
  { lit := (List.range 256).map (fun b => (if b ≤ 143 then 8 else 9) * 2 ^ referenceFracBits)
    eob := 7 * 2 ^ referenceFracBits
    run := (List.range 256).map (fun k => referenceRunDepth (k + 3) * 2 ^ referenceFracBits)
    dist := (List.range 30).map (fun k => (5 + extraBits .dist k) * 2 ^ referenceFracBits) }

/-- The reference assignment of the OPEN parameters (spec/92_eei_decisions.md, table of OPEN parameters). -/
def referenceParams : Params :=
  { levelTable := referenceLevel
    hash := fun key => key.toNat
    defaultDepth := referenceDepth
    fracBits := referenceFracBits
    graphCeiling := 32768
    blockTerms := 16384
    build := referenceBuild }

end Sys2Proof.Machine
end

