-- ==== Sys2Proof/Machine/Huffman.lean ====
section
/-! DEFINITION. Canonical codes, encode and decode tables, and the commands `HF.*` (spec/41_huffman.md). -/

namespace Sys2Proof.Machine

/-! ## Canonical codewords (R277) -/

/-- `bl_count[l]`, with `bl_count[0] = 0` (spec/41_huffman.md R277). -/
def blCount (lens : List Nat) (l : Nat) : Nat := if l = 0 then 0 else lens.count l

/-- `next[l], next[l+1], ...` for `k` lengths, from `next[l]` (spec/41_huffman.md R277). -/
def nextFrom (lens : List Nat) : Nat → Nat → Nat → List Nat
  | 0, _, _ => []
  | k + 1, l, code => code :: nextFrom lens k (l + 1) ((code + blCount lens l) * 2)

/-- `next[0..15]` before any symbol is numbered; `next[0]` is not used (spec/41_huffman.md R277). -/
def nextCodes (lens : List Nat) : List Nat := 0 :: nextFrom lens 15 1 0

/-- The numbering loop: each symbol with a code takes `next` of its length and advances it (spec/41_huffman.md R277). A symbol of
length 0 gets the code 0, which the rule does not assign (DESIGN CHOICE, safe: log entry 31). -/
def numberCodes : List Nat → List Nat → List Nat
  | [], _ => []
  | l :: rest, next =>
    if l = 0 then 0 :: numberCodes rest next
    else next.getD l 0 :: numberCodes rest (next.set l (next.getD l 0 + 1))

/-- `code[s]` of every symbol with a code (spec/41_huffman.md R277); of a symbol of length 0, to which the rule assigns none, 0
(DESIGN CHOICE, safe: log entry 31). -/
def canonicalCodes (lens : List Nat) : List Nat := numberCodes lens (nextCodes lens)

/-! ## Verdicts (R282, R283) -/

/-- The verdict of a set of code lengths (spec/41_huffman.md R283). -/
def verdictOf (lens : List Nat) : Verdict :=
  if lens.all (fun l => l == 0) then .empty
  else if 2 ^ 15 < kraft lens then .oversubscribed
  else if kraft lens = 2 ^ 15 then .complete
  else if lens.filter (fun l => l != 0) = [1] then .degenerate
  else .incomplete

/-- Complete or degenerate: every code in use has a codeword (spec/41_huffman.md R280, R283). -/
def Verdict.sound : Verdict → Bool
  | .complete | .degenerate => true
  | .empty | .incomplete | .oversubscribed => false

/-- A usable decode table: complete or degenerate, and for the distance table also empty (spec/41_huffman.md R283). -/
def usableFor (t : Table) (v : Verdict) : Bool := v.sound || (t == .dist && v == .empty)

/-! ## Tables -/

/-- The encode entries of a set of code lengths (spec/41_huffman.md R278). -/
def encEntries (t : Table) (lens codes : List Nat) : List EncEntry :=
  (lens.zip codes).zipIdx.map (fun p => { code := p.1.2, len := p.1.1, extra := extraBits t p.2 })

/-- The encode table loaded from code lengths (spec/41_huffman.md R280): codes when the lengths are sound, else code 0 and
marked unusable. -/
def EncTable.load (t : Table) (lens : List Nat) : EncTable :=
  if (verdictOf lens).sound then
    { isOpen := true, usable := true, entries := encEntries t lens (canonicalCodes lens) }
  else { isOpen := true, usable := false, entries := encEntries t lens (lens.map (fun _ => 0)) }

/-- The decode table loaded from code lengths (spec/41_huffman.md R280, R283). -/
def DecTable.load (lens : List Nat) : DecTable := { isOpen := true, lens := lens, verdict := verdictOf lens }

/-- The encode table of a selector. -/
def EncTables.get (e : EncTables) : Table → EncTable
  | .runLit => e.runLit
  | .dist => e.dist
  | .metasym => e.metasym

/-- Replace one encode table. -/
def EncTables.put (e : EncTables) (t : Table) (x : EncTable) : EncTables :=
  match t with
  | .runLit => { e with runLit := x }
  | .dist => { e with dist := x }
  | .metasym => { e with metasym := x }

/-- The decode table of a selector. -/
def DecTables.get (e : DecTables) : Table → DecTable
  | .runLit => e.runLit
  | .dist => e.dist
  | .metasym => e.metasym

/-- Replace one decode table. -/
def DecTables.put (e : DecTables) (t : Table) (x : DecTable) : DecTables :=
  match t with
  | .runLit => { e with runLit := x }
  | .dist => { e with dist := x }
  | .metasym => { e with metasym := x }

/-- Every length 0: an encode table after `C.NEW`, open and unusable (spec/70_reset_and_hazards.md R641, R643); its codes are
those of no lengths, 0 (log entry 31). -/
def EncTable.cleared (t : Table) : EncTable := EncTable.load t (List.replicate t.size 0)

/-- Every length 0, verdict `empty`: a decode table after `D.NEW`, open (spec/70_reset_and_hazards.md R641, R644). -/
def DecTable.cleared (t : Table) : DecTable := DecTable.load (List.replicate t.size 0)

/-! ## Decoding a symbol (R284, R287) -/

/-- Whether the table holds the length of every symbol, each of which decoding may read (spec/20_memory.md R100, spec/41_huffman.md
R287). -/
def DecTable.holds (t : Table) (x : DecTable) : Bool := decide (t.size ≤ x.lens.length)

/-- The first symbol, counting from `s`, with code length `l` and codeword `c` (spec/41_huffman.md R287). -/
def findCode (l c : Nat) : Nat → List Nat → List Nat → Option Nat
  | s, len :: lens, code :: codes => if len = l ∧ code = c then some s else findCode l c (s + 1) lens codes
  | _, _, _ => none

/-- Lengths `l`, `l+1`, ... for `k` lengths: `c` is the codeword of the first `l - 1` stream bits, `peek` the bits after them
(spec/41_huffman.md R287). -/
def searchCode (lens codes : List Nat) : Nat → Nat → Nat → Nat → Option (Nat × Nat)
  | 0, _, _, _ => none
  | k + 1, l, c, peek =>
    let c' := 2 * c + peek % 2
    match findCode l c' 0 lens codes with
    | some s => some (s, l)
    | none => searchCode lens codes k (l + 1) c' (peek / 2)

/-- The largest code length of a table (spec/41_huffman.md R284). -/
def maxLen (lens : List Nat) : Nat := lens.foldl max 0

/-- What decoding answers: a symbol and its length, no codeword, or not enough bits. -/
inductive Decoded where
  | symbol (s l : Nat)
  | noCode
  | needInput
deriving DecidableEq, Repr

/-- Decoding one symbol from `avail` valid bits of `peek` by a usable table (spec/41_huffman.md R284, R287). -/
def decodeSymbol (t : DecTable) (avail peek : Nat) : Decoded :=
  if t.verdict = .empty then .noCode
  else
    let m := maxLen t.lens
    match searchCode t.lens (canonicalCodes t.lens) (min avail m) 1 0 peek with
    | some (s, l) => .symbol s l
    | none => if m ≤ avail then .noCode else .needInput

/-! ## The commands -/

/-- `HF.BUILD` over an assignment of the parameters (spec/41_huffman.md R270). -/
def hfBuild (P : Params) (maxlen : BitVec 4) (freqs : List Word) (s : State) : Run State := do
  let fs := freqs.map BitVec.toNat
  refuseIf (maxlen == 0 || fs.isEmpty || decide (288 < fs.length)
    || decide (2 ^ maxlen.toNat < max (usedCount fs) 2)) .operand
  let lens := P.build fs maxlen.toNat
  pure (s.answer .ok [word (maxLen lens)] (lens.map (BitVec.ofNat 8)))

/-- `HF.BUILD` (spec/41_huffman.md R270). -/
def execHfBuild (maxlen : BitVec 4) (freqs : List Word) (s : State) : Host.Outcome State Fault Refusal :=
  s.finish (hfBuild referenceParams maxlen freqs s)

/-- `HF.LOAD` (spec/41_huffman.md R280): both tables of the selector are loaded and opened. -/
def execHfLoad (t : BitVec 2) (lengths : List Byte) (s : State) : Host.Outcome State Fault Refusal :=
  s.finish do
    let tbl ← tableOf t
    refuseIf (decide (tbl.size < lengths.length) || lengths.any (fun b => decide (15 < b.toNat))) .operand
    let lens := padTo tbl.size (lengths.map BitVec.toNat)
    pure ({ s with
      dec := s.dec.put tbl (DecTable.load lens), enc := s.enc.put tbl (EncTable.load tbl lens), d := s.d.touched
      }.answer .ok [(verdictOf lens).code] [])

/-- `HF.ENCODE` (spec/41_huffman.md R286). -/
def execHfEncode (t : BitVec 2) (sym : BitVec 9) (s : State) : Host.Outcome State Fault Refusal :=
  s.finish do
    let tbl ← tableOf t
    refuseIf (decide (tbl.size ≤ sym.toNat)) .operand
    refuseIf (!(s.enc.get tbl).isOpen) .noInstance
    refuseIf (!(s.enc.get tbl).usable) .table
    let e ← written .enc (s.enc.get tbl).entries[sym.toNat]?
    if e.len = 0 then pure (s.answer .noResult [] [])
    else pure (s.answer .ok [word (revBits e.len e.code + e.len * 2 ^ 16 + e.extra * 2 ^ 24), word e.code] [])

/-- `HF.DECODE` (spec/41_huffman.md R287). -/
def execHfDecode (t : BitVec 2) (avail : BitVec 5) (peek : Word) (s : State) : Host.Outcome State Fault Refusal :=
  s.finish do
    let tbl ← tableOf t
    refuseIf (decide (16 < avail.toNat)) .operand
    refuseIf (!(s.dec.get tbl).isOpen) .noInstance
    refuseIf ((s.dec.get tbl).verdict != .empty && !usableFor tbl (s.dec.get tbl).verdict) .table
    faultIf (!(s.dec.get tbl).holds tbl) .dec
    match decodeSymbol (s.dec.get tbl) avail.toNat peek.toNat with
    | .symbol sym l => pure (s.answer .ok [word (sym + l * 2 ^ 16)] [])
    | .noCode => pure (s.answer .noResult [] [])
    | .needInput => pure (s.answer .needInput [] [])

end Sys2Proof.Machine
end

