-- ==== Sys2Proof/Machine/Window.lean ====
section
/-! DEFINITION. The sliding window and the hash-chain match finder (spec/42_match_finder.md): `WN.*`. Positions are absolute
(spec/10_state.md R45); the bytes compared are those of `WN_IN` (R327, spec/20_memory.md R101). -/

namespace Sys2Proof.Machine

/-- `W`, the window size in bytes (spec/00_scope.md R7). -/
def Window.size (w : Window) : Nat := 2 ^ w.exp.toNat

/-- `MAX_DISTANCE` (spec/00_scope.md R7). -/
def Window.maxDistance (w : Window) : Nat := w.size

/-- An empty, open window of `2^e` bytes (spec/42_match_finder.md R320). -/
def Window.init (e : BitVec 4) : Window :=
  { isOpen := true, exp := e, bytes := [], inserted := 0, r := 0, head := [], next := [], input := [], last := none }

/-- Append lookahead bytes (spec/42_match_finder.md R323). -/
def Window.feed (w : Window) (bytes : List Byte) : Window := { w with input := w.input ++ bytes }

/-- The head that the next key sees: none when it is out of reach (spec/42_match_finder.md R324, R326). -/
def reachable (maxDistance s : Nat) : Option Nat → Option Nat
  | some p => if maxDistance < s - p then none else some p
  | none => none

/-- The insertion of the next byte, before any key is formed: the lookahead, the slot, the rolling register, the count
(spec/42_match_finder.md R324). -/
def Window.shiftIn (w : Window) (b : Byte) : Window :=
  { w with
    input := if w.inserted = w.input.length then w.input ++ [b] else w.input
    bytes := w.bytes.write (w.q.toNat % w.size) b
    r := (w.r <<< 8) ||| b.setWidth 32
    inserted := w.inserted + 1 }

/-- Link the key of position `s` into its chain (spec/42_match_finder.md R324). -/
def Window.link (P : Params) (w : Window) (s : Nat) : Window :=
  let prev := reachable w.maxDistance s (w.head.get (P.hash w.r))
  { w with
    next := w.next.set s prev
    head := w.head.set (P.hash w.r) (some s)
    last := some (s, prev) }

/-- `WN.UPDATE` on the window (spec/42_match_finder.md R324). -/
def Window.update (P : Params) (w : Window) (b : Byte) : Run Window := do
  refuseIf (decide (w.inserted < w.input.length) && w.input[w.inserted]? != some b) .operand
  let w := w.shiftIn b
  if w.inserted < 4 then pure w else pure (w.link P (w.inserted - 4))

/-- How many leading bytes of two suffixes of `WN_IN` agree, up to `limit` (the inner loop of spec/42_match_finder.md R327);
running off the end of either is a read of an unwritten unit. -/
def runLength : Nat → List Byte → List Byte → Run Nat
  | 0, _, _ => pure 0
  | limit + 1, a :: as, b :: bs =>
    if a = b then do
      let r ← runLength limit as bs
      pure (r + 1)
    else pure 0
  | _ + 1, _, _ => .error (.fault (.unwrittenUnit .win))

/-- The chain walk: the candidates visited, each as (run, distance) (spec/42_match_finder.md R327). It recurses on the
attempts left. -/
def Window.walk (w : Window) (s limit goal : Nat) : Nat → Option Nat → Run (List (Nat × Nat))
  | tries + 1, some c => do
    if w.maxDistance < s - c then pure []
    else
      let r ← runLength limit (w.input.drop c) (w.input.drop s)
      if goal ≤ r then pure [(r, s - c)]
      else
        let rest ← Window.walk w s limit goal tries (w.next.get c)
        pure ((r, s - c) :: rest)
  | _, _ => pure []

/-- The candidates at the last key, after the checks both searches make: none when there is no key yet
(spec/42_match_finder.md R330, R332). -/
def Window.candidates (w : Window) (lookahead attempts goal : Nat) : Run (Option (List (Nat × Nat))) :=
  match w.last with
  | none => pure none
  | some (s, head) => do
    refuseIf (decide (w.input.length - s < lookahead)) .operand
    let found ← w.walk s (min maxRun lookahead) goal attempts head
    pure (some found)

/-- Of two (run, distance) pairs the first, unless the second has a strictly longer run (spec/42_match_finder.md R330). -/
def longer (best cand : Nat × Nat) : Nat × Nat := if best.1 < cand.1 then cand else best

/-- `WN.MATCH` on the window: the longest run of at least `MIN_MATCH_EMIT` (spec/42_match_finder.md R330). -/
def Window.findMatch (w : Window) (lookahead attempts goal : Nat) : Run (Option (Nat × Nat)) := do
  match ← w.candidates lookahead attempts goal with
  | none => pure none
  | some found =>
    let best := found.foldl longer (0, 0)
    if best.1 < minMatchEmit then pure none else pure (some best)

/-- The decade of each candidate; a distance that no decade holds cannot be reported (spec/42_match_finder.md R331). -/
def withDecades (found : List (Nat × Nat)) : Run (List (Nat × (Nat × Nat))) :=
  found.mapM (fun c => do
    let k ← written .win (distSymbol c.2)
    pure (k.1, c))

/-- `WN.MATCHD` on the window: per distance decade 0..29 the longest run, (0, 0) where there is none; none when there is no key
yet (spec/42_match_finder.md R332). Runs of 1 to 4 are reported, no `MIN_MATCH_EMIT` filter: R332 and V-WN-4 say so and
spec/43_term_strategies.md R392 and R404 build on it, where spec/90_conflicts.md C1 names `WN.MATCHD` with `WN.MATCH` as reporting
runs of at least 5 only (DESIGN CHOICE, unsafe: log entry 29). -/
def Window.findPerDecade (w : Window) (lookahead attempts goal : Nat) : Run (Option (List (Nat × Nat))) := do
  match ← w.candidates lookahead attempts goal with
  | none => pure none
  | some found =>
    let tagged ← withDecades found
    pure (some ((List.range 30).map (fun k =>
      (tagged.filter (fun c => c.1 == k)).foldl (fun best c => longer best c.2) (0, 0))))

/-! ## The commands -/

/-- `WN.INIT` (spec/42_match_finder.md R320). -/
def execWnInit (exp : BitVec 4) (s : State) : Host.Outcome State Fault Refusal :=
  s.finish do
    refuseIf (decide (exp.toNat < 8)) .operand
    pure ({ s with wn := Window.init exp }.answer .ok [] [])

/-- `WN.UPDATE` over an assignment of the parameters (spec/42_match_finder.md R324). -/
def wnUpdate (P : Params) (byte : Byte) (s : State) : Run State := do
  refuseIf (!s.wn.isOpen) .noInstance
  let w ← s.wn.update P byte
  let t := { s with wn := w }
  if w.inserted < 4 then pure (t.answer .noResult [] [])
  else
    match w.last with
    | none => pure (t.answer .noResult [] [])
    | some (p, prev) => pure (t.answer .ok [slotWord w.size (some p), slotWord w.size prev, word p] [])

/-- `WN.UPDATE` (spec/42_match_finder.md R324). -/
def execWnUpdate (byte : Byte) (s : State) : Host.Outcome State Fault Refusal :=
  s.finish (wnUpdate referenceParams byte s)

/-- `WN.MATCH` (spec/42_match_finder.md R330). -/
def execWnMatch (lookahead attempts goal : Word) (s : State) : Host.Outcome State Fault Refusal :=
  s.finish do
    refuseIf (!s.wn.isOpen) .noInstance
    match ← s.wn.findMatch lookahead.toNat attempts.toNat goal.toNat with
    | none => pure (s.answer .noResult [] [])
    | some (run, dist) => pure (s.answer .ok [word run, word dist] [])

/-- `WN.MATCHD` (spec/42_match_finder.md R332; runs below 5: log entry 29). -/
def execWnMatchd (lookahead attempts goal : Word) (s : State) : Host.Outcome State Fault Refusal :=
  s.finish do
    refuseIf (!s.wn.isOpen) .noInstance
    match ← s.wn.findPerDecade lookahead.toNat attempts.toNat goal.toNat with
    | none => pure (s.answer .noResult (List.replicate 30 0) [])
    | some best => pure (s.answer .ok (best.map (fun b => word (b.1 + b.2 * 2 ^ 16))) [])

/-- `WN.FEED` (spec/42_match_finder.md R323). -/
def execWnFeed (bytes : List Byte) (s : State) : Host.Outcome State Fault Refusal :=
  s.finish do
    refuseIf (!s.wn.isOpen) .noInstance
    pure ({ s with wn := s.wn.feed bytes }.answer .ok [] [])

end Sys2Proof.Machine
end

