-- ==== Sys2Proof/Machine/Terms.lean ====
section
/-! DEFINITION. Terms and the three search strategies (spec/43_term_strategies.md): `TM.*`. -/

namespace Sys2Proof.Machine

/-! ## Window feeding (R374 to R376) -/

/-- `n` turns of the loop of `Insert`: each inserts `C_IN[WN_Q]` (spec/43_term_strategies.md R374). -/
def insertLoop (P : Params) (input : List Byte) : Nat → Window → Run Window
  | 0, w => pure w
  | n + 1, w => do
    let b ← written .win input[w.inserted]?
    let w ← w.update P b
    insertLoop P input n w

/-- `Insert(s)`: bring the window up to the key of position `s`; every turn advances `WN_Q` by one, so the number of turns is
the distance to `min(len(C_IN), s + 4)` (spec/43_term_strategies.md R374). -/
def insertTo (P : Params) (input : List Byte) (s : Nat) (w : Window) : Run Window :=
  insertLoop P input (min input.length (s + 4) - w.inserted) w

/-- `Find(s)` and the window after it (spec/43_term_strategies.md R375). -/
def findAt (P : Params) (c : Compressor) (s : Nat) (w : Window) : Run (Option (Nat × Nat) × Window) :=
  if c.input.length < s + 4 then pure (none, w)
  else do
    let w ← insertTo P c.input s w
    let m ← w.findMatch (c.input.length - s) c.cfg.attempts.toNat c.cfg.goal.toNat
    pure (m, w)

/-! ## Greedy and lazy (R380 to R385) -/

/-- Whether position `s` may be parsed: the lookahead rule (spec/43_term_strategies.md R376). -/
def lookaheadReady (c : Compressor) (s : Nat) : Bool := decide (lookaheadMin ≤ c.input.length - s) || c.last

/-- The terms of one greedy or lazy step at `s`, given the byte there, and the window after it (spec/43_term_strategies.md
R380 to R382). -/
def parseAt (P : Params) (c : Compressor) (s : Nat) (b : Byte) (w : Window) : Run (List Term × Window) := do
  let (m0, w) ← findAt P c s w
  match m0 with
  | none => pure ([.lit b], w)
  | some (r0, d0) =>
    if c.cfg.strategy = .lazy ∧ s + 1 < c.input.length then
      let (m1, w) ← findAt P c (s + 1) w
      match m1 with
      | none => pure ([.copy r0 d0], w)
      | some (r1, d1) => if r0 < r1 then pure ([.lit b, .copy r1 d1], w) else pure ([.copy r0 d0], w)
    else pure ([.copy r0 d0], w)

/-- The bytes a list of terms covers. -/
def coversAll (terms : List Term) : Nat := (terms.map Term.covers).sum

/-- Commit the terms of a step: `TV`, `C_PARSED`, `C_TERMS_BYTES` (spec/43_term_strategies.md R380). -/
def State.commitTerms (s : State) (new : List Term) (w : Window) : State :=
  { s with
    tv := s.tv ++ new, wn := w
    c := { s.c with parsed := s.c.parsed + coversAll new, termsBytes := s.c.termsBytes + coversAll new } }

/-- The parse of one step, once the input and the lookahead are known to be there: the state and the terms added
(spec/43_term_strategies.md R380). -/
def parseStep (P : Params) (s : State) : Run (State × List Term) := do
  let b ← written .win s.c.input[s.c.parsed]?
  let (new, w) ← parseAt P s.c s.c.parsed b s.wn
  pure (s.commitTerms new w, new)

/-- `TM.STEP` over an assignment of the parameters (spec/43_term_strategies.md R380). -/
def tmStep (P : Params) (s : State) : Run State := do
  refuseIf (!s.c.isOpen) .noInstance
  refuseIf (s.c.cfg.strategy == .full) .operand
  if s.c.input.length ≤ s.c.parsed then pure (s.answer .noResult [] [])
  else if !lookaheadReady s.c s.c.parsed then pure (s.answer .needInput [] [])
  else do
    let (t, new) ← parseStep P s
    pure (t.answer .ok (word new.length :: new.map Term.word) [])

/-- `TM.STEP` (spec/43_term_strategies.md R380). -/
def execTmStep (s : State) : Host.Outcome State Fault Refusal := s.finish (tmStep referenceParams s)

/-! ## `TM.MAP` (R372) -/

/-- `TM.MAP` (spec/43_term_strategies.md R372). -/
def execTmMap (term : Word) (s : State) : Host.Outcome State Fault Refusal :=
  s.finish do
    match (termOfWord term).bind Term.codes with
    | none => refuse .operand
    | some k =>
      match k.dist with
      | none => pure (s.answer .ok [word k.sym, word (k.extra + k.value * 2 ^ 8), 0xFFFFFFFF, 0] [])
      | some (d, eD, vD) =>
        pure (s.answer .ok [word k.sym, word (k.extra + k.value * 2 ^ 8), word d, word (eD + vD * 2 ^ 8)] [])

/-! ## The match graph (R390 to R394) -/

/-- `C_LIMIT` after `k` graphs (spec/10_state.md R42). -/
def limitAfter (P : Params) (k : Nat) : Nat := min (graphLimit0 * 2 ^ k) P.graphCeiling

/-- The edges of a vertex from the longest runs per decade: those of 3 bytes or more (spec/43_term_strategies.md R392). -/
def edgesOf (best : List (Nat × Nat)) : List (Option Edge) :=
  best.map (fun b => if minRun ≤ b.1 then some { run := b.1, dist := b.2 } else none)

/-- A vertex with the literal edge only. -/
def noEdges : List (Option Edge) := List.replicate 30 none

/-- The edges of the vertex at position `p`, with `room = n - i` bytes up to the sink, and the window after it
(spec/43_term_strategies.md R392). -/
def edgesAt (P : Params) (c : Compressor) (p room : Nat) (w : Window) : Run (List (Option Edge) × Window) :=
  if c.input.length < p + 4 then pure (noEdges, w)
  else do
    let w ← insertTo P c.input p w
    match ← w.findPerDecade (min maxRun room) c.cfg.attempts.toNat c.cfg.goal.toNat with
    | none => pure (noEdges, w)
    | some best => pure (edgesOf best, w)

/-- The vertices of the last `k` positions of a graph, from position `p` on, and the window after them
(spec/43_term_strategies.md R392). -/
def graphLoop (P : Params) (c : Compressor) : Nat → Nat → Window → Run (List Vertex × Window)
  | 0, _, w => pure ([], w)
  | k + 1, p, w => do
    let b ← written .win c.input[p]?
    let (edges, w) ← edgesAt P c p (k + 1) w
    let (rest, w) ← graphLoop P c k (p + 1) w
    pure ({ lit := b, edges := edges } :: rest, w)

/-- `COST` before a sweep over `n` bytes: 0 at the source, infinity elsewhere (spec/43_term_strategies.md R392, R396). -/
def costStart (n : Nat) : List (Option Nat) := some 0 :: List.replicate n none

/-- `BACK` before a sweep over `n` bytes (spec/43_term_strategies.md R392, R396). -/
def backStart (n : Nat) : List (Option (Nat × Term)) := List.replicate (n + 1) none

/-- The graph of the next `n` bytes built, and the position moved past them (spec/43_term_strategies.md R392). -/
def buildGraph (P : Params) (n : Nat) (s : State) : Run State := do
  let (vertices, w) ← graphLoop P s.c n s.c.parsed s.wn
  pure { s with
    wn := w
    mg := { n := n, vertices := vertices, cost := costStart n, back := backStart n }
    c := { s.c with
      parsed := s.c.parsed + n, graphs := s.c.graphs + 1, limit := limitAfter P (s.c.graphs + 1) } }

/-- `TM.GRAPH` on an open compressor: `n` checked against the capacity and the input, the graph built (spec/43_term_strategies.md
R392). -/
def graphOver (P : Params) (n : Nat) (s : State) : Run State := do
  refuseIf (decide (n = 0) || decide (s.c.limit < n) || decide (s.c.input.length < s.c.parsed + n)) .operand
  buildGraph P n s

/-- `TM.GRAPH` over an assignment of the parameters (spec/43_term_strategies.md R392). The checks are made in
the order of its pseudocode: the context, then `n` (DEDUCED, log entry 4). -/
def tmGraph (P : Params) (n : BitVec 24) (s : State) : Run State := do
  refuseIf (!s.c.isOpen) .noInstance
  let t ← graphOver P n.toNat s
  pure (t.answer .ok [] [])

/-- `TM.GRAPH` (spec/43_term_strategies.md R392). -/
def execTmGraph (n : BitVec 24) (s : State) : Host.Outcome State Fault Refusal := s.finish (tmGraph referenceParams n s)

/-! ## The sweep and the refinement (R396 to R403) -/

/-- `COST` and `BACK` during a sweep. -/
structure Sweep where
  cost : List (Option Nat)
  back : List (Option (Nat × Term))
deriving DecidableEq, Repr

/-- Whether cost `c` is strictly less than an entry of `COST`, `none` being infinity (spec/43_term_strategies.md R394). -/
def cheaper (c : Nat) : Option Nat → Bool
  | none => true
  | some d => decide (c < d)

/-- `Relax(i, j, c, t)` (spec/43_term_strategies.md R396). -/
def Sweep.relax (w : Sweep) (i j c : Nat) (t : Term) : Run Sweep := do
  let old ← written .mgmem w.cost[j]?
  if cheaper c old then pure { cost := w.cost.set j (some c), back := w.back.set j (some (i, t)) } else pure w

/-- The cost of a match of `k` bytes whose distance is in decade `dec` (spec/43_term_strategies.md R394). -/
def matchCost (dt : DepthTable) (k dec : Nat) : Run Nat := do
  let r ← written .dtmem dt.run[k - 3]?
  let d ← written .dtmem dt.dist[dec]?
  pure (r + d)

/-- The match edges of one decade at vertex `i`: runs `k`, `k+1`, ... for `n` of them (spec/43_term_strategies.md R393,
R396). -/
def relaxRuns (dt : DepthTable) (i base dec dist : Nat) : Nat → Nat → Sweep → Run Sweep
  | 0, _, w => pure w
  | n + 1, k, w => do
    let c ← matchCost dt k dec
    let w ← w.relax i (i + k) (base + c) (.copy k dist)
    relaxRuns dt i base dec dist n (k + 1) w

/-- The decades of vertex `i`, ascending from `dec` (spec/43_term_strategies.md R396). -/
def relaxDecades (dt : DepthTable) (i base : Nat) : Nat → List (Option Edge) → Sweep → Run Sweep
  | _, [], w => pure w
  | dec, none :: rest, w => relaxDecades dt i base (dec + 1) rest w
  | dec, some e :: rest, w => do
    let w ← relaxRuns dt i base dec e.dist (e.run - 2) 3 w
    relaxDecades dt i base (dec + 1) rest w

/-- `explore(from: i)` for the vertices from `i` on (spec/43_term_strategies.md R396). An edge from a vertex of infinite
cost relaxes nothing. -/
def exploreFrom (dt : DepthTable) : Nat → List Vertex → Sweep → Run Sweep
  | _, [], w => pure w
  | i, v :: rest, w => do
    let here ← written .mgmem w.cost[i]?
    match here with
    | none => exploreFrom dt (i + 1) rest w
    | some base =>
      let l ← written .dtmem dt.lit[v.lit.toNat]?
      let w ← w.relax i (i + 1) (base + l) (.lit v.lit)
      let w ← relaxDecades dt i base 0 v.edges w
      exploreFrom dt (i + 1) rest w

/-- `Path()`, from `j` back to the source: the terms met before are in `after` (spec/43_term_strategies.md R398). Each turn goes
to a smaller vertex, so `j` turns are enough. -/
def pathLoop (back : List (Option (Nat × Term))) : Nat → Nat → List Term → Run (List Term)
  | _, 0, after => pure after
  | 0, _ + 1, _ => .error (.fault .loopBound)
  | fuel + 1, j + 1, after => do
    let entry ← written .mgmem back[j + 1]?
    let (i, t) ← written .mgmem entry
    pathLoop back fuel i (t :: after)

/-- `Path()` (spec/43_term_strategies.md R398). -/
def pathTerms (n : Nat) (back : List (Option (Nat × Term))) : Run (List Term) := pathLoop back n n []

/-- The symbols of every term; a term no decade holds cannot be coded. -/
def codesOf (terms : List Term) : Run (List TermCodes) := terms.mapM (fun t => written .tvmem t.codes)

/-- `fL`: how often each run-literal symbol 0..285 is used, the EOB at least once (spec/44_block_writer.md R431). -/
def runLitFreqs (codes : List TermCodes) : List Nat :=
  let syms := codes.map TermCodes.sym
  (List.range 286).map (fun s => if s = 256 then max (syms.count 256) 1 else syms.count s)

/-- `fD`: how often each distance symbol 0..29 is used (spec/44_block_writer.md R431). -/
def distFreqs (codes : List TermCodes) : List Nat :=
  let syms := codes.filterMap (fun k => k.dist.map (fun d => d.1))
  (List.range 30).map (fun s => syms.count s)

/-- A refined entry: the new length and extra bits where the symbol is used, else the old value
(spec/43_term_strategies.md R399). -/
def refineEntry (P : Params) (freqs lens : List Nat) (t : Table) (sym old : Nat) : Nat :=
  if 0 < freqs.getD sym 0 then (lens.getD sym 0 + extraBits t sym) * 2 ^ P.fracBits else old

/-- The run-literal symbol of run length `run`, as a number (every run 3..258 has one). -/
def runSymbolNat (run : Nat) : Nat := ((runSymbol run).map Prod.fst).getD 0

/-- `Refine(terms)` (spec/43_term_strategies.md R399). -/
def refineDepths (P : Params) (codes : List TermCodes) (dt : DepthTable) : DepthTable :=
  let fL := runLitFreqs codes
  let fD := distFreqs codes
  let lL := P.build fL 15
  let lD := P.build fD 15
  { lit := dt.lit.zipIdx.map (fun p => refineEntry P fL lL .runLit p.2 p.1)
    eob := refineEntry P fL lL .runLit 256 dt.eob
    run := dt.run.zipIdx.map (fun p => refineEntry P fL lL .runLit (runSymbolNat (p.2 + 3)) p.1)
    dist := dt.dist.zipIdx.map (fun p => refineEntry P fD lD .dist p.2 p.1) }

/-- One sweep, the path it gives as `TV`, and the refined depth table; the terms and the cost of the sink
(spec/43_term_strategies.md R396). -/
def minimizeOnce (P : Params) (s : State) : Run (State × List Term × Nat) := do
  let n := s.mg.n
  let w ← exploreFrom s.dt 0 s.mg.vertices { cost := costStart n, back := backStart n }
  let terms ← pathTerms n w.back
  let codes ← codesOf terms
  let sink ← written .mgmem w.cost[n]?
  let total ← written .mgmem sink
  pure ({ s with
    mg := { s.mg with cost := w.cost, back := w.back }
    tv := terms
    dt := refineDepths P codes s.dt
    c := { s.c with termsBytes := n } }, terms, total)

/-- `TM.MINIMIZE` over an assignment of the parameters (spec/43_term_strategies.md R396). -/
def tmMinimize (P : Params) (s : State) : Run State := do
  refuseIf (!s.c.isOpen || decide (s.mg.n = 0)) .noInstance
  let (t, terms, total) ← minimizeOnce P s
  pure (t.answer .ok [word terms.length, word total] [])

/-- `TM.MINIMIZE` (spec/43_term_strategies.md R396). -/
def execTmMinimize (s : State) : Host.Outcome State Fault Refusal := s.finish (tmMinimize referenceParams s)

/-- The midpoint of two entries, rounded down (spec/43_term_strategies.md R402). -/
def midpoint (x y : Nat) : Nat := (x + y) / 2

/-- The depth table blended toward the defaults (spec/43_term_strategies.md R402). -/
def blendDepths (P : Params) (dt : DepthTable) : DepthTable :=
  { lit := List.zipWith midpoint dt.lit P.defaultDepth.lit
    eob := midpoint dt.eob P.defaultDepth.eob
    run := List.zipWith midpoint dt.run P.defaultDepth.run
    dist := List.zipWith midpoint dt.dist P.defaultDepth.dist }

/-- The state with its depth table blended (spec/43_term_strategies.md R402). -/
def State.generalize (P : Params) (s : State) : State := { s with dt := blendDepths P s.dt }

/-- `TM.GENERALIZE` over an assignment of the parameters (spec/43_term_strategies.md R402). -/
def tmGeneralize (P : Params) (s : State) : Run State := do
  refuseIf (!s.c.isOpen) .noInstance
  pure ((s.generalize P).answer .ok [] [])

/-- `TM.GENERALIZE` (spec/43_term_strategies.md R402). -/
def execTmGeneralize (s : State) : Host.Outcome State Fault Refusal := s.finish (tmGeneralize referenceParams s)

end Sys2Proof.Machine
end

