-- ==== Sys2Proof/Machine/Writer.lean ====
section
/-! DEFINITION. The block writer (spec/44_block_writer.md): `BW.*`. -/

namespace Sys2Proof.Machine

/-! ## The code-length sequence as metasymbols (R436) -/

/-- The maximal runs of equal values of a sequence, in order, as (value, length). -/
def runsOf : List Nat → List (Nat × Nat)
  | [] => []
  | v :: rest =>
    match runsOf rest with
    | (u, k) :: more => if u = v then (v, k + 1) :: more else (v, 1) :: (u, k) :: more
    | [] => [(v, 1)]

/-- A run of `r` zeros: repeats of at most 138 while 11 or more are left, then one of 3 to 10, then single zeros
(spec/44_block_writer.md R436). Each turn takes at least one, so `r` turns are enough. -/
def zeroRuns : Nat → Nat → List (Nat × Nat)
  | 0, r => List.replicate r (0, 0)
  | n + 1, r =>
    if 11 ≤ r then (18, min r 138 - 11) :: zeroRuns n (r - min r 138)
    else if 3 ≤ r then [(17, r - 3)]
    else List.replicate r (0, 0)

/-- `r` more of a nonzero length `v`: repeats of at most 6 while 3 or more are left, then single lengths
(spec/44_block_writer.md R436). -/
def repeatRuns (v : Nat) : Nat → Nat → List (Nat × Nat)
  | 0, r => List.replicate r (v, 0)
  | n + 1, r =>
    if 3 ≤ r then (16, min r 6 - 3) :: repeatRuns v n (r - min r 6)
    else List.replicate r (v, 0)

/-- `RLE(seq)` (spec/44_block_writer.md R436). -/
def rleOf (seq : List Nat) : List (Nat × Nat) :=
  (runsOf seq).flatMap (fun p =>
    if p.1 = 0 then zeroRuns p.2 p.2 else (p.1, 0) :: repeatRuns p.1 (p.2 - 1) (p.2 - 1))

/-- `fM` (spec/44_block_writer.md R437). -/
def metaFreqs (rle : List (Nat × Nat)) : List Nat :=
  (List.range 19).map (fun m => (rle.map Prod.fst).count m)

/-! ## The parts of a dynamic block -/

/-- What a dynamic block is made of: the three sets of code lengths, the counts and the coded length sequence
(spec/44_block_writer.md R430). -/
structure BlockPlan where
  lL   : List Nat
  lD   : List Nat
  hlit  : Nat
  hdist : Nat
  rle  : List (Nat × Nat)
  lM   : List Nat
  hclen : Nat
deriving DecidableEq, Repr

/-- The metasymbol lengths in the order they are sent (spec/44_block_writer.md R438). -/
def permuted (lM : List Nat) : List Nat := perm.map (fun m => lM.getD m 0)

/-- The plan of a block of terms (spec/44_block_writer.md R430 to R438). -/
def planBlock (P : Params) (codes : List TermCodes) : BlockPlan :=
  let lL := P.build (runLitFreqs codes) 15
  let lD := P.build (distFreqs codes) 15
  let hlit := max 257 (countToLast lL)
  let hdist := max 1 (countToLast lD)
  let rle := rleOf (padTo hlit lL ++ padTo hdist lD)
  let lM := P.build (metaFreqs rle) 7
  { lL := lL, lD := lD, hlit := hlit, hdist := hdist, rle := rle, lM := lM, hclen := max 4 (countToLast (permuted lM)) }

/-- The encode tables of a block (spec/44_block_writer.md R433). -/
def BlockPlan.tables (p : BlockPlan) : EncTables :=
  { runLit := EncTable.load .runLit (padTo 288 p.lL)
    dist := EncTable.load .dist (padTo 32 p.lD)
    metasym := EncTable.load .metasym (padTo 19 p.lM) }

/-- `Code(ENC_t, s)`: append the codeword, most significant bit first (spec/44_block_writer.md R430, spec/20_memory.md
R104). -/
def Sink.code (t : EncTable) (s : Nat) (k : Sink) : Run Sink := do
  let e ← written .enc t.entries[s]?
  pure (k.append (revBits e.len e.code) e.len)

/-- The header of a dynamic block (spec/44_block_writer.md R439). -/
def Sink.dynamicHeader (final : Bool) (p : BlockPlan) (k : Sink) : Sink :=
  let k := ((k.append final.toNat 1).append 2 2)
  let k := ((k.append (p.hlit - 257) 5).append (p.hdist - 1) 5).append (p.hclen - 4) 4
  ((permuted p.lM).take p.hclen).foldl (fun k l => k.append l 3) k

/-- The metasymbol stream (spec/44_block_writer.md R440). -/
def Sink.metaStream (t : EncTable) : List (Nat × Nat) → Sink → Run Sink
  | [], k => pure k
  | (m, x) :: rest, k => do
    let k ← k.code t m
    Sink.metaStream t rest (if 16 ≤ m then k.append x (metaExtra m) else k)

/-- `Token(t)` (spec/44_block_writer.md R441). -/
def Sink.token (e : EncTables) (t : TermCodes) (k : Sink) : Run Sink := do
  let k ← k.code e.runLit t.sym
  match t.dist with
  | none => pure k
  | some (d, eD, vD) => do
    let k ← (k.append t.value t.extra).code e.dist d
    pure (k.append vD eD)

/-- The tokens of a block, in order. -/
def Sink.tokens (e : EncTables) : List TermCodes → Sink → Run Sink
  | [], k => pure k
  | t :: rest, k => do
    let k ← k.token e t
    Sink.tokens e rest k

/-- `BW.DYNAMIC` on the compressor's units: the block written, the tables loaded, the terms taken (spec/44_block_writer.md
R430). -/
def writeDynamic (P : Params) (final : Bool) (s : State) : Run State := do
  let codes ← codesOf s.tv
  let p := planBlock P codes
  let e := p.tables
  let k ← (s.bs.dynamicHeader final p).metaStream e.metasym p.rle
  let k ← k.tokens e codes
  let k ← k.code e.runLit 256
  pure { s with
    enc := e, bs := k, tv := []
    c := { s.c with emitted := s.c.emitted + s.c.termsBytes, termsBytes := 0 } }

/-- `BW.DYNAMIC` over an assignment of the parameters (spec/44_block_writer.md R430). -/
def bwDynamic (P : Params) (final : Bool) (s : State) : Run State := do
  refuseIf (!s.c.isOpen) .noInstance
  let t ← writeDynamic P final s
  pure (t.answer .ok [] [])

/-- `BW.DYNAMIC` (spec/44_block_writer.md R430). -/
def execBwDynamic (final : Bool) (s : State) : Host.Outcome State Fault Refusal :=
  s.finish (bwDynamic referenceParams final s)

/-! ## Stored blocks -/

/-- `StoredBlock(bytes, last)` on the sink (spec/44_block_writer.md R448). -/
def Sink.stored (last : Bool) (bytes : List Byte) (k : Sink) : Sink :=
  let k := ((k.append last.toNat 1).append 0 2).pad
  let k := (k.append bytes.length 16).append (65535 - bytes.length) 16
  k.appendBytes (bytes.map BitVec.toNat)

/-- `BW.STORED` (spec/44_block_writer.md R448). The checks are made in the order of its
pseudocode: the sink, then the length (DEDUCED, log entry 4). -/
def execBwStored (last : Bool) (bytes : List Byte) (s : State) : Host.Outcome State Fault Refusal :=
  s.finish do
    refuseIf (!s.bs.isOpen) .noInstance
    refuseIf (decide (65535 < bytes.length)) .operand
    pure ({ s with bs := s.bs.stored last bytes }.answer .ok [] [])

/-- `FinalBlock()` (spec/44_block_writer.md R452): a tail of fewer than 3 bytes is stored, otherwise the terms are the last
dynamic block. -/
def finalBlock (P : Params) (s : State) : Run State :=
  if s.c.parsed - s.c.emitted < storedTail then
    pure { s with
      bs := s.bs.stored true ((s.c.input.take s.c.parsed).drop s.c.emitted), tv := []
      c := { s.c with termsBytes := 0, emitted := s.c.parsed } }
  else writeDynamic P true s

end Sys2Proof.Machine
end

