-- ==== Sys2Proof/Machine/Reader.lean ====
section
/-! DEFINITION. The block reader, the decompressor's state machine (spec/45_block_reader.md): `BR.STEP` and the steps. -/

namespace Sys2Proof.Machine

/-! ## The decompressor after its units were changed under it (R652) -/

/-- A decode table with the given lengths, of the table's size and each a code length, open or not as `isOpen` says
(spec/10_state.md R50). -/
def DecTable.shaped (t : Table) (lens : List Nat) (isOpen : Bool) : DecTable :=
  { DecTable.load ((padTo t.size lens).map (min 15)) with isOpen := isOpen }

/-- A byte memory with the given cells in canonical form, inside a space of `size` bytes (spec/20_memory.md R100, R101). -/
def Memory.shaped (size : Nat) (m : Memory) : Memory := m.foldl (fun acc c => acc.write (c.1 % size) c.2) []

/-- Registers of a decompressor brought to the values their rules let them hold: the counts zero or in their ranges
(spec/10_state.md R52), `D_TOTAL` the length of `D_OUT` and `D_DRAINED` at most that (R53), `HIST` within its slots
(spec/20_memory.md R100). -/
def Decompressor.shaped (d : Decompressor) : Decompressor :=
  { d with
    hlit := if 257 ≤ d.hlit ∧ d.hlit ≤ 286 then d.hlit else 0
    hdist := if d.hdist ≤ 30 then d.hdist else 0
    hclen := if 4 ≤ d.hclen ∧ d.hclen ≤ 19 then d.hclen else 0
    total := d.out.length, drained := min d.drained d.out.length, hist := Memory.shaped history d.hist }

/-- The answer of a decompressor command on a disturbed stream: free, within what the other rules fix: it may be a refusal
(spec/60_exceptions.md R607); `NEED_OUTPUT` is never returned (R609); `D_CFG` is written by `D.NEW` only (spec/10_state.md R35);
the registers keep their ranges (R52, R53), the cursor and the tables the form of R50 and R54; the compressor's side and the ports are not touched (R30); what is open
stays open (spec/70_reset_and_hazards.md R641). The stream stays disturbed until `D.NEW`. -/
def State.disturbedAnswer (s : State) : Run State :=
  let f := Config.disturbedReader s.free
  if f.status = .refused then Sys2Proof.Machine.refuse f.reason
  else
    pure { s with
      d := { f.d.shaped with
        state := if f.d.state = .closed then s.d.state else f.d.state, format := s.d.format, disturbed := true }
      bc := { Cursor.init f.bytes with isOpen := s.bc.isOpen, ptr := min f.ptr (8 * f.bytes.length) }
      dec := { runLit := DecTable.shaped .runLit f.runLit s.dec.runLit.isOpen
               dist := DecTable.shaped .dist f.dist s.dec.dist.isOpen
               metasym := DecTable.shaped .metasym f.metasym s.dec.metasym.isOpen }
      status := if f.status = .needOutput then .ok else f.status, res := f.res, dataOut := f.dataOut, free := s.free + 1 }

/-! ## Steps as transactions (R480 to R483) -/

/-- How a state step ends early: out of input, a decode error, a refusal or a model fault (spec/45_block_reader.md R481). -/
inductive Abort where
  | needInput
  | error (e : DecodeError)
  | refuse (r : Reason)
  | fault (f : Fault)
deriving DecidableEq, Repr

/-- A part of a state step. -/
abbrev Txn := Except Abort

/-- Raise a decode error when the condition holds (spec/00_scope.md R11). -/
def raiseIf (c : Bool) (e : DecodeError) : Txn Unit := if c then .error (.error e) else .ok ()

/-- `valid`, the number of input bits (spec/45_block_reader.md R480). -/
def Decompressor.valid (d : Decompressor) : Nat := 8 * d.input.length

/-- `Bits(n)`: the next `n` bits of the input, or the end of the step when they are not there (spec/45_block_reader.md R480,
R481). -/
def Decompressor.bits (d : Decompressor) (n : Nat) : Txn (Nat × Decompressor) :=
  if d.valid < d.cur + n then .error .needInput
  else .ok (bitsAt d.input d.cur n, { d with cur := d.cur + n })

/-- `Align()`: the cursor at the next multiple of 8 (spec/45_block_reader.md R480). The input ends at a multiple of 8, so no bit
beyond it is needed. -/
def Decompressor.align (d : Decompressor) : Decompressor := { d with cur := (d.cur + 7) / 8 * 8 }

/-- `n` fields of 8 bits, in order. -/
def Decompressor.byteFields (d : Decompressor) : Nat → Txn (List Nat × Decompressor)
  | 0 => .ok ([], d)
  | n + 1 => do
    let (x, d) ← d.bits 8
    let (xs, d) ← d.byteFields n
    pure (x :: xs, d)

/-- What decoding by a table answers at a cursor position (spec/45_block_reader.md R483). -/
def Decompressor.peekSymbol (x : DecTable) (d : Decompressor) : Decoded :=
  decodeSymbol x (min 16 (d.valid - d.cur)) (bitsAt d.input d.cur (min 16 (d.valid - d.cur)))

/-- `Decode(t)` in a step; bits that are no codeword raise the table's error `e` (spec/45_block_reader.md R483). -/
def Decompressor.decode (t : Table) (x : DecTable) (e : DecodeError) (d : Decompressor) : Txn (Nat × Decompressor) :=
  if !x.holds t then .error (.fault (.unwrittenUnit .dec))
  else
    match d.peekSymbol x with
    | .symbol s l => .ok (s, { d with cur := d.cur + l })
    | .needInput => .error .needInput
    | .noCode => .error (.error e)

/-- `emit(b)` (spec/45_block_reader.md R482). -/
def Decompressor.emit (d : Decompressor) (b : Byte) : Decompressor :=
  { d with
    out := d.out ++ [b], total := d.total + 1, hist := d.hist.write (d.total % history) b
    check := checkOver d.format d.check [b] }

/-- `Copy(run, dist)`: one byte at a time, each copy seeing the bytes just emitted (spec/45_block_reader.md R512). -/
def Decompressor.copyLoop (dist : Nat) : Nat → Decompressor → Txn Decompressor
  | 0, d => .ok d
  | n + 1, d =>
    match d.out[d.total - dist]? with
    | some b => Decompressor.copyLoop dist n (d.emit b)
    | none => .error (.fault (.unwrittenUnit .hist))

/-- `EndOfBlock()` (spec/45_block_reader.md R516). -/
def Decompressor.endOfBlock (d : Decompressor) : Decompressor :=
  { d with state := if d.final then (if d.format = .raw then .streamEnd else .streamChecksum) else .blockStart }

/-- The decompressor with its decode tables: what a state step reads and writes. -/
structure Reader where
  d   : Decompressor
  dec : DecTables
deriving DecidableEq, Repr

/-! ## Stream header (R490 to R492) -/

/-- The `STREAM_START` step, zlib (spec/45_block_reader.md R490). -/
def zlibHeader (d : Decompressor) : Txn Decompressor := do
  let (cmf, d) ← d.bits 8
  let (flg, d) ← d.bits 8
  raiseIf (cmf % 16 != 8) .invalidCompressionMethod
  raiseIf (decide (7 < cmf / 16)) .invalidWindowExponent
  raiseIf ((cmf * 256 + flg) % 31 != 0) .invalidHeaderCheckBits
  raiseIf (flg / 32 % 2 == 1) .unexpectedPresetDictionary
  pure { d with state := .blockStart }

/-- The `STREAM_START` step, gzip (spec/45_block_reader.md R491): the ten header bytes, then the checks. -/
def gzipHeader (d : Decompressor) : Txn Decompressor := do
  let (h, d) ← d.byteFields 10
  let flg := h.getD 3 0
  raiseIf (h.getD 0 0 != 0x1F || h.getD 1 0 != 0x8B) .invalidHeaderCheckBits
  raiseIf (h.getD 2 0 != 8) .invalidCompressionMethod
  raiseIf (flg / 32 != 0) .invalidHeaderCheckBits
  if flg / 2 % 16 ≠ 0 then .error (.refuse .gzipFields) else pure { d with state := .blockStart }

/-- The header of the stream's format (spec/45_block_reader.md R490 to R492). -/
def streamHeader (d : Decompressor) : Txn Decompressor :=
  match d.format with
  | .zlib => zlibHeader d
  | .gzip => gzipHeader d
  | .raw => pure { d with state := .blockStart }

/-- The `STREAM_START` step (spec/45_block_reader.md R490 to R492). -/
def stepStreamStart (r : Reader) : Txn Reader := do
  let d ← streamHeader r.d
  pure { r with d := d }

/-! ## Block header (R494 to R497) -/

/-- A stored block's header after the 3 bits (spec/45_block_reader.md R494, R495). -/
def storedHeader (d : Decompressor) : Txn Decompressor := do
  let (len, d) ← d.align.bits 16
  let (nlen, d) ← d.bits 16
  raiseIf (nlen != 65535 - len) .invalidStoredLength
  pure { d with storedLeft := BitVec.ofNat 16 len, state := .blockUncompressed }

/-- The metasymbol lengths sent, in the order of `PERM` (spec/45_block_reader.md R497). -/
def readMetaLens (d : Decompressor) : List Nat → Txn (List (Nat × Nat) × Decompressor)
  | [] => .ok ([], d)
  | m :: rest => do
    let (l, d) ← d.bits 3
    let (more, d) ← readMetaLens d rest
    pure ((m, l) :: more, d)

/-- The dynamic header after the 3 bits (spec/45_block_reader.md R497). -/
def dynamicHeader (r : Reader) : Txn Reader := do
  let (a, d) ← r.d.bits 5
  let (b, d) ← d.bits 5
  let (c, d) ← d.bits 4
  let d := { d with hlit := a + 257, hdist := b + 1, hclen := c + 4 }
  raiseIf (decide (286 < d.hlit)) .invalidRunLiteralCount
  raiseIf (decide (30 < d.hdist)) .invalidDistanceTable
  let (sent, d) ← readMetaLens d (perm.take d.hclen)
  let t := DecTable.load ((List.range 19).map (fun m => depthOf sent m))
  raiseIf (!t.verdict.sound) .invalidCodelengthTable
  pure { d := { d with state := .blockTables }, dec := { r.dec with metasym := t } }

/-- The fixed code loaded (spec/45_block_reader.md R496). -/
def DecTables.fixed (e : DecTables) : DecTables :=
  { e with runLit := DecTable.load fixedRunLit, dist := DecTable.load fixedDist }

/-- The `BLOCK_START` step (spec/45_block_reader.md R494). -/
def stepBlockStart (r : Reader) : Txn Reader := do
  let (fin, d) ← r.d.bits 1
  let (bt, d) ← d.bits 2
  let d := { d with final := fin == 1, btype := BitVec.ofNat 2 bt }
  match bt with
  | 0 => do
    let d ← storedHeader d
    pure { r with d := d }
  | 1 => pure { d := { d with state := .blockCompressed }, dec := r.dec.fixed }
  | 2 => dynamicHeader { r with d := d }
  | _ => .error (.error .invalidBlockType)

/-! ## Code tables (R500, R501, R505) -/

/-- One metasymbol of the code-length sequence: the lengths it adds to those read before (spec/45_block_reader.md R500). -/
def readLens (t : DecTable) (seq : List Nat) (d : Decompressor) : Txn (List Nat × Decompressor) := do
  let (m, d) ← d.decode .metasym t .invalidCodelengthTable
  if m ≤ 15 then pure ([m], d)
  else if m = 16 then
    match seq.getLast? with
    | none => .error (.error .invalidCodelengthSequence)
    | some l => do
      let (x, d) ← d.bits 2
      pure (List.replicate (3 + x) l, d)
  else if m = 17 then do
    let (x, d) ← d.bits 3
    pure (List.replicate (3 + x) 0, d)
  else do
    let (x, d) ← d.bits 7
    pure (List.replicate (11 + x) 0, d)

/-- The loop of the `BLOCK_TABLES` step: until `total` lengths are read. Each turn adds at least one length, so `total` turns
are enough (spec/45_block_reader.md R500). -/
def lensLoop (t : DecTable) (total : Nat) : Nat → List Nat → Decompressor → Txn (List Nat × Decompressor)
  | fuel, seq, d =>
    if total ≤ seq.length then .ok (seq, d)
    else
      match fuel with
      | 0 => .error (.fault .loopBound)
      | fuel + 1 => do
        let (more, d) ← readLens t seq d
        raiseIf (decide (total < (seq ++ more).length)) .invalidCodelengthSequence
        lensLoop t total fuel (seq ++ more) d

/-- The `BLOCK_TABLES` step (spec/45_block_reader.md R500, R501). -/
def stepBlockTables (r : Reader) : Txn Reader := do
  let total := r.d.hlit + r.d.hdist
  let (seq, d) ← lensLoop r.dec.metasym total total [] r.d
  let lL := padTo 288 (seq.take d.hlit)
  let lD := padTo 32 (seq.drop d.hlit)
  raiseIf (lL.getD 256 0 == 0) .invalidRunLiteralTable
  raiseIf (!(verdictOf lL).sound) .invalidRunLiteralTable
  raiseIf (!usableFor .dist (verdictOf lD)) .invalidDistanceTable
  pure { d := { d with state := .blockCompressed }
         dec := { r.dec with runLit := DecTable.load lL, dist := DecTable.load lD } }

/-! ## Compressed and stored data (R510 to R520) -/

/-- The match of a run-length symbol's decade: the extra bits, the distance, the copy (spec/45_block_reader.md R510). -/
def readMatch (r : Reader) (run : Decade) (d : Decompressor) : Txn Decompressor := do
  let (x, d) ← d.bits run.extra
  let (k, d) ← d.decode .dist r.dec.dist .invalidDistanceTable
  match distDecades[k]? with
  | none => .error (.error .invalidDistanceTable)
  | some dd => do
    let (y, d) ← d.bits dd.extra
    raiseIf (decide (d.total < dd.base + y)) .invalidBackReference
    Decompressor.copyLoop (dd.base + y) (run.base + x) d

/-- The `BLOCK_COMPRESSED` step: one token (spec/45_block_reader.md R510, R511). -/
def stepCompressed (r : Reader) : Txn Reader := do
  let (s, d) ← r.d.decode .runLit r.dec.runLit .invalidRunLiteralTable
  if s < 256 then pure { r with d := d.emit (BitVec.ofNat 8 s) }
  else if s = 256 then pure { r with d := d.endOfBlock }
  else
    match runDecades[s - 257]? with
    | none => .error (.error .invalidRunLiteralTable)
    | some run => do
      let d ← readMatch r run d
      pure { r with d := d }

/-- `k` stored bytes emitted (spec/45_block_reader.md R520). -/
def storedLoop : Nat → Decompressor → Txn Decompressor
  | 0, d => .ok d
  | k + 1, d => do
    let (x, d) ← d.bits 8
    storedLoop k (d.emit (BitVec.ofNat 8 x))

/-- The `BLOCK_UNCOMPRESSED` step (spec/45_block_reader.md R520). -/
def stepUncompressed (r : Reader) : Txn Reader :=
  if r.d.storedLeft = 0 then pure { r with d := r.d.endOfBlock }
  else
    let k := min r.d.storedLeft.toNat ((r.d.valid - r.d.cur) / 8)
    if k = 0 then .error .needInput
    else do
      let d ← storedLoop k r.d
      let d := { d with storedLeft := d.storedLeft - BitVec.ofNat 16 k }
      pure { r with d := if d.storedLeft = 0 then d.endOfBlock else d }

/-! ## Stream trailer (R525) -/

/-- Bytes as a big-endian number. -/
def bigEndian (bytes : List Nat) : Nat := bytes.foldl (fun v b => v * 256 + b) 0

/-- Bytes as a little-endian number. -/
def littleEndian (bytes : List Nat) : Nat := bigEndian bytes.reverse

/-- The trailer of the stream's format, read from the next byte boundary and compared (spec/45_block_reader.md R525). A raw
stream never reaches it (R516). -/
def streamTrailer (d : Decompressor) : Txn Decompressor :=
  match d.format with
  | .zlib => do
    let (a, e) ← d.align.byteFields 4
    raiseIf (bigEndian a != e.check.toNat) .checksumMismatch
    pure e
  | .gzip => do
    let (t, e) ← d.align.byteFields 8
    raiseIf (littleEndian (t.take 4) != e.check.toNat) .checksumMismatch
    raiseIf (littleEndian (t.drop 4) != e.total % 2 ^ 32) .checksumMismatch
    pure e
  | .raw => pure d.align

/-- The `STREAM_CHECKSUM` step (spec/45_block_reader.md R525). -/
def stepChecksum (r : Reader) : Txn Reader := do
  let d ← streamTrailer r.d
  pure { r with d := { d with state := .streamEnd } }

/-! ## `BR.STEP` (R486) -/

/-- The step of `D_STATE`, where there is one (spec/45_block_reader.md R486, R526). -/
def stateStep (r : Reader) : Option (Txn Reader) :=
  match r.d.state with
  | .streamStart => some (stepStreamStart r)
  | .blockStart => some (stepBlockStart r)
  | .blockTables => some (stepBlockTables r)
  | .blockCompressed => some (stepCompressed r)
  | .blockUncompressed => some (stepUncompressed r)
  | .streamChecksum => some (stepChecksum r)
  | .closed | .streamEnd | .error => none

/-- What `BR.STEP` answers: its status, and the reader after it. -/
structure StepAnswer where
  reader : Reader
  status : Status
deriving DecidableEq, Repr

/-- One turn of `BR.STEP` on an open decompressor: a latched error or the end of the stream again, else one state step as a
transaction (spec/45_block_reader.md R486, R481, spec/60_exceptions.md R603). In the error state `D_ERR` is always set; a
state without it is one no run reaches, and reading it faults. -/
def brStep (r : Reader) : Run StepAnswer :=
  match stateStep r with
  | some (.ok r') => .ok { reader := r', status := if r'.d.state = .streamEnd then .finished else .ok }
  | some (.error .needInput) => .ok { reader := r, status := .needInput }
  | some (.error (.error e)) => .ok { reader := { r with d := r.d.raise e }, status := .error e }
  | some (.error (.refuse reason)) => refuse reason
  | some (.error (.fault f)) => .error (.fault f)
  | none =>
    match r.d.state, r.d.err with
    | .error, some e => .ok { reader := r, status := .error e }
    | .error, none => .error (.fault .missingError)
    | _, _ => .ok { reader := r, status := .finished }

/-- The state with the decompressor and its tables replaced. -/
def State.withReader (s : State) (r : Reader) : State := { s with d := r.d, dec := r.dec }

/-- The decompressor and its tables. -/
def State.reader (s : State) : Reader := { d := s.d, dec := s.dec }

/-- `BR.STEP` (spec/45_block_reader.md R486); a latched error names no result word. -/
def execBrStep (s : State) : Host.Outcome State Fault Refusal :=
  s.finish do
    refuseIf (!s.d.isOpen) .noInstance
    if s.d.disturbed then s.disturbedAnswer
    else do
      let a ← brStep s.reader
      pure ((s.withReader a.reader).answer a.status (if s.d.state = .error then [] else [a.reader.d.state.code]) [])

end Sys2Proof.Machine
end

