-- ==== Sys2Proof/Machine/Stream.lean ====
section
/-! DEFINITION. The stream commands (spec/46_stream_interface.md): `C.*` and `D.*`, the compressor's driver, the wrappers as
written. -/

namespace Sys2Proof.Machine

/-! ## Wrappers (R560, R566, R580, R586, R588) -/

/-- The zlib header bytes for window exponent `e` (spec/46_stream_interface.md R560): `CMF`, and the `FLG` that makes the 16-bit
value a multiple of 31. -/
def zlibHeaderBytes (e : Nat) : List Nat :=
  let cmf := (e - 8) * 16 + 8
  [cmf, (31 - cmf * 256 % 31) % 31]

/-- The gzip header bytes (spec/46_stream_interface.md R580). -/
def gzipHeaderBytes : List Nat := [0x1F, 0x8B, 8, 0, 0, 0, 0, 0, 0, 0xFF]

/-- The header bytes of a format (spec/46_stream_interface.md R560, R580, R588). -/
def headerBytes (f : Format) (e : Nat) : List Nat :=
  match f with
  | .zlib => zlibHeaderBytes e
  | .gzip => gzipHeaderBytes
  | .raw => []

/-- The four bytes of a word, least significant first (spec/20_memory.md R105). -/
def bytesLE (w : Word) : List Nat := [byteOf w.toNat 0, byteOf w.toNat 1, byteOf w.toNat 2, byteOf w.toNat 3]

/-- The four bytes of a word, most significant first (spec/20_memory.md R105). -/
def bytesBE (w : Word) : List Nat := [byteOf w.toNat 3, byteOf w.toNat 2, byteOf w.toNat 1, byteOf w.toNat 0]

/-- The trailer bytes of a stream (spec/46_stream_interface.md R566, R586, R588). -/
def trailerBytes (c : Compressor) : List Nat :=
  match c.cfg.format with
  | .zlib => bytesBE c.check
  | .gzip => bytesLE c.check ++ bytesLE c.isize
  | .raw => []

/-! ## Opening a compressor stream (R540) -/

/-- `C_CFG` for a stream: the window exponent is 15 for raw, the search parameters are the level's row
(spec/46_stream_interface.md R540, spec/10_state.md R34). -/
def configFor (P : Params) (f : Format) (exp : BitVec 4) (level : Byte) (hint : Word) : CConfig :=
  let row := P.levelTable level.toNat
  { format := f, exp := if f = .raw then 15 else exp, level := level
    strategy := row.strategy, attempts := row.attempts, goal := row.goal, iterations := row.iterations, hint := hint }

/-- The compressor's registers after `C.NEW` (spec/46_stream_interface.md R540, spec/70_reset_and_hazards.md R643). -/
def Compressor.fresh (cfg : CConfig) : Compressor :=
  { state := .opened, cfg := cfg, input := [], check := checkInit cfg.format, isize := 0, parsed := 0, emitted := 0
    termsBytes := 0, last := false, graphs := 0, limit := graphLimit0 }

/-- Every encode table open, every length 0 (spec/70_reset_and_hazards.md R641, R643). -/
def EncTables.cleared : EncTables :=
  { runLit := EncTable.cleared .runLit, dist := EncTable.cleared .dist, metasym := EncTable.cleared .metasym }

/-- The core with a new compressor stream of the given configuration (spec/46_stream_interface.md R540). -/
def State.openCompressor (P : Params) (cfg : CConfig) (s : State) : State :=
  { s with
    c := Compressor.fresh cfg
    bs := (Sink.init cfg.hint.toNat).appendBytes (headerBytes cfg.format cfg.exp.toNat)
    wn := Window.init cfg.exp
    tv := [], mg := Graph.blank, dt := P.defaultDepth, enc := EncTables.cleared }

/-- `C.NEW` over an assignment of the parameters (spec/46_stream_interface.md R540). -/
def cNew (P : Params) (format : BitVec 2) (exp : BitVec 4) (level : Byte) (hint : Word) (s : State) : Run State := do
  let f ← formatOf format
  refuseIf (decide (exp.toNat < 8) || hint == 0) .operand
  pure ((s.openCompressor P (configFor P f exp level hint)).answer .ok [] [])

/-- `C.NEW` (spec/46_stream_interface.md R540). -/
def execCNew (format : BitVec 2) (exp : BitVec 4) (level : Byte) (hint : Word) (s : State) :
    Host.Outcome State Fault Refusal :=
  s.finish (cNew referenceParams format exp level hint s)

/-! ## The driver (R543) -/

/-- A block ended by term count before the next step, greedy and lazy (spec/43_term_strategies.md R385). -/
def endBlockIfFull (P : Params) (s : State) : Run State :=
  if P.blockTerms ≤ s.tv.length then writeDynamic P false s else pure s

/-- The greedy and lazy loop of `Drive()`; each turn but the last covers at least one byte, so one turn more than there are bytes
is enough (spec/46_stream_interface.md R543). -/
def driveTerms (P : Params) : Nat → State → Run State
  | 0, _ => .error (.fault .loopBound)
  | fuel + 1, s =>
    if s.c.input.length ≤ s.c.parsed then pure s
    else if !lookaheadReady s.c s.c.parsed then pure s
    else do
      let s ← endBlockIfFull P s
      let (s, _) ← parseStep P s
      driveTerms P fuel s

/-- `k` sweeps of `TM.MINIMIZE` (spec/46_stream_interface.md R543). -/
def minimizeTimes (P : Params) : Nat → State → Run State
  | 0, s => pure s
  | k + 1, s => do
    refuseIf (decide (s.mg.n = 0)) .noInstance
    let (s, _) ← minimizeOnce P s
    minimizeTimes P k s

/-- One graph segment of the full strategy: the graph, the sweeps, the block, the blend (spec/46_stream_interface.md R543). -/
def segment (P : Params) (n : Nat) (final : Bool) (s : State) : Run State := do
  let s ← graphOver P n s
  let s ← minimizeTimes P s.c.cfg.iterations.toNat s
  let s ← writeDynamic P final s
  pure (s.generalize P)

/-- The full-strategy loop of `Drive()`; each segment covers at least one byte (spec/46_stream_interface.md R543). -/
def driveGraphs (P : Params) : Nat → State → Run State
  | 0, _ => .error (.fault .loopBound)
  | fuel + 1, s =>
    let avail := s.c.input.length - s.c.parsed
    if avail = 0 then pure s
    else if avail < s.c.limit + 3 ∧ s.c.last = false then pure s
    else
      let n := min s.c.limit avail
      let final := s.c.last && decide (n = avail)
      if final = true ∧ n < storedTail then finalBlock P { s with c := { s.c with parsed := s.c.parsed + n } }
      else do
        let s ← segment P n final s
        driveGraphs P fuel s

/-- `Drive()` (spec/46_stream_interface.md R543). -/
def drive (P : Params) (s : State) : Run State := do
  let fuel := s.c.input.length - s.c.parsed + 1
  if s.c.cfg.strategy = .full then
    let s ← driveGraphs P fuel s
    if s.c.last = true ∧ s.c.input.length = 0 then finalBlock P s else pure s
  else
    let s ← driveTerms P fuel s
    if s.c.last = true then finalBlock P s else pure s

/-! ## Feeding and draining the compressor (R542, R546, R547) -/

/-- `C_CHECK` over the whole input: Adler-32, CRC-32, or unchanged for raw (spec/46_stream_interface.md R542). -/
def inputCheck (f : Format) (old : Word) (input : List Byte) : Word :=
  match f with
  | .zlib => adler32 1 input
  | .gzip => crc32 0 input
  | .raw => old

/-- The compressor after the bytes of a push (spec/46_stream_interface.md R542). -/
def Compressor.take (c : Compressor) (last : Bool) (bytes : List Byte) : Compressor :=
  let input := c.input ++ bytes
  { c with
    input := input, check := inputCheck c.cfg.format c.check input, isize := word input.length
    last := lastFlag c.last last }

/-- The end of a stream: the sink aligned, the trailer written, `C_STATE = FINISHED` (spec/46_stream_interface.md R542). -/
def State.closeStream (s : State) : State :=
  { s with bs := s.bs.pad.appendBytes (trailerBytes s.c), c := { s.c with state := .finished } }

/-- The work of an accepted `C.PUSH` (spec/46_stream_interface.md R542). -/
def pushInput (P : Params) (last : Bool) (bytes : List Byte) (s : State) : Run State := do
  let s ← drive P { s with c := s.c.take last bytes, wn := s.wn.feed bytes }
  pure (if last then s.closeStream else s)

/-- `C.PUSH` over an assignment of the parameters (spec/46_stream_interface.md R542). -/
def cPush (P : Params) (last : Bool) (bytes : List Byte) (s : State) : Run State := do
  refuseIf (!s.c.isOpen) .noInstance
  refuseIf (s.c.state == .finished) .pushAfterLast
  let t ← pushInput P last bytes s
  pure (t.answer .ok [word t.bs.queue.length] [])

/-- `C.PUSH` (spec/46_stream_interface.md R542). -/
def execCPush (last : Bool) (bytes : List Byte) (s : State) : Host.Outcome State Fault Refusal :=
  s.finish (cPush referenceParams last bytes s)

/-- `C.POP` (spec/46_stream_interface.md R546). -/
def execCPop (s : State) : Host.Outcome State Fault Refusal :=
  s.finish do
    refuseIf (!s.c.isOpen) .noInstance
    pure s.popChunk

/-- The oldest chunk, else every complete byte, and the sink left; a partial byte stays (spec/46_stream_interface.md R547). -/
def Sink.drain (k : Sink) : List Byte × Sink :=
  match k.queue with
  | chunk :: rest => (chunk, { k with queue := rest })
  | [] => (k.done, { k with done := [] })

/-- `C.PULL` (spec/46_stream_interface.md R547). -/
def execCPull (s : State) : Host.Outcome State Fault Refusal :=
  s.finish do
    refuseIf (!s.c.isOpen) .noInstance
    pure ({ s with bs := s.bs.drain.2 }.answer .ok [word s.bs.drain.1.length] s.bs.drain.1)

/-! ## The decompressor (R550 to R554) -/

/-- The decompressor's registers after `D.NEW` (spec/46_stream_interface.md R550, spec/70_reset_and_hazards.md R644). `HIST` is
emptied: nothing of an earlier stream survives (R646; log entry 14). -/
def Decompressor.fresh (f : Format) : Decompressor :=
  { state := .streamStart, format := f, input := [], cur := 0, out := [], drained := 0, total := 0, check := checkInit f
    hist := [], final := false, btype := 0, hlit := 0, hdist := 0, hclen := 0, storedLeft := 0, err := none
    disturbed := false }

/-- Every decode table open, every length 0, verdict `empty` (spec/70_reset_and_hazards.md R641, R644). -/
def DecTables.cleared : DecTables :=
  { runLit := DecTable.cleared .runLit, dist := DecTable.cleared .dist, metasym := DecTable.cleared .metasym }

/-- The core with a new decompressor stream (spec/46_stream_interface.md R550, spec/70_reset_and_hazards.md R644). -/
def State.openDecompressor (f : Format) (s : State) : State :=
  { s with d := Decompressor.fresh f, bc := Cursor.init [], dec := DecTables.cleared }

/-- `D.NEW` (spec/46_stream_interface.md R550). -/
def execDNew (format : BitVec 2) (s : State) : Host.Outcome State Fault Refusal :=
  s.finish do
    let f ← formatOf format
    pure ((s.openDecompressor f).answer .ok [] [])

/-- The core with more input for its decompressor: the bytes join `D_IN`, and the cursor is rebased at `D_CUR`, given relative to
the bytes the cursor retains (spec/46_stream_interface.md R551, spec/10_state.md R51, R54; log entry 17). -/
def State.feedReader (bytes : List Byte) (s : State) : State :=
  { s with
    d := { s.d with input := s.d.input ++ bytes }
    bc := s.bc.rebase bytes (s.d.cur - (s.d.valid - s.bc.count)) }

/-- `BR.STEP` again and again until a status other than `OK` (spec/46_stream_interface.md R551). -/
def readLoop : Nat → Reader → Run StepAnswer
  | 0, _ => .error (.fault .loopBound)
  | fuel + 1, r => do
    let a ← brStep r
    if a.status = .ok then readLoop fuel a.reader else pure a

/-- Turns enough for `readLoop`: a step that answers `OK` takes at least one bit, or is the one raw `STREAM_START`, or the end of
an empty stored block. -/
def Decompressor.turns (d : Decompressor) : Nat := 2 * (d.valid - d.cur) + 2

/-- The status of a latched error (spec/60_exceptions.md R604). -/
def Decompressor.latched (d : Decompressor) : Run Status :=
  match d.err with
  | some e => pure (.error e)
  | none => .error (.fault .missingError)

/-- `D.PUSH` (spec/46_stream_interface.md R551). -/
def execDPush (bytes : List Byte) (s : State) : Host.Outcome State Fault Refusal :=
  s.finish do
    refuseIf (!s.d.isOpen) .noInstance
    if s.d.disturbed then s.disturbedAnswer
    else if s.d.state = .error then do
      let e ← s.d.latched
      pure (s.answer e [] [])
    else if s.d.state = .streamEnd then pure (s.answer .finished [] [])
    else do
      let t := s.feedReader bytes
      let a ← readLoop t.d.turns t.reader
      pure ((t.withReader a.reader).answer a.status [word (a.reader.d.out.length - a.reader.d.drained)] [])

/-- `D.PULLN` (spec/46_stream_interface.md R553). -/
def execDPulln (count : Word) (s : State) : Host.Outcome State Fault Refusal :=
  s.finish do
    refuseIf (!s.d.isOpen) .noInstance
    if s.d.disturbed then s.disturbedAnswer
    else if s.d.out.length - s.d.drained < count.toNat then pure (s.answer .noResult [] [])
    else pure ({ s with d := { s.d with drained := s.d.drained + count.toNat } }.answer .ok [count]
      ((s.d.out.drop s.d.drained).take count.toNat))

/-- `D.PULL` (spec/46_stream_interface.md R554). -/
def execDPull (s : State) : Host.Outcome State Fault Refusal :=
  s.finish do
    refuseIf (!s.d.isOpen) .noInstance
    if s.d.disturbed then s.disturbedAnswer
    else pure ({ s with d := { s.d with drained := s.d.out.length } }.answer .ok
      [word (s.d.out.length - s.d.drained)] (s.d.out.drop s.d.drained))

end Sys2Proof.Machine
end

