-- ==== Sys2Proof/Machine/Dispatch.lean ====
section
/-! DEFINITION. One meaning per command. -/

namespace Sys2Proof.Machine

def exec (i : Instr) (s : State) : Host.Outcome State Fault Refusal :=
  match i with
  | .bsInit hint => Sys2Proof.Machine.execBsInit hint s
  | .bsAppend count bits => Sys2Proof.Machine.execBsAppend count bits s
  | .bsPad => Sys2Proof.Machine.execBsPad s
  | .bsPull => Sys2Proof.Machine.execBsPull s
  | .bsPop => Sys2Proof.Machine.execBsPop s
  | .bcNew bytes => Sys2Proof.Machine.execBcNew bytes s
  | .bcRebase data pointer => Sys2Proof.Machine.execBcRebase data pointer s
  | .bcRead width offset => Sys2Proof.Machine.execBcRead width offset s
  | .hfBuild maxlen freqs => Sys2Proof.Machine.execHfBuild maxlen freqs s
  | .hfLoad t lengths => Sys2Proof.Machine.execHfLoad t lengths s
  | .hfEncode t sym => Sys2Proof.Machine.execHfEncode t sym s
  | .hfDecode t avail peek => Sys2Proof.Machine.execHfDecode t avail peek s
  | .wnInit exp => Sys2Proof.Machine.execWnInit exp s
  | .wnUpdate byte => Sys2Proof.Machine.execWnUpdate byte s
  | .wnMatch lookahead attempts goal => Sys2Proof.Machine.execWnMatch lookahead attempts goal s
  | .wnMatchd lookahead attempts goal => Sys2Proof.Machine.execWnMatchd lookahead attempts goal s
  | .wnFeed bytes => Sys2Proof.Machine.execWnFeed bytes s
  | .tmMap term => Sys2Proof.Machine.execTmMap term s
  | .tmStep => Sys2Proof.Machine.execTmStep s
  | .tmGraph n => Sys2Proof.Machine.execTmGraph n s
  | .tmMinimize => Sys2Proof.Machine.execTmMinimize s
  | .tmGeneralize => Sys2Proof.Machine.execTmGeneralize s
  | .bwDynamic final => Sys2Proof.Machine.execBwDynamic final s
  | .bwStored last bytes => Sys2Proof.Machine.execBwStored last bytes s
  | .brStep => Sys2Proof.Machine.execBrStep s
  | .cNew format exp level hint => Sys2Proof.Machine.execCNew format exp level hint s
  | .cPush last bytes => Sys2Proof.Machine.execCPush last bytes s
  | .cPop => Sys2Proof.Machine.execCPop s
  | .cPull => Sys2Proof.Machine.execCPull s
  | .dNew format => Sys2Proof.Machine.execDNew format s
  | .dPush bytes => Sys2Proof.Machine.execDPush bytes s
  | .dPulln count => Sys2Proof.Machine.execDPulln count s
  | .dPull => Sys2Proof.Machine.execDPull s
  | .ckAdler bytes value => Sys2Proof.Machine.execCkAdler bytes value s
  | .ckCrc32 bytes value => Sys2Proof.Machine.execCkCrc32 bytes value s

end Sys2Proof.Machine
end

