-- ==== Sys2Proof/Machine/Step.lean ====
section
/-! DEFINITION. One step of the core: the next whole command on the ports is taken and executed (spec/00_scope.md R12,
spec/30_encoding.md R140). -/

namespace Sys2Proof.Machine

/-- Why a command word is refused (spec/30_encoding.md R150). -/
def reasonOf : BadEncoding → Reason
  | .illegalOpcode => .illegal
  | .reservedBit => .operand

/-- One step: the core does nothing until the host has issued a whole command (spec/70_reset_and_hazards.md R642); a
command word it refuses is taken from the port; a step after a refused command has no meaning (spec/60_exceptions.md R607;
log entries 1 and 3). -/
def step (s : State) : Host.Outcome State Fault Refusal :=
  if s.refused then .refused .afterRefusal
  else
    match decode s.cmdIn s.dataIn with
    | .incomplete => .next s
    | .bad why words => .next ({ s with cmdIn := words }.refuse (reasonOf why))
    | .command i words bytes => exec i { s with cmdIn := words, dataIn := bytes }

/-- The state with one more instruction issued ahead of what the ports hold, so that the next step takes it (log entry 2). -/
def State.withFetchWord (s : State) (nbits w : Nat) : State :=
  { s with cmdIn := tableWords nbits w ++ s.cmdIn, dataIn := tablePayload nbits w ++ s.dataIn }

end Sys2Proof.Machine
end

