-- ==== Sys2Proof/Safety.lean ====
section
/-! DEFINITION. What a sound state of the core is, unit by unit: the invariants that every command keeps and under which no rule
reads a unit that has not been written (spec/60_exceptions.md R608); and the words in which claims about bit streams, terms and
graphs are said. -/

namespace Sys2Proof.Machine

/-! ## Bit streams -/

/-- The low `n` bits of `v`, least significant first (spec/00_scope.md R10). -/
def lowBits (n v : Nat) : List Bool := (List.range n).map v.testBit

/-- The bits of a byte sequence in stream order (spec/00_scope.md R10). -/
def bitsOfBytes (bytes : List Byte) : List Bool := bytes.flatMap (fun b => lowBits 8 b.toNat)

/-- The stream content of the sink that has not been returned yet (spec/40_bit_io.md R236): the queued chunks, the complete bytes,
the bits of the partial byte. -/
def Sink.stream (k : Sink) : List Bool :=
  bitsOfBytes (k.queue.flatten ++ k.done) ++ lowBits k.nacc.toNat k.acc.toNat

/-- The bits that pad a stream of `n` bits to a byte boundary (spec/40_bit_io.md R233). -/
def padding (n : Nat) : List Bool := List.replicate ((8 - n % 8) % 8) false

/-- A sound open sink (spec/40_bit_io.md R232, spec/10_state.md R43): every chunk holds `BS_HINT` bytes, fewer than `BS_HINT`
complete bytes are waiting, and the unused bits of `BS_ACC` are zero. -/
structure Sink.Sound (k : Sink) : Prop where
  hint   : 1 ≤ k.hint
  chunks : ∀ c ∈ k.queue, c.length = k.hint
  done   : k.done.length < k.hint
  acc    : k.acc.toNat < 2 ^ k.nacc.toNat

/-- A sound open cursor (spec/40_bit_io.md R240, R241, R244): whole valid bytes, then the 48 zero bits; the rebase pointer within the
valid bits. -/
structure Cursor.Sound (k : Cursor) : Prop where
  whole   : k.count % 8 = 0
  padded  : k.buf.drop (k.count / 8) = cursorPadding
  pointer : k.ptr ≤ k.count

/-! ## The window -/

/-- A sound window (spec/10_state.md R44, R45, spec/20_memory.md R101, spec/42_match_finder.md R322, R325, R326). -/
structure Window.Sound (w : Window) : Prop where
  bytesWf : w.bytes.wf = true
  headWf  : w.head.wf = true
  nextWf  : w.next.wf = true
  fed     : w.inserted ≤ w.input.length
  slots   : ∀ p, p < w.inserted → w.inserted ≤ p + w.size → w.bytes.read (p % w.size) = w.input[p]?
  rolling : w.r = word (bigEndian ((w.input.take w.inserted).map BitVec.toNat))
  heads   : ∀ h p, w.head.get h = some p → p + 4 ≤ w.inserted
  links   : ∀ p c, w.next.get p = some c → c < p
  last    : w.last.map Prod.fst = if w.inserted < 4 then none else some (w.inserted - 4)
  lastHead : ∀ s p, w.last = some (s, some p) → p < s

/-! ## The match search -/

/-- `r` is how many bytes from `s` on repeat those from `c` on, up to `limit` (the inner loop of spec/42_match_finder.md R327). -/
structure RunAt (w : Window) (s c limit r : Nat) : Prop where
  short : r ≤ limit
  agree : ∀ j, j < r → w.input[s + j]? = w.input[c + j]?
  ends  : r < limit → w.input[s + r]? ≠ w.input[c + r]?

/-- The candidates, as (run, distance), that the walk at `s` yields from a chain position with `tries` attempts left: it ends at the
chain's end, with the attempts spent, at a candidate out of reach, or after one whose run reaches the goal, and else follows
`WN_NEXT` (spec/42_match_finder.md R327). -/
inductive Walks (w : Window) (s limit goal : Nat) : Nat → Option Nat → List (Nat × Nat) → Prop where
  | chainEnd (tries : Nat) : Walks w s limit goal tries none []
  | spent (head : Option Nat) : Walks w s limit goal 0 head []
  | outOfReach (tries c : Nat) : 2 ^ w.exp.toNat < s - c → Walks w s limit goal (tries + 1) (some c) []
  | goalReached (tries c r : Nat) : s - c ≤ 2 ^ w.exp.toNat → RunAt w s c limit r → goal ≤ r →
      Walks w s limit goal (tries + 1) (some c) [(r, s - c)]
  | further (tries c r : Nat) (rest : List (Nat × Nat)) : s - c ≤ 2 ^ w.exp.toNat → RunAt w s c limit r → r < goal →
      Walks w s limit goal tries (w.next.get c) rest → Walks w s limit goal (tries + 1) (some c) ((r, s - c) :: rest)

/-- The candidate with the longest run, the first of those on a tie (spec/42_match_finder.md R330, R332: "strictly longer: ties keep
the nearer"). -/
def Longest (found : List (Nat × Nat)) (best : Nat × Nat) : Prop :=
  ∃ before after, found = before ++ best :: after ∧ (∀ x ∈ before, x.1 < best.1) ∧ ∀ x ∈ after, x.1 ≤ best.1

/-- The candidates whose distance lies in decade `k`, in the order visited (spec/42_match_finder.md R332, spec/30_encoding.md R174). -/
def inDecade (k : Nat) (found : List (Nat × Nat)) : List (Nat × Nat) :=
  found.filter (fun x => distDecades[k]?.any (fun d => decide (d.base ≤ x.2 ∧ x.2 ≤ d.top)))

/-- The match a search reports of its candidates: the longest, where that has 5 bytes or more (spec/42_match_finder.md R330). -/
def Reports (found : List (Nat × Nat)) : Option (Nat × Nat) → Prop
  | none => ∀ x ∈ found, x.1 < 5
  | some best => Longest found best ∧ 5 ≤ best.1

/-- Bytes of the input inserted in order, from where the window stands (spec/43_term_strategies.md R374, spec/42_match_finder.md
R324; the hash is the reference one, log entry 11). -/
inductive Inserts (input : List Byte) : Window → Window → Prop where
  | here (w : Window) : Inserts input w w
  | byte (w v u : Window) (b : Byte) : input[w.inserted]? = some b → w.update referenceParams b = .ok v → Inserts input v u →
      Inserts input w u

/-- `Find(s)` from window `w` gives `m` and leaves window `v` (spec/43_term_strategies.md R374, R375): nothing where `s` has no key,
else the match that the search at the key of `s` reports. -/
def Finds (c : Compressor) (w : Window) (s : Nat) (m : Option (Nat × Nat)) (v : Window) : Prop :=
  (c.input.length < s + 4 → m = none ∧ v = w)
  ∧ (s + 4 ≤ c.input.length → Inserts c.input w v ∧ v.inserted = s + 4 ∧ ∃ head found, v.last = some (s, head)
      ∧ Walks v s (min 258 (c.input.length - s)) c.cfg.goal.toNat c.cfg.attempts.toNat head found ∧ Reports found m)

/-! ## Terms, graphs, tables -/

/-- The bits a symbol's codeword puts on the stream: most significant bit of the codeword first (spec/20_memory.md R104,
spec/44_block_writer.md R430). -/
def codeBits (t : EncTable) (sym : Nat) : List Bool :=
  match t.entries[sym]? with
  | some e => (lowBits e.len e.code).reverse
  | none => []

/-- The bits of a term under the tables of a block (spec/44_block_writer.md R441). -/
def termBits (e : EncTables) : Term → List Bool
  | .lit b => codeBits e.runLit b.toNat
  | .copy run dist =>
    match runSymbol run, distSymbol dist with
    | some (l, dl), some (k, dk) =>
      codeBits e.runLit l ++ lowBits dl.extra (run - dl.base) ++ codeBits e.dist k ++ lowBits dk.extra (dist - dk.base)
    | _, _ => []

/-- The symbols a term uses: its run-literal symbol and, for a match, its distance symbol (spec/30_encoding.md R171). -/
def Term.symbols : Term → Option Nat × Option Nat
  | .lit b => (some b.toNat, none)
  | .copy run dist => ((runSymbol run).map Prod.fst, (distSymbol dist).map Prod.fst)

/-- The code lengths that a sequence of (metasymbol, extra value) pairs adds to those before it (spec/30_encoding.md R178,
spec/45_block_reader.md R500). -/
def expandLens : List Nat → List (Nat × Nat) → List Nat
  | seq, [] => seq
  | seq, (m, x) :: rest =>
    if m ≤ 15 then expandLens (seq ++ [m]) rest
    else if m = 16 then expandLens (seq ++ List.replicate (3 + x) (seq.getLast?.getD 0)) rest
    else if m = 17 then expandLens (seq ++ List.replicate (3 + x) 0) rest
    else expandLens (seq ++ List.replicate (11 + x) 0) rest

/-- The ranges of a term (spec/43_term_strategies.md R370). -/
def Term.Valid : Term → Prop
  | .lit _ => True
  | .copy run dist => 3 ≤ run ∧ run ≤ 258 ∧ 1 ≤ dist ∧ dist ≤ 32768

/-- `terms` denote the bytes of `input` from position `p` on: each literal is the byte there, each match repeats the bytes `dist`
before it, which lie inside the input before it (spec/43_term_strategies.md R370, R371). -/
def Reproduces (input : List Byte) : Nat → List Term → Prop
  | _, [] => True
  | p, .lit b :: rest => input[p]? = some b ∧ Reproduces input (p + 1) rest
  | p, .copy run dist :: rest =>
    1 ≤ dist ∧ dist ≤ p ∧ p + run ≤ input.length
      ∧ (∀ j, j < run → input[p + j]? = input[p + j - dist]?) ∧ Reproduces input (p + run) rest

/-- One greedy or lazy decision at `s` from window `w`: its terms, and the window after it (spec/43_term_strategies.md R380 to R382).
Greedy takes the match there is; lazy looks at `s + 1` too, and defers to the match there exactly when that is strictly longer. -/
inductive Parses (c : Compressor) (w : Window) (s : Nat) : List Term → Window → Prop where
  | literal (b : Byte) (v : Window) : c.input[s]? = some b → Finds c w s none v → Parses c w s [.lit b] v
  | take (run dist : Nat) (v : Window) : (c.cfg.strategy = .greedy ∨ c.input.length ≤ s + 1) → Finds c w s (some (run, dist)) v →
      Parses c w s [.copy run dist] v
  | keep (run dist : Nat) (later : Option (Nat × Nat)) (v u : Window) : c.cfg.strategy = .lazy → s + 1 < c.input.length →
      Finds c w s (some (run, dist)) v → Finds c v (s + 1) later u → (∀ m, later = some m → m.1 ≤ run) →
      Parses c w s [.copy run dist] u
  | defer (b : Byte) (run dist run' dist' : Nat) (v u : Window) : c.cfg.strategy = .lazy → s + 1 < c.input.length →
      c.input[s]? = some b → Finds c w s (some (run, dist)) v → Finds c v (s + 1) (some (run', dist')) u → run < run' →
      Parses c w s [.lit b, .copy run' dist'] u

/-- The edges of the vertex before position `p`, `room` bytes before the sink, of a graph begun at window `w`
(spec/43_term_strategies.md R392): none where `p` has no key, else per decade the longest candidate of the search at the key of
`p`, where that has 3 bytes or more. -/
def EdgesAt (c : Compressor) (w : Window) (p room : Nat) (edges : List (Option Edge)) : Prop :=
  (c.input.length < p + 4 → edges = List.replicate 30 none)
  ∧ (p + 4 ≤ c.input.length → edges.length = 30 ∧ ∃ v head found, Inserts c.input w v ∧ v.inserted = p + 4
      ∧ v.last = some (p, head) ∧ Walks v p (min 258 room) c.cfg.goal.toNat c.cfg.attempts.toNat head found
      ∧ ∀ k, k < 30 →
          (∃ run dist, Longest (inDecade k found) (run, dist) ∧ 3 ≤ run ∧ edges[k]? = some (some { run := run, dist := dist }))
          ∨ ((∀ x ∈ inDecade k found, x.1 < 3) ∧ edges[k]? = some none))

/-- A sound match graph (spec/10_state.md R47): `n` vertices, 30 decades each, and every edge a run of 3..258 that ends at the sink at
the latest, at a distance of its decade. -/
structure Graph.Sound (g : Graph) : Prop where
  size    : g.vertices.length = g.n
  decades : ∀ v ∈ g.vertices, v.edges.length = 30
  edges   : ∀ i v k e, g.vertices[i]? = some v → v.edges[k]? = some (some e) →
              3 ≤ e.run ∧ e.run ≤ 258 ∧ i + e.run ≤ g.n ∧ (distSymbol e.dist).map Prod.fst = some k

/-- A walk over the edges of the graph from vertex `i` to vertex `j`, as its terms (spec/43_term_strategies.md R393). -/
inductive Graph.Walk (g : Graph) : Nat → List Term → Nat → Prop where
  | here (i : Nat) : Graph.Walk g i [] i
  | lit (i j : Nat) (v : Vertex) (ts : List Term) :
      g.vertices[i]? = some v → Graph.Walk g (i + 1) ts j → Graph.Walk g i (.lit v.lit :: ts) j
  | run (i j k r : Nat) (v : Vertex) (e : Edge) (ts : List Term) :
      g.vertices[i]? = some v → v.edges[k]? = some (some e) → 3 ≤ r → r ≤ e.run → Graph.Walk g (i + r) ts j →
      Graph.Walk g i (.copy r e.dist :: ts) j

/-- The distance decade of a distance; 0 for one no decade holds. -/
def decadeOf (dist : Nat) : Nat := ((distSymbol dist).map Prod.fst).getD 0

/-- The estimated cost of a term under a depth table (spec/43_term_strategies.md R394). -/
def termCost (dt : DepthTable) : Term → Nat
  | .lit b => dt.lit.getD b.toNat 0
  | .copy run dist => dt.run.getD (run - 3) 0 + dt.dist.getD (decadeOf dist) 0

/-- The estimated cost of a sequence of terms (spec/43_term_strategies.md R394, R397). -/
def termCosts (dt : DepthTable) (ts : List Term) : Nat := (ts.map (termCost dt)).sum

/-- The sizes of the encode tables (spec/10_state.md R49). -/
def EncTables.Sized (e : EncTables) : Prop :=
  e.runLit.entries.length = 288 ∧ e.dist.entries.length = 32 ∧ e.metasym.entries.length = 19

/-- A sound decode table (spec/10_state.md R50, spec/41_huffman.md R281, R283): a length of at most 15 per symbol, and its verdict. -/
structure DecTable.Sound (t : Table) (x : DecTable) : Prop where
  size    : x.lens.length = t.size
  lengths : ∀ l ∈ x.lens, l ≤ 15
  verdict : x.verdict = verdictOf x.lens

/-! ## The code-length sequence as it is read (spec/45_block_reader.md R500) -/

/-- One metasymbol of the code-length sequence, read at bit `cur` of the input after the lengths `seq`: where the cursor is then, and
the lengths it adds. -/
inductive LengthsAt (x : DecTable) (d : Decompressor) (cur : Nat) (seq : List Nat) : Nat → List Nat → Prop where
  | one (m l : Nat) : ({ d with cur := cur } : Decompressor).peekSymbol x = .symbol m l → m ≤ 15 → LengthsAt x d cur seq (cur + l) [m]
  | again (l v : Nat) : ({ d with cur := cur } : Decompressor).peekSymbol x = .symbol 16 l → seq.getLast? = some v →
      cur + l + 2 ≤ d.valid → LengthsAt x d cur seq (cur + l + 2) (List.replicate (3 + bitsAt d.input (cur + l) 2) v)
  | zeros (l : Nat) : ({ d with cur := cur } : Decompressor).peekSymbol x = .symbol 17 l →
      cur + l + 3 ≤ d.valid → LengthsAt x d cur seq (cur + l + 3) (List.replicate (3 + bitsAt d.input (cur + l) 3) 0)
  | manyZeros (l : Nat) : ({ d with cur := cur } : Decompressor).peekSymbol x = .symbol 18 l →
      cur + l + 7 ≤ d.valid → LengthsAt x d cur seq (cur + l + 7) (List.replicate (11 + bitsAt d.input (cur + l) 7) 0)

/-- The lengths read from the decompressor's cursor on, never more than `total`, and where the cursor is then. -/
inductive LengthsRead (x : DecTable) (d : Decompressor) (total : Nat) : Nat → List Nat → Prop where
  | start : LengthsRead x d total d.cur []
  | more (cur cur' : Nat) (seq added : List Nat) : LengthsRead x d total cur seq → seq.length < total →
      LengthsAt x d cur seq cur' added → (seq ++ added).length ≤ total → LengthsRead x d total cur' (seq ++ added)

/-! ## The two contexts -/

/-- A sound decompressor (spec/10_state.md R37, R51, R53, spec/20_memory.md R101, spec/45_block_reader.md R482). -/
structure Decompressor.Sound (d : Decompressor) : Prop where
  total   : d.total = d.out.length
  drained : d.drained ≤ d.out.length
  cursor  : d.cur ≤ d.valid
  histWf  : d.hist.wf = true
  hist    : ∀ p, p < d.out.length → d.out.length ≤ p + history → d.hist.read (p % history) = d.out[p]?
  check   : d.isOpen = true → d.check = checkOver d.format (checkInit d.format) d.out
  err     : d.state = .error ↔ d.err.isSome = true

/-- What each decompressor state may rely on (spec/10_state.md R52, spec/45_block_reader.md R497, R500, R501, R520). -/
structure Reader.Ready (r : Reader) : Prop where
  tables : r.d.state = .blockTables →
    257 ≤ r.d.hlit ∧ r.d.hlit ≤ 286 ∧ 1 ≤ r.d.hdist ∧ r.d.hdist ≤ 30 ∧ r.dec.metasym.verdict.sound = true
  compressed : r.d.state = .blockCompressed →
    r.dec.runLit.verdict.sound = true ∧ usableFor .dist r.dec.dist.verdict = true
  stored : r.d.state = .blockUncompressed → r.d.cur % 8 = 0

/-- The cursor is the hardware form of `D_IN` (spec/45_block_reader.md R480, spec/40_bit_io.md R242): it retains a suffix of the
input, and its pointer is not past `D_CUR`. -/
structure CursorAgrees (d : Decompressor) (k : Cursor) : Prop where
  retained : k.count ≤ d.valid
  suffix   : k.buf.take (k.count / 8) = d.input.drop ((d.valid - k.count) / 8)
  pointer  : d.valid - k.count + k.ptr ≤ d.cur

/-- The compressor's registers are what `C.NEW` and `C.PUSH` make them (spec/10_state.md R34, R37, R39, R41, R42). -/
structure Compressor.Sound (c : Compressor) : Prop where
  exp     : 8 ≤ c.cfg.exp.toNat ∧ (c.cfg.format = .raw → c.cfg.exp = 15)
  goal    : 1 ≤ c.cfg.goal.toNat ∧ c.cfg.goal.toNat ≤ 258
  sweeps  : 1 ≤ c.cfg.iterations.toNat ∧ c.cfg.iterations.toNat ≤ 6
  hint    : c.cfg.hint ≠ 0
  parsed  : c.parsed ≤ c.input.length
  check   : c.check = checkOver c.cfg.format (checkInit c.cfg.format) c.input
  isize   : c.isize = word c.input.length
  last    : c.last = true ↔ c.state = .finished
  limit   : c.limit = limitAfter referenceParams c.graphs

/-! ## The invariants of the core -/

/-- The sink is sound once it is open. -/
def State.SinkOk (s : State) : Prop := s.bs.isOpen = true → s.bs.Sound

/-- The window is sound. -/
def State.WindowOk (s : State) : Prop := s.wn.Sound

/-- The terms are in their ranges, the graph is sound, the depth and encode tables have their sizes. -/
structure State.TermsOk (s : State) : Prop where
  terms : ∀ t ∈ s.tv, t.Valid
  graph : s.mg.Sound
  depth : s.dt.sized = true
  enc   : s.enc.Sized

/-- The compressor is sound once it is open. -/
def State.CompressorOk (s : State) : Prop := s.c.isOpen = true → s.c.Sound

/-- The cursor is sound once it is open. -/
def State.CursorOk (s : State) : Prop := s.bc.isOpen = true → s.bc.Sound

/-- The decode tables are sound. -/
def State.TablesOk (s : State) : Prop :=
  s.dec.runLit.Sound .runLit ∧ s.dec.dist.Sound .dist ∧ s.dec.metasym.Sound .metasym

/-- The decompressor is sound, and the cursor agrees with a stream in progress, unless the host has changed the cursor or the
tables under it (spec/70_reset_and_hazards.md R652). -/
def State.ReaderOk (s : State) : Prop :=
  s.d.disturbed = true ∨
    (s.d.Sound ∧ s.reader.Ready ∧ (s.d.streaming = true → CursorAgrees s.d s.bc))

/-- The units of an open context are open (spec/70_reset_and_hazards.md R641). -/
structure State.UnitsOpen (s : State) : Prop where
  compressor : s.c.isOpen = true → s.bs.isOpen = true ∧ s.wn.isOpen = true ∧ s.enc.runLit.isOpen = true
    ∧ s.enc.dist.isOpen = true ∧ s.enc.metasym.isOpen = true
  decompressor : s.d.isOpen = true → s.bc.isOpen = true ∧ s.dec.runLit.isOpen = true ∧ s.dec.dist.isOpen = true
    ∧ s.dec.metasym.isOpen = true

/-- A sound state: every unit is. -/
structure State.Sound (s : State) : Prop where
  sink       : s.SinkOk
  window     : s.WindowOk
  terms      : s.TermsOk
  compressor : s.CompressorOk
  cursor     : s.CursorOk
  tables     : s.TablesOk
  reader     : s.ReaderOk
  opened     : s.UnitsOpen

/-- The invariant of the core: sound, or stopped at a refusal, after which the spec fixes nothing (spec/60_exceptions.md R607). -/
def State.Inv (s : State) : Prop := s.refused = true ∨ s.Sound

/-- The compressor's stream is driven by `C.PUSH` alone, as spec/70_reset_and_hazards.md R652 asks for the stream properties: the
window has been fed exactly the input and has not run ahead of the next position's key. -/
structure State.DrivenAlone (s : State) : Prop where
  isOpen : s.c.isOpen = true
  fed    : s.wn.input = s.c.input
  near   : s.wn.inserted ≤ s.c.parsed + 4

/-! ## The opcode table, and what each command needs -/

/-- A row of spec/opcode_table.json: a command word `w` is a word of the row when `w &&& mask = bits`. -/
structure OpcodeRow where
  op   : Op
  bits : Word
  mask : Word
deriving DecidableEq, Repr

/-- The rows of spec/opcode_table.json ("match" and "mask"), in its order. -/
def opcodeTable : List OpcodeRow :=
  [⟨.bsInit, 0x10000000, 0xFFFFFFFF⟩, ⟨.bsAppend, 0x11000000, 0xFFE00000⟩, ⟨.bsPad, 0x12000000, 0xFFFFFFFF⟩, ⟨.bsPull, 0x13000000, 0xFFFFFFFF⟩, ⟨.bsPop, 0x14000000, 0xFFFFFFFF⟩] ++
  [⟨.bcNew, 0x20000000, 0xFF000000⟩, ⟨.bcRebase, 0x21000000, 0xFF000000⟩, ⟨.bcRead, 0x22000000, 0xFFFFFFE0⟩, ⟨.hfBuild, 0x30000000, 0xFF0FFE00⟩, ⟨.hfLoad, 0x31000000, 0xFFFCFE00⟩] ++
  [⟨.hfEncode, 0x32000000, 0xFFFCFE00⟩, ⟨.hfDecode, 0x33000000, 0xFFFCFFE0⟩, ⟨.wnInit, 0x40000000, 0xFFFFFFF0⟩, ⟨.wnUpdate, 0x41000000, 0xFFFFFF00⟩, ⟨.wnMatch, 0x42000000, 0xFFFFFFFF⟩] ++
  [⟨.wnMatchd, 0x43000000, 0xFFFFFFFF⟩, ⟨.wnFeed, 0x44000000, 0xFF000000⟩, ⟨.tmMap, 0x50000000, 0xFFFFFFFF⟩, ⟨.tmStep, 0x51000000, 0xFFFFFFFF⟩, ⟨.tmGraph, 0x52000000, 0xFF000000⟩] ++
  [⟨.tmMinimize, 0x53000000, 0xFFFFFFFF⟩, ⟨.tmGeneralize, 0x54000000, 0xFFFFFFFF⟩, ⟨.bwDynamic, 0x60000000, 0xFFFFFFFE⟩, ⟨.bwStored, 0x61000000, 0xFF000000⟩, ⟨.brStep, 0x70000000, 0xFFFFFFFF⟩] ++
  [⟨.cNew, 0x80000000, 0xFF3000FF⟩, ⟨.cPush, 0x81000000, 0xFF000000⟩, ⟨.cPop, 0x82000000, 0xFFFFFFFF⟩, ⟨.cPull, 0x83000000, 0xFFFFFFFF⟩, ⟨.dNew, 0x88000000, 0xFF3FFFFF⟩] ++
  [⟨.dPush, 0x89000000, 0xFF000000⟩, ⟨.dPulln, 0x8A000000, 0xFFFFFFFF⟩, ⟨.dPull, 0x8B000000, 0xFFFFFFFF⟩, ⟨.ckAdler, 0x90000000, 0xFF000000⟩, ⟨.ckCrc32, 0x91000000, 0xFF000000⟩]

/-- A word is a legal word of a row: the opcode matches and no reserved bit is set (spec/30_encoding.md R141, R147). -/
def OpcodeRow.holds (r : OpcodeRow) (w : Word) : Bool := w &&& r.mask == r.bits

/-- A word has the opcode of a row (spec/30_encoding.md R148). -/
def OpcodeRow.sameOpcode (r : OpcodeRow) (w : Word) : Bool := w >>> 24 == r.bits >>> 24

/-- The ranges of a term word (spec/30_encoding.md R144). -/
def legalTermWord (w : Word) : Bool :=
  let v := w.toNat
  decide (v < 256)
    || (decide (2 ^ 31 ≤ v ∧ v < 2 ^ 31 + 2 ^ 25) && decide (3 ≤ v / 2 ^ 16 % 2 ^ 9 ∧ v / 2 ^ 16 % 2 ^ 9 ≤ 258)
      && decide (1 ≤ v % 2 ^ 16 ∧ v % 2 ^ 16 ≤ 32768))

/-- The size of the table a selector names (spec/30_encoding.md R142); the selector 3 names none. -/
def selectedSize (t : BitVec 2) : Nat := if t = 0 then 288 else if t = 1 then 32 else if t = 2 then 19 else 0

/-- Every operand of the command is in the range spec/30_encoding.md R149, R150 and its own rule give it. -/
def operandsLegal (i : Instr) : Bool :=
  match i with
  | .bsInit hint => hint != 0
  | .bsAppend count _ => decide (count.toNat ≤ 16)
  | .bcRead width _ => decide (width.toNat ≤ 16)
  | .hfBuild maxlen freqs =>
    maxlen != 0 && decide (1 ≤ freqs.length ∧ freqs.length ≤ 288)
      && decide (max (usedCount (freqs.map BitVec.toNat)) 2 ≤ 2 ^ maxlen.toNat)
  | .hfLoad t lengths => t != 3 && decide (lengths.length ≤ selectedSize t) && lengths.all (fun b => decide (b.toNat ≤ 15))
  | .hfEncode t sym => t != 3 && decide (sym.toNat < selectedSize t)
  | .hfDecode t avail _ => t != 3 && decide (avail.toNat ≤ 16)
  | .wnInit exp => decide (8 ≤ exp.toNat)
  | .tmMap term => legalTermWord term
  | .tmGraph n => n != 0
  | .bwStored _ bytes => decide (bytes.length ≤ 65535)
  | .cNew format exp _ hint => format != 3 && decide (8 ≤ exp.toNat) && hint != 0
  | .dNew format => format != 3
  | .bsPad | .bsPull | .bsPop | .bcNew _ | .bcRebase _ _ | .wnUpdate _ | .wnMatch _ _ _ | .wnMatchd _ _ _ | .wnFeed _
  | .tmStep | .tmMinimize | .tmGeneralize | .bwDynamic _ | .brStep | .cPush _ _ | .cPop | .cPull | .dPush _
  | .dPulln _ | .dPull | .ckAdler _ _ | .ckCrc32 _ _ => true

/-- The encode table of a selector is open; the selector 3 names none. -/
def encOpen (s : State) (t : BitVec 2) : Bool :=
  if t = 0 then s.enc.runLit.isOpen else if t = 1 then s.enc.dist.isOpen else if t = 2 then s.enc.metasym.isOpen else true

/-- The decode table of a selector is open; the selector 3 names none. -/
def decOpen (s : State) (t : BitVec 2) : Bool :=
  if t = 0 then s.dec.runLit.isOpen else if t = 1 then s.dec.dist.isOpen else if t = 2 then s.dec.metasym.isOpen else true

/-- The unit or context the command needs is open (spec/70_reset_and_hazards.md R641, the table's third column). -/
def needsMet (i : Instr) (s : State) : Bool :=
  match i with
  | .cPush _ _ | .cPop | .cPull | .tmStep | .tmGraph _ | .tmMinimize | .tmGeneralize | .bwDynamic _ => s.c.isOpen
  | .dPush _ | .dPulln _ | .dPull | .brStep => s.d.isOpen
  | .bsAppend _ _ | .bsPad | .bsPull | .bsPop | .bwStored _ _ => s.bs.isOpen
  | .bcRebase _ _ | .bcRead _ _ => s.bc.isOpen
  | .wnUpdate _ | .wnMatch _ _ _ | .wnMatchd _ _ _ | .wnFeed _ => s.wn.isOpen
  | .hfEncode t _ => encOpen s t
  | .hfDecode t _ _ => decOpen s t
  | .hfBuild _ _ | .tmMap _ | .ckAdler _ _ | .ckCrc32 _ _ | .cNew _ _ _ _ | .dNew _ | .bsInit _ | .bcNew _ | .wnInit _
  | .hfLoad _ _ => true

/-- The commands that write the units of the compressor's side only (spec/10_state.md R30). -/
def compressorSide (i : Instr) : Bool :=
  match i with
  | .bsInit _ | .bsAppend _ _ | .bsPad | .bsPull | .bsPop | .wnInit _ | .wnUpdate _ | .wnMatch _ _ _ | .wnMatchd _ _ _
  | .wnFeed _ | .tmMap _ | .tmStep | .tmGraph _ | .tmMinimize | .tmGeneralize | .bwDynamic _ | .bwStored _ _
  | .cNew _ _ _ _ | .cPush _ _ | .cPop | .cPull | .hfEncode _ _ => true
  | .bcNew _ | .bcRebase _ _ | .bcRead _ _ | .hfBuild _ _ | .hfLoad _ _ | .hfDecode _ _ _ | .brStep | .dNew _ | .dPush _
  | .dPulln _ | .dPull | .ckAdler _ _ | .ckCrc32 _ _ => false

/-- The commands that write the units of the decompressor's side only (spec/10_state.md R30). -/
def decompressorSide (i : Instr) : Bool :=
  match i with
  | .bcNew _ | .bcRebase _ _ | .bcRead _ _ | .hfDecode _ _ _ | .brStep | .dNew _ | .dPush _ | .dPulln _ | .dPull => true
  | .bsInit _ | .bsAppend _ _ | .bsPad | .bsPull | .bsPop | .wnInit _ | .wnUpdate _ | .wnMatch _ _ _ | .wnMatchd _ _ _
  | .wnFeed _ | .tmMap _ | .tmStep | .tmGraph _ | .tmMinimize | .tmGeneralize | .bwDynamic _ | .bwStored _ _
  | .cNew _ _ _ _ | .cPush _ _ | .cPop | .cPull | .hfBuild _ _ | .hfLoad _ _ | .hfEncode _ _ | .ckAdler _ _
  | .ckCrc32 _ _ => false

/-- The command is `HF.LOAD` of the table the selector names. -/
def loadsTable (i : Instr) (k : BitVec 2) : Bool :=
  match i with
  | .hfLoad t _ => t == k
  | _ => false

/-! ## Outcomes -/

/-- The command was accepted: it ended in a next state with a status other than `REFUSED`. -/
def Accepts (i : Instr) (s t : State) : Prop := exec i s = .next t ∧ t.status ≠ .refused

/-- The outcome is a refusal with the given reason: `STATUS`, `RES[0]` and the sticky flag say so (spec/60_exceptions.md R607). -/
def Refuses (o : Host.Outcome State Fault Refusal) (r : Reason) : Prop :=
  ∃ t, o = .next t ∧ t.status = .refused ∧ t.res = [r.code] ∧ t.refused = true

/-- The same compressor side (spec/10_state.md R30). -/
structure SameCompressor (s t : State) : Prop where
  c   : s.c = t.c
  bs  : s.bs = t.bs
  wn  : s.wn = t.wn
  tv  : s.tv = t.tv
  mg  : s.mg = t.mg
  dt  : s.dt = t.dt
  enc : s.enc = t.enc

/-- The same decompressor side (spec/10_state.md R30). -/
structure SameDecompressor (s t : State) : Prop where
  d   : s.d = t.d
  bc  : s.bc = t.bc
  dec : s.dec = t.dec

/-- The same results of a command (spec/10_state.md R36); of a refused command only the status and the reason are fixed
(spec/60_exceptions.md R607). -/
structure SameResults (s t : State) : Prop where
  status  : s.status = t.status
  res     : s.res = t.res
  dataOut : s.status ≠ .refused → s.dataOut = t.dataOut

/-- Two states that agree on everything open, and on the model's counter of free values; whatever the registers of what is not open
hold (spec/70_reset_and_hazards.md R640, R641). -/
structure AgreeOpen (s t : State) : Prop where
  refused : s.refused = t.refused
  free    : s.free = t.free
  cState  : s.c.state = t.c.state
  dState  : s.d.state = t.d.state
  bsOpen  : s.bs.isOpen = t.bs.isOpen
  bcOpen  : s.bc.isOpen = t.bc.isOpen
  wnOpen  : s.wn.isOpen = t.wn.isOpen
  encOpen : ∀ k : Table, (s.enc.get k).isOpen = (t.enc.get k).isOpen
  decOpen : ∀ k : Table, (s.dec.get k).isOpen = (t.dec.get k).isOpen
  c       : s.c.isOpen = true → s.c = t.c ∧ s.tv = t.tv ∧ s.mg = t.mg ∧ s.dt = t.dt
  d       : s.d.isOpen = true → s.d = t.d
  bs      : s.bs.isOpen = true → s.bs = t.bs
  bc      : s.bc.isOpen = true → s.bc = t.bc
  wn      : s.wn.isOpen = true → s.wn = t.wn
  enc     : ∀ k : Table, (s.enc.get k).isOpen = true → s.enc.get k = t.enc.get k
  dec     : ∀ k : Table, (s.dec.get k).isOpen = true → s.dec.get k = t.dec.get k

/-- State steps that answered `OK`, one after another (spec/45_block_reader.md R486, spec/46_stream_interface.md R551). -/
inductive OkSteps : Reader → Reader → Prop where
  | here (r : Reader) : OkSteps r r
  | step (r r' : Reader) (a : StepAnswer) : brStep r = .ok a → a.status = .ok → OkSteps a.reader r' → OkSteps r r'

/-- `D.PUSH` of one piece of input after another, none refused (spec/45_block_reader.md R530). -/
inductive Pushes : State → List (List Byte) → State → Prop where
  | done (s : State) : Pushes s [] s
  | push (s t u : State) (bytes : List Byte) (rest : List (List Byte)) :
      Accepts (.dPush bytes) s t → Pushes t rest u → Pushes s (bytes :: rest) u

/-- Two states hold the same decoded stream (spec/45_block_reader.md R530): everything but the input held, the
cursor over it and the result words. -/
structure SameDecoding (s t : State) : Prop where
  status     : s.status = t.status
  dec        : s.dec = t.dec
  state      : s.d.state = t.d.state
  cur        : s.d.cur = t.d.cur
  out        : s.d.out = t.d.out
  drained    : s.d.drained = t.d.drained
  total      : s.d.total = t.d.total
  check      : s.d.check = t.d.check
  hist       : s.d.hist = t.d.hist
  final      : s.d.final = t.d.final
  btype      : s.d.btype = t.d.btype
  hlit       : s.d.hlit = t.d.hlit
  hdist      : s.d.hdist = t.d.hdist
  hclen      : s.d.hclen = t.d.hclen
  storedLeft : s.d.storedLeft = t.d.storedLeft
  err        : s.d.err = t.d.err

/-- Where a block ends (spec/45_block_reader.md R516). -/
def afterBlock (d : Decompressor) : DState :=
  if d.final then (if d.format = .raw then .streamEnd else .streamChecksum) else .blockStart

end Sys2Proof.Machine
end

