-- ==== Sys2Proof/Certificates/Slice0/Obligations.lean ====
section
/-! DEFINITION. The statements about the core, for the provers. Each docstring names the rules of the spec the statement formalises; a
clause that is the model's own names its log entry. -/

section Statements

open Sys2Proof Sys2Proof.Machine

/-! ## Encoding and stepping -/

/-- Words written out from spec/30_encoding.md R141, R147 (and spec/95_test_vectors.md) decode to the commands they stand for. -/
def Obligations.DecodeWords : Prop :=
  decode [0x10000000, 16] [] = .command (.bsInit 16) [] []
    ∧ decode [0x11030005] [] = .command (.bsAppend 3 5) [] []
    ∧ decode [0x21000001, 20] [0x01] = .command (.bcRebase [0x01] 20) [] []
    ∧ decode [0x22000005, 6] [] = .command (.bcRead 5 6) [] []
    ∧ decode [0x30F00004, 1, 1, 2, 2] [] = .command (.hfBuild 15 [1, 1, 2, 2]) [] []
    ∧ decode [0x31020004] [2, 1, 3, 3] = .command (.hfLoad 2 [2, 1, 3, 3]) [] []
    ∧ decode [0x33020005, 1] [] = .command (.hfDecode 2 5 1) [] []
    ∧ decode [0x42000000, 12, 8, 258] [] = .command (.wnMatch 12 8 258) [] []
    ∧ decode [0x50000000, 0x800C0004] [] = .command (.tmMap 0x800C0004) [] []
    ∧ decode [0x60000001] [] = .command (.bwDynamic true) [] []
    ∧ decode [0x61800001] [0x41] = .command (.bwStored true [0x41]) [] []
    ∧ decode [0x70000000] [] = .command .brStep [] []
    ∧ decode [0x804F0C00, 64] [] = .command (.cNew 1 15 12 64) [] []
    ∧ decode [0x88800000] [] = .command (.dNew 2) [] []
    ∧ decode [0x90000003, 1] [0x41, 0x42, 0x43] = .command (.ckAdler [0x41, 0x42, 0x43] 1) [] []

/-- Decoding what a well-formed command encodes to gives the command back, with its payload, and leaves the rest of both ports
(spec/30_encoding.md R140, R141, R148, R149). -/
def Obligations.DecodeEncode : Prop :=
  ∀ (i : Instr) (words : List Word) (bytes : List Byte), i.wellFormed = true →
    decode (encode i ++ words) (i.payload ++ bytes) = .command i words bytes

/-- A command read from the ports is well formed, and what was taken from the ports is exactly its encoding and its payload
(spec/30_encoding.md R140, R148, R149): no other word decodes to it. -/
def Obligations.EncodeDecode : Prop :=
  ∀ (words : List Word) (bytes : List Byte) (i : Instr) (words' : List Word) (bytes' : List Byte),
    decode words bytes = .command i words' bytes' →
    i.wellFormed = true ∧ words = encode i ++ words' ∧ bytes = i.payload ++ bytes'

/-- spec/30_encoding.md R150: an opcode of no row of spec/opcode_table.json is refused as `ILLEGAL`, a listed opcode with a reserved
bit set as `OPERAND`; a command with an operand outside its legal range is refused as `OPERAND`, and a legal command on a unit or
context that is not open as `NO_INSTANCE`. Where both fail the operand decides (spec/60_exceptions.md R605, R621), but on two commands,
whose own pseudocode lists the unit first: an oversized `BW.STORED` with no sink (spec/44_block_writer.md R448) and `TM.GRAPH 0` with no
compressor (spec/43_term_strategies.md R392) are refused as `NO_INSTANCE`. (That the commands' pseudocode decides there, and not the
last sentence of R605, is the model's inference: log entry 4.) -/
def Obligations.IllegalEncodingsRefused : Prop :=
  (∀ (s : State) (w : Word) (rest : List Word), s.refused = false → s.cmdIn = w :: rest →
    (∀ r ∈ opcodeTable, r.sameOpcode w = false) → Refuses (step s) .illegal)
  ∧ (∀ (s : State) (w : Word) (rest : List Word), s.refused = false → s.cmdIn = w :: rest →
    (∃ r ∈ opcodeTable, r.sameOpcode w = true ∧ r.holds w = false) → Refuses (step s) .operand)
  ∧ (∀ (i : Instr) (s : State), operandsLegal i = false → (needsMet i s = true ∨ i.op ∉ [.bwStored, .tmGraph]) →
    Refuses (exec i s) .operand)
  ∧ (∀ (i : Instr) (s : State), operandsLegal i = false → needsMet i s = false → i.op ∈ [.bwStored, .tmGraph] →
    Refuses (exec i s) .noInstance)
  ∧ (∀ (i : Instr) (s : State), operandsLegal i = true → needsMet i s = false → Refuses (exec i s) .noInstance)

/-- One step: when the ports hold a whole command, the command is taken from the ports and executed; when they do not yet, nothing
changes; a bad command word is taken and refused; after a refusal the model takes no step (spec/00_scope.md R12,
spec/30_encoding.md R140, R148, spec/70_reset_and_hazards.md R642, spec/60_exceptions.md R607; log entries 1 and 3). -/
def Obligations.StepRunsCommand : Prop :=
  (∀ (s : State) (i : Instr) (words : List Word) (bytes : List Byte), s.refused = false → i.wellFormed = true →
    decode s.cmdIn s.dataIn = .command i words bytes → step s = exec i { s with cmdIn := words, dataIn := bytes })
  ∧ (∀ s : State, s.refused = false → decode s.cmdIn s.dataIn = .incomplete → step s = .next s)
  ∧ (∀ (s : State) (why : BadEncoding) (words : List Word), s.refused = false → decode s.cmdIn s.dataIn = .bad why words →
    ∃ t, step s = .next t ∧ t.status = .refused ∧ t.refused = true ∧ t.cmdIn = words ∧ t.dataIn = s.dataIn)
  ∧ (∀ s : State, s.refused = true → step s = .refused .afterRefusal)

/-! ## Power-on -/

/-- What spec/70_reset_and_hazards.md R640 gives for power-on: no stream, no unit and no table open, nothing refused, nothing on the
ports (R642); and the state is sound. (That it is sound rests also on the values of the units that are not open, which R640 calls
unspecified and the model chooses: log entry 6.) -/
def Obligations.PowerOn : Prop :=
  State.reset.c.state = .closed ∧ State.reset.d.state = .closed ∧ State.reset.refused = false
    ∧ State.reset.bs.isOpen = false ∧ State.reset.bc.isOpen = false ∧ State.reset.wn.isOpen = false
    ∧ State.reset.enc.runLit.isOpen = false ∧ State.reset.enc.dist.isOpen = false ∧ State.reset.enc.metasym.isOpen = false
    ∧ State.reset.dec.runLit.isOpen = false ∧ State.reset.dec.dist.isOpen = false ∧ State.reset.dec.metasym.isOpen = false
    ∧ State.reset.cmdIn = [] ∧ State.reset.dataIn = [] ∧ step State.reset = .next State.reset
    ∧ State.reset.Inv

/-- spec/70_reset_and_hazards.md R640: "No unspecified value is observable". Whatever the unspecified registers hold, a command issued
while nothing is open returns the status, result words and data-out bytes it returns right after `State.reset`, so the values the
model chose for them (log entry 6) cannot be told; and step by step, two states that agree on everything open answer every
command alike and agree again afterwards. -/
def Obligations.PowerOnValuesNotObservable : Prop :=
  (∀ (i : Instr) (s : State), s.c.state = .closed → s.d.state = .closed → s.bs.isOpen = false → s.bc.isOpen = false →
    s.wn.isOpen = false → (∀ t, t ≠ 3 → encOpen s t = false) → (∀ t, t ≠ 3 → decOpen s t = false) →
    ∃ t u, exec i s = .next t ∧ exec i State.reset = .next u ∧ SameResults t u)
  ∧ (∀ (i : Instr) (s t : State), s.UnitsOpen → AgreeOpen s t →
    (∀ s', exec i s = .next s' → ∃ t', exec i t = .next t' ∧ SameResults s' t' ∧ (s'.status ≠ .refused → AgreeOpen s' t'))
    ∧ (∀ f, exec i s = .fault f → exec i t = .fault f))

/-- spec/70_reset_and_hazards.md R641: a unit, table or context is opened by the commands the rule names and by no other, and stays
open; a command that needs one that is not open is refused; the commands that need nothing open never are for that reason. The premise is the invariant that the units of an open context are
open. -/
def Obligations.Opening : Prop :=
  (∀ (i : Instr) (s t : State), s.UnitsOpen → Accepts i s t →
    t.c.isOpen = (s.c.isOpen || i.op == .cNew)
    ∧ t.d.isOpen = (s.d.isOpen || i.op == .dNew)
    ∧ t.bs.isOpen = (s.bs.isOpen || i.op == .bsInit || i.op == .cNew)
    ∧ t.bc.isOpen = (s.bc.isOpen || i.op == .bcNew || i.op == .dNew)
    ∧ t.wn.isOpen = (s.wn.isOpen || i.op == .wnInit || i.op == .cNew)
    ∧ (∀ k : BitVec 2, k ≠ 3 → encOpen t k = (encOpen s k || i.op == .cNew || loadsTable i k))
    ∧ (∀ k : BitVec 2, k ≠ 3 → decOpen t k = (decOpen s k || i.op == .dNew || loadsTable i k)))
  ∧ (∀ (i : Instr) (s : State), operandsLegal i = true → needsMet i s = false → Refuses (exec i s) .noInstance)
  ∧ (∀ (i : Instr) (s : State),
    i.op ∈ [.hfBuild, .tmMap, .ckAdler, .ckCrc32, .cNew, .dNew, .bsInit, .bcNew, .wnInit, .hfLoad] →
    ¬ Refuses (exec i s) .noInstance)

/-! ## Refusals, errors, latched states -/

/-- Refusal (spec/60_exceptions.md R607, spec/10_state.md R37): a refused command leaves status `REFUSED`, exactly one result word,
one of the eight reason codes, and the flag `REFUSED` set; an accepted command leaves the flag as it was. The ports are the host's
and no meaning touches them (log entry 3). -/
def Obligations.RefusalRecorded : Prop :=
  (∀ (i : Instr) (s t : State), exec i s = .next t →
    (t.status = .refused → t.refused = true ∧ ∃ r : Reason, t.res = [r.code])
    ∧ (t.status ≠ .refused → t.refused = s.refused)
    ∧ t.cmdIn = s.cmdIn ∧ t.dataIn = s.dataIn)
  ∧ (∀ (i : Instr) (s : State) (r : Refusal), exec i s ≠ .refused r)
  ∧ (∀ r : Reason, 1 ≤ r.code.toNat ∧ r.code.toNat ≤ 8)

/-- Error entry, spec/60_exceptions.md R603: when a state step raises `e`, `D_ERR` and `D_STATE` change, the status is `e`, and nothing
else of the core changes: for `BR.STEP` nothing but the result interface, for `D.PUSH` nothing after the steps before it that
answered `OK`. (The premise that the host has not touched `BC` or `DEC_*` is spec/70_reset_and_hazards.md R652.) -/
def Obligations.ErrorEntryPrecise : Prop :=
  (∀ (s t : State) (e : DecodeError), s.d.disturbed = false → s.d.state ≠ .error → exec .brStep s = .next t →
    t.status = .error e →
    t = ({ s with d := { s.d with state := .error, err := some e } } : State).answer (.error e) [8] [])
  ∧ (∀ (s t : State) (e : DecodeError) (bytes : List Byte), s.d.disturbed = false → s.d.state ≠ .error →
    exec (.dPush bytes) s = .next t → t.status = .error e →
    ∃ r : Reader, OkSteps (s.feedReader bytes).reader r ∧ r.d.state ≠ .error
      ∧ t = ((s.feedReader bytes).withReader { r with d := { r.d with state := .error, err := some e } }).answer (.error e)
          [word (r.d.out.length - r.d.drained)] [])

/-- The stuck states. spec/60_exceptions.md R604: in `ERROR` every `BR.STEP` and `D.PUSH` returns the latched error and ignores its
input, `D.PULLN` and `D.PULL` still return what was emitted, and only `D.NEW` leaves the state. spec/45_block_reader.md R526: in
`STREAM_END` `D.PUSH` and `BR.STEP` return `FINISHED` and change nothing. -/
def Obligations.StuckStates : Prop :=
  (∀ (s : State) (e : DecodeError) (bytes : List Byte), s.d.disturbed = false → s.d.state = .error → s.d.err = some e →
    exec .brStep s = .next (s.answer (.error e) [] []) ∧ exec (.dPush bytes) s = .next (s.answer (.error e) [] [])
    ∧ exec .dPull s = .next (({ s with d := { s.d with drained := s.d.out.length } } : State).answer .ok
        [word (s.d.out.length - s.d.drained)] (s.d.out.drop s.d.drained))
    ∧ (∀ count : Word, count.toNat ≤ s.d.out.length - s.d.drained →
        exec (.dPulln count) s = .next (({ s with d := { s.d with drained := s.d.drained + count.toNat } } : State).answer .ok
          [count] ((s.d.out.drop s.d.drained).take count.toNat))))
  ∧ (∀ (i : Instr) (s t : State), s.d.disturbed = false → s.d.state = .error → Accepts i s t → i.op ≠ .dNew →
    t.d.state = .error ∧ t.d.err = s.d.err ∧ t.d.out = s.d.out)
  ∧ (∀ (s : State) (bytes : List Byte), s.d.disturbed = false → s.d.state = .streamEnd →
    exec .brStep s = .next (s.answer .finished [7] []) ∧ exec (.dPush bytes) s = .next (s.answer .finished [] []))

/-- spec/45_block_reader.md R485: the transitions of `D_STATE`, all of them, with the conditions under which each is taken; a step
that runs out of input changes nothing (R481); and no command but `D.NEW`, `D.PUSH` and `BR.STEP` moves the state. -/
def Obligations.Transitions : Prop :=
  (∀ s t : State, s.d.disturbed = false → Accepts .brStep s t →
    (t.status = .needInput → t.d = s.d ∧ t.dec = s.dec)
    ∧ (∀ e, t.status = .error e → t.d.state = .error)
    ∧ (t.status = .ok ∨ t.status = .finished →
        (s.d.state = .streamStart ∧ t.d.state = .blockStart)
        ∨ (s.d.state = .blockStart ∧ t.d.state = .blockTables ∧ t.d.btype = 2)
        ∨ (s.d.state = .blockStart ∧ t.d.state = .blockCompressed ∧ t.d.btype = 1)
        ∨ (s.d.state = .blockStart ∧ t.d.state = .blockUncompressed ∧ t.d.btype = 0)
        ∨ (s.d.state = .blockTables ∧ t.d.state = .blockCompressed)
        ∨ (s.d.state = .blockCompressed ∧ (t.d.state = .blockCompressed ∨ t.d.state = afterBlock s.d))
        ∨ (s.d.state = .blockUncompressed ∧ (t.d.state = .blockUncompressed ∨ t.d.state = afterBlock s.d))
        ∨ (s.d.state = .streamChecksum ∧ t.d.state = .streamEnd)
        ∨ (s.d.state = .streamEnd ∧ t.d.state = .streamEnd))
    ∧ (t.status = .finished ↔ t.d.state = .streamEnd)
    ∧ (t.status = .ok ∨ t.status = .finished ∨ t.status = .needInput ∨ ∃ e, t.status = .error e))
  ∧ (∀ (i : Instr) (s t : State), s.d.disturbed = false → Accepts i s t → i.op ≠ .dNew → i.op ≠ .dPush → i.op ≠ .brStep →
    t.d.state = s.d.state)

/-- spec/60_exceptions.md R600 and R609: no command of the compressor, of the units or of the checksums returns an error code, the
draining commands of an undisturbed decompressor do not either, and `NEED_OUTPUT` is never returned. -/
def Obligations.OnlyTheReaderRaises : Prop :=
  (∀ (i : Instr) (s t : State) (e : DecodeError), exec i s = .next t → t.status = .error e →
    i.op = .brStep ∨ i.op = .dPush ∨ ((i.op = .dPulln ∨ i.op = .dPull) ∧ s.d.disturbed = true))
  ∧ (∀ (i : Instr) (s t : State), exec i s = .next t → t.status ≠ .needOutput)

/-- spec/45_block_reader.md R530: for any split of the same input bytes into pushes, the bytes emitted, the final state and the error
raised (if any) are the same, and so is every other register of the decoded stream. -/
def Obligations.ReaderChunkingIndependence : Prop :=
  ∀ (s t u : State) (a b : List (List Byte)), s.Sound → s.d.isOpen = true → s.d.disturbed = false → a ≠ [] → b ≠ [] →
    a.flatten = b.flatten → Pushes s a t → Pushes s b u → SameDecoding t u

/-! ## Invariants -/

/-- The invariant of the core is kept by every step, from every state that meets it. -/
def Obligations.StepKeepsInv : Prop := ∀ s t : State, s.Inv → step s = .next t → t.Inv

/-- spec/60_exceptions.md R608: no rule reads an internal memory unit before writing it. From every state that meets the invariant, no
step stops at a model fault. -/
def Obligations.NeverFaults : Prop := ∀ (s : State) (f : Fault), s.Inv → step s ≠ .fault f

/-- The registers of the stream positions (spec/10_state.md R40, R41, R53): `C_PARSED` only increases, what was emitted by the
decompressor stays, and for greedy and lazy `C_EMITTED + C_TERMS_BYTES = C_PARSED` is kept by every command but the graph commands
of the other strategy issued by hand. -/
def Obligations.Positions : Prop :=
  (∀ (i : Instr) (s t : State), Accepts i s t → i.op ≠ .cNew → s.c.parsed ≤ t.c.parsed)
  ∧ (∀ (i : Instr) (s t : State), Accepts i s t → i.op ≠ .dNew → s.d.disturbed = false → ∃ more, t.d.out = s.d.out ++ more)
  ∧ (∀ (i : Instr) (s t : State), Accepts i s t → i.op ≠ .tmGraph → i.op ≠ .tmMinimize →
    (s.c.cfg.strategy ≠ .full → s.c.emitted + s.c.termsBytes = s.c.parsed) →
    t.c.cfg.strategy ≠ .full → t.c.emitted + t.c.termsBytes = t.c.parsed)

/-! ## The bit sink -/

/-- `BS.INIT` (spec/40_bit_io.md R230), in every state. -/
def Obligations.BsInit : Prop :=
  ∀ (hint : Word) (s : State),
    encode (.bsInit hint) = [0x10000000, hint]
    ∧ (hint = 0 → Refuses (exec (.bsInit hint) s) .operand)
    ∧ (hint ≠ 0 → exec (.bsInit hint) s = .next (({ s with
        bs := { isOpen := true, done := [], acc := 0, nacc := 0, queue := [], hint := hint.toNat } } : State).answer .ok [] []))

/-- `BS.APPEND` and the chunk release after it (spec/40_bit_io.md R231, R232): the low `count` bits of `bits` join the stream, least
significant first; afterwards every chunk holds `BS_HINT` bytes, fewer than `BS_HINT` complete bytes wait, and new chunks stand
behind the old ones; `count = 0` changes nothing; nothing but the sink and the result interface changes. -/
def Obligations.BsAppend : Prop :=
  ∀ (count : BitVec 5) (bits : BitVec 16) (s : State),
    encode (.bsAppend count bits) = [word (0x11000000 + count.toNat * 2 ^ 16 + bits.toNat)]
    ∧ (16 < count.toNat → Refuses (exec (.bsAppend count bits) s) .operand)
    ∧ (count.toNat ≤ 16 → s.bs.isOpen = true → s.bs.Sound →
        ∃ k : Sink, exec (.bsAppend count bits) s = .next (({ s with bs := k } : State).answer .ok [] [])
          ∧ k.stream = s.bs.stream ++ lowBits count.toNat bits.toNat
          ∧ (∀ c ∈ k.queue, c.length = k.hint) ∧ k.done.length < k.hint ∧ (∃ new, k.queue = s.bs.queue ++ new)
          ∧ k.Sound ∧ k.isOpen = true ∧ k.hint = s.bs.hint ∧ (count = 0 → k = s.bs))

/-- `BS.PAD` (spec/40_bit_io.md R233): zero bits up to the next byte boundary, none on an aligned sink. -/
def Obligations.BsPad : Prop :=
  ∀ s : State,
    encode .bsPad = [0x12000000]
    ∧ (s.bs.isOpen = true → s.bs.Sound →
        ∃ k : Sink, exec .bsPad s = .next (({ s with bs := k } : State).answer .ok [] [])
          ∧ k.stream = s.bs.stream ++ padding s.bs.stream.length ∧ k.nacc = 0
          ∧ k.Sound ∧ k.isOpen = true ∧ k.hint = s.bs.hint ∧ (s.bs.nacc = 0 → k = s.bs))

/-- `BS.PULL` (spec/40_bit_io.md R234): everything buffered goes out, the partial byte padded with zero bits, and the sink is empty. -/
def Obligations.BsPull : Prop :=
  ∀ s : State,
    encode .bsPull = [0x13000000]
    ∧ (s.bs.isOpen = true → s.bs.Sound →
        ∃ out : List Byte, exec .bsPull s = .next (({ s with
            bs := { s.bs with queue := [], done := [], acc := 0, nacc := 0 } } : State).answer .ok [word out.length] out)
          ∧ bitsOfBytes out = s.bs.stream ++ padding s.bs.stream.length)

/-- `BS.POP`, `C.POP` and `C.PULL` (spec/40_bit_io.md R235, spec/46_stream_interface.md R546, R547): the oldest chunk; with no chunk
queued the pops return `NONE` and `C.PULL` the complete bytes, keeping the partial byte. -/
def Obligations.PopAndPull : Prop :=
  ∀ s : State,
    encode .bsPop = [0x14000000] ∧ encode .cPop = [0x82000000] ∧ encode .cPull = [0x83000000]
    ∧ (s.bs.isOpen = true → s.bs.queue = [] → exec .bsPop s = .next (s.answer .noResult [] []))
    ∧ (∀ c rest, s.bs.isOpen = true → s.bs.queue = c :: rest →
        exec .bsPop s = .next (({ s with bs := { s.bs with queue := rest } } : State).answer .ok [word c.length] c))
    ∧ (s.c.state = .closed → Refuses (exec .cPop s) .noInstance ∧ Refuses (exec .cPull s) .noInstance)
    ∧ (s.c.state ≠ .closed → s.bs.queue = [] → exec .cPop s = .next (s.answer .noResult [] []))
    ∧ (∀ c rest, s.c.state ≠ .closed → s.bs.queue = c :: rest →
        exec .cPop s = .next (({ s with bs := { s.bs with queue := rest } } : State).answer .ok [word c.length] c)
        ∧ exec .cPull s = .next (({ s with bs := { s.bs with queue := rest } } : State).answer .ok [word c.length] c))
    ∧ (s.c.state ≠ .closed → s.bs.queue = [] → exec .cPull s =
        .next (({ s with bs := { s.bs with done := [] } } : State).answer .ok [word s.bs.done.length] s.bs.done))

/-! ## The bit cursor -/

/-- `BC.NEW` (spec/40_bit_io.md R240, R244): the bytes and 48 zero bits; of the rest of the core only the model's own mark `disturbed`
of the decompressor may change (spec/70_reset_and_hazards.md R652; log entry 8). -/
def Obligations.BcNew : Prop :=
  ∀ (bytes : List Byte) (s : State), encode (.bcNew bytes) = [word (0x20000000 + bytes.length)]
    ∧ ∃ t : State, exec (.bcNew bytes) s = .next t
    ∧ t.bc = { isOpen := true, buf := bytes ++ [0, 0, 0, 0, 0, 0], count := 8 * bytes.length, ptr := 0 }
    ∧ t = ({ s with bc := t.bc, d := { s.d with disturbed := t.d.disturbed } } : State).answer .ok [] []

/-- `BC.REBASE` (spec/40_bit_io.md R241, R244): the whole units before the pointer go, the data is appended, the padding is zero again,
and the bit that was at `pointer` is at `BC_PTR`. -/
def Obligations.BcRebase : Prop :=
  ∀ (data : List Byte) (pointer : Word) (s : State), s.bc.isOpen = true →
    encode (.bcRebase data pointer) = [word (0x21000000 + data.length), pointer]
    ∧ (pointer.toNat < s.bc.ptr ∨ s.bc.count < pointer.toNat → Refuses (exec (.bcRebase data pointer) s) .operand)
    ∧ (s.bc.ptr ≤ pointer.toNat → pointer.toNat ≤ s.bc.count → s.bc.Sound →
        ∃ t : State, exec (.bcRebase data pointer) s = .next t
          ∧ t = ({ s with bc := t.bc, d := { s.d with disturbed := t.d.disturbed } } : State).answer .ok [word t.bc.ptr] []
          ∧ t.bc.isOpen = true ∧ t.bc.Sound
          ∧ t.bc.count = s.bc.count - 16 * (pointer.toNat / 16) + 8 * data.length
          ∧ t.bc.ptr = pointer.toNat % 16
          ∧ t.bc.buf = (s.bc.buf.take (s.bc.count / 8)).drop (2 * (pointer.toNat / 16)) ++ data ++ [0, 0, 0, 0, 0, 0]
          ∧ (∀ j, pointer.toNat + j < s.bc.count → bitAt t.bc.buf (t.bc.ptr + j) = bitAt s.bc.buf (pointer.toNat + j)))

/-- `BC.READ` (spec/40_bit_io.md R243): bit `j` of the result is stream bit `offset + j`, zero at and beyond `BC_COUNT`; the three
refusals. (Every sound cursor holds its valid bytes; a read of a valid bit whose byte is not held is the model fault of
spec/60_exceptions.md R608.) -/
def Obligations.BcRead : Prop :=
  ∀ (width : BitVec 5) (offset : Word) (s : State),
    encode (.bcRead width offset) = [word (0x22000000 + width.toNat), offset]
    ∧ (16 < width.toNat → Refuses (exec (.bcRead width offset) s) .operand)
    ∧ (width.toNat ≤ 16 → s.bc.isOpen = true → offset.toNat < s.bc.ptr → Refuses (exec (.bcRead width offset) s) .discarded)
    ∧ (width.toNat ≤ 16 → s.bc.isOpen = true → s.bc.ptr ≤ offset.toNat → s.bc.count + 48 < offset.toNat + width.toNat →
        Refuses (exec (.bcRead width offset) s) .overread)
    ∧ (width.toNat ≤ 16 → s.bc.isOpen = true → s.bc.ptr ≤ offset.toNat → offset.toNat + width.toNat ≤ s.bc.count + 48 →
        ((∀ j, j < width.toNat → offset.toNat + j < s.bc.count → (offset.toNat + j) / 8 < s.bc.buf.length) →
          ∃ v : Word, exec (.bcRead width offset) s = .next (s.answer .ok [v] [])
            ∧ ∀ j, v.getLsbD j = (decide (j < width.toNat) && decide (offset.toNat + j < s.bc.count)
                && bitAt s.bc.buf (offset.toNat + j)))
        ∧ ((∃ j, j < width.toNat ∧ offset.toNat + j < s.bc.count ∧ s.bc.buf.length ≤ (offset.toNat + j) / 8) →
          exec (.bcRead width offset) s = .fault (.unwrittenUnit .bcbuf)))

/-! ## Huffman codes -/

/-- `HF.BUILD` (spec/41_huffman.md R270) with the reference builder (R272 to R275; log entry 11) in every state: the lengths on
data-out, their maximum in `RES[0]`, nothing else changed. -/
def Obligations.HfBuild : Prop :=
  ∀ (maxlen : BitVec 4) (freqs : List Word) (s : State), operandsLegal (.hfBuild maxlen freqs) = true →
    exec (.hfBuild maxlen freqs) s = .next (s.answer .ok
      [word (maxLen (referenceBuild (freqs.map BitVec.toNat) maxlen.toNat))]
      ((referenceBuild (freqs.map BitVec.toNat) maxlen.toNat).map (BitVec.ofNat 8)))

/-- The reference builder has properties 1 to 3 of spec/41_huffman.md R271 and the degenerate alphabets of R272 (part of R276): lengths
within the limit, zero exactly for unused symbols, and a complete code of the used ones; where the unlimited Huffman tree fits
the limit, its lengths are that tree's (property 5); and the whole reference assignment is a legal one. -/
def Obligations.BuilderLegal : Prop :=
  (∀ (freqs : List Nat) (maxlen : Nat), freqs ≠ [] → 1 ≤ maxlen → maxlen ≤ 15 → usedCount freqs ≤ 2 ^ maxlen →
    BuildSpec freqs maxlen (referenceBuild freqs maxlen))
  ∧ (∀ freqs : List Nat, 2 ≤ usedCount freqs → ∃ tree : List Nat, HuffmanLengths freqs tree
    ∧ ∀ maxlen, (∀ l ∈ tree, l ≤ maxlen) → referenceBuild freqs maxlen = tree)
  ∧ referenceParams.Legal

/-- `HF.LOAD` (spec/41_huffman.md R280, R282, R283): the lengths padded with zeros, the verdict by the Kraft sum, the encode entries,
`RES[0]` the verdict's code; a bad selector, count or length is refused; only the tables of the selector, the model's own mark
`disturbed` (log entry 8) and the result interface change. (The code of an entry of length 0 in a sound table, which R277 does not
assign, is the model's choice: log entry 31.) -/
def Obligations.HfLoad : Prop :=
  ∀ (t : BitVec 2) (lengths : List Byte) (s : State),
    encode (.hfLoad t lengths) = [word (0x31000000 + t.toNat * 2 ^ 16 + lengths.length)]
    ∧ (operandsLegal (.hfLoad t lengths) = false → Refuses (exec (.hfLoad t lengths) s) .operand)
    ∧ ∀ tbl : Table, operandsLegal (.hfLoad t lengths) = true → tableOf t = .ok tbl → ∃ (u : State) (lens : List Nat) (v : Verdict) (entries : List EncEntry),
      exec (.hfLoad t lengths) s = .next u
      ∧ u = ({ s with
          dec := s.dec.put tbl { isOpen := true, lens := lens, verdict := v }
          enc := s.enc.put tbl { isOpen := true, usable := v.sound, entries := entries }
          d := { s.d with disturbed := u.d.disturbed } } : State).answer .ok [v.code] []
      ∧ lens.length = tbl.size ∧ (∀ k, k < tbl.size → lens[k]? = some ((lengths[k]?).elim 0 BitVec.toNat))
      ∧ (v = .empty ↔ ∀ l ∈ lens, l = 0) ∧ (v = .oversubscribed ↔ 2 ^ 15 < kraft lens) ∧ (v = .complete ↔ kraft lens = 2 ^ 15)
      ∧ (v = .degenerate ↔ lens.filter (fun l => l != 0) = [1])
      ∧ entries.length = tbl.size
      ∧ (∀ k l, lens[k]? = some l → ∃ e, entries[k]? = some e ∧ e.len = l ∧ e.extra = extraBits tbl k
          ∧ (v.sound = true → (canonicalCodes lens)[k]? = some e.code) ∧ (v.sound = false → e.code = 0))

/-- The canonical assignment (spec/41_huffman.md R277), its recurrence solved: the codeword of a symbol of length `l` is the sum of
`bl_count[j] * 2^(l-j)` over the shorter lengths `j`, plus the number of earlier symbols of the same length. -/
def Obligations.CanonicalCodes : Prop :=
  ∀ (lens : List Nat) (s l : Nat), (∀ x ∈ lens, x ≤ 15) → lens[s]? = some l → 0 < l →
    (canonicalCodes lens)[s]? = some
      (((List.range l).map (fun j => if j = 0 then 0 else lens.count j * 2 ^ (l - j))).sum + (lens.take s).count l)

/-- `HF.ENCODE` (spec/41_huffman.md R286, spec/20_memory.md R104): the codeword bit-reversed, its length, the extra-bit count; `NONE`
for a symbol without a code; the refusals. -/
def Obligations.HfEncode : Prop :=
  ∀ (t : BitVec 2) (sym : BitVec 9) (s : State),
    encode (.hfEncode t sym) = [word (0x32000000 + t.toNat * 2 ^ 16 + sym.toNat)]
    ∧ (t = 3 → Refuses (exec (.hfEncode t sym) s) .operand)
    ∧ ∀ tbl : Table, tableOf t = .ok tbl →
    (tbl.size ≤ sym.toNat → Refuses (exec (.hfEncode t sym) s) .operand)
    ∧ (sym.toNat < tbl.size → (s.enc.get tbl).isOpen = true → (s.enc.get tbl).usable = false →
        Refuses (exec (.hfEncode t sym) s) .table)
    ∧ (∀ e, sym.toNat < tbl.size → (s.enc.get tbl).isOpen = true → (s.enc.get tbl).usable = true →
        (s.enc.get tbl).entries[sym.toNat]? = some e →
        (e.len = 0 → exec (.hfEncode t sym) s = .next (s.answer .noResult [] []))
        ∧ (e.len ≠ 0 → exec (.hfEncode t sym) s = .next (s.answer .ok
            [word (revBits e.len e.code + e.len * 2 ^ 16 + e.extra * 2 ^ 24), word e.code] [])))

/-- `HF.DECODE` (spec/41_huffman.md R284, R287) on a loaded table: the symbol whose codeword the next bits are, read as a number with
the first bit the most significant; otherwise `NONE` once as many bits as the longest code has are valid, else `NEED_INPUT`; an
empty table answers `NONE`, an unusable one is refused. -/
def Obligations.HfDecode : Prop :=
  ∀ (t : BitVec 2) (avail : BitVec 5) (peek : Word) (s : State),
    encode (.hfDecode t avail peek) = [word (0x33000000 + t.toNat * 2 ^ 16 + avail.toNat), peek]
    ∧ (t = 3 ∨ 16 < avail.toNat → Refuses (exec (.hfDecode t avail peek) s) .operand)
    ∧ ∀ tbl : Table, tableOf t = .ok tbl → avail.toNat ≤ 16 → (s.dec.get tbl).isOpen = true → (s.dec.get tbl).Sound tbl →
    ((s.dec.get tbl).verdict = .empty → exec (.hfDecode t avail peek) s = .next (s.answer .noResult [] []))
    ∧ ((s.dec.get tbl).verdict = .incomplete ∨ (s.dec.get tbl).verdict = .oversubscribed →
        Refuses (exec (.hfDecode t avail peek) s) .table)
    ∧ (∀ sym l : Nat, (s.dec.get tbl).verdict.sound = true → (s.dec.get tbl).lens[sym]? = some l → 1 ≤ l → l ≤ avail.toNat →
        (canonicalCodes (s.dec.get tbl).lens)[sym]? = some (revBits l peek.toNat) →
        exec (.hfDecode t avail peek) s = .next (s.answer .ok [word (sym + l * 2 ^ 16)] []))
    ∧ ((s.dec.get tbl).verdict.sound = true →
        (∀ sym l : Nat, (s.dec.get tbl).lens[sym]? = some l → 1 ≤ l → l ≤ avail.toNat →
          (canonicalCodes (s.dec.get tbl).lens)[sym]? ≠ some (revBits l peek.toNat)) →
        exec (.hfDecode t avail peek) s = .next (s.answer
          (if maxLen (s.dec.get tbl).lens ≤ avail.toNat then .noResult else .needInput) [] []))

/-- A code round trip through the commands (spec/41_huffman.md R280, R284, R286, R287): after a table is loaded, what `HF.ENCODE` gives
for a symbol, followed by any further bits, `HF.DECODE` reads back as that symbol with that length. -/
def Obligations.CodeRoundTrip : Prop :=
  ∀ (t : BitVec 2) (lengths : List Byte) (sym : BitVec 9) (s u v : State) (r0 r1 : Word) (avail : BitVec 5) (peek : Word),
    Accepts (.hfLoad t lengths) s u → exec (.hfEncode t sym) u = .next v → v.status = .ok → v.res = [r0, r1] →
    r0.toNat / 2 ^ 16 % 2 ^ 8 ≤ avail.toNat → avail.toNat ≤ 16 →
    peek.toNat % 2 ^ (r0.toNat / 2 ^ 16 % 2 ^ 8) = r0.toNat % 2 ^ 16 →
    exec (.hfDecode t avail peek) v = .next (v.answer .ok [word (sym.toNat + r0.toNat / 2 ^ 16 % 2 ^ 8 * 2 ^ 16)] [])

/-! ## The window and the match finder -/

/-- `WN.INIT` (spec/42_match_finder.md R320) and `WN.FEED` (R323). (That no slot of the window has been written after `WN.INIT` is the
model's choice, log entry 14: spec/10_state.md R44 calls the slots unspecified.) -/
def Obligations.WnInitAndFeed : Prop :=
  (∀ (exp : BitVec 4) (s : State), encode (.wnInit exp) = [word (0x40000000 + exp.toNat)]
    ∧ (exp.toNat < 8 → Refuses (exec (.wnInit exp) s) .operand)
    ∧ (8 ≤ exp.toNat → exec (.wnInit exp) s = .next (({ s with
        wn := { isOpen := true, exp := exp, bytes := [], inserted := 0, r := 0, head := [], next := [], input := [], last := none }
        } : State).answer .ok [] [])))
  ∧ (∀ (bytes : List Byte) (s : State), encode (.wnFeed bytes) = [word (0x44000000 + bytes.length)]
    ∧ (s.wn.isOpen = true → exec (.wnFeed bytes) s = .next (({ s with
        wn := { s.wn with input := s.wn.input ++ bytes } } : State).answer .ok [] [])))

/-- `WN.UPDATE` (spec/42_match_finder.md R322, R324) with the reference `HASH` (log entry 11) and positions counted absolutely, also once `WN_Q` wraps (the model's
choice, log entry 12): one byte inserted, its slot written and no
other, the rolling register shifted, and from the fourth byte on the key's position linked behind the chain's old head, where
that is within `MAX_DISTANCE`. -/
def Obligations.WnUpdate : Prop :=
  ∀ (byte : Byte) (s : State), s.wn.isOpen = true →
    (s.wn.inserted < s.wn.input.length → s.wn.input[s.wn.inserted]? ≠ some byte → Refuses (exec (.wnUpdate byte) s) .operand)
    ∧ ((s.wn.inserted < s.wn.input.length → s.wn.input[s.wn.inserted]? = some byte) → ∃ t : State, exec (.wnUpdate byte) s = .next t
      ∧ t = ({ s with wn := t.wn } : State).answer t.status t.res []
      ∧ t.wn.isOpen = true ∧ t.wn.exp = s.wn.exp ∧ t.wn.inserted = s.wn.inserted + 1 ∧ t.wn.q = s.wn.q + 1
      ∧ t.wn.input = (if s.wn.inserted = s.wn.input.length then s.wn.input ++ [byte] else s.wn.input)
      ∧ t.wn.r = ((s.wn.r <<< 8) ||| byte.setWidth 32)
      ∧ (∀ a, t.wn.bytes.read a = if a = s.wn.inserted % 2 ^ s.wn.exp.toNat then some byte else s.wn.bytes.read a)
      ∧ (t.wn.inserted < 4 → t.status = .noResult ∧ t.res = [] ∧ t.wn.head = s.wn.head ∧ t.wn.next = s.wn.next ∧ t.wn.last = s.wn.last)
      ∧ (4 ≤ t.wn.inserted → ∃ prev : Option Nat,
          prev = (s.wn.head.get t.wn.r.toNat).filter (fun p => decide (t.wn.inserted - 4 - p ≤ 2 ^ s.wn.exp.toNat))
          ∧ t.wn.last = some (t.wn.inserted - 4, prev)
          ∧ (∀ a, t.wn.next.get a = if a = t.wn.inserted - 4 then prev else s.wn.next.get a)
          ∧ (∀ h, t.wn.head.get h = if h = t.wn.r.toNat then some (t.wn.inserted - 4) else s.wn.head.get h)
          ∧ t.status = .ok
          ∧ t.res = [word ((t.wn.inserted - 4) % 2 ^ s.wn.exp.toNat),
              prev.elim 0xFFFFFFFF (fun p => word (p % 2 ^ s.wn.exp.toNat)), word (t.wn.inserted - 4)]))

/-- `WN.MATCH` (spec/42_match_finder.md R327, R330, R331) on a sound window: it walks the chain from the head of the last key, with the
attempts and up to the goal, as `Walks` says, and answers the longest run of the candidates yielded, the nearest of them on a tie,
where that has 5 bytes or more; what it answers is a run that repeats earlier input, of 5 to 258 bytes, within the lookahead, at a
distance within the window. Nothing but the result interface changes. -/
def Obligations.WnMatch : Prop :=
  ∀ (lookahead attempts goal : Word) (s : State), s.wn.isOpen = true → s.wn.Sound →
    (s.wn.last = none → exec (.wnMatch lookahead attempts goal) s = .next (s.answer .noResult [] []))
    ∧ (∀ p head, s.wn.last = some (p, head) →
      (s.wn.input.length - p < lookahead.toNat → Refuses (exec (.wnMatch lookahead attempts goal) s) .operand)
      ∧ (lookahead.toNat ≤ s.wn.input.length - p → ∃ found : List (Nat × Nat),
          Walks s.wn p (min 258 lookahead.toNat) goal.toNat attempts.toNat head found
          ∧ (((∀ x ∈ found, x.1 < 5) ∧ exec (.wnMatch lookahead attempts goal) s = .next (s.answer .noResult [] []))
            ∨ ∃ run dist : Nat, Longest found (run, dist)
              ∧ exec (.wnMatch lookahead attempts goal) s = .next (s.answer .ok [word run, word dist] [])
              ∧ 5 ≤ run ∧ run ≤ 258 ∧ run ≤ lookahead.toNat ∧ 1 ≤ dist ∧ dist ≤ 2 ^ s.wn.exp.toNat ∧ dist ≤ p
              ∧ (∀ j, j < run → s.wn.input[p + j]? = s.wn.input[p + j - dist]?))
          ∧ (∀ c r : Nat, head = some c → p - c ≤ 2 ^ s.wn.exp.toNat → 0 < attempts.toNat → r ≤ 258 → r ≤ lookahead.toNat →
              (∀ j, j < r → s.wn.input[p + j]? = s.wn.input[c + j]?) → ∃ x ∈ found, r ≤ x.1)))

/-- `WN.MATCHD` (spec/42_match_finder.md R327, R332) on a sound window: the walk of `WN.MATCH`, and one word per distance decade: the
longest run of the candidates yielded at a distance of that decade, the nearest of them on a tie, with its distance, or 0 where
there is none; it repeats earlier input, within the lookahead and the window. Nothing but the result interface changes. (Runs of 1
to 4 are reported, as R332 says against 90_conflicts.md C1: log entry 29.) -/
def Obligations.WnMatchd : Prop :=
  ∀ (lookahead attempts goal : Word) (s : State), s.wn.isOpen = true → s.wn.Sound →
    (s.wn.last = none → exec (.wnMatchd lookahead attempts goal) s = .next (s.answer .noResult (List.replicate 30 0) []))
    ∧ (∀ p head, s.wn.last = some (p, head) →
      (s.wn.input.length - p < lookahead.toNat → Refuses (exec (.wnMatchd lookahead attempts goal) s) .operand)
      ∧ (lookahead.toNat ≤ s.wn.input.length - p → ∃ (res : List Word) (found : List (Nat × Nat)),
          exec (.wnMatchd lookahead attempts goal) s = .next (s.answer .ok res []) ∧ res.length = 30
          ∧ Walks s.wn p (min 258 lookahead.toNat) goal.toNat attempts.toNat head found
          ∧ (∀ k, k < 30 → (res[k]? = some 0 ∧ ∀ x ∈ inDecade k found, x.1 = 0)
              ∨ ∃ run dist : Nat, res[k]? = some (word (run + dist * 2 ^ 16)) ∧ Longest (inDecade k found) (run, dist)
              ∧ 1 ≤ run ∧ run ≤ 258 ∧ run ≤ lookahead.toNat ∧ dist ≤ 2 ^ s.wn.exp.toNat ∧ dist ≤ p
              ∧ (∃ d, distDecades[k]? = some d ∧ d.base ≤ dist ∧ dist ≤ d.top)
              ∧ (∀ j, j < run → s.wn.input[p + j]? = s.wn.input[p + j - dist]?))
          ∧ (∀ c, head = some c → p - c ≤ 2 ^ s.wn.exp.toNat → 0 < attempts.toNat →
              ∃ (k : Nat) (d : Decade) (run dist : Nat), distDecades[k]? = some d ∧ d.base ≤ p - c ∧ p - c ≤ d.top
                ∧ res[k]? = some (word (run + dist * 2 ^ 16)) ∧ run ≤ 258 ∧ dist ≤ 2 ^ s.wn.exp.toNat
                ∧ ∀ r, r ≤ 258 → r ≤ lookahead.toNat → (∀ j, j < r → s.wn.input[p + j]? = s.wn.input[c + j]?) → r ≤ run)))

/-! ## Terms, graphs, depths -/

/-- `TM.MAP` (spec/43_term_strategies.md R372, spec/30_encoding.md R144, R171, R172, R174): a literal's symbol is its byte; a match's
symbols are the decades that hold its run and its distance, its extra values what is left over their bases; run 258 is symbol
285. Nothing but the result interface changes. -/
def Obligations.TmMap : Prop :=
  (∀ (term : Word) (s : State), encode (.tmMap term) = [0x50000000, term]
    ∧ (legalTermWord term = false → Refuses (exec (.tmMap term) s) .operand))
  ∧ (∀ (b : Byte) (s : State), exec (.tmMap (word b.toNat)) s = .next (s.answer .ok [word b.toNat, 0, 0xFFFFFFFF, 0] []))
  ∧ (∀ (run dist : Nat) (s : State), 3 ≤ run → run ≤ 258 → 1 ≤ dist → dist ≤ 32768 →
    ∃ (l k : Nat) (dl dk : Decade),
      exec (.tmMap (word (2 ^ 31 + run * 2 ^ 16 + dist))) s = .next (s.answer .ok
        [word (257 + l), word (dl.extra + (run - dl.base) * 2 ^ 8), word k, word (dk.extra + (dist - dk.base) * 2 ^ 8)] [])
      ∧ runDecades[l]? = some dl ∧ dl.base ≤ run ∧ run ≤ dl.top ∧ run - dl.base < 2 ^ dl.extra ∧ (run = 258 → l = 28)
      ∧ distDecades[k]? = some dk ∧ dk.base ≤ dist ∧ dist ≤ dk.top ∧ dist - dk.base < 2 ^ dk.extra)

/-- `TM.STEP` (spec/43_term_strategies.md R371, R376, R380, R384) in a stream driven by its own commands: nothing at the end of the
input, `NEED_INPUT` without the lookahead, else one or two terms: those of `Parses`, the match that the search at
the position reports, or with the lazy strategy the one at the next position exactly when it is strictly longer, or a literal where
there is none (R375, R381, R382). They reproduce the next input bytes, each match of 5 to 258 bytes at a distance within the window,
with the positions moved past them; nothing else but the window changes. (The hash is the reference one, log entry 11.) -/
def Obligations.TmStep : Prop :=
  ∀ s : State, s.Sound → s.DrivenAlone →
    (s.c.cfg.strategy = .full → Refuses (exec .tmStep s) .operand)
    ∧ (s.c.cfg.strategy ≠ .full → s.c.parsed = s.c.input.length → exec .tmStep s = .next (s.answer .noResult [] []))
    ∧ (s.c.cfg.strategy ≠ .full → s.c.parsed < s.c.input.length → s.c.input.length - s.c.parsed < 259 → s.c.last = false →
        exec .tmStep s = .next (s.answer .needInput [] []))
    ∧ (s.c.cfg.strategy ≠ .full → s.c.parsed < s.c.input.length → (259 ≤ s.c.input.length - s.c.parsed ∨ s.c.last = true) →
        ∃ (t : State) (new : List Term), exec .tmStep s = .next t
          ∧ t = ({ s with
              wn := t.wn, tv := s.tv ++ new
              c := { s.c with parsed := s.c.parsed + coversAll new, termsBytes := s.c.termsBytes + coversAll new } } : State).answer
              .ok (word new.length :: new.map Term.word) []
          ∧ Parses s.c s.wn s.c.parsed new t.wn
          ∧ (new.length = 1 ∨ (new.length = 2 ∧ s.c.cfg.strategy = .lazy))
          ∧ Reproduces s.c.input s.c.parsed new
          ∧ (∀ run dist, Term.copy run dist ∈ new → 5 ≤ run ∧ run ≤ 258 ∧ dist ≤ 2 ^ s.wn.exp.toNat)
          ∧ t.DrivenAlone)

/-- `TM.GRAPH` (spec/43_term_strategies.md R390, R392, R393) in a stream driven by its own commands: the graph of the next `n` bytes, its
literals the input's bytes, the edges of each vertex those of `EdgesAt`: per decade the longest candidate of the search there, where
that has 3 bytes or more; every run of every edge repeats earlier input at the edge's distance and ends at the sink at the
latest; `COST` and `BACK` start over, the position, the graph count and the capacity move on. (That the capacity grows to 32768 is the
reference `GRAPH_CEILING`, and the hash the reference one, the model's choices: log entry 11.) -/
def Obligations.TmGraph : Prop :=
  ∀ (n : BitVec 24) (s : State), s.Sound → s.DrivenAlone →
    (n = 0 ∨ s.c.limit < n.toNat ∨ s.c.input.length < s.c.parsed + n.toNat → Refuses (exec (.tmGraph n) s) .operand)
    ∧ (1 ≤ n.toNat → n.toNat ≤ s.c.limit → s.c.parsed + n.toNat ≤ s.c.input.length →
        ∃ t : State, exec (.tmGraph n) s = .next t
          ∧ t = ({ s with
              wn := t.wn, mg := t.mg
              c := { s.c with
                parsed := s.c.parsed + n.toNat, graphs := s.c.graphs + 1
                limit := min (2048 * 2 ^ (s.c.graphs + 1)) 32768 } } : State).answer .ok [] []
          ∧ t.mg.n = n.toNat ∧ t.mg.Sound
          ∧ t.mg.cost = some 0 :: List.replicate n.toNat none ∧ t.mg.back = List.replicate (n.toNat + 1) none
          ∧ Inserts s.c.input s.wn t.wn
          ∧ (∀ i v, t.mg.vertices[i]? = some v → s.c.input[s.c.parsed + i]? = some v.lit
              ∧ EdgesAt s.c s.wn (s.c.parsed + i) (n.toNat - i) v.edges
              ∧ ∀ (k : Nat) (e : Edge), v.edges[k]? = some (some e) → e.dist ≤ s.c.parsed + i ∧ e.dist ≤ 2 ^ s.wn.exp.toNat
                  ∧ ∀ j, j < e.run → s.c.input[s.c.parsed + i + j]? = s.c.input[s.c.parsed + i + j - e.dist]?)
          ∧ t.DrivenAlone)

/-- `TM.MINIMIZE` (spec/43_term_strategies.md R393, R394, R396, R397, R398): the terms are a walk over the graph from the source to the
sink, and no walk over the graph costs less under the depth table the sweep was made with; `RES` says how many terms and what
they cost. -/
def Obligations.TmMinimizeOptimal : Prop :=
  ∀ s : State, s.TermsOk → s.c.isOpen = true →
    (s.mg.n = 0 → Refuses (exec .tmMinimize s) .noInstance)
    ∧ (0 < s.mg.n → ∃ t : State, exec .tmMinimize s = .next t
        ∧ s.mg.Walk 0 t.tv s.mg.n
        ∧ (∀ ts, s.mg.Walk 0 ts s.mg.n → termCosts s.dt t.tv ≤ termCosts s.dt ts)
        ∧ t.status = .ok ∧ t.res = [word t.tv.length, word (termCosts s.dt t.tv)] ∧ t.dataOut = []
        ∧ t.c = { s.c with termsBytes := s.mg.n } ∧ t.mg.n = s.mg.n ∧ t.mg.vertices = s.mg.vertices
        ∧ t = ({ s with c := t.c, tv := t.tv, mg := t.mg, dt := t.dt } : State).answer t.status t.res [])

/-- The depth table. `TM.MINIMIZE` (spec/43_term_strategies.md R399) with the reference builder and `FRAC_BITS` (log entry 11): an entry of
a symbol the terms use is its new code length and extra bits, an entry of an unused symbol keeps its value. `TM.GENERALIZE`
(R402): every entry becomes the midpoint with its default, rounded down, and nothing else changes. -/
def Obligations.Depths : Prop :=
  (∀ (s t : State), s.dt.sized = true → Accepts .tmMinimize s t → ∃ codes : List TermCodes, codesOf t.tv = .ok codes
    ∧ (∀ b old : Nat, s.dt.lit[b]? = some old → t.dt.lit[b]? = some
        (if 0 < (runLitFreqs codes).getD b 0 then (referenceBuild (runLitFreqs codes) 15).getD b 0 * 16 else old))
    ∧ t.dt.eob = (referenceBuild (runLitFreqs codes) 15).getD 256 0 * 16
    ∧ (∀ (k l : Nat) (d : Decade) (old : Nat), s.dt.run[k]? = some old → runSymbol (k + 3) = some (l, d) → t.dt.run[k]? = some
        (if 0 < (runLitFreqs codes).getD l 0 then ((referenceBuild (runLitFreqs codes) 15).getD l 0 + d.extra) * 16 else old))
    ∧ (∀ (k : Nat) (d : Decade) (old : Nat), s.dt.dist[k]? = some old → distDecades[k]? = some d → t.dt.dist[k]? = some
        (if 0 < (distFreqs codes).getD k 0 then ((referenceBuild (distFreqs codes) 15).getD k 0 + d.extra) * 16 else old)))
  ∧ (∀ s : State, s.c.isOpen = true → ∃ t : State, exec .tmGeneralize s = .next t
    ∧ t = ({ s with dt := t.dt } : State).answer .ok [] []
    ∧ (∀ b x y : Nat, s.dt.lit[b]? = some x → referenceDepth.lit[b]? = some y → t.dt.lit[b]? = some ((x + y) / 2))
    ∧ t.dt.eob = (s.dt.eob + referenceDepth.eob) / 2
    ∧ (∀ k x y : Nat, s.dt.run[k]? = some x → referenceDepth.run[k]? = some y → t.dt.run[k]? = some ((x + y) / 2))
    ∧ (∀ k x y : Nat, s.dt.dist[k]? = some x → referenceDepth.dist[k]? = some y → t.dt.dist[k]? = some ((x + y) / 2)))

/-! ## The block writer -/

/-- `BW.DYNAMIC` (spec/44_block_writer.md R430, R433, R434, R436, R438 to R441): the block is `BFINAL`, `BTYPE = 2` and the three counts
in their ranges, least significant bit first; the metasymbol lengths sent in order; the metasymbols, which expand to the code
lengths of the two tables; the codes of the terms in order; and the end-of-block code. The tables are loaded from complete or
degenerate lengths and give every symbol used a code; the lengths left out are zero. The terms are taken and counted as emitted;
only the sink, the encode tables, the term vector, the two counts and the result interface change. (Which lengths the builder
gives is not said here: log entry 11.) -/
def Obligations.BwDynamic : Prop :=
  ∀ (final : Bool) (s : State), s.c.isOpen = true → s.bs.Sound → (∀ x ∈ s.tv, x.Valid) →
    encode (.bwDynamic final) = [word (0x60000000 + final.toNat)]
    ∧ ∃ (t : State) (hlit hdist hclen : Nat) (lL lD lM : List Nat) (rle : List (Nat × Nat)), exec (.bwDynamic final) s = .next t
      ∧ t = ({ s with
          bs := t.bs, enc := t.enc, tv := []
          c := { s.c with emitted := s.c.emitted + s.c.termsBytes, termsBytes := 0 } } : State).answer .ok [] []
      ∧ t.bs.stream = s.bs.stream ++ [final] ++ [false, true] ++ lowBits 5 (hlit - 257) ++ lowBits 5 (hdist - 1)
          ++ lowBits 4 (hclen - 4) ++ (perm.take hclen).flatMap (fun m => lowBits 3 (lM.getD m 0))
          ++ rle.flatMap (fun p => codeBits t.enc.metasym p.1 ++ lowBits (metaExtra p.1) p.2)
          ++ s.tv.flatMap (termBits t.enc) ++ codeBits t.enc.runLit 256
      ∧ lL.length = 288 ∧ lD.length = 32 ∧ lM.length = 19
      ∧ t.enc.runLit = EncTable.load .runLit lL ∧ t.enc.dist = EncTable.load .dist lD ∧ t.enc.metasym = EncTable.load .metasym lM
      ∧ (verdictOf lL).sound = true ∧ (verdictOf lD).sound = true ∧ (verdictOf lM).sound = true
      ∧ expandLens [] rle = lL.take hlit ++ lD.take hdist
      ∧ (∀ p ∈ rle, p.1 ≤ 18 ∧ p.2 < 2 ^ metaExtra p.1 ∧ 0 < lM.getD p.1 0) ∧ (∀ p, rle.head? = some p → p.1 ≠ 16)
      ∧ (∀ k, hlit ≤ k → lL.getD k 0 = 0) ∧ (∀ k, hdist ≤ k → lD.getD k 0 = 0)
      ∧ (∀ k m, hclen ≤ k → perm[k]? = some m → lM.getD m 0 = 0) ∧ 0 < lL.getD 256 0
      ∧ (∀ x ∈ s.tv, (∀ sym, x.symbols.1 = some sym → 0 < lL.getD sym 0) ∧ (∀ sym, x.symbols.2 = some sym → 0 < lD.getD sym 0))
      ∧ 257 ≤ hlit ∧ hlit ≤ 286 ∧ 1 ≤ hdist ∧ hdist ≤ 30 ∧ 4 ≤ hclen ∧ hclen ≤ 19
      ∧ t.bs.Sound ∧ t.bs.hint = s.bs.hint ∧ t.bs.isOpen = s.bs.isOpen ∧ t.enc.Sized

/-- `BW.STORED` (spec/44_block_writer.md R448, spec/30_encoding.md R160, R161): `BFINAL`, two zero bits, zeros to the byte boundary,
`LEN` and its complement, the bytes; the refusals, with no sink whatever the length, and then for more than 65535 bytes. (That
the pseudocode of R448 gives their order, and not R605, is the model's inference: log entry 4.) -/
def Obligations.BwStored : Prop :=
  ∀ (last : Bool) (bytes : List Byte) (s : State),
    encode (.bwStored last bytes) = [word (0x61000000 + last.toNat * 2 ^ 23 + bytes.length)]
    ∧ (65535 < bytes.length → s.bs.isOpen = true → Refuses (exec (.bwStored last bytes) s) .operand)
    ∧ (s.bs.isOpen = false → Refuses (exec (.bwStored last bytes) s) .noInstance)
    ∧ (s.bs.isOpen = true → bytes.length ≤ 65535 → s.bs.Sound →
        ∃ k : Sink, exec (.bwStored last bytes) s = .next (({ s with bs := k } : State).answer .ok [] [])
          ∧ k.stream = s.bs.stream ++ [last, false, false] ++ padding (s.bs.stream.length + 3) ++ lowBits 16 bytes.length
              ++ lowBits 16 (65535 - bytes.length) ++ bitsOfBytes bytes
          ∧ k.Sound ∧ k.isOpen = true ∧ k.hint = s.bs.hint)

/-! ## The block reader -/

/-- The `STREAM_START` step (spec/45_block_reader.md R490, R491, R492): the whole header or `NEED_INPUT`, the checks in the order of the
rule, each with its error, the gzip refusal (spec/60_exceptions.md R606), and then `BLOCK_START` with the cursor past the header. -/
def Obligations.StreamHeader : Prop :=
  ∀ s : State, s.d.state = .streamStart → s.d.disturbed = false → s.d.cur ≤ s.d.valid →
    let byte := fun k => bitsAt s.d.input (s.d.cur + 8 * k) 8
    let fails := fun e => exec .brStep s =
      .next (({ s with d := { s.d with state := .error, err := some e } } : State).answer (.error e) [8] [])
    let passes := fun n => exec .brStep s =
      .next (({ s with d := { s.d with state := .blockStart, cur := s.d.cur + n } } : State).answer .ok [2] [])
    (s.d.format = .raw → passes 0)
    ∧ (s.d.format = .zlib → s.d.valid - s.d.cur < 16 → exec .brStep s = .next (s.answer .needInput [1] []))
    ∧ (s.d.format = .zlib → 16 ≤ s.d.valid - s.d.cur →
        (byte 0 % 16 ≠ 8 → fails .invalidCompressionMethod)
        ∧ (byte 0 % 16 = 8 → 7 < byte 0 / 16 → fails .invalidWindowExponent)
        ∧ (byte 0 % 16 = 8 → byte 0 / 16 ≤ 7 → (byte 0 * 256 + byte 1) % 31 ≠ 0 → fails .invalidHeaderCheckBits)
        ∧ (byte 0 % 16 = 8 → byte 0 / 16 ≤ 7 → (byte 0 * 256 + byte 1) % 31 = 0 → byte 1 / 32 % 2 = 1 →
            fails .unexpectedPresetDictionary)
        ∧ (byte 0 % 16 = 8 → byte 0 / 16 ≤ 7 → (byte 0 * 256 + byte 1) % 31 = 0 → byte 1 / 32 % 2 = 0 → passes 16))
    ∧ (s.d.format = .gzip → s.d.valid - s.d.cur < 80 → exec .brStep s = .next (s.answer .needInput [1] []))
    ∧ (s.d.format = .gzip → 80 ≤ s.d.valid - s.d.cur →
        (byte 0 ≠ 0x1F ∨ byte 1 ≠ 0x8B → fails .invalidHeaderCheckBits)
        ∧ (byte 0 = 0x1F → byte 1 = 0x8B → byte 2 ≠ 8 → fails .invalidCompressionMethod)
        ∧ (byte 0 = 0x1F → byte 1 = 0x8B → byte 2 = 8 → byte 3 / 32 ≠ 0 → fails .invalidHeaderCheckBits)
        ∧ (byte 0 = 0x1F → byte 1 = 0x8B → byte 2 = 8 → byte 3 / 32 = 0 → byte 3 / 2 ≠ 0 → Refuses (exec .brStep s) .gzipFields)
        ∧ (byte 0 = 0x1F → byte 1 = 0x8B → byte 2 = 8 → byte 3 / 2 = 0 → passes 80))

/-- The `BLOCK_START` step (spec/45_block_reader.md R494, R495, R496, R497): the 3 header bits or `NEED_INPUT`; a stored block's `LEN` and
complement after the byte boundary; the fixed code; the reserved type; the count checks of a dynamic block before its metatree;
then the metatree, sent in the order of `PERM`, its error, and the counts and the metasymbol table loaded. -/
def Obligations.BlockHeader : Prop :=
  ∀ s : State, s.d.state = .blockStart → s.d.disturbed = false → s.d.cur ≤ s.d.valid →
    let bits := fun k n => bitsAt s.d.input (s.d.cur + k) n
    let start := (s.d.cur + 3 + 7) / 8 * 8
    let len := bitsAt s.d.input start 16
    let fails := fun e => exec .brStep s =
      .next (({ s with d := { s.d with state := .error, err := some e } } : State).answer (.error e) [8] [])
    let waits := exec .brStep s = .next (s.answer .needInput [2] [])
    (s.d.valid < s.d.cur + 3 → waits)
    ∧ (s.d.cur + 3 ≤ s.d.valid → bits 1 2 = 3 → fails .invalidBlockType)
    ∧ (s.d.cur + 3 ≤ s.d.valid → bits 1 2 = 0 → s.d.valid < start + 32 → waits)
    ∧ (bits 1 2 = 0 → start + 32 ≤ s.d.valid → len + bitsAt s.d.input (start + 16) 16 ≠ 65535 → fails .invalidStoredLength)
    ∧ (bits 1 2 = 0 → start + 32 ≤ s.d.valid → len + bitsAt s.d.input (start + 16) 16 = 65535 →
        exec .brStep s = .next (({ s with d := { s.d with
          state := .blockUncompressed, final := bits 0 1 == 1, btype := 0, storedLeft := BitVec.ofNat 16 len, cur := start + 32 } } : State).answer
          .ok [5] []))
    ∧ (s.d.cur + 3 ≤ s.d.valid → bits 1 2 = 1 → exec .brStep s = .next (({ s with
          d := { s.d with state := .blockCompressed, final := bits 0 1 == 1, btype := 1, cur := s.d.cur + 3 }
          dec := { s.dec with runLit := DecTable.load fixedRunLit, dist := DecTable.load fixedDist } } : State).answer .ok [4] []))
    ∧ (s.d.cur + 3 ≤ s.d.valid → bits 1 2 = 2 → s.d.valid < s.d.cur + 17 → waits)
    ∧ (s.d.cur + 17 ≤ s.d.valid → bits 1 2 = 2 → 286 < bits 3 5 + 257 → fails .invalidRunLiteralCount)
    ∧ (s.d.cur + 17 ≤ s.d.valid → bits 1 2 = 2 → bits 3 5 + 257 ≤ 286 → 30 < bits 8 5 + 1 → fails .invalidDistanceTable)
    ∧ (s.d.cur + 17 ≤ s.d.valid → bits 1 2 = 2 → bits 3 5 + 257 ≤ 286 → bits 8 5 + 1 ≤ 30 →
        let hclen := bits 13 4 + 4
        (s.d.valid < s.d.cur + 17 + 3 * hclen → waits)
        ∧ (∀ lM : List Nat, s.d.cur + 17 + 3 * hclen ≤ s.d.valid → lM.length = 19 →
            (∀ k m, perm[k]? = some m → lM[m]? = some (if k < hclen then bits (17 + 3 * k) 3 else 0)) →
            ((verdictOf lM).sound = false → fails .invalidCodelengthTable)
            ∧ ((verdictOf lM).sound = true → exec .brStep s = .next (({ s with
                d := { s.d with
                  state := .blockTables, final := bits 0 1 == 1, btype := 2, hlit := bits 3 5 + 257, hdist := bits 8 5 + 1
                  hclen := hclen, cur := s.d.cur + 17 + 3 * hclen }
                dec := { s.dec with metasym := DecTable.load lM } } : State).answer .ok [3] []))))

/-- The `BLOCK_TABLES` step on a sound state (spec/45_block_reader.md R500, R501, R505): at every point the lengths read so far lead to,
what the next metasymbol can raise or wait for; when all are read, the checks of the two tables in the order of the rule, each
with its error, and then `BLOCK_COMPRESSED` with both tables loaded. -/
def Obligations.BlockTables : Prop :=
  ∀ s : State, s.Sound → s.d.state = .blockTables → s.d.disturbed = false →
    let total := s.d.hlit + s.d.hdist
    let x := s.dec.metasym
    let fails := fun e => exec .brStep s =
      .next (({ s with d := { s.d with state := .error, err := some e } } : State).answer (.error e) [8] [])
    let waits := exec .brStep s = .next (s.answer .needInput [3] [])
    ∀ (cur : Nat) (seq : List Nat), LengthsRead x s.d total cur seq →
      let next := ({ s.d with cur := cur } : Decompressor).peekSymbol x
      let lL := seq.take s.d.hlit ++ List.replicate (288 - s.d.hlit) 0
      let lD := seq.drop s.d.hlit ++ List.replicate (32 - s.d.hdist) 0
      (seq.length < total →
        (next = .needInput → waits)
        ∧ (next = .noCode → fails .invalidCodelengthTable)
        ∧ (∀ l, next = .symbol 16 l → seq = [] → fails .invalidCodelengthSequence)
        ∧ (∀ m l, next = .symbol m l → (m = 16 → seq ≠ []) → s.d.valid < cur + l + metaExtra m → waits)
        ∧ (∀ cur' added, LengthsAt x s.d cur seq cur' added → total < (seq ++ added).length → fails .invalidCodelengthSequence))
      ∧ (seq.length = total →
        (lL.getD 256 0 = 0 ∨ (verdictOf lL).sound = false → fails .invalidRunLiteralTable)
        ∧ (lL.getD 256 0 ≠ 0 → (verdictOf lL).sound = true → verdictOf lD = .incomplete ∨ verdictOf lD = .oversubscribed →
            fails .invalidDistanceTable)
        ∧ (lL.getD 256 0 ≠ 0 → (verdictOf lL).sound = true → verdictOf lD ≠ .incomplete → verdictOf lD ≠ .oversubscribed →
            exec .brStep s = .next (({ s with
              d := { s.d with state := .blockCompressed, cur := cur }
              dec := { s.dec with runLit := DecTable.load lL, dist := DecTable.load lD } } : State).answer .ok [4] [])))

/-- The `BLOCK_UNCOMPRESSED` step (spec/45_block_reader.md R520, R516, R482): every whole byte present is copied, up to the stored length;
none present is `NEED_INPUT`; an empty remainder ends the block. -/
def Obligations.StoredCopy : Prop :=
  ∀ s : State, s.d.state = .blockUncompressed → s.d.disturbed = false → s.d.cur % 8 = 0 → s.d.cur ≤ s.d.valid →
    let k := min s.d.storedLeft.toNat ((s.d.valid - s.d.cur) / 8)
    let moved := (s.d.input.drop (s.d.cur / 8)).take k
    (0 < s.d.storedLeft.toNat → k = 0 → exec .brStep s = .next (s.answer .needInput [5] []))
    ∧ (s.d.storedLeft = 0 ∨ 0 < k → ∃ t : State, exec .brStep s = .next t
        ∧ t = ({ s with d := { s.d with
            out := s.d.out ++ moved, total := s.d.total + k, cur := s.d.cur + 8 * k, storedLeft := s.d.storedLeft - BitVec.ofNat 16 k
            check := checkOver s.d.format s.d.check moved, hist := t.d.hist
            state := if k = s.d.storedLeft.toNat then afterBlock s.d else .blockUncompressed } } : State).answer
            (if k = s.d.storedLeft.toNat ∧ afterBlock s.d = .streamEnd then .finished else .ok) [t.d.state.code] []
        ∧ (∀ a, (∀ p, s.d.total ≤ p → p < s.d.total + k → p % 32768 ≠ a) → t.d.hist.read a = s.d.hist.read a))

/-- The `BLOCK_COMPRESSED` step on a sound state (spec/45_block_reader.md R510, R511, R512): it completes; a step that answers neither an
error nor `NEED_INPUT` has emitted one literal, ended the block, or copied a run of 3 to 258 bytes from a distance within the
output, byte by byte; earlier output stays. And which of these it is, by the bits at the cursor: the run-literal symbol the next bits code,
for a length symbol its extra bits, the distance symbol and its extra bits, with the error or the wait of each part that fails. -/
def Obligations.CompressedStep : Prop :=
  (∀ s : State, s.Sound → s.d.state = .blockCompressed → s.d.disturbed = false →
    ∃ t : State, exec .brStep s = .next t ∧ t.status ≠ .refused
      ∧ (t.status = .ok ∨ t.status = .finished →
          s.d.cur < t.d.cur ∧ t.d.total = t.d.out.length
          ∧ ((∃ b, t.d.out = s.d.out ++ [b] ∧ t.d.state = .blockCompressed)
            ∨ (t.d.out = s.d.out ∧ t.d.state = afterBlock s.d)
            ∨ ∃ (run dist : Nat) (copied : List Byte), t.d.out = s.d.out ++ copied ∧ copied.length = run ∧ 3 ≤ run ∧ run ≤ 258
                ∧ 1 ≤ dist ∧ dist ≤ s.d.out.length ∧ dist ≤ 32768 ∧ t.d.state = .blockCompressed
                ∧ ∀ j, j < run → t.d.out[s.d.out.length + j]? = t.d.out[s.d.out.length + j - dist]?)))
  ∧ (∀ s : State, s.Sound → s.d.state = .blockCompressed → s.d.disturbed = false →
    let fails := fun e => exec .brStep s =
      .next (({ s with d := { s.d with state := .error, err := some e } } : State).answer (.error e) [8] [])
    let waits := exec .brStep s = .next (s.answer .needInput [4] [])
    let token := s.d.peekSymbol s.dec.runLit
    (token = .needInput → waits)
    ∧ (token = .noCode → fails .invalidRunLiteralTable)
    ∧ (∀ sym l, token = .symbol sym l →
      (sym < 256 → exec .brStep s = .next (({ s with
        d := ({ s.d with cur := s.d.cur + l } : Decompressor).emit (BitVec.ofNat 8 sym) } : State).answer .ok [4] []))
      ∧ (sym = 256 → exec .brStep s = .next (({ s with d := { s.d with cur := s.d.cur + l, state := afterBlock s.d } } : State).answer
          (if afterBlock s.d = .streamEnd then .finished else .ok) [(afterBlock s.d).code] []))
      ∧ (285 < sym → fails .invalidRunLiteralTable)
      ∧ (∀ rd : Decade, 257 ≤ sym → runDecades[sym - 257]? = some rd →
        let run := rd.base + bitsAt s.d.input (s.d.cur + l) rd.extra
        let at2 := s.d.cur + l + rd.extra
        let back := ({ s.d with cur := at2 } : Decompressor).peekSymbol s.dec.dist
        (s.d.valid < at2 → waits)
        ∧ (at2 ≤ s.d.valid →
          (back = .needInput → waits)
          ∧ (back = .noCode → fails .invalidDistanceTable)
          ∧ (∀ k m, back = .symbol k m →
            (29 < k → fails .invalidDistanceTable)
            ∧ (∀ dd : Decade, distDecades[k]? = some dd →
              let dist := dd.base + bitsAt s.d.input (at2 + m) dd.extra
              (s.d.valid < at2 + m + dd.extra → waits)
              ∧ (at2 + m + dd.extra ≤ s.d.valid → s.d.total < dist → fails .invalidBackReference)
              ∧ (at2 + m + dd.extra ≤ s.d.valid → dist ≤ s.d.total → ∃ (t : State) (copied : List Byte), exec .brStep s = .next t
                ∧ t = ({ s with d := { s.d with
                    cur := at2 + m + dd.extra, out := s.d.out ++ copied, total := s.d.total + run, hist := t.d.hist
                    check := checkOver s.d.format s.d.check copied } } : State).answer .ok [4] []
                ∧ copied.length = run ∧ 3 ≤ run ∧ run ≤ 258 ∧ 1 ≤ dist
                ∧ ∀ j, j < run → t.d.out[s.d.out.length + j]? = t.d.out[s.d.out.length + j - dist]?)))))))

/-- A `D.PUSH` that reaches the end of a zlib or gzip stream has compared the trailer (spec/45_block_reader.md R525,
spec/46_stream_interface.md R566, R586, R590, R591): the bytes before the cursor are the Adler-32 of everything emitted, big-endian, or
its CRC-32 and its length modulo 2^32, little-endian. And the `STREAM_CHECKSUM` step itself: it waits for the whole trailer from the
byte boundary on, a trailer that differs raises the checksum error, an equal one ends the stream. -/
def Obligations.FinishedMeansChecked : Prop :=
  (∀ (bytes : List Byte) (s t : State), s.Sound → s.d.disturbed = false → s.d.state ≠ .streamEnd →
    Accepts (.dPush bytes) s t → t.status = .finished →
    let trailer := fun n => (t.d.input.take (t.d.cur / 8)).drop (t.d.cur / 8 - n)
    (t.d.format = .zlib → t.d.cur % 8 = 0 ∧ (trailer 4).length = 4
      ∧ bigEndian ((trailer 4).map BitVec.toNat) = (adler32 1 t.d.out).toNat)
    ∧ (t.d.format = .gzip → t.d.cur % 8 = 0 ∧ (trailer 8).length = 8
      ∧ littleEndian (((trailer 8).take 4).map BitVec.toNat) = (crc32 0 t.d.out).toNat
      ∧ littleEndian (((trailer 8).drop 4).map BitVec.toNat) = t.d.out.length % 2 ^ 32))
  ∧ (∀ s : State, s.Sound → s.d.state = .streamChecksum → s.d.disturbed = false →
    let start := (s.d.cur + 7) / 8
    let trailer := s.d.input.drop start
    let value := fun k n => littleEndian (((trailer.drop k).take n).map BitVec.toNat)
    let fails := exec .brStep s = .next (({ s with
      d := { s.d with state := .error, err := some .checksumMismatch } } : State).answer (.error .checksumMismatch) [8] [])
    let waits := exec .brStep s = .next (s.answer .needInput [6] [])
    let ends := fun n => exec .brStep s = .next (({ s with
      d := { s.d with state := .streamEnd, cur := 8 * start + n } } : State).answer .finished [7] [])
    (s.d.format = .zlib →
      (trailer.length < 4 → waits)
      ∧ (4 ≤ trailer.length → bigEndian ((trailer.take 4).map BitVec.toNat) ≠ (adler32 1 s.d.out).toNat → fails)
      ∧ (4 ≤ trailer.length → bigEndian ((trailer.take 4).map BitVec.toNat) = (adler32 1 s.d.out).toNat → ends 32))
    ∧ (s.d.format = .gzip →
      (trailer.length < 8 → waits)
      ∧ (8 ≤ trailer.length → value 0 4 ≠ (crc32 0 s.d.out).toNat ∨ value 4 4 ≠ s.d.out.length % 2 ^ 32 → fails)
      ∧ (8 ≤ trailer.length → value 0 4 = (crc32 0 s.d.out).toNat → value 4 4 = s.d.out.length % 2 ^ 32 → ends 64)))

/-! ## The streams -/

/-- `C.NEW` (spec/46_stream_interface.md R540, R541, R560, R580, R588, spec/70_reset_and_hazards.md R643) with the reference parameters
(log entry 11): the registers, the emptied units and the header in the sink; the decompressor's side is untouched. (That no slot of
the window has been written, log entry 14, and that the graph's arrays are emptied with `MG_N`, log entry 21, are the model's choices.) -/
def Obligations.CNew : Prop :=
  ∀ (format : BitVec 2) (exp : BitVec 4) (level : Byte) (hint : Word) (s : State),
    (format = 3 ∨ exp.toNat < 8 ∨ hint = 0 → Refuses (exec (.cNew format exp level hint) s) .operand)
    ∧ (∀ f : Format, formatOf format = .ok f → 8 ≤ exp.toNat → hint ≠ 0 →
        ∃ (t : State) (e : BitVec 4) (header : List Byte), exec (.cNew format exp level hint) s = .next t
          ∧ e = (if f = .raw then 15 else exp)
          ∧ t = ({ s with
              bs := t.bs, enc := t.enc
              c := { state := .opened, input := [], check := if f = .zlib then 1 else 0, isize := 0, parsed := 0, emitted := 0
                     termsBytes := 0, last := false, graphs := 0, limit := 2048
                     cfg := { format := f, exp := e, level := level, strategy := (referenceLevel level.toNat).strategy
                              attempts := (referenceLevel level.toNat).attempts, goal := (referenceLevel level.toNat).goal
                              iterations := (referenceLevel level.toNat).iterations, hint := hint } }
              wn := { isOpen := true, exp := e, bytes := [], inserted := 0, r := 0, head := [], next := [], input := [], last := none }
              tv := [], dt := referenceDepth, mg := { n := 0, vertices := [], cost := [], back := [] } } : State).answer .ok [] []
          ∧ t.bs.isOpen = true ∧ t.bs.Sound ∧ t.bs.hint = hint.toNat ∧ t.bs.nacc = 0 ∧ t.bs.stream = bitsOfBytes header
          ∧ (f = .zlib → ∃ cmf flg : Nat, header = [BitVec.ofNat 8 cmf, BitVec.ofNat 8 flg] ∧ cmf = (exp.toNat - 8) * 16 + 8
              ∧ flg < 31 ∧ (cmf * 256 + flg) % 31 = 0)
          ∧ (f = .gzip → header = [0x1F, 0x8B, 0x08, 0, 0, 0, 0, 0, 0, 0xFF])
          ∧ (f = .raw → header = [])
          ∧ t.enc.Sized ∧ (∀ tbl : Table, (t.enc.get tbl).isOpen = true ∧ (t.enc.get tbl).usable = false
              ∧ ∀ x ∈ (t.enc.get tbl).entries, x.len = 0))

/-- `C.PUSH` completes with `OK` on every input (spec/60_exceptions.md R600: "compression cannot fail"; spec/46_stream_interface.md R542,
R544) in an open stream driven by its own commands, its terms accounted for: the input, its length and check registers are updated, and
the last push leaves the stream finished, every input byte covered by an emitted block and the sink byte-aligned; what the sink held
stays, and the last push ends with the trailer at a byte boundary (spec/46_stream_interface.md R566, R586); after it a push is
refused. -/
def Obligations.CPushCompletes : Prop :=
  (∀ (last : Bool) (bytes : List Byte) (s : State), s.Sound → s.DrivenAlone → s.c.state = .opened →
    s.c.emitted + s.c.termsBytes = s.c.parsed → (s.c.cfg.strategy = .full → s.tv = [] ∧ s.c.termsBytes = 0) →
    ∃ t : State, exec (.cPush last bytes) s = .next t ∧ t.status = .ok ∧ t.res = [word t.bs.queue.length] ∧ t.dataOut = []
      ∧ t.c.input = s.c.input ++ bytes ∧ t.c.isize = word (s.c.input ++ bytes).length ∧ t.c.cfg = s.c.cfg
      ∧ t.c.check = checkOver s.c.cfg.format (checkInit s.c.cfg.format) (s.c.input ++ bytes)
      ∧ t.c.last = last ∧ t.c.state = (if last then .finished else .opened)
      ∧ (last = true → t.c.parsed = t.c.input.length ∧ t.c.emitted = t.c.input.length ∧ t.tv = [] ∧ t.bs.nacc = 0)
      ∧ (∃ (written : List Bool) (trailer : List Byte), t.bs.stream = s.bs.stream ++ written ++ bitsOfBytes trailer
          ∧ (last = false → trailer = [])
          ∧ (last = true → (s.bs.stream ++ written).length % 8 = 0
            ∧ (s.c.cfg.format = .zlib → trailer.length = 4
              ∧ bigEndian (trailer.map BitVec.toNat) = (adler32 1 (s.c.input ++ bytes)).toNat)
            ∧ (s.c.cfg.format = .gzip → trailer.length = 8
              ∧ littleEndian ((trailer.take 4).map BitVec.toNat) = (crc32 0 (s.c.input ++ bytes)).toNat
              ∧ littleEndian ((trailer.drop 4).map BitVec.toNat) = (s.c.input ++ bytes).length % 2 ^ 32)
            ∧ (s.c.cfg.format = .raw → trailer = [])))
      ∧ t.DrivenAlone ∧ t.c.emitted + t.c.termsBytes = t.c.parsed
      ∧ (t.c.cfg.strategy = .full → t.tv = [] ∧ t.c.termsBytes = 0))
  ∧ (∀ (last : Bool) (bytes : List Byte) (s : State), s.c.state = .finished → Refuses (exec (.cPush last bytes) s) .pushAfterLast)

/-- spec/46_stream_interface.md R545: however the same input is split into pushes, the last one with `last = 1`, the sink holds the
same bit stream afterwards. (Two pushes against one, from every sound stream position; the parameters are the reference ones, log
entry 11.) -/
def Obligations.CompressorChunkingIndependence : Prop :=
  ∀ (a b : List Byte) (last : Bool) (s t u v : State), s.Sound → s.DrivenAlone → s.c.state = .opened →
    Accepts (.cPush false a) s t → Accepts (.cPush last b) t u → Accepts (.cPush last (a ++ b)) s v →
    u.bs.stream = v.bs.stream ∧ u.c = v.c

/-- `D.NEW` (spec/46_stream_interface.md R550, spec/70_reset_and_hazards.md R644): every register of the decompressor starts over, the
cursor and the tables are empty, and the compressor's side is untouched. (That no slot of `HIST` has been written is the model's choice,
log entry 14; the empty cursor is R644's, which the spec marks as derived, log entry 17.) -/
def Obligations.DNew : Prop :=
  ∀ (format : BitVec 2) (s : State), encode (.dNew format) = [word (0x88000000 + format.toNat * 2 ^ 22)]
    ∧ (format = 3 → Refuses (exec (.dNew format) s) .operand)
    ∧ (∀ f : Format, formatOf format = .ok f → ∃ t : State, exec (.dNew format) s = .next t
      ∧ t = ({ s with
          d := { state := .streamStart, format := f, input := [], cur := 0, out := [], drained := 0, total := 0
                 check := if f = .zlib then 1 else 0, hist := [], final := false, btype := 0, hlit := 0, hdist := 0, hclen := 0
                 storedLeft := 0, err := none, disturbed := false }
          bc := { isOpen := true, buf := [0, 0, 0, 0, 0, 0], count := 0, ptr := 0 }, dec := t.dec } : State).answer .ok [] []
      ∧ (∀ tbl : Table, t.dec.get tbl = { isOpen := true, lens := List.replicate tbl.size 0, verdict := .empty }))

/-- `D.PUSH` completes (spec/46_stream_interface.md R551) on a sound open stream that is neither at its end nor in error: the bytes join the
input, the steps run until one does not answer `OK`, and what was emitted stays; the one refusal is a gzip header with optional
fields (spec/60_exceptions.md R606). -/
def Obligations.DPushCompletes : Prop :=
  ∀ (bytes : List Byte) (s : State), s.Sound → s.d.isOpen = true → s.d.disturbed = false → s.d.state ≠ .error →
    s.d.state ≠ .streamEnd →
    ∃ t : State, exec (.dPush bytes) s = .next t
      ∧ (t.status = .refused → s.d.format = .gzip ∧ s.d.state = .streamStart ∧ t.res = [8]
          ∧ brStep (s.feedReader bytes).reader = .error (.refuse .gzipFields))
      ∧ (t.status ≠ .refused →
          (t.status = .needInput ∨ t.status = .finished ∨ ∃ e, t.status = .error e)
          ∧ t.d.input = s.d.input ++ bytes ∧ t.d.format = s.d.format ∧ t.d.drained = s.d.drained ∧ s.d.cur ≤ t.d.cur
          ∧ (∃ more, t.d.out = s.d.out ++ more) ∧ t.res = [word (t.d.out.length - t.d.drained)] ∧ t.dataOut = []
          ∧ t = ({ s with d := t.d, bc := t.bc, dec := t.dec } : State).answer t.status t.res []
          ∧ ∃ (r : Reader) (a : StepAnswer), OkSteps (s.feedReader bytes).reader r ∧ brStep r = .ok a ∧ a.status ≠ .ok
              ∧ t = ((s.feedReader bytes).withReader a.reader).answer a.status
                  [word (a.reader.d.out.length - a.reader.d.drained)] [])

/-- `D.PULLN` and `D.PULL` (spec/46_stream_interface.md R553, R554) on an open decompressor: the oldest bytes not yet returned, or `NONE`
when there are not enough; nothing else changes. -/
def Obligations.Draining : Prop :=
  ∀ s : State, encode .dPull = [0x8B000000] ∧ (∀ count : Word, encode (.dPulln count) = [0x8A000000, count])
    ∧ (s.d.state = .closed → Refuses (exec .dPull s) .noInstance ∧ ∀ count : Word, Refuses (exec (.dPulln count) s) .noInstance)
    ∧ (s.d.isOpen = true → s.d.disturbed = false →
        (exec .dPull s = .next (({ s with d := { s.d with drained := s.d.out.length } } : State).answer .ok
          [word (s.d.out.length - s.d.drained)] (s.d.out.drop s.d.drained)))
        ∧ (∀ count : Word, s.d.out.length - s.d.drained < count.toNat → exec (.dPulln count) s = .next (s.answer .noResult [] []))
        ∧ (∀ count : Word, count.toNat ≤ s.d.out.length - s.d.drained → exec (.dPulln count) s =
            .next (({ s with d := { s.d with drained := s.d.drained + count.toNat } } : State).answer .ok [count]
              ((s.d.out.drop s.d.drained).take count.toNat))))

/-- A stored block written by the core is read back by the core (spec/44_block_writer.md R448, spec/45_block_reader.md R494, R495, R520,
spec/46_stream_interface.md R551): from any state, `BS.INIT`, `BW.STORED last`, `BS.PULL`, `D.NEW` raw and `D.PUSH` of what was pulled
end with `FINISHED` and the bytes in `D_OUT`. -/
def Obligations.StoredRoundTrip : Prop :=
  ∀ (hint : Word) (bytes : List Byte) (s : State), hint ≠ 0 → bytes.length ≤ 65535 →
    ∃ s1 s2 s3 s4 t : State, exec (.bsInit hint) s = .next s1 ∧ exec (.bwStored true bytes) s1 = .next s2
      ∧ exec .bsPull s2 = .next s3 ∧ exec (.dNew 2) s3 = .next s4 ∧ exec (.dPush s3.dataOut) s4 = .next t
      ∧ t.status = .finished ∧ t.d.out = bytes ∧ t.d.cur = 8 * s3.dataOut.length

/-! ## Checksums -/

/-- `CK.ADLER` and `CK.CRC32` (spec/46_stream_interface.md R590, R591): an Adler-32 over one byte or more by its sums; both computed in pieces,
the result of each piece the next value; no byte gives the value back; the spec's examples; nothing but the result interface
changes. -/
def Obligations.Checksums : Prop :=
  (∀ (bytes : List Byte) (value : Word) (s : State), bytes ≠ [] → ∃ a b : Nat,
    exec (.ckAdler bytes value) s = .next (s.answer .ok [word (b * 2 ^ 16 + a)] [])
    ∧ a = (value.toNat % 2 ^ 16 + (bytes.map BitVec.toNat).sum) % 65521
    ∧ b = (value.toNat / 2 ^ 16 + bytes.length * (value.toNat % 2 ^ 16)
        + (bytes.zipIdx.map (fun p => (bytes.length - p.2) * p.1.toNat)).sum) % 65521)
  ∧ (∀ (value : Word) (s : State), exec (.ckAdler [] value) s = .next (s.answer .ok [value] [])
    ∧ exec (.ckCrc32 [] value) s = .next (s.answer .ok [value] []))
  ∧ (∀ (x : Byte) (value : Word) (s : State), exec (.ckCrc32 [x] value) s =
      .next (s.answer .ok [crcBits 8 (~~~value ^^^ x.setWidth 32) ^^^ 0xFFFFFFFF] []))
  ∧ (∀ (f : List Byte → Word → Instr), f = .ckAdler ∨ f = .ckCrc32 → ∀ (a b : List Byte) (value : Word) (s : State),
    ∃ r r' : Word, exec (f a value) s = .next (s.answer .ok [r] []) ∧ exec (f b r) s = .next (s.answer .ok [r'] [])
      ∧ exec (f (a ++ b) value) s = .next (s.answer .ok [r'] []))
  ∧ adler32 1 [0x41, 0x42, 0x43] = 0x018D00C7 ∧ crc32 0 [0x41, 0x42, 0x43] = 0xA3830348
  ∧ crc32 0 [0x31, 0x32, 0x33, 0x34, 0x35, 0x36, 0x37, 0x38, 0x39] = 0xCBF43926

/-! ## Frames -/

/-- Who may write what (spec/10_state.md R31, R34, R35, spec/20_memory.md R100, R110): an accepted command leaves every unit as it was
unless it is one of those named for it; the configuration registers are written by the `NEW` commands only; the commands that
name no unit change nothing but the result interface. Of the decompressor's registers `BC.NEW`, `BC.REBASE` and `HF.LOAD` may
change the model's own mark `disturbed` only (log entry 8). -/
def Obligations.UnitWriters : Prop :=
  (∀ (i : Instr) (s t : State), Accepts i s t →
    (i.op ∉ [.bsInit, .bsAppend, .bsPad, .bsPull, .bsPop, .bwDynamic, .bwStored, .cNew, .cPush, .cPop, .cPull] → t.bs = s.bs)
    ∧ (i.op ∉ [.wnInit, .wnUpdate, .wnFeed, .tmStep, .tmGraph, .cNew, .cPush] → t.wn = s.wn)
    ∧ (i.op ∉ [.tmStep, .tmMinimize, .bwDynamic, .cNew, .cPush] → t.tv = s.tv)
    ∧ (i.op ∉ [.tmGraph, .tmMinimize, .cNew, .cPush] → t.mg = s.mg)
    ∧ (i.op ∉ [.tmMinimize, .tmGeneralize, .cNew, .cPush] → t.dt = s.dt)
    ∧ (i.op ∉ [.hfLoad, .bwDynamic, .cNew, .cPush] → t.enc = s.enc)
    ∧ (i.op ∉ [.tmStep, .tmGraph, .tmMinimize, .bwDynamic, .cNew, .cPush] → t.c = s.c)
    ∧ (i.op ≠ .cNew → t.c.cfg = s.c.cfg) ∧ (i.op ≠ .dNew → t.d.format = s.d.format))
  ∧ (∀ (i : Instr) (s t : State), s.d.disturbed = false → Accepts i s t →
    (i.op ∉ [.bcNew, .bcRebase, .dNew, .dPush] → t.bc = s.bc)
    ∧ (i.op ∉ [.hfLoad, .dNew, .dPush, .brStep] → t.dec = s.dec)
    ∧ (i.op ∉ [.dNew, .dPush, .brStep, .dPulln, .dPull] → t.d = { s.d with disturbed := t.d.disturbed })
    ∧ (i.op ∉ [.dNew, .dPush, .brStep, .bcNew, .bcRebase, .hfLoad] → t.d.disturbed = s.d.disturbed)
    ∧ t.free = s.free)

/-- The two contexts share no state (spec/10_state.md R30): a command of one side leaves the other side as it was, and what it returns
and leaves on its own side depends on its own side only. (Of a disturbed decompressor, spec/70_reset_and_hazards.md R652, the second part
says nothing.) -/
def Obligations.ContextsIndependent : Prop :=
  (∀ (i : Instr) (s t : State), compressorSide i = true → Accepts i s t → SameDecompressor s t)
  ∧ (∀ (i : Instr) (s t : State), decompressorSide i = true → Accepts i s t → SameCompressor s t)
  ∧ (∀ (i : Instr) (s s' t : State), compressorSide i = true → SameCompressor s s' → exec i s = .next t →
      ∃ t', exec i s' = .next t' ∧ SameResults t t' ∧ (t.status ≠ .refused → SameCompressor t t'))
  ∧ (∀ (i : Instr) (s s' t : State), decompressorSide i = true → s.d.disturbed = false → SameDecompressor s s' →
      exec i s = .next t → ∃ t', exec i s' = .next t' ∧ SameResults t t' ∧ (t.status ≠ .refused → SameDecompressor t t'))

/-- The bytes of the two byte memories (spec/20_memory.md R100, spec/42_match_finder.md R324, spec/45_block_reader.md R482): an accepted command
writes only the slots `p mod W` of the positions it inserts and `p mod 32768` of the bytes it emits; every other slot reads as
before. -/
def Obligations.MemoryFrame : Prop :=
  (∀ (i : Instr) (s t : State) (a : Nat), Accepts i s t → i.op ≠ .wnInit → i.op ≠ .cNew →
    (∀ p, s.wn.inserted ≤ p → p < t.wn.inserted → p % 2 ^ s.wn.exp.toNat ≠ a) → t.wn.bytes.read a = s.wn.bytes.read a)
  ∧ (∀ (i : Instr) (s t : State) (a : Nat), Accepts i s t → i.op ≠ .dNew → s.d.disturbed = false →
    (∀ p, s.d.total ≤ p → p < t.d.total → p % 32768 ≠ a) → t.d.hist.read a = s.d.hist.read a)

end Statements
end

