-- ==== Sys2Proof/Laws/Build.lean ====
section
/-! SUPPORT. The laws of the reference builder: one length per symbol, and no length above the limit (spec/41_huffman.md R271,
R275). -/

namespace Sys2Proof.Machine

/-! ## How often a symbol occurs in a package list -/

/-- How often `s` occurs in the packages of a list. -/
def occurrences (s : Nat) (l : List Package) : Nat := (l.map (fun p => p.syms.count s)).sum

theorem count_flatMap_syms (s : Nat) (l : List Package) : (l.flatMap Package.syms).count s = occurrences s l := by
  induction l with
  | nil => rfl
  | cons p rest ih => simp [occurrences, List.count_append, ih] at *

theorem occurrences_insert (s : Nat) (x : Package) (l : List Package) :
    occurrences s (x.insert l) = x.syms.count s + occurrences s l := by
  induction l with
  | nil => simp [Package.insert, occurrences]
  | cons y rest ih =>
    simp only [Package.insert]
    split
    · simp only [occurrences, List.map_cons, List.sum_cons] at *
      omega
    · simp [occurrences]

theorem occurrences_merge (s : Nat) (leaves packages : List Package) :
    occurrences s (mergePackages leaves packages) = occurrences s leaves + occurrences s packages := by
  induction packages generalizing leaves with
  | nil => simp [mergePackages, occurrences]
  | cons p rest ih =>
    have := ih (p.insert leaves)
    simp only [mergePackages, List.foldl_cons] at this ⊢
    rw [this, occurrences_insert]
    simp only [occurrences, List.map_cons, List.sum_cons]
    omega

theorem occurrences_pairUp (s : Nat) : ∀ l : List Package, occurrences s (pairUp l) ≤ occurrences s l
  | [] => by simp [pairUp]
  | [_] => by simp [pairUp, occurrences]
  | a :: b :: rest => by
    have := occurrences_pairUp s rest
    simp only [pairUp, occurrences, List.map_cons, List.sum_cons, List.count_append] at *
    omega

theorem occurrences_take (s n : Nat) (l : List Package) : occurrences s (l.take n) ≤ occurrences s l := by
  induction l generalizing n with
  | nil => simp
  | cons p rest ih =>
    cases n with
    | zero => simp [occurrences]
    | succ n =>
      have := ih n
      simp only [occurrences, List.take_succ_cons, List.map_cons, List.sum_cons] at *
      omega

/-- Each round of package-merge adds at most one occurrence of a symbol for each leaf that holds it. -/
theorem occurrences_rounds (s : Nat) (leaves : List Package) (n : Nat) :
    occurrences s (packageRounds leaves n) ≤ (n + 1) * occurrences s leaves := by
  induction n with
  | zero => simp [packageRounds]
  | succ n ih =>
    rw [packageRounds, occurrences_merge]
    have := occurrences_pairUp s (packageRounds leaves n)
    rw [Nat.succ_mul]
    omega

/-! ## The leaves -/

theorem occurrences_leaves (s : Nat) (used : List (Nat × Nat)) (acc : List Package) :
    occurrences s (used.foldl (fun acc u => Package.insert { weight := u.1, syms := [u.2] } acc) acc)
      = (used.map Prod.snd).count s + occurrences s acc := by
  induction used generalizing acc with
  | nil => simp
  | cons u rest ih =>
    simp only [List.foldl_cons, ih, occurrences_insert, List.map_cons, List.count_cons, List.count_nil]
    simp only [beq_iff_eq]
    omega

/-- The symbols in use are in symbol order. -/
theorem usedSymbols_sorted (freqs : List Nat) : ((usedSymbols freqs).map Prod.snd).Pairwise (· < ·) := by
  have hall : (freqs.zipIdx.map Prod.snd).Pairwise (· < ·) := by
    rw [List.zipIdx_map_snd]
    exact List.pairwise_lt_range'
  exact hall.sublist (List.Sublist.map _ List.filter_sublist)

theorem usedSymbols_count (freqs : List Nat) (s : Nat) : ((usedSymbols freqs).map Prod.snd).count s ≤ 1 :=
  List.nodup_iff_count_le_one.mp ((usedSymbols_sorted freqs).imp Nat.ne_of_lt) s

/-! ## The builder -/

theorem depthOf_le (depths : List (Nat × Nat)) (s m : Nat) (h : ∀ l ∈ depths, l.2 ≤ m) : depthOf depths s ≤ m := by
  induction depths with
  | nil => simp [depthOf]
  | cons d rest ih =>
    obtain ⟨t, k⟩ := d
    simp only [depthOf]
    split
    · exact h (t, k) (by simp)
    · exact ih fun l hl => h l (List.mem_cons_of_mem _ hl)

/-- The builder gives one length per frequency (spec/41_huffman.md R270). -/
theorem length_referenceBuild (freqs : List Nat) (maxlen : Nat) : (referenceBuild freqs maxlen).length = freqs.length := by
  unfold referenceBuild
  split
  · simp
  · simp
  · dsimp only
    split <;> simp

/-- The length-limit property (spec/41_huffman.md R271, property 2). -/
theorem referenceBuild_le (freqs : List Nat) (maxlen : Nat) (hm : 1 ≤ maxlen) :
    ∀ l ∈ referenceBuild freqs maxlen, l ≤ maxlen := by
  intro l hl
  unfold referenceBuild at hl
  split at hl
  · simp only [List.mem_map] at hl
    obtain ⟨s, -, rfl⟩ := hl
    split <;> omega
  · simp only [List.mem_map] at hl
    obtain ⟨s, -, rfl⟩ := hl
    split <;> omega
  · rename_i u v rest hu
    dsimp only at hl
    split at hl
    · rename_i hd
      simp only [List.mem_map] at hl
      obtain ⟨s, -, rfl⟩ := hl
      exact depthOf_le _ _ _ (by simpa using hd)
    · simp only [List.mem_map] at hl
      obtain ⟨s, -, rfl⟩ := hl
      rw [packageSymbols, count_flatMap_syms]
      have h1 := occurrences_take s (2 * (u :: v :: rest).length - 2)
        (packageRounds ((u :: v :: rest).foldl (fun acc u => Package.insert { weight := u.1, syms := [u.2] } acc) []) (maxlen - 1))
      have h2 := occurrences_rounds s
        ((u :: v :: rest).foldl (fun acc u => Package.insert { weight := u.1, syms := [u.2] } acc) []) (maxlen - 1)
      rw [occurrences_leaves] at h2
      have h3 := usedSymbols_count freqs s
      rw [hu] at h3
      have h4 : occurrences s [] = 0 := rfl
      have h5 : maxlen - 1 + 1 = maxlen := by omega
      rw [h4, h5] at h2
      have h6 : maxlen * (((u :: v :: rest).map Prod.snd).count s + 0) ≤ maxlen * 1 := Nat.mul_le_mul_left _ (by omega)
      omega

end Sys2Proof.Machine
end

