-- ==== Sys2Proof/Laws/Cells.lean ====
section
/-! SUPPORT. The laws of the sparse memories: reading after writing, and the canonical form that every operation keeps. -/

namespace Sys2Proof.Machine

variable {α : Type}

/-! ## Reading after writing -/

@[simp] theorem Cells.read_nil (k : Nat) : Cells.read k ([] : List (Nat × α)) = none := rfl

/-- A read where the write went gives what was written. -/
@[simp] theorem Cells.read_write_same (k : Nat) (x : α) (m : List (Nat × α)) : Cells.read k (Cells.write k x m) = some x := by
  induction m with
  | nil => simp [Cells.write, Cells.read]
  | cons c rest ih =>
    obtain ⟨a, y⟩ := c
    simp only [Cells.write]
    split
    · simp [Cells.read]
    · split
      · simp [Cells.read]
      · rename_i h
        simp [Cells.read, Ne.symm h, ih]

/-- A read elsewhere is as before. -/
theorem Cells.read_write_other {j k : Nat} (h : j ≠ k) (x : α) (m : List (Nat × α)) :
    Cells.read j (Cells.write k x m) = Cells.read j m := by
  induction m with
  | nil => simp [Cells.write, Cells.read, Ne.symm h]
  | cons c rest ih =>
    obtain ⟨a, y⟩ := c
    simp only [Cells.write]
    split
    · simp [Cells.read, Ne.symm h]
    · split
      · rename_i hk
        subst hk
        simp [Cells.read, Ne.symm h]
      · simp [Cells.read, ih]

/-- A read where the entry was erased gives nothing. -/
@[simp] theorem Cells.read_erase_same (k : Nat) (m : List (Nat × α)) : Cells.read k (Cells.erase k m) = none := by
  induction m with
  | nil => rfl
  | cons c rest ih =>
    obtain ⟨a, y⟩ := c
    simp only [Cells.erase]
    split
    · exact ih
    · rename_i h
      simp [Cells.read, Ne.symm h, ih]

/-- A read elsewhere is as before an erasure. -/
theorem Cells.read_erase_other {j k : Nat} (h : j ≠ k) (m : List (Nat × α)) :
    Cells.read j (Cells.erase k m) = Cells.read j m := by
  induction m with
  | nil => rfl
  | cons c rest ih =>
    obtain ⟨a, y⟩ := c
    simp only [Cells.erase]
    split
    · rename_i hk
      subst hk
      simp [Cells.read, Ne.symm h, ih]
    · simp [Cells.read, ih]

/-! ## The canonical form -/

/-- The canonical form: the addresses rise strictly. -/
theorem Cells.wf_iff (m : List (Nat × α)) : Cells.wf m = true ↔ m.Pairwise (fun a b => a.1 < b.1) := by
  induction m with
  | nil => simp [Cells.wf]
  | cons c rest ih =>
    obtain ⟨a, x⟩ := c
    cases rest with
    | nil => simp [Cells.wf]
    | cons d rest =>
      obtain ⟨b, y⟩ := d
      simp only [Cells.wf, Bool.and_eq_true, decide_eq_true_eq, ih, List.pairwise_cons]
      constructor
      · rintro ⟨hab, h, hp⟩
        refine ⟨fun e he => ?_, h, hp⟩
        rcases List.mem_cons.mp he with rfl | he
        · exact hab
        · exact Nat.lt_trans hab (h e he)
      · rintro ⟨h, h', hp⟩
        exact ⟨h (b, y) (by simp), h', hp⟩

/-- The addresses after a write are the old ones and the one written. -/
theorem Cells.mem_write {k : Nat} {x : α} {m : List (Nat × α)} {c : Nat × α} (h : c ∈ Cells.write k x m) :
    c.1 = k ∨ c ∈ m := by
  induction m with
  | nil => simp [Cells.write] at h; simp [h]
  | cons d rest ih =>
    obtain ⟨a, y⟩ := d
    simp only [Cells.write] at h
    split at h
    · rcases List.mem_cons.mp h with rfl | h <;> simp_all
    · split at h
      · rcases List.mem_cons.mp h with rfl | h <;> simp_all
      · rcases List.mem_cons.mp h with rfl | h
        · simp
        · rcases ih h with h | h <;> simp [h]

/-- A write keeps the canonical form. -/
theorem Cells.wf_write {k : Nat} {x : α} {m : List (Nat × α)} (h : Cells.wf m = true) : Cells.wf (Cells.write k x m) = true := by
  rw [Cells.wf_iff] at *
  induction m with
  | nil => simp [Cells.write]
  | cons d rest ih =>
    obtain ⟨a, y⟩ := d
    rw [List.pairwise_cons] at h
    simp only [Cells.write]
    split
    · rename_i hk
      refine List.pairwise_cons.mpr ⟨fun e he => ?_, List.pairwise_cons.mpr h⟩
      rcases List.mem_cons.mp he with rfl | he
      · exact hk
      · exact Nat.lt_trans hk (h.1 e he)
    · split
      · rename_i hk
        subst hk
        exact List.pairwise_cons.mpr ⟨h.1, h.2⟩
      · refine List.pairwise_cons.mpr ⟨fun e he => ?_, ih h.2⟩
        rcases Cells.mem_write he with he | he
        · simp only [he]; omega
        · exact h.1 e he

/-- An erasure leaves a part of the entries, in order. -/
theorem Cells.erase_sublist (k : Nat) (m : List (Nat × α)) : (Cells.erase k m).Sublist m := by
  induction m with
  | nil => exact List.Sublist.slnil
  | cons d rest ih =>
    simp only [Cells.erase]
    split
    · exact ih.cons _
    · exact ih.cons_cons _

/-- An erasure keeps the canonical form. -/
theorem Cells.wf_erase {k : Nat} {m : List (Nat × α)} (h : Cells.wf m = true) : Cells.wf (Cells.erase k m) = true := by
  rw [Cells.wf_iff] at *
  exact h.sublist (Cells.erase_sublist k m)

/-! ## Byte memories and links -/

@[simp] theorem Memory.read_write_same (m : Memory) (a : Nat) (b : Byte) : (m.write a b).read a = some b :=
  Cells.read_write_same a b m

theorem Memory.read_write_other (m : Memory) {a c : Nat} (h : c ≠ a) (b : Byte) : (m.write a b).read c = m.read c :=
  Cells.read_write_other h b m

theorem Memory.wf_write (m : Memory) (a : Nat) (b : Byte) (h : m.wf = true) : (m.write a b).wf = true := Cells.wf_write h

@[simp] theorem Links.get_set_same (m : Links) (a : Nat) (p : Option Nat) : (m.set a p).get a = p := by
  cases p <;> simp [Links.set, Links.get]

theorem Links.get_set_other (m : Links) {a c : Nat} (h : c ≠ a) (p : Option Nat) : (m.set a p).get c = m.get c := by
  cases p
  · exact Cells.read_erase_other h m
  · exact Cells.read_write_other h _ m

theorem Links.wf_set (m : Links) (a : Nat) (p : Option Nat) (h : m.wf = true) : (m.set a p).wf = true := by
  cases p
  · exact Cells.wf_erase h
  · exact Cells.wf_write h

/-- The memories of the machine right after power-on are in canonical form. -/
theorem reset_memories_wf : State.reset.wn.bytes.wf = true ∧ State.reset.wn.head.wf = true ∧ State.reset.wn.next.wf = true
    ∧ State.reset.d.hist.wf = true := by
  decide

end Sys2Proof.Machine
end

