-- ==== Sys2Proof/Laws/Checksum.lean ====
section
/-! SUPPORT. The laws of the checksums: a checksum of a sequence is computed in pieces (spec/46_stream_interface.md R590, R591). -/

namespace Sys2Proof.Machine

/-- The two halves of a word, put together again. -/
theorem word_halves (v : Word) : word (v.toNat / 2 ^ 16 * 2 ^ 16 + v.toNat % 2 ^ 16) = v := by
  apply BitVec.eq_of_toNat_eq
  have := v.isLt
  simp only [word, BitVec.toNat_ofNat]
  omega

@[simp] theorem adler32_nil (v : Word) : adler32 v [] = v := by
  unfold adler32; exact word_halves v

/-- The halves stay 16 bits wide. -/
theorem adlerByte_lt (ab : Nat × Nat) (x : Byte) : (adlerByte ab x).1 < 65521 ∧ (adlerByte ab x).2 < 65521 := by
  simp only [adlerByte]
  omega

theorem foldl_adlerByte_lt (bytes : List Byte) (ab : Nat × Nat) (h : ab.1 < 2 ^ 16 ∧ ab.2 < 2 ^ 16) :
    (bytes.foldl adlerByte ab).1 < 2 ^ 16 ∧ (bytes.foldl adlerByte ab).2 < 2 ^ 16 := by
  induction bytes generalizing ab with
  | nil => exact h
  | cons x rest ih =>
    have := adlerByte_lt ab x
    exact ih _ (by omega)

/-- Adler-32 in pieces (spec/46_stream_interface.md R590). -/
theorem adler32_append (v : Word) (a b : List Byte) : adler32 v (a ++ b) = adler32 (adler32 v a) b := by
  have hv := v.isLt
  obtain ⟨h1, h2⟩ := foldl_adlerByte_lt a (v.toNat % 2 ^ 16, v.toNat / 2 ^ 16) (by dsimp only; omega)
  unfold adler32
  dsimp only
  rw [List.foldl_append]
  generalize a.foldl adlerByte (v.toNat % 2 ^ 16, v.toNat / 2 ^ 16) = p at *
  obtain ⟨x, y⟩ := p
  have e1 : (word (y * 2 ^ 16 + x)).toNat % 2 ^ 16 = x := by
    simp only [word, BitVec.toNat_ofNat]; omega
  have e2 : (word (y * 2 ^ 16 + x)).toNat / 2 ^ 16 = y := by
    simp only [word, BitVec.toNat_ofNat]; omega
  dsimp only at *
  rw [e1, e2]

@[simp] theorem crc32_nil (v : Word) : crc32 v [] = v := by
  simp [crc32]

/-- CRC-32 in pieces (spec/46_stream_interface.md R591). -/
theorem crc32_append (v : Word) (a b : List Byte) : crc32 v (a ++ b) = crc32 (crc32 v a) b := by
  simp [crc32, List.foldl_append]

@[simp] theorem checkOver_nil (f : Format) (v : Word) : checkOver f v [] = v := by
  cases f <;> simp [checkOver]

/-- The running check of a format in pieces. -/
theorem checkOver_append (f : Format) (v : Word) (a b : List Byte) :
    checkOver f v (a ++ b) = checkOver f (checkOver f v a) b := by
  cases f <;> simp [checkOver, adler32_append, crc32_append]

end Sys2Proof.Machine
end

