-- ==== Sys2Proof/Laws/State.lean ====
section
/-! SUPPORT. One lemma per field per update of the state: what each named update leaves and what it writes, all by `rfl`. -/

namespace Sys2Proof.Machine

/-! ## Answering -/

@[simp] theorem State.answer_cmdIn (s : State) (status : Status) (res : List Word) (out : List Byte) : (s.answer status res out).cmdIn = s.cmdIn := rfl
@[simp] theorem State.answer_dataIn (s : State) (status : Status) (res : List Word) (out : List Byte) : (s.answer status res out).dataIn = s.dataIn := rfl
@[simp] theorem State.answer_status (s : State) (status : Status) (res : List Word) (out : List Byte) : (s.answer status res out).status = status := rfl
@[simp] theorem State.answer_res (s : State) (status : Status) (res : List Word) (out : List Byte) : (s.answer status res out).res = res := rfl
@[simp] theorem State.answer_dataOut (s : State) (status : Status) (res : List Word) (out : List Byte) : (s.answer status res out).dataOut = out := rfl
@[simp] theorem State.answer_refused (s : State) (status : Status) (res : List Word) (out : List Byte) : (s.answer status res out).refused = s.refused := rfl
@[simp] theorem State.answer_c (s : State) (status : Status) (res : List Word) (out : List Byte) : (s.answer status res out).c = s.c := rfl
@[simp] theorem State.answer_bs (s : State) (status : Status) (res : List Word) (out : List Byte) : (s.answer status res out).bs = s.bs := rfl
@[simp] theorem State.answer_wn (s : State) (status : Status) (res : List Word) (out : List Byte) : (s.answer status res out).wn = s.wn := rfl
@[simp] theorem State.answer_tv (s : State) (status : Status) (res : List Word) (out : List Byte) : (s.answer status res out).tv = s.tv := rfl
@[simp] theorem State.answer_mg (s : State) (status : Status) (res : List Word) (out : List Byte) : (s.answer status res out).mg = s.mg := rfl
@[simp] theorem State.answer_dt (s : State) (status : Status) (res : List Word) (out : List Byte) : (s.answer status res out).dt = s.dt := rfl
@[simp] theorem State.answer_enc (s : State) (status : Status) (res : List Word) (out : List Byte) : (s.answer status res out).enc = s.enc := rfl
@[simp] theorem State.answer_d (s : State) (status : Status) (res : List Word) (out : List Byte) : (s.answer status res out).d = s.d := rfl
@[simp] theorem State.answer_bc (s : State) (status : Status) (res : List Word) (out : List Byte) : (s.answer status res out).bc = s.bc := rfl
@[simp] theorem State.answer_dec (s : State) (status : Status) (res : List Word) (out : List Byte) : (s.answer status res out).dec = s.dec := rfl
@[simp] theorem State.answer_free (s : State) (status : Status) (res : List Word) (out : List Byte) : (s.answer status res out).free = s.free := rfl

/-! ## The host's reading of data-out -/

@[simp] theorem State.takeDataOut_read (s : State) (n : Nat) : (s.takeDataOut n).1 = s.dataOut.take n := rfl
@[simp] theorem State.takeDataOut_dataOut (s : State) (n : Nat) : (s.takeDataOut n).2.dataOut = s.dataOut.drop n := rfl
@[simp] theorem State.takeDataOut_cmdIn (s : State) (n : Nat) : (s.takeDataOut n).2.cmdIn = s.cmdIn := rfl
@[simp] theorem State.takeDataOut_dataIn (s : State) (n : Nat) : (s.takeDataOut n).2.dataIn = s.dataIn := rfl
@[simp] theorem State.takeDataOut_status (s : State) (n : Nat) : (s.takeDataOut n).2.status = s.status := rfl
@[simp] theorem State.takeDataOut_res (s : State) (n : Nat) : (s.takeDataOut n).2.res = s.res := rfl
@[simp] theorem State.takeDataOut_refused (s : State) (n : Nat) : (s.takeDataOut n).2.refused = s.refused := rfl
@[simp] theorem State.takeDataOut_c (s : State) (n : Nat) : (s.takeDataOut n).2.c = s.c := rfl
@[simp] theorem State.takeDataOut_bs (s : State) (n : Nat) : (s.takeDataOut n).2.bs = s.bs := rfl
@[simp] theorem State.takeDataOut_wn (s : State) (n : Nat) : (s.takeDataOut n).2.wn = s.wn := rfl
@[simp] theorem State.takeDataOut_tv (s : State) (n : Nat) : (s.takeDataOut n).2.tv = s.tv := rfl
@[simp] theorem State.takeDataOut_mg (s : State) (n : Nat) : (s.takeDataOut n).2.mg = s.mg := rfl
@[simp] theorem State.takeDataOut_dt (s : State) (n : Nat) : (s.takeDataOut n).2.dt = s.dt := rfl
@[simp] theorem State.takeDataOut_enc (s : State) (n : Nat) : (s.takeDataOut n).2.enc = s.enc := rfl
@[simp] theorem State.takeDataOut_d (s : State) (n : Nat) : (s.takeDataOut n).2.d = s.d := rfl
@[simp] theorem State.takeDataOut_bc (s : State) (n : Nat) : (s.takeDataOut n).2.bc = s.bc := rfl
@[simp] theorem State.takeDataOut_dec (s : State) (n : Nat) : (s.takeDataOut n).2.dec = s.dec := rfl
@[simp] theorem State.takeDataOut_free (s : State) (n : Nat) : (s.takeDataOut n).2.free = s.free := rfl

/-! ## Refusing -/

@[simp] theorem State.refuse_cmdIn (s : State) (r : Reason) : (s.refuse r).cmdIn = s.cmdIn := rfl
@[simp] theorem State.refuse_dataIn (s : State) (r : Reason) : (s.refuse r).dataIn = s.dataIn := rfl
@[simp] theorem State.refuse_status (s : State) (r : Reason) : (s.refuse r).status = .refused := rfl
@[simp] theorem State.refuse_res (s : State) (r : Reason) : (s.refuse r).res = [r.code] := rfl
@[simp] theorem State.refuse_refused (s : State) (r : Reason) : (s.refuse r).refused = true := rfl
@[simp] theorem State.refuse_free (s : State) (r : Reason) : (s.refuse r).free = s.free + 1 := rfl

/-! ## Committing terms -/

@[simp] theorem State.commitTerms_cmdIn (s : State) (new : List Term) (w : Window) : (s.commitTerms new w).cmdIn = s.cmdIn := rfl
@[simp] theorem State.commitTerms_dataIn (s : State) (new : List Term) (w : Window) : (s.commitTerms new w).dataIn = s.dataIn := rfl
@[simp] theorem State.commitTerms_status (s : State) (new : List Term) (w : Window) : (s.commitTerms new w).status = s.status := rfl
@[simp] theorem State.commitTerms_res (s : State) (new : List Term) (w : Window) : (s.commitTerms new w).res = s.res := rfl
@[simp] theorem State.commitTerms_dataOut (s : State) (new : List Term) (w : Window) : (s.commitTerms new w).dataOut = s.dataOut := rfl
@[simp] theorem State.commitTerms_refused (s : State) (new : List Term) (w : Window) : (s.commitTerms new w).refused = s.refused := rfl
@[simp] theorem State.commitTerms_c (s : State) (new : List Term) (w : Window) : (s.commitTerms new w).c = { s.c with parsed := s.c.parsed + coversAll new, termsBytes := s.c.termsBytes + coversAll new } := rfl
@[simp] theorem State.commitTerms_bs (s : State) (new : List Term) (w : Window) : (s.commitTerms new w).bs = s.bs := rfl
@[simp] theorem State.commitTerms_wn (s : State) (new : List Term) (w : Window) : (s.commitTerms new w).wn = w := rfl
@[simp] theorem State.commitTerms_tv (s : State) (new : List Term) (w : Window) : (s.commitTerms new w).tv = s.tv ++ new := rfl
@[simp] theorem State.commitTerms_mg (s : State) (new : List Term) (w : Window) : (s.commitTerms new w).mg = s.mg := rfl
@[simp] theorem State.commitTerms_dt (s : State) (new : List Term) (w : Window) : (s.commitTerms new w).dt = s.dt := rfl
@[simp] theorem State.commitTerms_enc (s : State) (new : List Term) (w : Window) : (s.commitTerms new w).enc = s.enc := rfl
@[simp] theorem State.commitTerms_d (s : State) (new : List Term) (w : Window) : (s.commitTerms new w).d = s.d := rfl
@[simp] theorem State.commitTerms_bc (s : State) (new : List Term) (w : Window) : (s.commitTerms new w).bc = s.bc := rfl
@[simp] theorem State.commitTerms_dec (s : State) (new : List Term) (w : Window) : (s.commitTerms new w).dec = s.dec := rfl
@[simp] theorem State.commitTerms_free (s : State) (new : List Term) (w : Window) : (s.commitTerms new w).free = s.free := rfl

/-! ## Blending the depth table -/

@[simp] theorem State.generalize_cmdIn (s : State) (P : Params) : (s.generalize P).cmdIn = s.cmdIn := rfl
@[simp] theorem State.generalize_dataIn (s : State) (P : Params) : (s.generalize P).dataIn = s.dataIn := rfl
@[simp] theorem State.generalize_status (s : State) (P : Params) : (s.generalize P).status = s.status := rfl
@[simp] theorem State.generalize_res (s : State) (P : Params) : (s.generalize P).res = s.res := rfl
@[simp] theorem State.generalize_dataOut (s : State) (P : Params) : (s.generalize P).dataOut = s.dataOut := rfl
@[simp] theorem State.generalize_refused (s : State) (P : Params) : (s.generalize P).refused = s.refused := rfl
@[simp] theorem State.generalize_c (s : State) (P : Params) : (s.generalize P).c = s.c := rfl
@[simp] theorem State.generalize_bs (s : State) (P : Params) : (s.generalize P).bs = s.bs := rfl
@[simp] theorem State.generalize_wn (s : State) (P : Params) : (s.generalize P).wn = s.wn := rfl
@[simp] theorem State.generalize_tv (s : State) (P : Params) : (s.generalize P).tv = s.tv := rfl
@[simp] theorem State.generalize_mg (s : State) (P : Params) : (s.generalize P).mg = s.mg := rfl
@[simp] theorem State.generalize_dt (s : State) (P : Params) : (s.generalize P).dt = blendDepths P s.dt := rfl
@[simp] theorem State.generalize_enc (s : State) (P : Params) : (s.generalize P).enc = s.enc := rfl
@[simp] theorem State.generalize_d (s : State) (P : Params) : (s.generalize P).d = s.d := rfl
@[simp] theorem State.generalize_bc (s : State) (P : Params) : (s.generalize P).bc = s.bc := rfl
@[simp] theorem State.generalize_dec (s : State) (P : Params) : (s.generalize P).dec = s.dec := rfl
@[simp] theorem State.generalize_free (s : State) (P : Params) : (s.generalize P).free = s.free := rfl

/-! ## Replacing the reader -/

@[simp] theorem State.withReader_cmdIn (s : State) (r : Reader) : (s.withReader r).cmdIn = s.cmdIn := rfl
@[simp] theorem State.withReader_dataIn (s : State) (r : Reader) : (s.withReader r).dataIn = s.dataIn := rfl
@[simp] theorem State.withReader_status (s : State) (r : Reader) : (s.withReader r).status = s.status := rfl
@[simp] theorem State.withReader_res (s : State) (r : Reader) : (s.withReader r).res = s.res := rfl
@[simp] theorem State.withReader_dataOut (s : State) (r : Reader) : (s.withReader r).dataOut = s.dataOut := rfl
@[simp] theorem State.withReader_refused (s : State) (r : Reader) : (s.withReader r).refused = s.refused := rfl
@[simp] theorem State.withReader_c (s : State) (r : Reader) : (s.withReader r).c = s.c := rfl
@[simp] theorem State.withReader_bs (s : State) (r : Reader) : (s.withReader r).bs = s.bs := rfl
@[simp] theorem State.withReader_wn (s : State) (r : Reader) : (s.withReader r).wn = s.wn := rfl
@[simp] theorem State.withReader_tv (s : State) (r : Reader) : (s.withReader r).tv = s.tv := rfl
@[simp] theorem State.withReader_mg (s : State) (r : Reader) : (s.withReader r).mg = s.mg := rfl
@[simp] theorem State.withReader_dt (s : State) (r : Reader) : (s.withReader r).dt = s.dt := rfl
@[simp] theorem State.withReader_enc (s : State) (r : Reader) : (s.withReader r).enc = s.enc := rfl
@[simp] theorem State.withReader_d (s : State) (r : Reader) : (s.withReader r).d = r.d := rfl
@[simp] theorem State.withReader_bc (s : State) (r : Reader) : (s.withReader r).bc = s.bc := rfl
@[simp] theorem State.withReader_dec (s : State) (r : Reader) : (s.withReader r).dec = r.dec := rfl
@[simp] theorem State.withReader_free (s : State) (r : Reader) : (s.withReader r).free = s.free := rfl

@[simp] theorem State.reader_d (s : State) : s.reader.d = s.d := rfl
@[simp] theorem State.reader_dec (s : State) : s.reader.dec = s.dec := rfl

/-! ## Opening a compressor stream -/

@[simp] theorem State.openCompressor_cmdIn (s : State) (P : Params) (cfg : CConfig) : (s.openCompressor P cfg).cmdIn = s.cmdIn := rfl
@[simp] theorem State.openCompressor_dataIn (s : State) (P : Params) (cfg : CConfig) : (s.openCompressor P cfg).dataIn = s.dataIn := rfl
@[simp] theorem State.openCompressor_status (s : State) (P : Params) (cfg : CConfig) : (s.openCompressor P cfg).status = s.status := rfl
@[simp] theorem State.openCompressor_res (s : State) (P : Params) (cfg : CConfig) : (s.openCompressor P cfg).res = s.res := rfl
@[simp] theorem State.openCompressor_dataOut (s : State) (P : Params) (cfg : CConfig) : (s.openCompressor P cfg).dataOut = s.dataOut := rfl
@[simp] theorem State.openCompressor_refused (s : State) (P : Params) (cfg : CConfig) : (s.openCompressor P cfg).refused = s.refused := rfl
@[simp] theorem State.openCompressor_c (s : State) (P : Params) (cfg : CConfig) : (s.openCompressor P cfg).c = Compressor.fresh cfg := rfl
@[simp] theorem State.openCompressor_bs (s : State) (P : Params) (cfg : CConfig) : (s.openCompressor P cfg).bs = (Sink.init cfg.hint.toNat).appendBytes (headerBytes cfg.format cfg.exp.toNat) := rfl
@[simp] theorem State.openCompressor_wn (s : State) (P : Params) (cfg : CConfig) : (s.openCompressor P cfg).wn = Window.init cfg.exp := rfl
@[simp] theorem State.openCompressor_tv (s : State) (P : Params) (cfg : CConfig) : (s.openCompressor P cfg).tv = [] := rfl
@[simp] theorem State.openCompressor_mg (s : State) (P : Params) (cfg : CConfig) : (s.openCompressor P cfg).mg = Graph.blank := rfl
@[simp] theorem State.openCompressor_dt (s : State) (P : Params) (cfg : CConfig) : (s.openCompressor P cfg).dt = P.defaultDepth := rfl
@[simp] theorem State.openCompressor_enc (s : State) (P : Params) (cfg : CConfig) : (s.openCompressor P cfg).enc = EncTables.cleared := rfl
@[simp] theorem State.openCompressor_d (s : State) (P : Params) (cfg : CConfig) : (s.openCompressor P cfg).d = s.d := rfl
@[simp] theorem State.openCompressor_bc (s : State) (P : Params) (cfg : CConfig) : (s.openCompressor P cfg).bc = s.bc := rfl
@[simp] theorem State.openCompressor_dec (s : State) (P : Params) (cfg : CConfig) : (s.openCompressor P cfg).dec = s.dec := rfl
@[simp] theorem State.openCompressor_free (s : State) (P : Params) (cfg : CConfig) : (s.openCompressor P cfg).free = s.free := rfl

/-! ## Closing a compressor stream -/

@[simp] theorem State.closeStream_cmdIn (s : State) : (s.closeStream ).cmdIn = s.cmdIn := rfl
@[simp] theorem State.closeStream_dataIn (s : State) : (s.closeStream ).dataIn = s.dataIn := rfl
@[simp] theorem State.closeStream_status (s : State) : (s.closeStream ).status = s.status := rfl
@[simp] theorem State.closeStream_res (s : State) : (s.closeStream ).res = s.res := rfl
@[simp] theorem State.closeStream_dataOut (s : State) : (s.closeStream ).dataOut = s.dataOut := rfl
@[simp] theorem State.closeStream_refused (s : State) : (s.closeStream ).refused = s.refused := rfl
@[simp] theorem State.closeStream_c (s : State) : (s.closeStream ).c = { s.c with state := .finished } := rfl
@[simp] theorem State.closeStream_bs (s : State) : (s.closeStream ).bs = s.bs.pad.appendBytes (trailerBytes s.c) := rfl
@[simp] theorem State.closeStream_wn (s : State) : (s.closeStream ).wn = s.wn := rfl
@[simp] theorem State.closeStream_tv (s : State) : (s.closeStream ).tv = s.tv := rfl
@[simp] theorem State.closeStream_mg (s : State) : (s.closeStream ).mg = s.mg := rfl
@[simp] theorem State.closeStream_dt (s : State) : (s.closeStream ).dt = s.dt := rfl
@[simp] theorem State.closeStream_enc (s : State) : (s.closeStream ).enc = s.enc := rfl
@[simp] theorem State.closeStream_d (s : State) : (s.closeStream ).d = s.d := rfl
@[simp] theorem State.closeStream_bc (s : State) : (s.closeStream ).bc = s.bc := rfl
@[simp] theorem State.closeStream_dec (s : State) : (s.closeStream ).dec = s.dec := rfl
@[simp] theorem State.closeStream_free (s : State) : (s.closeStream ).free = s.free := rfl

/-! ## Opening a decompressor stream -/

@[simp] theorem State.openDecompressor_cmdIn (s : State) (f : Format) : (s.openDecompressor f).cmdIn = s.cmdIn := rfl
@[simp] theorem State.openDecompressor_dataIn (s : State) (f : Format) : (s.openDecompressor f).dataIn = s.dataIn := rfl
@[simp] theorem State.openDecompressor_status (s : State) (f : Format) : (s.openDecompressor f).status = s.status := rfl
@[simp] theorem State.openDecompressor_res (s : State) (f : Format) : (s.openDecompressor f).res = s.res := rfl
@[simp] theorem State.openDecompressor_dataOut (s : State) (f : Format) : (s.openDecompressor f).dataOut = s.dataOut := rfl
@[simp] theorem State.openDecompressor_refused (s : State) (f : Format) : (s.openDecompressor f).refused = s.refused := rfl
@[simp] theorem State.openDecompressor_c (s : State) (f : Format) : (s.openDecompressor f).c = s.c := rfl
@[simp] theorem State.openDecompressor_bs (s : State) (f : Format) : (s.openDecompressor f).bs = s.bs := rfl
@[simp] theorem State.openDecompressor_wn (s : State) (f : Format) : (s.openDecompressor f).wn = s.wn := rfl
@[simp] theorem State.openDecompressor_tv (s : State) (f : Format) : (s.openDecompressor f).tv = s.tv := rfl
@[simp] theorem State.openDecompressor_mg (s : State) (f : Format) : (s.openDecompressor f).mg = s.mg := rfl
@[simp] theorem State.openDecompressor_dt (s : State) (f : Format) : (s.openDecompressor f).dt = s.dt := rfl
@[simp] theorem State.openDecompressor_enc (s : State) (f : Format) : (s.openDecompressor f).enc = s.enc := rfl
@[simp] theorem State.openDecompressor_d (s : State) (f : Format) : (s.openDecompressor f).d = Decompressor.fresh f := rfl
@[simp] theorem State.openDecompressor_bc (s : State) (f : Format) : (s.openDecompressor f).bc = Cursor.init [] := rfl
@[simp] theorem State.openDecompressor_dec (s : State) (f : Format) : (s.openDecompressor f).dec = DecTables.cleared := rfl
@[simp] theorem State.openDecompressor_free (s : State) (f : Format) : (s.openDecompressor f).free = s.free := rfl

/-! ## Feeding the reader -/

@[simp] theorem State.feedReader_cmdIn (s : State) (bytes : List Byte) : (s.feedReader bytes).cmdIn = s.cmdIn := rfl
@[simp] theorem State.feedReader_dataIn (s : State) (bytes : List Byte) : (s.feedReader bytes).dataIn = s.dataIn := rfl
@[simp] theorem State.feedReader_status (s : State) (bytes : List Byte) : (s.feedReader bytes).status = s.status := rfl
@[simp] theorem State.feedReader_res (s : State) (bytes : List Byte) : (s.feedReader bytes).res = s.res := rfl
@[simp] theorem State.feedReader_dataOut (s : State) (bytes : List Byte) : (s.feedReader bytes).dataOut = s.dataOut := rfl
@[simp] theorem State.feedReader_refused (s : State) (bytes : List Byte) : (s.feedReader bytes).refused = s.refused := rfl
@[simp] theorem State.feedReader_c (s : State) (bytes : List Byte) : (s.feedReader bytes).c = s.c := rfl
@[simp] theorem State.feedReader_bs (s : State) (bytes : List Byte) : (s.feedReader bytes).bs = s.bs := rfl
@[simp] theorem State.feedReader_wn (s : State) (bytes : List Byte) : (s.feedReader bytes).wn = s.wn := rfl
@[simp] theorem State.feedReader_tv (s : State) (bytes : List Byte) : (s.feedReader bytes).tv = s.tv := rfl
@[simp] theorem State.feedReader_mg (s : State) (bytes : List Byte) : (s.feedReader bytes).mg = s.mg := rfl
@[simp] theorem State.feedReader_dt (s : State) (bytes : List Byte) : (s.feedReader bytes).dt = s.dt := rfl
@[simp] theorem State.feedReader_enc (s : State) (bytes : List Byte) : (s.feedReader bytes).enc = s.enc := rfl
@[simp] theorem State.feedReader_d (s : State) (bytes : List Byte) : (s.feedReader bytes).d = { s.d with input := s.d.input ++ bytes } := rfl
@[simp] theorem State.feedReader_bc (s : State) (bytes : List Byte) : (s.feedReader bytes).bc = s.bc.rebase bytes (s.d.cur - (s.d.valid - s.bc.count)) := rfl
@[simp] theorem State.feedReader_dec (s : State) (bytes : List Byte) : (s.feedReader bytes).dec = s.dec := rfl
@[simp] theorem State.feedReader_free (s : State) (bytes : List Byte) : (s.feedReader bytes).free = s.free := rfl

/-! ## An error entered -/

@[simp] theorem Decompressor.raise_state (d : Decompressor) (e : DecodeError) : (d.raise e).state = .error := rfl
@[simp] theorem Decompressor.raise_format (d : Decompressor) (e : DecodeError) : (d.raise e).format = d.format := rfl
@[simp] theorem Decompressor.raise_input (d : Decompressor) (e : DecodeError) : (d.raise e).input = d.input := rfl
@[simp] theorem Decompressor.raise_cur (d : Decompressor) (e : DecodeError) : (d.raise e).cur = d.cur := rfl
@[simp] theorem Decompressor.raise_out (d : Decompressor) (e : DecodeError) : (d.raise e).out = d.out := rfl
@[simp] theorem Decompressor.raise_drained (d : Decompressor) (e : DecodeError) : (d.raise e).drained = d.drained := rfl
@[simp] theorem Decompressor.raise_total (d : Decompressor) (e : DecodeError) : (d.raise e).total = d.total := rfl
@[simp] theorem Decompressor.raise_check (d : Decompressor) (e : DecodeError) : (d.raise e).check = d.check := rfl
@[simp] theorem Decompressor.raise_hist (d : Decompressor) (e : DecodeError) : (d.raise e).hist = d.hist := rfl
@[simp] theorem Decompressor.raise_final (d : Decompressor) (e : DecodeError) : (d.raise e).final = d.final := rfl
@[simp] theorem Decompressor.raise_btype (d : Decompressor) (e : DecodeError) : (d.raise e).btype = d.btype := rfl
@[simp] theorem Decompressor.raise_hlit (d : Decompressor) (e : DecodeError) : (d.raise e).hlit = d.hlit := rfl
@[simp] theorem Decompressor.raise_hdist (d : Decompressor) (e : DecodeError) : (d.raise e).hdist = d.hdist := rfl
@[simp] theorem Decompressor.raise_hclen (d : Decompressor) (e : DecodeError) : (d.raise e).hclen = d.hclen := rfl
@[simp] theorem Decompressor.raise_storedLeft (d : Decompressor) (e : DecodeError) : (d.raise e).storedLeft = d.storedLeft := rfl
@[simp] theorem Decompressor.raise_err (d : Decompressor) (e : DecodeError) : (d.raise e).err = some e := rfl
@[simp] theorem Decompressor.raise_disturbed (d : Decompressor) (e : DecodeError) : (d.raise e).disturbed = d.disturbed := rfl

/-! ## A byte emitted -/

@[simp] theorem Decompressor.emit_state (d : Decompressor) (b : Byte) : (d.emit b).state = d.state := rfl
@[simp] theorem Decompressor.emit_format (d : Decompressor) (b : Byte) : (d.emit b).format = d.format := rfl
@[simp] theorem Decompressor.emit_input (d : Decompressor) (b : Byte) : (d.emit b).input = d.input := rfl
@[simp] theorem Decompressor.emit_cur (d : Decompressor) (b : Byte) : (d.emit b).cur = d.cur := rfl
@[simp] theorem Decompressor.emit_out (d : Decompressor) (b : Byte) : (d.emit b).out = d.out ++ [b] := rfl
@[simp] theorem Decompressor.emit_drained (d : Decompressor) (b : Byte) : (d.emit b).drained = d.drained := rfl
@[simp] theorem Decompressor.emit_total (d : Decompressor) (b : Byte) : (d.emit b).total = d.total + 1 := rfl
@[simp] theorem Decompressor.emit_check (d : Decompressor) (b : Byte) : (d.emit b).check = checkOver d.format d.check [b] := rfl
@[simp] theorem Decompressor.emit_hist (d : Decompressor) (b : Byte) : (d.emit b).hist = d.hist.write (d.total % history) b := rfl
@[simp] theorem Decompressor.emit_final (d : Decompressor) (b : Byte) : (d.emit b).final = d.final := rfl
@[simp] theorem Decompressor.emit_btype (d : Decompressor) (b : Byte) : (d.emit b).btype = d.btype := rfl
@[simp] theorem Decompressor.emit_hlit (d : Decompressor) (b : Byte) : (d.emit b).hlit = d.hlit := rfl
@[simp] theorem Decompressor.emit_hdist (d : Decompressor) (b : Byte) : (d.emit b).hdist = d.hdist := rfl
@[simp] theorem Decompressor.emit_hclen (d : Decompressor) (b : Byte) : (d.emit b).hclen = d.hclen := rfl
@[simp] theorem Decompressor.emit_storedLeft (d : Decompressor) (b : Byte) : (d.emit b).storedLeft = d.storedLeft := rfl
@[simp] theorem Decompressor.emit_err (d : Decompressor) (b : Byte) : (d.emit b).err = d.err := rfl
@[simp] theorem Decompressor.emit_disturbed (d : Decompressor) (b : Byte) : (d.emit b).disturbed = d.disturbed := rfl

/-! ## The cursor aligned -/

@[simp] theorem Decompressor.align_state (d : Decompressor) : (d.align).state = d.state := rfl
@[simp] theorem Decompressor.align_format (d : Decompressor) : (d.align).format = d.format := rfl
@[simp] theorem Decompressor.align_input (d : Decompressor) : (d.align).input = d.input := rfl
@[simp] theorem Decompressor.align_cur (d : Decompressor) : (d.align).cur = (d.cur + 7) / 8 * 8 := rfl
@[simp] theorem Decompressor.align_out (d : Decompressor) : (d.align).out = d.out := rfl
@[simp] theorem Decompressor.align_drained (d : Decompressor) : (d.align).drained = d.drained := rfl
@[simp] theorem Decompressor.align_total (d : Decompressor) : (d.align).total = d.total := rfl
@[simp] theorem Decompressor.align_check (d : Decompressor) : (d.align).check = d.check := rfl
@[simp] theorem Decompressor.align_hist (d : Decompressor) : (d.align).hist = d.hist := rfl
@[simp] theorem Decompressor.align_final (d : Decompressor) : (d.align).final = d.final := rfl
@[simp] theorem Decompressor.align_btype (d : Decompressor) : (d.align).btype = d.btype := rfl
@[simp] theorem Decompressor.align_hlit (d : Decompressor) : (d.align).hlit = d.hlit := rfl
@[simp] theorem Decompressor.align_hdist (d : Decompressor) : (d.align).hdist = d.hdist := rfl
@[simp] theorem Decompressor.align_hclen (d : Decompressor) : (d.align).hclen = d.hclen := rfl
@[simp] theorem Decompressor.align_storedLeft (d : Decompressor) : (d.align).storedLeft = d.storedLeft := rfl
@[simp] theorem Decompressor.align_err (d : Decompressor) : (d.align).err = d.err := rfl
@[simp] theorem Decompressor.align_disturbed (d : Decompressor) : (d.align).disturbed = d.disturbed := rfl

/-! ## A unit touched by the host -/

@[simp] theorem Decompressor.touched_state (d : Decompressor) : (d.touched).state = d.state := rfl
@[simp] theorem Decompressor.touched_format (d : Decompressor) : (d.touched).format = d.format := rfl
@[simp] theorem Decompressor.touched_input (d : Decompressor) : (d.touched).input = d.input := rfl
@[simp] theorem Decompressor.touched_cur (d : Decompressor) : (d.touched).cur = d.cur := rfl
@[simp] theorem Decompressor.touched_out (d : Decompressor) : (d.touched).out = d.out := rfl
@[simp] theorem Decompressor.touched_drained (d : Decompressor) : (d.touched).drained = d.drained := rfl
@[simp] theorem Decompressor.touched_total (d : Decompressor) : (d.touched).total = d.total := rfl
@[simp] theorem Decompressor.touched_check (d : Decompressor) : (d.touched).check = d.check := rfl
@[simp] theorem Decompressor.touched_hist (d : Decompressor) : (d.touched).hist = d.hist := rfl
@[simp] theorem Decompressor.touched_final (d : Decompressor) : (d.touched).final = d.final := rfl
@[simp] theorem Decompressor.touched_btype (d : Decompressor) : (d.touched).btype = d.btype := rfl
@[simp] theorem Decompressor.touched_hlit (d : Decompressor) : (d.touched).hlit = d.hlit := rfl
@[simp] theorem Decompressor.touched_hdist (d : Decompressor) : (d.touched).hdist = d.hdist := rfl
@[simp] theorem Decompressor.touched_hclen (d : Decompressor) : (d.touched).hclen = d.hclen := rfl
@[simp] theorem Decompressor.touched_storedLeft (d : Decompressor) : (d.touched).storedLeft = d.storedLeft := rfl
@[simp] theorem Decompressor.touched_err (d : Decompressor) : (d.touched).err = d.err := rfl
@[simp] theorem Decompressor.touched_disturbed (d : Decompressor) : (d.touched).disturbed = (d.disturbed || d.streaming) := rfl

/-! ## The end of a block -/

@[simp] theorem Decompressor.endOfBlock_state (d : Decompressor) : (d.endOfBlock).state = if d.final then (if d.format = .raw then .streamEnd else .streamChecksum) else .blockStart := rfl
@[simp] theorem Decompressor.endOfBlock_format (d : Decompressor) : (d.endOfBlock).format = d.format := rfl
@[simp] theorem Decompressor.endOfBlock_input (d : Decompressor) : (d.endOfBlock).input = d.input := rfl
@[simp] theorem Decompressor.endOfBlock_cur (d : Decompressor) : (d.endOfBlock).cur = d.cur := rfl
@[simp] theorem Decompressor.endOfBlock_out (d : Decompressor) : (d.endOfBlock).out = d.out := rfl
@[simp] theorem Decompressor.endOfBlock_drained (d : Decompressor) : (d.endOfBlock).drained = d.drained := rfl
@[simp] theorem Decompressor.endOfBlock_total (d : Decompressor) : (d.endOfBlock).total = d.total := rfl
@[simp] theorem Decompressor.endOfBlock_check (d : Decompressor) : (d.endOfBlock).check = d.check := rfl
@[simp] theorem Decompressor.endOfBlock_hist (d : Decompressor) : (d.endOfBlock).hist = d.hist := rfl
@[simp] theorem Decompressor.endOfBlock_final (d : Decompressor) : (d.endOfBlock).final = d.final := rfl
@[simp] theorem Decompressor.endOfBlock_btype (d : Decompressor) : (d.endOfBlock).btype = d.btype := rfl
@[simp] theorem Decompressor.endOfBlock_hlit (d : Decompressor) : (d.endOfBlock).hlit = d.hlit := rfl
@[simp] theorem Decompressor.endOfBlock_hdist (d : Decompressor) : (d.endOfBlock).hdist = d.hdist := rfl
@[simp] theorem Decompressor.endOfBlock_hclen (d : Decompressor) : (d.endOfBlock).hclen = d.hclen := rfl
@[simp] theorem Decompressor.endOfBlock_storedLeft (d : Decompressor) : (d.endOfBlock).storedLeft = d.storedLeft := rfl
@[simp] theorem Decompressor.endOfBlock_err (d : Decompressor) : (d.endOfBlock).err = d.err := rfl
@[simp] theorem Decompressor.endOfBlock_disturbed (d : Decompressor) : (d.endOfBlock).disturbed = d.disturbed := rfl

end Sys2Proof.Machine
end

