-- ==== Sys2Proof/Laws/Run.lean ====
section
/-! SUPPORT. The computation of a command: what a bind, a check, a read and the finish can answer. -/

namespace Sys2Proof.Machine

/-! ## Binds -/

/-- A bind answers exactly when both parts do. -/
theorem bind_eq_ok {ε α β : Type} {x : Except ε α} {f : α → Except ε β} {b : β} :
    (x >>= f) = .ok b ↔ ∃ a, x = .ok a ∧ f a = .ok b := by
  cases x <;> simp [bind, Except.bind]

/-- A bind stops when its first part does, or its second does. -/
theorem bind_eq_error {ε α β : Type} {x : Except ε α} {f : α → Except ε β} {e : ε} :
    (x >>= f) = .error e ↔ x = .error e ∨ ∃ a, x = .ok a ∧ f a = .error e := by
  cases x <;> simp [bind, Except.bind]

@[simp] theorem ok_bind {ε α β : Type} (a : α) (f : α → Except ε β) : ((Except.ok a : Except ε α) >>= f) = f a := rfl

@[simp] theorem error_bind {ε α β : Type} (e : ε) (f : α → Except ε β) :
    ((Except.error e : Except ε α) >>= f) = .error e := rfl

@[simp] theorem pure_eq_ok {ε α : Type} (a : α) : (pure a : Except ε α) = .ok a := rfl

/-! ## Checks and reads -/

@[simp] theorem refuseIf_false (r : Reason) : refuseIf false r = .ok () := rfl

@[simp] theorem refuseIf_true (r : Reason) : refuseIf true r = .error (.refuse r) := rfl

/-- A check passes exactly when its condition fails. -/
@[simp] theorem refuseIf_eq_ok {c : Bool} {r : Reason} {u : Unit} : refuseIf c r = .ok u ↔ c = false := by
  cases c <;> simp [refuseIf]

/-- A check never faults. -/
@[simp] theorem refuseIf_ne_fault {c : Bool} {r : Reason} {f : Fault} : refuseIf c r ≠ .error (.fault f) := by
  cases c <;> simp [refuseIf]

/-- A fault check passes exactly when its condition fails. -/
@[simp] theorem faultIf_eq_ok {c : Bool} {sp : Space} {u : Unit} : faultIf c sp = .ok u ↔ c = false := by
  cases c <;> simp [faultIf]

@[simp] theorem faultIf_false (sp : Space) : faultIf false sp = .ok () := rfl

/-- A read answers exactly the unit that was written. -/
@[simp] theorem written_eq_ok {α : Type} {sp : Space} {o : Option α} {a : α} : written sp o = .ok a ↔ o = some a := by
  cases o <;> simp [written]

@[simp] theorem written_some {α : Type} (sp : Space) (a : α) : written sp (some a) = .ok a := rfl

/-- A read is never refused. -/
@[simp] theorem written_ne_refuse {α : Type} {sp : Space} {o : Option α} {r : Reason} :
    written sp o ≠ .error (.refuse r) := by
  cases o <;> simp [written]

@[simp] theorem raiseIf_eq_ok {c : Bool} {e : DecodeError} {u : Unit} : raiseIf c e = .ok u ↔ c = false := by
  cases c <;> simp [raiseIf]

@[simp] theorem raiseIf_false (e : DecodeError) : raiseIf false e = .ok () := rfl

@[simp] theorem raiseIf_true (e : DecodeError) : raiseIf true e = .error (.error e) := rfl

/-! ## What a computation meets -/

/-- The computation does not fault, and what it answers meets `Q`. It may be refused. -/
structure Meets {α : Type} (x : Run α) (Q : α → Prop) : Prop where
  answer  : ∀ a, x = .ok a → Q a
  noFault : ∀ f, x ≠ .error (.fault f)

theorem Meets.ok {α : Type} {a : α} {Q : α → Prop} (h : Q a) : Meets (Except.ok a) Q :=
  ⟨fun b hb => (by cases hb; exact h), fun f hf => (by cases hf)⟩

theorem Meets.pure {α : Type} {a : α} {Q : α → Prop} (h : Q a) : Meets (Pure.pure a) Q := Meets.ok h

theorem Meets.refused {α : Type} {r : Reason} {Q : α → Prop} : Meets (Except.error (.refuse r)) Q :=
  ⟨fun b hb => (by cases hb), fun f hf => (by cases hf)⟩

theorem Meets.bind {α β : Type} {x : Run α} {f : α → Run β} {R : α → Prop} {Q : β → Prop} (h : Meets x R)
    (hf : ∀ a, R a → Meets (f a) Q) : Meets (x >>= f) Q := by
  refine ⟨fun b hb => ?_, fun g hg => ?_⟩
  · obtain ⟨a, h1, h2⟩ := bind_eq_ok.mp hb
    exact (hf a (h.answer a h1)).answer b h2
  · rcases bind_eq_error.mp hg with h1 | ⟨a, h1, h2⟩
    · exact h.noFault g h1
    · exact (hf a (h.answer a h1)).noFault g h2

theorem Meets.mono {α : Type} {x : Run α} {R Q : α → Prop} (h : Meets x R) (hq : ∀ a, R a → Q a) : Meets x Q :=
  ⟨fun a ha => hq a (h.answer a ha), h.noFault⟩

theorem Meets.check {c : Bool} {r : Reason} {Q : Unit → Prop} (h : c = false → Q ()) : Meets (refuseIf c r) Q := by
  cases c
  · exact Meets.ok (h rfl)
  · exact Meets.refused

theorem Meets.read {α : Type} {sp : Space} {o : Option α} {a : α} {Q : α → Prop} (h : o = some a) (hq : Q a) :
    Meets (written sp o) Q := by
  subst h
  exact Meets.ok hq

/-! ## The finish -/

@[simp] theorem finish_ok (s t : State) : s.finish (.ok t) = .next t := rfl

@[simp] theorem finish_refuse (s : State) (r : Reason) : s.finish (.error (.refuse r)) = .next (s.refuse r) := rfl

@[simp] theorem finish_fault (s : State) (f : Fault) : s.finish (.error (.fault f)) = .fault f := rfl

/-- A command goes on with the state its rule gives, or with the state after its refusal. -/
theorem finish_eq_next {s t : State} {x : Run State} :
    s.finish x = .next t ↔ x = .ok t ∨ ∃ r, x = .error (.refuse r) ∧ t = s.refuse r := by
  rcases x with (r | f) | u <;> simp [State.finish, eq_comm]

/-- A command faults exactly when its computation does. -/
theorem finish_eq_fault {s : State} {f : Fault} {x : Run State} :
    s.finish x = .fault f ↔ x = .error (.fault f) := by
  rcases x with (r | g) | u <;> simp [State.finish]

/-- No command is without a meaning. -/
theorem finish_ne_refused (s : State) (x : Run State) (r : Refusal) : s.finish x ≠ .refused r := by
  rcases x with (q | f) | u <;> simp [State.finish]

/-- An accepted command from a state with no refusal ends in the state its rule gives. -/
theorem finish_accepted {s t : State} {x : Run State} (h : s.finish x = .next t) (ht : t.refused = false) : x = .ok t := by
  rcases finish_eq_next.mp h with h | ⟨r, -, rfl⟩
  · exact h
  · simp at ht

end Sys2Proof.Machine
end

