-- ==== Sys2Proof/Laws/Sink.lean ====
section
/-! SUPPORT. The laws of the bit sink: what an `Append` adds to the stream, what a release leaves, and the sound form both keep. -/

namespace Sys2Proof.Machine

/-! ## Bits of numbers -/

@[simp] theorem lowBits_zero (v : Nat) : lowBits 0 v = [] := rfl

@[simp] theorem length_lowBits (n v : Nat) : (lowBits n v).length = n := by simp [lowBits]

/-- The low bits of a number: its lowest, then those of its half. -/
theorem lowBits_succ (n v : Nat) : lowBits (n + 1) v = (v % 2 == 1) :: lowBits n (v / 2) := by
  simp only [lowBits, List.range_succ_eq_map, List.map_cons, List.map_map, Function.comp_def]
  congr 1
  · rw [Nat.testBit_zero]
    by_cases h : v % 2 = 1 <;> simp [h]
  · apply List.map_congr_left
    intro j _
    rw [Nat.testBit_succ]

/-- Low bits read no bit at or above their number. -/
theorem lowBits_congr {n v w : Nat} (h : ∀ j, j < n → v.testBit j = w.testBit j) : lowBits n v = lowBits n w := by
  simp only [lowBits]
  exact List.map_congr_left fun j hj => h j (List.mem_range.mp hj)

/-- One more low bit, at the end. -/
theorem lowBits_succ_last (n v : Nat) : lowBits (n + 1) v = lowBits n v ++ [v.testBit n] := by
  simp [lowBits, List.range_succ]

theorem bitsOfBytes_append (a b : List Byte) : bitsOfBytes (a ++ b) = bitsOfBytes a ++ bitsOfBytes b := by
  simp [bitsOfBytes]

@[simp] theorem bitsOfBytes_nil : bitsOfBytes [] = [] := rfl

@[simp] theorem bitsOfBytes_singleton (b : Byte) : bitsOfBytes [b] = lowBits 8 b.toNat := by simp [bitsOfBytes]

/-! ## One bit -/

/-- The bits of a byte with one bit set: that bit, and every other as before. -/
theorem setBit_testBit (x : Byte) (i : Nat) (b : Bool) (j : Nat) (hi : i < 8) :
    (setBit x i b).toNat.testBit j = if j = i then b else x.toNat.testBit j := by
  rw [BitVec.testBit_toNat, BitVec.testBit_toNat]
  unfold setBit
  have hone : ∀ k, (1#8 <<< i).getLsbD k = decide (k = i) := by
    intro k
    by_cases hk : k < 8
    · simp only [BitVec.getLsbD_shiftLeft, hk, decide_true, Bool.true_and]
      by_cases hki : k = i
      · subst hki; simp
      · by_cases hlt : k < i
        · simp [hlt, hki]
        · have : k - i ≠ 0 := by omega
          simp [hlt, hki, BitVec.getLsbD_one, this]
    · have h1 : (1#8 <<< i).getLsbD k = false := BitVec.getLsbD_of_ge _ _ (by omega)
      have h2 : k ≠ i := by omega
      simp [h1, h2]
  cases b
  · simp only [Bool.false_eq_true, if_false, BitVec.getLsbD_and, BitVec.getLsbD_not, hone]
    by_cases hj : j = i
    · simp [hj]
    · by_cases hj8 : j < 8
      · simp [hj, hj8]
      · simp [hj, hj8, BitVec.getLsbD_of_ge x j (by omega)]
  · simp only [if_true, BitVec.getLsbD_or, hone]
    by_cases hj : j = i <;> simp [hj]

/-- One bit more in the stream. -/
theorem Sink.stream_pushBit (k : Sink) (b : Bool) : (k.pushBit b).stream = k.stream ++ [b] := by
  have hlt : k.nacc.toNat < 8 := k.nacc.isLt
  have hbits : ∀ n, n = k.nacc.toNat → lowBits (n + 1) (setBit k.acc n b).toNat = lowBits n k.acc.toNat ++ [b] := by
    intro n hn
    rw [lowBits_succ_last, setBit_testBit _ _ _ _ (by omega)]
    simp only [if_true]
    congr 1
    exact lowBits_congr fun j hj => by rw [setBit_testBit _ _ _ _ (by omega)]; simp [Nat.ne_of_lt hj]
  unfold Sink.pushBit Sink.stream
  by_cases h : k.nacc = 7
  · have h7 : k.nacc.toNat = 7 := by rw [h]; rfl
    have := hbits 7 h7.symm
    simp only [h, if_true, bitsOfBytes_append, bitsOfBytes_singleton, ← List.append_assoc]
    simpa using this
  · have hn : (k.nacc + 1).toNat = k.nacc.toNat + 1 := by
      have : k.nacc.toNat ≠ 7 := fun he => h (BitVec.eq_of_toNat_eq (by simpa using he))
      rw [BitVec.toNat_add, Nat.mod_eq_of_lt] <;> simp <;> omega
    simp only [h, if_false, hn, hbits _ rfl, List.append_assoc]

/-- The low bits of a number join the stream in order. -/
theorem Sink.stream_pushBits (n v : Nat) (k : Sink) : (Sink.pushBits n v k).stream = k.stream ++ lowBits n v := by
  induction n generalizing v k with
  | zero => simp [Sink.pushBits]
  | succ n ih => simp [Sink.pushBits, ih, Sink.stream_pushBit, lowBits_succ]

/-! ## Chunk release -/

/-- A release moves bytes, it adds and drops none. -/
theorem Sink.stream_releaseLoop (n : Nat) (k : Sink) : (Sink.releaseLoop n k).stream = k.stream := by
  induction n generalizing k with
  | zero => rfl
  | succ n ih =>
    simp only [Sink.releaseLoop]
    split
    · rfl
    · split
      · rw [ih]
        simp only [Sink.stream, List.flatten_append, List.flatten_cons, List.flatten_nil, List.append_nil, List.append_assoc,
          List.take_append_drop]
      · rfl

/-- What `Append` adds to the stream (spec/40_bit_io.md R231, R236). -/
theorem Sink.stream_append (k : Sink) (bits count : Nat) : (k.append bits count).stream = k.stream ++ lowBits count bits := by
  simp [Sink.append, Sink.release, Sink.stream_releaseLoop, Sink.stream_pushBits]

@[simp] theorem Sink.appendBytes_nil (k : Sink) : k.appendBytes [] = k := rfl

theorem Sink.appendBytes_cons (k : Sink) (b : Nat) (rest : List Nat) :
    k.appendBytes (b :: rest) = (k.append b 8).appendBytes rest := by
  simp only [Sink.appendBytes, List.foldl_cons]

/-- What appended bytes add to the stream. -/
theorem Sink.stream_appendBytes (bytes : List Nat) (k : Sink) :
    (k.appendBytes bytes).stream = k.stream ++ bytes.flatMap (lowBits 8) := by
  induction bytes generalizing k with
  | nil => simp
  | cons b rest ih => simp [Sink.appendBytes_cons, ih, Sink.stream_append]

/-! ## What no operation changes -/

@[simp] theorem Sink.hint_pushBit (k : Sink) (b : Bool) : (k.pushBit b).hint = k.hint := by
  unfold Sink.pushBit; dsimp only; split <;> rfl

@[simp] theorem Sink.isOpen_pushBit (k : Sink) (b : Bool) : (k.pushBit b).isOpen = k.isOpen := by
  unfold Sink.pushBit; dsimp only; split <;> rfl

@[simp] theorem Sink.queue_pushBit (k : Sink) (b : Bool) : (k.pushBit b).queue = k.queue := by
  unfold Sink.pushBit; dsimp only; split <;> rfl

@[simp] theorem Sink.hint_pushBits (n v : Nat) (k : Sink) : (Sink.pushBits n v k).hint = k.hint := by
  induction n generalizing v k with
  | zero => rfl
  | succ n ih => simp [Sink.pushBits, ih]

@[simp] theorem Sink.isOpen_pushBits (n v : Nat) (k : Sink) : (Sink.pushBits n v k).isOpen = k.isOpen := by
  induction n generalizing v k with
  | zero => rfl
  | succ n ih => simp [Sink.pushBits, ih]

@[simp] theorem Sink.queue_pushBits (n v : Nat) (k : Sink) : (Sink.pushBits n v k).queue = k.queue := by
  induction n generalizing v k with
  | zero => rfl
  | succ n ih => simp [Sink.pushBits, ih]

/-- Every field a release leaves as it was. -/
theorem Sink.releaseLoop_frame (n : Nat) (k : Sink) :
    (Sink.releaseLoop n k).hint = k.hint ∧ (Sink.releaseLoop n k).isOpen = k.isOpen ∧ (Sink.releaseLoop n k).acc = k.acc
      ∧ (Sink.releaseLoop n k).nacc = k.nacc := by
  induction n generalizing k with
  | zero => simp [Sink.releaseLoop]
  | succ n ih =>
    simp only [Sink.releaseLoop]
    split
    · simp
    · split
      · exact ih _
      · simp

@[simp] theorem Sink.hint_append (k : Sink) (bits count : Nat) : (k.append bits count).hint = k.hint := by
  simp [Sink.append, Sink.release, Sink.releaseLoop_frame]

@[simp] theorem Sink.isOpen_append (k : Sink) (bits count : Nat) : (k.append bits count).isOpen = k.isOpen := by
  simp [Sink.append, Sink.release, Sink.releaseLoop_frame]

/-! ## The sound form -/

/-- What a release leaves, when the chunk size is positive: the queue extended by whole chunks, fewer bytes than a chunk waiting
(spec/40_bit_io.md R232). -/
theorem Sink.releaseLoop_spec (n : Nat) (k : Sink) (hh : 1 ≤ k.hint) (hn : k.done.length ≤ n) :
    (Sink.releaseLoop n k).done.length < k.hint
      ∧ ∃ more, (Sink.releaseLoop n k).queue = k.queue ++ more ∧ ∀ c ∈ more, c.length = k.hint := by
  induction n generalizing k with
  | zero => exact ⟨by simp [Sink.releaseLoop]; omega, [], by simp [Sink.releaseLoop], by simp⟩
  | succ n ih =>
    simp only [Sink.releaseLoop]
    rw [if_neg (by omega)]
    split
    · rename_i hle
      obtain ⟨h1, more, h2, h3⟩ := ih { k with queue := k.queue ++ [k.done.take k.hint], done := k.done.drop k.hint } hh (by simp; omega)
      refine ⟨h1, k.done.take k.hint :: more, by simpa using h2, fun c hc => ?_⟩
      rcases List.mem_cons.mp hc with rfl | hc
      · simp; omega
      · exact h3 c hc
    · exact ⟨by omega, [], by simp, by simp⟩

/-- A bit keeps the partial byte clean. -/
theorem Sink.acc_pushBit (k : Sink) (b : Bool) (h : k.acc.toNat < 2 ^ k.nacc.toNat) :
    (k.pushBit b).acc.toNat < 2 ^ (k.pushBit b).nacc.toNat := by
  have hlt : k.nacc.toNat < 8 := k.nacc.isLt
  unfold Sink.pushBit
  by_cases h7 : k.nacc = 7
  · simp [h7]
  · have hn : (k.nacc + 1).toNat = k.nacc.toNat + 1 := by
      have : k.nacc.toNat ≠ 7 := fun he => h7 (BitVec.eq_of_toNat_eq (by simpa using he))
      rw [BitVec.toNat_add, Nat.mod_eq_of_lt] <;> simp <;> omega
    simp only [h7, if_false, hn]
    apply Nat.lt_pow_two_of_testBit
    intro j hj
    rw [setBit_testBit _ _ _ _ hlt, if_neg (by omega)]
    exact Nat.testBit_lt_two_pow (Nat.lt_of_lt_of_le h (Nat.pow_le_pow_right (by omega) (by omega)))

theorem Sink.acc_pushBits (n v : Nat) (k : Sink) (h : k.acc.toNat < 2 ^ k.nacc.toNat) :
    (Sink.pushBits n v k).acc.toNat < 2 ^ (Sink.pushBits n v k).nacc.toNat := by
  induction n generalizing v k with
  | zero => exact h
  | succ n ih => exact ih _ _ (Sink.acc_pushBit _ _ h)

/-- `Append` keeps the sound form. -/
theorem Sink.Sound.append {k : Sink} (h : k.Sound) (bits count : Nat) : (k.append bits count).Sound := by
  have hf := Sink.releaseLoop_frame (Sink.pushBits count bits k).done.length (Sink.pushBits count bits k)
  obtain ⟨h1, more, h2, h3⟩ :=
    Sink.releaseLoop_spec (Sink.pushBits count bits k).done.length (Sink.pushBits count bits k) (by simpa using h.hint) (Nat.le_refl _)
  simp only [Sink.hint_pushBits, Sink.queue_pushBits] at hf h1 h2 h3
  refine ⟨by simpa using h.hint, ?_, ?_, ?_⟩
  · intro c hc
    simp only [Sink.hint_append]
    change c ∈ (Sink.releaseLoop _ _).queue at hc
    rw [h2] at hc
    rcases List.mem_append.mp hc with hc | hc
    · exact h.chunks c hc
    · exact h3 c hc
  · rw [Sink.hint_append]
    exact h1
  · change (Sink.releaseLoop _ _).acc.toNat < 2 ^ (Sink.releaseLoop _ _).nacc.toNat
    rw [hf.2.2.1, hf.2.2.2]
    exact Sink.acc_pushBits _ _ _ h.acc

theorem Sink.Sound.appendBytes {k : Sink} (h : k.Sound) (bytes : List Nat) : (k.appendBytes bytes).Sound := by
  induction bytes generalizing k with
  | nil => exact h
  | cons b rest ih => rw [Sink.appendBytes_cons]; exact ih (h.append b 8)

@[simp] theorem Sink.isOpen_appendBytes (k : Sink) (bytes : List Nat) : (k.appendBytes bytes).isOpen = k.isOpen := by
  induction bytes generalizing k with
  | nil => rfl
  | cons b rest ih => rw [Sink.appendBytes_cons, ih, Sink.isOpen_append]

theorem Sink.Sound.pad {k : Sink} (h : k.Sound) : k.pad.Sound := by
  unfold Sink.pad
  split
  · exact h
  · exact h.append _ _

@[simp] theorem Sink.isOpen_pad (k : Sink) : k.pad.isOpen = k.isOpen := by
  unfold Sink.pad
  split <;> simp

/-- A new sink is sound. -/
theorem Sink.sound_init (n : Nat) (h : 1 ≤ n) : (Sink.init n).Sound :=
  ⟨h, by simp [Sink.init], h, by simp [Sink.init]⟩

/-- A release of everything leaves a sound sink. -/
theorem Sink.Sound.pull {k : Sink} (h : k.Sound) : k.pull.2.Sound := by
  refine ⟨h.hint, by simp [Sink.pull], h.hint, ?_⟩
  have := h.acc
  by_cases hn : k.nacc = 0 <;> simp_all [Sink.pull]

theorem Sink.Sound.drain {k : Sink} (h : k.Sound) : k.drain.2.Sound := by
  unfold Sink.drain
  split
  · rename_i c rest hq
    exact ⟨h.hint, fun d hd => h.chunks d (by rw [hq]; exact List.mem_cons_of_mem _ hd), h.done, h.acc⟩
  · exact ⟨h.hint, h.chunks, h.hint, h.acc⟩

end Sys2Proof.Machine
end

