-- ==== Sys2Proof/Laws/Tables.lean ====
section
/-! SUPPORT. The laws of the decade tables, the symbols of terms, and the Huffman tables' sizes. -/

namespace Sys2Proof.Machine

/-! ## Decades -/

/-- The decades of a list cover `lo .. hi` without a gap and without an overlap. -/
def contiguous : Nat → Nat → List Decade → Bool
  | lo, hi, [] => lo == hi + 1
  | lo, hi, d :: rest => d.base == lo && decide (d.base ≤ d.top) && contiguous (d.top + 1) hi rest

theorem distDecades_contiguous : contiguous 1 32768 distDecades = true := by decide

theorem runDecades_contiguous : contiguous 3 258 runDecades = true := by decide

/-- The decade found is one of the list's, at its place, and holds the value (spec/30_encoding.md R171). -/
theorem findDecade_some {v k n : Nat} {l : List Decade} {d : Decade} (h : findDecade v k l = some (n, d)) :
    ∃ i, n = k + i ∧ l[i]? = some d ∧ d.base ≤ v ∧ v ≤ d.top := by
  induction l generalizing k with
  | nil => simp [findDecade] at h
  | cons e rest ih =>
    simp only [findDecade] at h
    split at h
    · rename_i hv
      simp only [Option.some.injEq, Prod.mk.injEq] at h
      obtain ⟨rfl, rfl⟩ := h
      exact ⟨0, rfl, rfl, hv⟩
    · obtain ⟨i, h1, h2, h3⟩ := ih h
      exact ⟨i + 1, by omega, by simpa using h2, h3⟩

/-- Every value in a gapless list has a decade. -/
theorem findDecade_exists {v lo hi k : Nat} {l : List Decade} (hc : contiguous lo hi l = true) (h1 : lo ≤ v) (h2 : v ≤ hi) :
    ∃ n d, findDecade v k l = some (n, d) := by
  induction l generalizing lo k with
  | nil => simp [contiguous] at hc; omega
  | cons e rest ih =>
    simp only [contiguous, Bool.and_eq_true, beq_iff_eq, decide_eq_true_eq] at hc
    simp only [findDecade]
    split
    · exact ⟨_, _, rfl⟩
    · rename_i hv
      exact ih hc.2 (by omega)

/-- A value has one decade: the one whose range holds it. -/
theorem findDecade_eq {v lo hi k i : Nat} {l : List Decade} {d : Decade} (hc : contiguous lo hi l = true)
    (hd : l[i]? = some d) (h1 : d.base ≤ v) (h2 : v ≤ d.top) : findDecade v k l = some (k + i, d) := by
  induction l generalizing lo k i with
  | nil => simp at hd
  | cons e rest ih =>
    simp only [contiguous, Bool.and_eq_true, beq_iff_eq, decide_eq_true_eq] at hc
    cases i with
    | zero =>
      simp at hd
      subst hd
      simp [findDecade, h1, h2]
    | succ i =>
      simp only [List.getElem?_cons_succ] at hd
      have hlow : ∀ (l : List Decade) (lo : Nat) (j : Nat) (x : Decade), contiguous lo hi l = true → l[j]? = some x → lo ≤ x.base := by
        intro l
        induction l with
        | nil => simp
        | cons y ys ihl =>
          intro lo j x hcl hx
          simp only [contiguous, Bool.and_eq_true, beq_iff_eq, decide_eq_true_eq] at hcl
          cases j with
          | zero => simp at hx; subst hx; omega
          | succ j =>
            have := ihl _ j x hcl.2 (by simpa using hx)
            omega
      have := hlow rest _ i d hc.2 hd
      simp only [findDecade]
      rw [if_neg (by omega), ih hc.2 hd]
      congr 2
      omega

/-- Every distance of a term has a symbol 0..29 whose decade holds it (spec/30_encoding.md R174). -/
theorem distSymbol_spec {d : Nat} (h1 : 1 ≤ d) (h2 : d ≤ 32768) :
    ∃ k dd, distSymbol d = some (k, dd) ∧ distDecades[k]? = some dd ∧ dd.base ≤ d ∧ d ≤ dd.top := by
  obtain ⟨n, dd, h⟩ := findDecade_exists (k := 0) distDecades_contiguous h1 h2
  obtain ⟨i, rfl, h4, h5⟩ := findDecade_some h
  exact ⟨0 + i, dd, h, by simpa using h4, h5⟩

/-- Every run of a term has a symbol 257..285 whose decade holds it (spec/30_encoding.md R172). -/
theorem runSymbol_spec {r : Nat} (h1 : 3 ≤ r) (h2 : r ≤ 258) :
    ∃ i rd, runSymbol r = some (257 + i, rd) ∧ runDecades[i]? = some rd ∧ rd.base ≤ r ∧ r ≤ rd.top := by
  obtain ⟨n, rd, h⟩ := findDecade_exists (k := 257) runDecades_contiguous h1 h2
  obtain ⟨i, rfl, h4, h5⟩ := findDecade_some h
  exact ⟨i, rd, h, h4, h5⟩

/-- A distance with a symbol is in range, and its symbol is below 30. -/
theorem distSymbol_range {d k : Nat} {dd : Decade} (h : distSymbol d = some (k, dd)) : k < 30 ∧ 1 ≤ d ∧ d ≤ 32768 := by
  obtain ⟨i, rfl, h1, h2, h3⟩ := findDecade_some h
  have hi : i < 30 := by
    have := (List.getElem?_eq_some_iff.mp h1).1
    simpa [distDecades] using this
  have hall : ∀ x ∈ distDecades, 1 ≤ x.base ∧ x.top ≤ 32768 := by decide
  have := hall dd (List.mem_of_getElem? h1)
  omega

/-! ## The symbols of terms -/

/-- The codes of a term in range (spec/30_encoding.md R171). -/
structure TermCodes.InRange (c : TermCodes) : Prop where
  sym  : c.sym < 286
  notEob : c.sym ≠ 256
  dist : ∀ k e v, c.dist = some (k, e, v) → k < 30

/-- A term in range has codes. -/
theorem Term.Valid.codes {t : Term} (h : t.Valid) : ∃ c, t.codes = some c ∧ c.InRange := by
  cases t with
  | lit b =>
    have := b.isLt
    exact ⟨_, rfl, by simp; omega, by simp; omega, by simp⟩
  | copy run dist =>
    obtain ⟨h1, h2, h3, h4⟩ := h
    obtain ⟨i, rd, hr, hi, -⟩ := runSymbol_spec h1 h2
    obtain ⟨k, dd, hd, -⟩ := distSymbol_spec h3 h4
    have hk := (distSymbol_range hd).1
    have hi29 : i < 29 := by
      have := (List.getElem?_eq_some_iff.mp hi).1
      simpa [runDecades] using this
    refine ⟨_, by simp [Term.codes, hr, hd]; rfl, by simp; omega, by simp; omega, ?_⟩
    rintro k' e v hk'
    simp at hk'
    omega

/-- A computation over a list that answers for each element answers. -/
theorem mapM_ok {ε α β : Type} (f : α → Except ε β) (Q : β → Prop) (l : List α) (h : ∀ a ∈ l, ∃ b, f a = .ok b ∧ Q b) :
    ∃ bs, l.mapM f = .ok bs ∧ (∀ b ∈ bs, Q b) ∧ bs.length = l.length := by
  induction l with
  | nil => exact ⟨[], rfl, by simp, rfl⟩
  | cons a rest ih =>
    obtain ⟨b, h1, h2⟩ := h a (by simp)
    obtain ⟨bs, h3, h4, h5⟩ := ih fun x hx => h x (List.mem_cons_of_mem _ hx)
    refine ⟨b :: bs, by simp [List.mapM_cons, h1, h3], ?_, by simp [h5]⟩
    intro x hx
    rcases List.mem_cons.mp hx with rfl | hx
    · exact h2
    · exact h4 x hx

/-- The codes of terms in range (spec/44_block_writer.md R431). -/
theorem codesOf_ok {terms : List Term} (h : ∀ t ∈ terms, t.Valid) :
    ∃ codes, codesOf terms = .ok codes ∧ (∀ c ∈ codes, c.InRange) ∧ codes.length = terms.length := by
  refine mapM_ok _ _ _ fun t ht => ?_
  obtain ⟨c, h1, h2⟩ := (h t ht).codes
  exact ⟨c, by simp [h1], h2⟩

/-! ## Table sizes -/

@[simp] theorem length_padTo (n : Nat) (l : List Nat) : (padTo n l).length = n := by
  simp [padTo]
  omega

theorem mem_padTo {n x : Nat} {l : List Nat} (h : x ∈ padTo n l) : x ∈ l ∨ x = 0 := by
  rcases List.mem_append.mp h with h | h
  · exact .inl (List.mem_of_mem_take h)
  · exact .inr (List.mem_replicate.mp h).2

@[simp] theorem length_numberCodes (lens next : List Nat) : (numberCodes lens next).length = lens.length := by
  induction lens generalizing next with
  | nil => rfl
  | cons l rest ih =>
    simp only [numberCodes]
    split <;> simp [ih]

@[simp] theorem length_canonicalCodes (lens : List Nat) : (canonicalCodes lens).length = lens.length := length_numberCodes _ _

@[simp] theorem length_encEntries (t : Table) (lens codes : List Nat) :
    (encEntries t lens codes).length = min lens.length codes.length := by simp [encEntries]

/-- A loaded encode table has an entry per length. -/
@[simp] theorem length_encLoad (t : Table) (lens : List Nat) : (EncTable.load t lens).entries.length = lens.length := by
  unfold EncTable.load
  split <;> simp

@[simp] theorem isOpen_encLoad (t : Table) (lens : List Nat) : (EncTable.load t lens).isOpen = true := by
  unfold EncTable.load
  split <;> rfl

/-- A loaded decode table is sound. -/
theorem DecTable.sound_load {t : Table} {lens : List Nat} (hs : lens.length = t.size) (hl : ∀ l ∈ lens, l ≤ 15) :
    (DecTable.load lens).Sound t := ⟨hs, hl, rfl⟩

/-- The tables of a block have their sizes. -/
theorem BlockPlan.sized (p : BlockPlan) : p.tables.Sized := by
  simp [EncTables.Sized, BlockPlan.tables]

end Sys2Proof.Machine
end

