-- ==== Sys2Proof/Laws/Window.lean ====
section
/-! SUPPORT. The laws of the window: what an insertion leaves, what the searches can answer, and the sound form. -/

namespace Sys2Proof.Machine

/-! ## The rolling register -/

/-- A big-endian number with one byte more. -/
theorem bigEndian_concat (bytes : List Nat) (b : Nat) : bigEndian (bytes ++ [b]) = bigEndian bytes * 256 + b := by
  simp [bigEndian]

/-- Shifting a byte into a word is appending it to the big-endian number the word holds. -/
theorem shift_in_word (v : Nat) (b : Byte) : (word v <<< 8) ||| b.setWidth 32 = word (v * 256 + b.toNat) := by
  have hor : (word v <<< 8) ||| b.setWidth 32 = (word v <<< 8) + b.setWidth 32 := by
    apply Eq.symm
    apply BitVec.add_eq_or_of_and_eq_zero
    ext i hi
    simp only [BitVec.getElem_and, BitVec.getElem_shiftLeft, BitVec.getElem_setWidth, BitVec.getElem_zero]
    by_cases h8 : i < 8
    · simp [h8]
    · simp [BitVec.getLsbD_of_ge b i (by omega)]
  rw [hor]
  apply BitVec.eq_of_toNat_eq
  have hb := b.isLt
  simp only [word, BitVec.toNat_add, BitVec.toNat_shiftLeft, BitVec.toNat_ofNat, BitVec.toNat_setWidth, Nat.shiftLeft_eq]
  omega

/-! ## The register `WN_Q` -/

/-- An insertion advances the register by one, modulo 2^32 (spec/10_state.md R44). -/
@[simp] theorem Window.q_shiftIn (w : Window) (b : Byte) : (w.shiftIn b).q = w.q + 1 := by
  apply BitVec.eq_of_toNat_eq
  simp [Window.q, Window.shiftIn, word, BitVec.toNat_add]

/-- The register gives the slot of the next byte: the window size divides 2^32 (spec/10_state.md R44, R45). -/
theorem Window.q_mod_size (w : Window) : w.q.toNat % w.size = w.inserted % w.size := by
  have hd : w.size ∣ 2 ^ 32 := Nat.pow_dvd_pow 2 (by have := w.exp.isLt; omega)
  simp only [Window.q, word, BitVec.toNat_ofNat]
  exact Nat.mod_mod_of_dvd _ hd

/-! ## Insertion -/

/-- When an insertion is accepted, and what it leaves before the key (spec/42_match_finder.md R324). -/
theorem Window.update_eq_ok {P : Params} {w w' : Window} {b : Byte} :
    w.update P b = .ok w' ↔
      (w.inserted < w.input.length → w.input[w.inserted]? = some b)
        ∧ w' = if w.inserted + 1 < 4 then w.shiftIn b else (w.shiftIn b).link P (w.inserted + 1 - 4) := by
  simp only [Window.update, bind_eq_ok, refuseIf_eq_ok]
  constructor
  · rintro ⟨u, hc, h⟩
    refine ⟨fun hq => ?_, ?_⟩
    · simpa [hq] using hc
    · have hq : (w.shiftIn b).inserted = w.inserted + 1 := rfl
      rw [hq] at h
      split at h <;> simp_all
  · rintro ⟨hc, rfl⟩
    refine ⟨(), ?_, ?_⟩
    · by_cases hq : w.inserted < w.input.length
      · have := hc hq
        rw [List.getElem?_eq_getElem hq] at this
        simpa [hq] using this
      · simp [hq]
    · have hq : (w.shiftIn b).inserted = w.inserted + 1 := rfl
      rw [hq]
      split <;> simp_all

/-- An insertion never faults. -/
theorem Window.update_ne_fault (P : Params) (w : Window) (b : Byte) (f : Fault) : w.update P b ≠ .error (.fault f) := by
  intro h
  simp only [Window.update, bind_eq_error] at h
  rcases h with h | ⟨u, -, h⟩
  · simp at h
  · split at h <;> simp_all

@[simp] theorem Window.link_inserted (P : Params) (w : Window) (s : Nat) : (w.link P s).inserted = w.inserted := rfl
@[simp] theorem Window.link_input (P : Params) (w : Window) (s : Nat) : (w.link P s).input = w.input := rfl
@[simp] theorem Window.link_bytes (P : Params) (w : Window) (s : Nat) : (w.link P s).bytes = w.bytes := rfl
@[simp] theorem Window.link_r (P : Params) (w : Window) (s : Nat) : (w.link P s).r = w.r := rfl
@[simp] theorem Window.link_exp (P : Params) (w : Window) (s : Nat) : (w.link P s).exp = w.exp := rfl
@[simp] theorem Window.link_isOpen (P : Params) (w : Window) (s : Nat) : (w.link P s).isOpen = w.isOpen := rfl

/-- Everything an accepted insertion leaves (spec/42_match_finder.md R324). -/
theorem Window.update_frame {P : Params} {w w' : Window} {b : Byte} (h : w.update P b = .ok w') :
    w'.inserted = w.inserted + 1 ∧ w'.exp = w.exp ∧ w'.isOpen = w.isOpen
      ∧ w'.input = (if w.inserted = w.input.length then w.input ++ [b] else w.input)
      ∧ w'.bytes = w.bytes.write (w.inserted % w.size) b ∧ w'.r = ((w.r <<< 8) ||| b.setWidth 32) := by
  obtain ⟨-, rfl⟩ := Window.update_eq_ok.mp h
  rw [← w.q_mod_size]
  split <;> exact ⟨rfl, rfl, rfl, rfl, rfl, rfl⟩

theorem Window.size_pos (w : Window) : 0 < w.size := Nat.two_pow_pos _

/-- A head within reach is a head (spec/42_match_finder.md R324). -/
theorem reachable_eq_some {m s p : Nat} {o : Option Nat} : reachable m s o = some p ↔ o = some p ∧ s - p ≤ m := by
  cases o with
  | none => simp [reachable]
  | some c =>
    simp only [reachable]
    split <;> constructor <;> intro h <;> simp_all
    omega

/-- A new window is sound. -/
theorem Window.sound_init (e : BitVec 4) : (Window.init e).Sound := by
  refine ⟨rfl, rfl, rfl, Nat.le_refl _, ?_, rfl, ?_, ?_, rfl, ?_⟩ <;> simp [Window.init, Links.get]

/-- Feeding keeps the sound form. -/
theorem Window.Sound.feed {w : Window} (h : w.Sound) (bytes : List Byte) : (w.feed bytes).Sound := by
  refine ⟨h.bytesWf, h.headWf, h.nextWf, ?_, ?_, ?_, h.heads, h.links, h.last, h.lastHead⟩
  · have := h.fed
    simp only [Window.feed, List.length_append]
    omega
  · intro p hp hw
    have := h.fed
    have hlt : p < w.input.length := Nat.lt_of_lt_of_le hp h.fed
    change w.bytes.read (p % w.size) = (w.input ++ bytes)[p]?
    rw [List.getElem?_append_left hlt]
    exact h.slots p hp hw
  · have := h.rolling
    simpa [Window.feed, List.take_append_of_le_length h.fed] using this

/-- An insertion keeps the sound form. -/
theorem Window.Sound.update {P : Params} {w w' : Window} {b : Byte} (h : w.Sound) (hu : w.update P b = .ok w') : w'.Sound := by
  obtain ⟨hq, hexp, -, hin, hbytes, hr⟩ := Window.update_frame hu
  obtain ⟨hmatch, hw'⟩ := Window.update_eq_ok.mp hu
  have hsize : w'.size = w.size := by simp [Window.size, hexp]
  have hfed : w'.inserted ≤ w'.input.length := by
    rw [hq, hin]
    have := h.fed
    split
    · simp; omega
    · omega
  have hthere : w'.input[w.inserted]? = some b := by
    rw [hin]
    split
    · rename_i he
      rw [he]; simp
    · exact hmatch (by have := h.fed; omega)
  have hold : ∀ p, p < w.inserted → w'.input[p]? = w.input[p]? := by
    intro p hp
    rw [hin]
    split
    · exact List.getElem?_append_left (Nat.lt_of_lt_of_le hp h.fed)
    · rfl
  have hroll : w'.r = word (bigEndian ((w'.input.take w'.inserted).map BitVec.toNat)) := by
    have htake : w'.input.take (w.inserted + 1) = w.input.take w.inserted ++ [b] := by
      rw [List.take_add_one, hthere]
      congr 1
      rw [hin]
      split
      · exact List.take_append_of_le_length h.fed
      · rfl
    rw [hq, htake, hr, h.rolling, List.map_append, List.map_singleton, bigEndian_concat, shift_in_word]
  have hslots : ∀ p, p < w'.inserted → w'.inserted ≤ p + w'.size → w'.bytes.read (p % w'.size) = w'.input[p]? := by
    intro p hp hlow
    rw [hsize, hbytes]
    by_cases he : p = w.inserted
    · subst he
      rw [Memory.read_write_same, hthere]
    · have hne : p % w.size ≠ w.inserted % w.size := by
        intro hmod
        have hlt : w.inserted - p < w.size := by omega
        have hpos : 0 < w.inserted - p := by omega
        have : (w.inserted - p) % w.size = 0 := Nat.sub_mod_eq_zero_of_mod_eq hmod.symm
        rw [Nat.mod_eq_of_lt hlt] at this
        omega
      rw [Memory.read_write_other _ hne, h.slots p (by omega) (by omega), hold p (by omega)]
  subst hw'
  split at hfed
  · rename_i h4
    rw [if_pos h4] at *
    refine ⟨?_, h.headWf, h.nextWf, hfed, hslots, hroll, ?_, h.links, ?_, h.lastHead⟩
    · exact Memory.wf_write _ _ _ h.bytesWf
    · intro k p hp
      have := h.heads k p hp
      exact Nat.le_succ_of_le this
    · have := h.last
      rw [if_pos (by omega)] at this
      rw [hq, if_pos h4]
      exact this
  · rename_i h4
    rw [if_neg h4] at *
    have hprev : ∀ p, reachable (w.shiftIn b).maxDistance (w.inserted + 1 - 4) ((w.shiftIn b).head.get (P.hash (w.shiftIn b).r)) = some p
        → p < w.inserted + 1 - 4 := by
      intro p hp
      have := h.heads _ p (reachable_eq_some.mp hp).1
      omega
    refine ⟨?_, ?_, ?_, hfed, hslots, hroll, ?_, ?_, ?_, ?_⟩
    · exact Memory.wf_write _ _ _ h.bytesWf
    · exact Links.wf_set (w.shiftIn b).head (P.hash (w.shiftIn b).r) (some (w.inserted + 1 - 4)) h.headWf
    · exact Links.wf_set (w.shiftIn b).next (w.inserted + 1 - 4) _ h.nextWf
    · intro k p hp
      rw [hq]
      simp only [Window.link] at hp
      by_cases hk : k = P.hash (w.shiftIn b).r
      · rw [hk, Links.get_set_same] at hp
        have := Option.some.inj hp
        omega
      · rw [Links.get_set_other _ hk] at hp
        have := h.heads k p hp
        omega
    · intro p c hp
      simp only [Window.link] at hp
      by_cases hk : p = w.inserted + 1 - 4
      · subst hk
        rw [Links.get_set_same] at hp
        exact hprev c hp
      · rw [Links.get_set_other _ hk] at hp
        exact h.links p c hp
    · rw [hq]
      simp [Window.link, h4]
    · intro s p hp
      simp only [Window.link, Option.some.injEq, Prod.mk.injEq] at hp
      obtain ⟨rfl, hp⟩ := hp
      exact hprev p hp

/-! ## Inserting up to a position (spec/43_term_strategies.md R374) -/

/-- Inserting keeps the sound form. -/
theorem Window.Sound.insertLoop {P : Params} {input : List Byte} (n : Nat) {w w' : Window} (h : w.Sound)
    (hi : Machine.insertLoop P input n w = .ok w') : w'.Sound := by
  induction n generalizing w with
  | zero => simp [Machine.insertLoop] at hi; exact hi ▸ h
  | succ n ih =>
    simp only [Machine.insertLoop, bind_eq_ok, written_eq_ok] at hi
    obtain ⟨b, -, v, hv, hi⟩ := hi
    exact ih (h.update hv) hi

/-- Inserting as many bytes as are left never faults. -/
theorem insertLoop_ne_fault (P : Params) (input : List Byte) (n : Nat) (w : Window) (hn : w.inserted + n ≤ input.length) (f : Fault) :
    Machine.insertLoop P input n w ≠ .error (.fault f) := by
  induction n generalizing w with
  | zero => simp [Machine.insertLoop]
  | succ n ih =>
    intro h
    have hlt : w.inserted < input.length := by omega
    simp only [Machine.insertLoop, List.getElem?_eq_getElem hlt, written_some, ok_bind, bind_eq_error] at h
    rcases h with h | ⟨v, hv, h⟩
    · exact Window.update_ne_fault _ _ _ _ h
    · exact ih v (by rw [(Window.update_frame hv).1]; omega) h

/-- Inserting from the bytes that were fed is never refused, and changes nothing but the insertion's own. -/
theorem insertLoop_fed (P : Params) (n : Nat) (w : Window) (hn : w.inserted + n ≤ w.input.length) :
    ∃ w', Machine.insertLoop P w.input n w = .ok w' ∧ w'.inserted = w.inserted + n ∧ w'.input = w.input ∧ w'.exp = w.exp
      ∧ w'.isOpen = w.isOpen := by
  induction n generalizing w with
  | zero => exact ⟨w, rfl, rfl, rfl, rfl, rfl⟩
  | succ n ih =>
    have hlt : w.inserted < w.input.length := by omega
    obtain ⟨v, hu⟩ : ∃ v, w.update P w.input[w.inserted] = .ok v :=
      ⟨_, Window.update_eq_ok.mpr ⟨fun _ => List.getElem?_eq_getElem hlt, rfl⟩⟩
    obtain ⟨hq, hexp, hop, hin, -, -⟩ := Window.update_frame hu
    rw [if_neg (by omega)] at hin
    obtain ⟨w', h1, h2, h3, h4, h5⟩ := ih v (by rw [hq, hin]; omega)
    refine ⟨w', ?_, by rw [h2, hq]; omega, by rw [h3, hin], by rw [h4, hexp], by rw [h5, hop]⟩
    rw [hin] at h1
    simp only [Machine.insertLoop, List.getElem?_eq_getElem hlt, written_some, ok_bind, hu, h1]

/-! ## The searches (spec/42_match_finder.md R327, R330, R332) -/

/-- How far two suffixes agree, when both are at least `limit` long. -/
theorem runLength_spec (limit : Nat) (a b : List Byte) (ha : limit ≤ a.length) (hb : limit ≤ b.length) :
    ∃ r, runLength limit a b = .ok r ∧ r ≤ limit ∧ (∀ j, j < r → a[j]? = b[j]?) ∧ (r < limit → a[r]? ≠ b[r]?) := by
  induction limit generalizing a b with
  | zero => exact ⟨0, rfl, Nat.le_refl _, by simp, by simp⟩
  | succ n ih =>
    cases a with
    | nil => simp at ha
    | cons x a =>
      cases b with
      | nil => simp at hb
      | cons y b =>
        simp only [runLength]
        split
        · rename_i hxy
          obtain ⟨r, h1, h2, h3, h4⟩ := ih a b (by simpa using ha) (by simpa using hb)
          refine ⟨r + 1, by simp [h1], by omega, ?_, ?_⟩
          · intro j hj
            cases j with
            | zero => simp [hxy]
            | succ j => simpa using h3 j (by omega)
          · intro hr
            simpa using h4 (by omega)
        · rename_i hxy
          exact ⟨0, rfl, by omega, by simp, by simp [hxy]⟩

/-- A candidate that a walk at `s` may report: a run of at most `limit` bytes that agree, at a distance in reach. -/
structure Candidate (w : Window) (s limit : Nat) (c : Nat × Nat) : Prop where
  near  : 1 ≤ c.2 ∧ c.2 ≤ s ∧ c.2 ≤ w.maxDistance
  short : c.1 ≤ limit
  agree : ∀ j, j < c.1 → w.input[s + j]? = w.input[s + j - c.2]?

/-- A walk from sound links answers, and everything it reports is a candidate (spec/42_match_finder.md R327, R331). -/
theorem Window.walk_spec {w : Window} (h : w.Sound) (s limit goal tries : Nat) (head : Option Nat)
    (hhead : ∀ p, head = some p → p < s) (hlim : s + limit ≤ w.input.length) :
    ∃ found, w.walk s limit goal tries head = .ok found ∧ ∀ c ∈ found, Candidate w s limit c := by
  induction tries generalizing head with
  | zero => exact ⟨[], by simp [Window.walk], by simp⟩
  | succ n ih =>
    cases head with
    | none => exact ⟨[], by simp [Window.walk], by simp⟩
    | some c =>
      have hc := hhead c rfl
      simp only [Window.walk]
      split
      · exact ⟨[], rfl, by simp⟩
      · rename_i hd
        obtain ⟨r, h1, h2, h3, -⟩ := runLength_spec limit (w.input.drop c) (w.input.drop s) (by simp; omega) (by simp; omega)
        have hcand : Candidate w s limit (r, s - c) := by
          refine ⟨⟨by simp; omega, by simp, by simp; omega⟩, h2, fun j hj => ?_⟩
          have := h3 j hj
          simp only [List.getElem?_drop] at this
          rw [← this]
          congr 1
          simp only
          omega
        simp only [h1, ok_bind]
        split
        · exact ⟨_, rfl, by simpa using hcand⟩
        · obtain ⟨rest, h4, h5⟩ := ih (w.next.get c) fun p hp => Nat.lt_trans (h.links c p hp) hc
          simp only [h4, ok_bind]
          refine ⟨_, rfl, fun d hd => ?_⟩
          rcases List.mem_cons.mp hd with rfl | hd
          · exact hcand
          · exact h5 d hd

/-- What the searches' common part answers on a sound window: no key yet, a refusal, or candidates at the last key. -/
theorem Window.candidates_spec {w : Window} (h : w.Sound) (lookahead attempts goal : Nat) :
    (w.last = none ∧ w.candidates lookahead attempts goal = .ok none)
    ∨ (∃ s head, w.last = some (s, head) ∧ w.input.length - s < lookahead
        ∧ w.candidates lookahead attempts goal = .error (.refuse .operand))
    ∨ ∃ s head found, w.last = some (s, head) ∧ lookahead ≤ w.input.length - s
        ∧ w.candidates lookahead attempts goal = .ok (some found)
        ∧ ∀ c ∈ found, Candidate w s (min maxRun lookahead) c := by
  rcases hl : w.last with _ | ⟨s, head⟩
  · exact .inl ⟨rfl, by simp [Window.candidates, hl]⟩
  · right
    by_cases hla : w.input.length - s < lookahead
    · exact .inl ⟨s, head, rfl, hla, by simp [Window.candidates, hl, hla]⟩
    · right
      have hs : s + 4 ≤ w.inserted := by
        have := h.last
        rw [hl] at this
        split at this
        · simp at this
        · simp at this; omega
      have hfed := h.fed
      obtain ⟨found, h1, h2⟩ := Window.walk_spec h s (min maxRun lookahead) goal attempts head
        (fun p hp => h.lastHead s p (by rw [hl, hp])) (by omega)
      exact ⟨s, head, found, rfl, by omega, by simp [Window.candidates, hl, hla, h1], h2⟩

/-- The longest candidate is one of them, or nothing was found. -/
theorem foldl_longer_mem (found : List (Nat × Nat)) (b : Nat × Nat) :
    found.foldl longer b = b ∨ found.foldl longer b ∈ found := by
  induction found generalizing b with
  | nil => exact .inl rfl
  | cons c rest ih =>
    simp only [List.foldl_cons]
    rcases ih (longer b c) with h | h
    · rw [h]
      unfold longer
      split
      · exact .inr (by simp)
      · exact .inl rfl
    · exact .inr (by simp [h])

/-- The longest candidate is as long as each. -/
theorem foldl_longer_ge (found : List (Nat × Nat)) (b : Nat × Nat) :
    b.1 ≤ (found.foldl longer b).1 ∧ ∀ c ∈ found, c.1 ≤ (found.foldl longer b).1 := by
  induction found generalizing b with
  | nil => simp
  | cons c rest ih =>
    have hlong : b.1 ≤ (longer b c).1 ∧ c.1 ≤ (longer b c).1 := by
      unfold longer
      split <;> constructor <;> omega
    obtain ⟨h1, h2⟩ := ih (longer b c)
    refine ⟨Nat.le_trans hlong.1 h1, fun d hd => ?_⟩
    rcases List.mem_cons.mp hd with rfl | hd
    · exact Nat.le_trans hlong.2 h1
    · exact h2 d hd

/-- A reported match is a candidate of 5 bytes or more (spec/42_match_finder.md R330, R331). -/
theorem Window.findMatch_spec {w : Window} (h : w.Sound) (lookahead attempts goal : Nat) :
    (w.findMatch lookahead attempts goal = .error (.refuse .operand)
      ∧ ∃ s head, w.last = some (s, head) ∧ w.input.length - s < lookahead)
    ∨ ∃ m, w.findMatch lookahead attempts goal = .ok m
        ∧ ∀ c, m = some c → ∃ s head, w.last = some (s, head) ∧ lookahead ≤ w.input.length - s
            ∧ Candidate w s (min maxRun lookahead) c ∧ minMatchEmit ≤ c.1 := by
  rcases Window.candidates_spec h lookahead attempts goal with ⟨-, hc⟩ | ⟨s, head, hl, hla, hc⟩ | ⟨s, head, found, hl, hla, hc, hcand⟩
  · exact .inr ⟨none, by simp [Window.findMatch, hc], by simp⟩
  · exact .inl ⟨by simp [Window.findMatch, hc], s, head, hl, hla⟩
  · right
    simp only [Window.findMatch, hc, ok_bind]
    split
    · exact ⟨none, rfl, by simp⟩
    · rename_i hb
      refine ⟨_, rfl, fun c hcc => ⟨s, head, hl, hla, ?_, ?_⟩⟩
      · rcases foldl_longer_mem found (0, 0) with h0 | hm
        · rw [h0] at hb
          simp [minMatchEmit] at hb
        · rw [Option.some.inj hcc] at hm
          exact hcand c hm
      · rw [← Option.some.inj hcc]
        omega

/-! ## The searches exactly -/

/-- The walk yields the candidates the rule says (spec/42_match_finder.md R327). -/
theorem Window.walk_walks {w : Window} (h : w.Sound) (s limit goal tries : Nat) (head : Option Nat)
    (hhead : ∀ p, head = some p → p < s) (hlim : s + limit ≤ w.input.length) :
    ∃ found, w.walk s limit goal tries head = .ok found ∧ Walks w s limit goal tries head found := by
  induction tries generalizing head with
  | zero => exact ⟨[], by simp [Window.walk], .spent head⟩
  | succ n ih =>
    cases head with
    | none => exact ⟨[], by simp [Window.walk], .chainEnd _⟩
    | some c =>
      have hc := hhead c rfl
      simp only [Window.walk]
      split
      · rename_i hd
        exact ⟨[], rfl, .outOfReach n c hd⟩
      · rename_i hd
        have hd : s - c ≤ 2 ^ w.exp.toNat := Nat.le_of_not_lt hd
        obtain ⟨r, h1, h2, h3, h4⟩ := runLength_spec limit (w.input.drop c) (w.input.drop s) (by simp; omega) (by simp; omega)
        simp only [List.getElem?_drop] at h3 h4
        have hrun : RunAt w s c limit r := ⟨h2, fun j hj => (h3 j hj).symm, fun hr he => h4 hr he.symm⟩
        simp only [h1, ok_bind]
        split
        · rename_i hg
          exact ⟨_, rfl, .goalReached n c r hd hrun hg⟩
        · rename_i hg
          obtain ⟨rest, h5, h6⟩ := ih (w.next.get c) fun p hp => Nat.lt_trans (h.links c p hp) hc
          simp only [h5, ok_bind]
          exact ⟨_, rfl, .further n c r rest hd hrun (Nat.lt_of_not_le hg) h6⟩

/-- The key a sound window last formed lies inside its input. -/
theorem Window.Sound.last_key {w : Window} (h : w.Sound) {s : Nat} {head : Option Nat} (hl : w.last = some (s, head)) :
    w.inserted = s + 4 ∧ s + 4 ≤ w.input.length ∧ ∀ p, head = some p → p < s := by
  have hkey := h.last
  rw [hl] at hkey
  have hin : w.inserted = s + 4 := by
    split at hkey
    · simp at hkey
    · simp at hkey; omega
  exact ⟨hin, hin ▸ h.fed, fun p hp => h.lastHead s p (by rw [hl, hp])⟩

/-- What both searches look at: the candidates of the walk from the last key (spec/42_match_finder.md R327). -/
theorem Window.candidates_walks {w : Window} (h : w.Sound) {s lookahead : Nat} {head : Option Nat} (hl : w.last = some (s, head))
    (hla : lookahead ≤ w.input.length - s) (attempts goal : Nat) :
    ∃ found, w.candidates lookahead attempts goal = .ok (some found) ∧ Walks w s (min 258 lookahead) goal attempts head found := by
  obtain ⟨-, hlen, hhead⟩ := h.last_key hl
  obtain ⟨found, h1, h2⟩ := Window.walk_walks h s (min 258 lookahead) goal attempts head hhead (by omega)
  refine ⟨found, ?_, h2⟩
  have h1' : w.walk s (min maxRun lookahead) goal attempts head = .ok found := h1
  simp [Window.candidates, hl, Nat.not_lt.mpr hla, h1']

/-- The longest of a list with a start: the start where nothing is longer, else the first longest (spec/42_match_finder.md R330). -/
theorem foldl_longer_longest (found : List (Nat × Nat)) (b : Nat × Nat) :
    (found.foldl longer b = b ∧ ∀ x ∈ found, x.1 ≤ b.1)
      ∨ (Longest found (found.foldl longer b) ∧ b.1 < (found.foldl longer b).1) := by
  induction found generalizing b with
  | nil => exact .inl ⟨rfl, by simp⟩
  | cons c rest ih =>
    simp only [List.foldl_cons]
    by_cases hbc : b.1 < c.1
    · have hl : longer b c = c := by simp [longer, hbc]
      rw [hl]
      rcases ih c with ⟨h1, h2⟩ | ⟨⟨pre, post, h1, h2, h3⟩, h4⟩
      · exact .inr ⟨⟨[], rest, by rw [h1]; rfl, by simp, by rw [h1]; exact h2⟩, by rw [h1]; exact hbc⟩
      · refine .inr ⟨⟨c :: pre, post, by rw [List.cons_append, ← h1], fun x hx => ?_, h3⟩, Nat.lt_trans hbc h4⟩
        rcases List.mem_cons.mp hx with rfl | hx
        · exact h4
        · exact h2 x hx
    · have hl : longer b c = b := by simp [longer, hbc]
      rw [hl]
      rcases ih b with ⟨h1, h2⟩ | ⟨⟨pre, post, h1, h2, h3⟩, h4⟩
      · refine .inl ⟨h1, fun x hx => ?_⟩
        rcases List.mem_cons.mp hx with rfl | hx
        · omega
        · exact h2 x hx
      · refine .inr ⟨⟨c :: pre, post, by rw [List.cons_append, ← h1], fun x hx => ?_, h3⟩, h4⟩
        rcases List.mem_cons.mp hx with rfl | hx
        · omega
        · exact h2 x hx

/-- `WN.MATCH` on a sound window with a key: the longest candidate of the walk, where it has 5 bytes or more
(spec/42_match_finder.md R330). -/
theorem Window.findMatch_reports {w : Window} (h : w.Sound) {s lookahead : Nat} {head : Option Nat} (hl : w.last = some (s, head))
    (hla : lookahead ≤ w.input.length - s) (attempts goal : Nat) :
    ∃ m found, w.findMatch lookahead attempts goal = .ok m ∧ Walks w s (min 258 lookahead) goal attempts head found
      ∧ Reports found m := by
  obtain ⟨found, hc, hw⟩ := Window.candidates_walks h hl hla attempts goal
  simp only [Window.findMatch, hc, ok_bind]
  by_cases hb : (found.foldl longer (0, 0)).1 < minMatchEmit
  · refine ⟨none, found, by simp [hb], hw, fun x hx => ?_⟩
    have := (foldl_longer_ge found (0, 0)).2 x hx
    simp only [minMatchEmit] at hb
    omega
  · refine ⟨some (found.foldl longer (0, 0)), found, by simp [hb], hw, ?_, Nat.le_of_not_lt hb⟩
    rcases foldl_longer_longest found (0, 0) with ⟨h1, -⟩ | ⟨h1, -⟩
    · rw [h1] at hb
      simp [minMatchEmit] at hb
    · exact h1

end Sys2Proof.Machine
end

