-- ==== Sys2Proof/Laws/Terms.lean ====
section
/-! SUPPORT. The laws of parsing, of the match graph and its sweep, and of the block writer: none of them faults on a sound state, and
each leaves one. -/

namespace Sys2Proof.Machine

/-- What the laws below need of the OPEN parameters: a builder that keeps its limit, and a default depth table of the right sizes
(spec/41_huffman.md R271, spec/10_state.md R48). -/
structure BoundedParams (P : Params) : Prop where
  build : ∀ freqs maxlen, 1 ≤ maxlen → ∀ l ∈ P.build freqs maxlen, l ≤ maxlen
  depth : P.defaultDepth.sized = true

/-- The reference parameters are such. -/
theorem referenceParams_bounded : BoundedParams referenceParams := ⟨referenceBuild_le, by decide +kernel⟩

/-! ## The window in a parse -/

/-- A sound window answers an insertion with a sound window of the same size. -/
theorem Window.Sound.meets_insertTo {P : Params} {w : Window} (h : w.Sound) (input : List Byte) (s : Nat) :
    Meets (insertTo P input s w) (fun v => v.Sound ∧ v.exp = w.exp ∧ v.isOpen = w.isOpen) := by
  have hgen : ∀ (n : Nat) (w v : Window), Machine.insertLoop P input n w = .ok v → v.exp = w.exp ∧ v.isOpen = w.isOpen := by
    intro n
    induction n with
    | zero => intro w v hv; simp [Machine.insertLoop] at hv; simp [hv]
    | succ n ih =>
      intro w v hv
      simp only [Machine.insertLoop, bind_eq_ok, written_eq_ok] at hv
      obtain ⟨b, -, u, hu, hv⟩ := hv
      obtain ⟨-, h1, h2, -⟩ := Window.update_frame hu
      obtain ⟨h3, h4⟩ := ih u v hv
      exact ⟨h3.trans h1, h4.trans h2⟩
  refine ⟨fun v hv => ⟨Window.Sound.insertLoop _ h hv, hgen _ _ _ hv⟩, fun f => ?_⟩
  by_cases hq : w.inserted ≤ min input.length (s + 4)
  · exact insertLoop_ne_fault _ _ _ _ (by omega) f
  · have : min input.length (s + 4) - w.inserted = 0 := by omega
    simp [insertTo, this, Machine.insertLoop]

theorem Window.maxDistance_le (w : Window) : w.maxDistance ≤ 32768 := by
  have : w.exp.toNat ≤ 15 := by have := w.exp.isLt; omega
  calc w.maxDistance = 2 ^ w.exp.toNat := rfl
    _ ≤ 2 ^ 15 := Nat.pow_le_pow_right (by omega) this

/-- What a match that `Find` reports at `s` is worth. -/
def MatchAt (c : Compressor) (s : Nat) (m : Nat × Nat) : Prop :=
  5 ≤ m.1 ∧ m.1 ≤ 258 ∧ s + m.1 ≤ c.input.length ∧ 1 ≤ m.2 ∧ m.2 ≤ 32768

/-- `Find(s)` on a sound window (spec/43_term_strategies.md R375). -/
theorem Window.Sound.meets_findAt {P : Params} {c : Compressor} {w : Window} (h : w.Sound) (s : Nat) :
    Meets (findAt P c s w) (fun r => r.2.Sound ∧ r.2.exp = w.exp ∧ r.2.isOpen = w.isOpen ∧ ∀ m, r.1 = some m → MatchAt c s m) := by
  unfold findAt
  split
  · exact Meets.pure ⟨h, rfl, rfl, by simp⟩
  · rename_i hlen
    refine (h.meets_insertTo _ _).bind fun v ⟨hv, he, ho⟩ => ?_
    rcases v.findMatch_spec hv (c.input.length - s) c.cfg.attempts.toNat c.cfg.goal.toNat with ⟨hr, -⟩ | ⟨m, hm, hspec⟩
    · rw [hr]; exact Meets.refused
    · rw [hm]
      refine Meets.pure ⟨hv, he, ho, fun x hx => ?_⟩
      obtain ⟨p, hd, -, -, hc, h5⟩ := hspec x hx
      have h1 := hc.near
      have h2 := hc.short
      have h3 := v.maxDistance_le
      simp only [minMatchEmit, maxRun] at h5 h2
      exact ⟨h5, by omega, by omega, h1.1, by omega⟩

/-- Terms that a parse step at `s` may add. -/
structure StepTerms (c : Compressor) (s : Nat) (new : List Term) : Prop where
  valid  : ∀ t ∈ new, t.Valid
  some   : 1 ≤ coversAll new
  within : s + coversAll new ≤ c.input.length

theorem MatchAt.valid {c : Compressor} {s : Nat} {m : Nat × Nat} (h : MatchAt c s m) : (Term.copy m.1 m.2).Valid :=
  ⟨by have := h.1; omega, h.2.1, h.2.2.2.1, h.2.2.2.2⟩

/-- One parse step on a sound window (spec/43_term_strategies.md R380 to R384). -/
theorem Window.Sound.meets_parseAt {P : Params} {c : Compressor} {w : Window} (h : w.Sound) (s : Nat) (b : Byte)
    (hs : s < c.input.length) :
    Meets (parseAt P c s b w) (fun r => r.2.Sound ∧ r.2.exp = w.exp ∧ r.2.isOpen = w.isOpen ∧ StepTerms c s r.1) := by
  have hlit : StepTerms c s [.lit b] := ⟨by simp [Term.Valid], by simp [coversAll, Term.covers], by simp [coversAll, Term.covers]; omega⟩
  have hcopy : ∀ m, MatchAt c s m → StepTerms c s [.copy m.1 m.2] := fun m hm =>
    ⟨by simpa using hm.valid, by have := hm.1; simp [coversAll, Term.covers]; omega, by simpa [coversAll, Term.covers] using hm.2.2.1⟩
  unfold parseAt
  refine (h.meets_findAt s).bind fun ⟨m0, v⟩ ⟨hv, he, ho, hm⟩ => ?_
  rcases m0 with _ | ⟨r0, d0⟩
  · exact Meets.pure ⟨hv, he, ho, hlit⟩
  · have h0 := hm (r0, d0) rfl
    dsimp only
    split
    · refine (hv.meets_findAt (s + 1)).bind fun ⟨m1, u⟩ ⟨hu, he', ho', hm1⟩ => ?_
      dsimp only at hu he' ho' hm1 he ho
      rcases m1 with _ | ⟨r1, d1⟩
      · exact Meets.pure ⟨hu, he'.trans he, ho'.trans ho, hcopy _ h0⟩
      · have h1 := hm1 (r1, d1) rfl
        dsimp only
        split
        · refine Meets.pure ⟨hu, he'.trans he, ho'.trans ho, ?_, ?_, ?_⟩
          · intro t ht
            simp only [List.mem_cons, List.not_mem_nil, or_false] at ht
            rcases ht with rfl | rfl
            · trivial
            · exact h1.valid
          · simp [coversAll, Term.covers]
          · have := h1.2.2.1
            simp [coversAll, Term.covers] at this ⊢
            omega
        · exact Meets.pure ⟨hu, he'.trans he, ho'.trans ho, hcopy _ h0⟩
    · exact Meets.pure ⟨hv, he, ho, hcopy _ h0⟩

/-! ## What work on the compressor's units leaves alone -/

/-- Going from `s` to `t` by work of the compressor: what stays, and what keeps its sound form. -/
structure Work (P : Params) (s t : State) : Prop where
  input   : t.c.input = s.c.input
  cfg     : t.c.cfg = s.c.cfg
  last    : t.c.last = s.c.last
  cstate  : t.c.state = s.c.state
  check   : t.c.check = s.c.check
  isize   : t.c.isize = s.c.isize
  parsed  : s.c.parsed ≤ t.c.parsed
  limit   : s.c.limit = limitAfter P s.c.graphs → t.c.limit = limitAfter P t.c.graphs
  sink    : s.SinkOk → t.SinkOk
  bsOpen  : t.bs.isOpen = s.bs.isOpen
  wnOpen  : t.wn.isOpen = s.wn.isOpen
  wnExp   : t.wn.exp = s.wn.exp
  encL    : s.enc.runLit.isOpen = true → t.enc.runLit.isOpen = true
  encD    : s.enc.dist.isOpen = true → t.enc.dist.isOpen = true
  encM    : s.enc.metasym.isOpen = true → t.enc.metasym.isOpen = true
  d       : t.d = s.d
  bc      : t.bc = s.bc
  dec     : t.dec = s.dec
  cmdIn   : t.cmdIn = s.cmdIn
  dataIn  : t.dataIn = s.dataIn
  refused : t.refused = s.refused
  free    : t.free = s.free

theorem Work.refl (P : Params) (s : State) : Work P s s := by
  constructor <;> first | rfl | exact id

theorem Work.trans {P : Params} {s t u : State} (a : Work P s t) (b : Work P t u) : Work P s u where
  input := b.input.trans a.input
  cfg := b.cfg.trans a.cfg
  last := b.last.trans a.last
  cstate := b.cstate.trans a.cstate
  check := b.check.trans a.check
  isize := b.isize.trans a.isize
  parsed := Nat.le_trans a.parsed b.parsed
  limit := fun h => b.limit (a.limit h)
  sink := fun h => b.sink (a.sink h)
  bsOpen := b.bsOpen.trans a.bsOpen
  wnOpen := b.wnOpen.trans a.wnOpen
  wnExp := b.wnExp.trans a.wnExp
  encL := fun h => b.encL (a.encL h)
  encD := fun h => b.encD (a.encD h)
  encM := fun h => b.encM (a.encM h)
  d := b.d.trans a.d
  bc := b.bc.trans a.bc
  dec := b.dec.trans a.dec
  cmdIn := b.cmdIn.trans a.cmdIn
  dataIn := b.dataIn.trans a.dataIn
  refused := b.refused.trans a.refused
  free := b.free.trans a.free

/-- What the compressor's work needs of a state, and leaves. -/
structure Workable (s : State) : Prop where
  window : s.WindowOk
  terms  : s.TermsOk
  parsed : s.c.parsed ≤ s.c.input.length

/-- A parse step at a byte that is there (spec/43_term_strategies.md R380). -/
theorem meets_parseStep {P : Params} {s : State} (h : Workable s) (hs : s.c.parsed < s.c.input.length) :
    Meets (parseStep P s) (fun r => Work P s r.1 ∧ Workable r.1 ∧ s.c.parsed < r.1.c.parsed
      ∧ r.1.tv = s.tv ++ r.2 ∧ StepTerms s.c s.c.parsed r.2) := by
  unfold parseStep
  refine Meets.bind (Meets.read (Q := fun _ => True) (List.getElem?_eq_getElem hs) trivial) fun b _ => ?_
  refine (Window.Sound.meets_parseAt h.window s.c.parsed b hs).bind fun ⟨new, w⟩ ⟨hw, he, ho, hn⟩ => ?_
  refine Meets.pure ⟨?_, ⟨hw, ⟨?_, h.terms.graph, h.terms.depth, h.terms.enc⟩, ?_⟩, ?_, rfl, hn⟩
  · constructor <;> first | rfl | exact id | exact he | exact ho | exact Nat.le_add_right _ _
  · intro t ht
    rcases List.mem_append.mp ht with ht | ht
    · exact h.terms.terms t ht
    · exact hn.valid t ht
  · exact hn.within
  · have : 1 ≤ coversAll new := hn.some
    change s.c.parsed < s.c.parsed + coversAll new
    omega

/-! ## The match graph (spec/43_term_strategies.md R392) -/

/-- Tagging candidates with their decades answers when each has one. -/
theorem withDecades_ok {found : List (Nat × Nat)} (h : ∀ c ∈ found, 1 ≤ c.2 ∧ c.2 ≤ 32768) :
    ∃ tagged, withDecades found = .ok tagged
      ∧ ∀ x ∈ tagged, x.2 ∈ found ∧ (distSymbol x.2.2).map Prod.fst = some x.1 := by
  induction found with
  | nil => exact ⟨[], rfl, by simp⟩
  | cons c rest ih =>
    obtain ⟨k, dd, hk, -⟩ := distSymbol_spec (h c (by simp)).1 (h c (by simp)).2
    obtain ⟨tagged, h1, h2⟩ := ih fun x hx => h x (List.mem_cons_of_mem _ hx)
    refine ⟨(k, c) :: tagged, ?_, ?_⟩
    · unfold withDecades at h1 ⊢
      simp only [List.mapM_cons, hk, written_some, ok_bind, pure_eq_ok] at h1 ⊢
      rw [h1]
      rfl
    · intro x hx
      rcases List.mem_cons.mp hx with rfl | hx
      · exact ⟨by simp, by simp [hk]⟩
      · exact ⟨List.mem_cons_of_mem _ (h2 x hx).1, (h2 x hx).2⟩

theorem foldl_longer_tagged (l : List (Nat × (Nat × Nat))) (b : Nat × Nat) :
    l.foldl (fun best c => longer best c.2) b = (l.map Prod.snd).foldl longer b := by
  rw [List.foldl_map]

/-- The best run per decade on a sound window: 30 entries, each nothing or a candidate of that decade
(spec/42_match_finder.md R332). -/
theorem Window.findPerDecade_spec {w : Window} (h : w.Sound) (lookahead attempts goal : Nat) :
    (w.findPerDecade lookahead attempts goal = .error (.refuse .operand)
      ∧ ∃ s head, w.last = some (s, head) ∧ w.input.length - s < lookahead)
    ∨ ∃ m, w.findPerDecade lookahead attempts goal = .ok m
        ∧ (m = none ↔ w.last = none)
        ∧ ∀ best, m = some best → best.length = 30 ∧ ∃ s head, w.last = some (s, head) ∧ lookahead ≤ w.input.length - s
            ∧ ∀ k b, best[k]? = some b → b = (0, 0)
                ∨ (Candidate w s (min maxRun lookahead) b ∧ (distSymbol b.2).map Prod.fst = some k) := by
  rcases Window.candidates_spec h lookahead attempts goal with ⟨hl, hc⟩ | ⟨s, head, hl, hla, hc⟩ | ⟨s, head, found, hl, hla, hc, hcand⟩
  · exact .inr ⟨none, by simp [Window.findPerDecade, hc], by simp [hl], by simp⟩
  · exact .inl ⟨by simp [Window.findPerDecade, hc], s, head, hl, hla⟩
  · right
    have hmax := w.maxDistance_le
    obtain ⟨tagged, ht, hspec⟩ := withDecades_ok fun c hcf => ⟨(hcand c hcf).near.1, Nat.le_trans (hcand c hcf).near.2.2 hmax⟩
    refine ⟨_, by simp only [Window.findPerDecade, hc, ok_bind, ht, pure_eq_ok]; rfl, by simp [hl], ?_⟩
    intro best hbest
    rw [← Option.some.inj hbest]
    refine ⟨by simp, s, head, hl, hla, fun k b hb => ?_⟩
    rw [List.getElem?_map] at hb
    by_cases hk : k < 30
    · rw [List.getElem?_range hk] at hb
      simp only [Option.map_some, Option.some.injEq] at hb
      rw [foldl_longer_tagged] at hb
      rcases foldl_longer_mem ((tagged.filter (fun c => c.1 == k)).map Prod.snd) (0, 0) with h0 | hm
      · exact .inl (hb.symm.trans h0)
      · rw [hb] at hm
        obtain ⟨x, hx, rfl⟩ := List.mem_map.mp hm
        obtain ⟨hx1, hx2⟩ := List.mem_filter.mp hx
        have := hspec x hx1
        simp only [beq_iff_eq] at hx2
        exact .inr ⟨hcand _ this.1, by rw [this.2, hx2]⟩
    · have : (List.range 30)[k]? = none := by simp; omega
      rw [this] at hb
      simp at hb

/-- The edges of one vertex: 30 decades, each edge a run of 3..258 within `room`, at a distance of its decade. -/
structure VertexEdges (room : Nat) (edges : List (Option Edge)) : Prop where
  size  : edges.length = 30
  sound : ∀ k e, edges[k]? = some (some e) → 3 ≤ e.run ∧ e.run ≤ 258 ∧ e.run ≤ room ∧ (distSymbol e.dist).map Prod.fst = some k

theorem noEdges_ok (room : Nat) : VertexEdges room noEdges := by
  refine ⟨rfl, fun k e h => ?_⟩
  have := List.mem_of_getElem? h
  simp [noEdges] at this

theorem Window.Sound.meets_edgesAt {P : Params} {c : Compressor} {w : Window} (h : w.Sound) (p room : Nat) :
    Meets (edgesAt P c p room w) (fun r => r.2.Sound ∧ r.2.exp = w.exp ∧ r.2.isOpen = w.isOpen ∧ VertexEdges room r.1) := by
  unfold edgesAt
  split
  · exact Meets.pure ⟨h, rfl, rfl, noEdges_ok room⟩
  · refine (h.meets_insertTo _ _).bind fun v ⟨hv, he, ho⟩ => ?_
    rcases v.findPerDecade_spec hv (min maxRun room) c.cfg.attempts.toNat c.cfg.goal.toNat with ⟨hr, -⟩ | ⟨m, hm, -, hspec⟩
    · rw [hr]; exact Meets.refused
    · rw [hm]
      rcases m with _ | best
      · exact Meets.pure ⟨hv, he, ho, noEdges_ok room⟩
      · obtain ⟨h30, s, head, -, -, hb⟩ := hspec best rfl
        refine Meets.pure ⟨hv, he, ho, by simp [edgesOf, h30], fun k e hk => ?_⟩
        simp only [edgesOf, List.getElem?_map] at hk
        rcases hbk : best[k]? with _ | b
        · simp [hbk] at hk
        · simp only [hbk, Option.map_some, Option.some.injEq] at hk
          split at hk
          · rename_i h3
            simp only [Option.some.injEq] at hk
            subst hk
            rcases hb k b hbk with rfl | ⟨hc, hd⟩
            · simp [minRun] at h3
            · have := hc.short
              simp only [maxRun, minRun] at this h3
              exact ⟨h3, by simp; omega, by simp; omega, hd⟩
          · simp at hk

/-- The vertices of the last `k` positions of a graph. -/
theorem Window.Sound.meets_graphLoop {P : Params} {c : Compressor} (k p : Nat) {w : Window} (h : w.Sound)
    (hp : p + k ≤ c.input.length) :
    Meets (graphLoop P c k p w) (fun r => r.2.Sound ∧ r.2.exp = w.exp ∧ r.2.isOpen = w.isOpen ∧ r.1.length = k
      ∧ ∀ i v, r.1[i]? = some v → VertexEdges (k - i) v.edges) := by
  induction k generalizing p w with
  | zero => exact Meets.pure ⟨h, rfl, rfl, rfl, by simp⟩
  | succ k ih =>
    unfold graphLoop
    have hlt : p < c.input.length := by omega
    refine Meets.bind (Meets.read (Q := fun _ => True) (List.getElem?_eq_getElem hlt) trivial) fun b _ => ?_
    refine (h.meets_edgesAt p (k + 1)).bind fun ⟨edges, v⟩ ⟨hv, he, ho, hed⟩ => ?_
    refine (ih (p + 1) hv (by omega)).bind fun ⟨rest, u⟩ ⟨hu, he', ho', hlen, hrest⟩ => ?_
    refine Meets.pure ⟨hu, he'.trans he, ho'.trans ho, by simpa using hlen, fun i x hx => ?_⟩
    cases i with
    | zero =>
      simp only [List.getElem?_cons_zero, Option.some.injEq] at hx
      subst hx
      exact hed
    | succ i =>
      have := hrest i x (by simpa using hx)
      simpa [Nat.succ_sub_succ] using this

/-- A distance has the decade whose range holds it (spec/30_encoding.md R174). -/
theorem distSymbol_eq_some {d k : Nat} (h1 : 1 ≤ d) (h2 : d ≤ 32768) :
    (distSymbol d).map Prod.fst = some k ↔ (distDecades[k]?.any (fun x => decide (x.base ≤ d ∧ d ≤ x.top))) = true := by
  obtain ⟨i, dd, hs, hi, hb, ht⟩ := distSymbol_spec h1 h2
  constructor
  · intro h
    rw [hs] at h
    simp only [Option.map_some, Option.some.injEq] at h
    subst h
    simp [hi, hb, ht]
  · intro h
    rcases hk : distDecades[k]? with _ | x
    · simp [hk] at h
    · simp only [hk, Option.any_some, decide_eq_true_eq] at h
      have := findDecade_eq (k := 0) distDecades_contiguous hk h.1 h.2
      simp [distSymbol, this]

/-- Tagging candidates with their decades, exactly. -/
theorem withDecades_eq {found : List (Nat × Nat)} (h : ∀ c ∈ found, 1 ≤ c.2 ∧ c.2 ≤ 32768) :
    ∃ tagged, withDecades found = .ok tagged
      ∧ ∀ k, (tagged.filter (fun c => c.1 == k)).map Prod.snd = inDecade k found := by
  induction found with
  | nil => exact ⟨[], rfl, fun k => rfl⟩
  | cons c rest ih =>
    obtain ⟨h1, h2⟩ := h c (by simp)
    obtain ⟨i, dd, hs, -⟩ := distSymbol_spec h1 h2
    obtain ⟨tagged, ht, hf⟩ := ih fun x hx => h x (List.mem_cons_of_mem _ hx)
    refine ⟨(i, c) :: tagged, ?_, fun k => ?_⟩
    · unfold withDecades at ht ⊢
      simp only [List.mapM_cons, hs, written_some, ok_bind, pure_eq_ok] at ht ⊢
      rw [ht]
      rfl
    · have hk := distSymbol_eq_some (k := k) h1 h2
      rw [hs] at hk
      simp only [Option.map_some, Option.some.injEq] at hk
      have hf := hf k
      unfold inDecade at hf ⊢
      simp only [List.filter_cons, beq_iff_eq]
      by_cases hik : i = k
      · rw [if_pos hik, if_pos (hk.mp hik), List.map_cons, hf]
      · rw [if_neg hik, if_neg (fun hx => hik (hk.mpr hx)), hf]

/-- `WN.MATCHD` on a sound window with a key: per decade the first longest candidate of the walk there
(spec/42_match_finder.md R332). -/
theorem Window.findPerDecade_longest {w : Window} (h : w.Sound) {s lookahead : Nat} {head : Option Nat} (hl : w.last = some (s, head))
    (hla : lookahead ≤ w.input.length - s) (attempts goal : Nat) :
    ∃ best found, w.findPerDecade lookahead attempts goal = .ok (some best) ∧ Walks w s (min 258 lookahead) goal attempts head found
      ∧ best.length = 30 ∧ ∀ k, k < 30 →
        (best[k]? = some (0, 0) ∧ ∀ x ∈ inDecade k found, x.1 = 0)
        ∨ ∃ b, best[k]? = some b ∧ Longest (inDecade k found) b ∧ 1 ≤ b.1 := by
  obtain ⟨found, hc, hw⟩ := Window.candidates_walks h hl hla attempts goal
  have hcand : ∀ c ∈ found, 1 ≤ c.2 ∧ c.2 ≤ 32768 := by
    rcases Window.candidates_spec h lookahead attempts goal with ⟨hn, -⟩ | ⟨-, -, -, -, he⟩ | ⟨_, _, f, -, -, hf, hall⟩
    · rw [hl] at hn; simp at hn
    · rw [hc] at he; simp at he
    · rw [hc] at hf
      simp only [Except.ok.injEq, Option.some.injEq] at hf
      subst hf
      exact fun c hx => ⟨(hall c hx).near.1, Nat.le_trans (hall c hx).near.2.2 w.maxDistance_le⟩
  obtain ⟨tagged, ht, hf⟩ := withDecades_eq hcand
  refine ⟨_, found, by simp only [Window.findPerDecade, hc, ok_bind, ht, pure_eq_ok]; rfl, hw, by simp, fun k hk => ?_⟩
  rw [List.getElem?_map, List.getElem?_range hk, Option.map_some, foldl_longer_tagged, hf k]
  rcases foldl_longer_longest (inDecade k found) (0, 0) with ⟨h1, h2⟩ | ⟨h1, h2⟩
  · exact .inl ⟨by rw [h1], fun x hx => Nat.le_zero.mp (h2 x hx)⟩
  · exact .inr ⟨_, rfl, h1, h2⟩

/-! ## Inserting and parsing exactly -/

/-- The loop of `Insert` inserts bytes of the input in order (spec/43_term_strategies.md R374). -/
theorem insertLoop_inserts {input : List Byte} (n : Nat) {w v : Window}
    (h : Machine.insertLoop referenceParams input n w = .ok v) : Inserts input w v := by
  induction n generalizing w with
  | zero =>
    simp only [Machine.insertLoop, pure_eq_ok, Except.ok.injEq] at h
    exact h ▸ .here w
  | succ n ih =>
    simp only [Machine.insertLoop, bind_eq_ok, written_eq_ok] at h
    obtain ⟨b, hb, u, hu, h⟩ := h
    exact .byte w u v b hb hu (ih h)

theorem Inserts.trans {input : List Byte} {a b c : Window} (x : Inserts input a b) (y : Inserts input b c) : Inserts input a c := by
  induction x with
  | here => exact y
  | byte w v u b hb hu _ ih => exact .byte w v c b hb hu (ih y)

/-- What a window that has been fed the whole input, and stands at most at the key of `s`, can be taken as. -/
structure Before (input : List Byte) (s : Nat) (w : Window) : Prop where
  sound : w.Sound
  fed   : w.input = input
  near  : w.inserted ≤ s + 4

theorem Before.later {input : List Byte} {s t : Nat} {w : Window} (h : Before input s w) (hst : s ≤ t) : Before input t w :=
  ⟨h.sound, h.fed, by have := h.near; omega⟩

/-- `Insert(s)` where `s` has a key: the window then stands at the key of `s` (spec/43_term_strategies.md R374, R375). -/
theorem Before.insertTo {input : List Byte} {s : Nat} {w : Window} (h : Before input s w) (hs : s + 4 ≤ input.length) :
    ∃ v head, Machine.insertTo referenceParams input s w = .ok v ∧ Before input s v ∧ v.inserted = s + 4 ∧ v.exp = w.exp
      ∧ v.isOpen = w.isOpen ∧ Inserts input w v ∧ v.last = some (s, head) := by
  obtain ⟨hsound, hfed, hnear⟩ := h
  subst hfed
  obtain ⟨v, h1, h2, h3, h4, h5⟩ := insertLoop_fed referenceParams (min w.input.length (s + 4) - w.inserted) w (by have := hsound.fed; omega)
  have hin : v.inserted = s + 4 := by rw [h2]; omega
  have hv : v.Sound := Window.Sound.insertLoop _ hsound h1
  have hlast := hv.last
  rw [if_neg (by omega), hin] at hlast
  rcases hvl : v.last with _ | ⟨p, head⟩
  · rw [hvl] at hlast; simp at hlast
  · rw [hvl] at hlast
    simp only [Option.map_some, Option.some.injEq] at hlast
    exact ⟨v, head, h1, ⟨hv, h3, by omega⟩, hin, h4, h5, insertLoop_inserts _ h1, by rw [hvl, hlast]; simp⟩

/-- `Find(s)` answers, and as the rule says (spec/43_term_strategies.md R375). -/
theorem Before.findAt {c : Compressor} {s : Nat} {w : Window} (h : Before c.input s w) :
    ∃ m v, Machine.findAt referenceParams c s w = .ok (m, v) ∧ Finds c w s m v ∧ Before c.input s v ∧ v.exp = w.exp ∧ v.isOpen = w.isOpen := by
  unfold Machine.findAt
  by_cases hs : c.input.length < s + 4
  · rw [if_pos hs]
    exact ⟨none, w, rfl, ⟨fun _ => ⟨rfl, rfl⟩, fun hx => by omega⟩, h, rfl, rfl⟩
  · rw [if_neg hs]
    obtain ⟨v, head, h1, h2, h3, h4, h5, h6, h7⟩ := h.insertTo (by omega)
    obtain ⟨m, found, h8, h9, h10⟩ := Window.findMatch_reports h2.sound h7 (lookahead := c.input.length - s) (by rw [h2.fed])
      c.cfg.attempts.toNat c.cfg.goal.toNat
    exact ⟨m, v, by simp only [h1, ok_bind, h8, pure_eq_ok], ⟨fun hx => by omega, fun _ => ⟨h6, h3, head, found, h7, h9, h10⟩⟩, h2, h4, h5⟩

/-- A greedy or lazy decision is the one the rules say (spec/43_term_strategies.md R380 to R382). -/
theorem Before.parseAt {c : Compressor} {s : Nat} {w : Window} {b : Byte} (h : Before c.input s w) (hb : c.input[s]? = some b)
    (hfull : c.cfg.strategy ≠ .full) :
    ∃ new v, Machine.parseAt referenceParams c s b w = .ok (new, v) ∧ Parses c w s new v := by
  obtain ⟨m0, v, h1, h2, h3, -⟩ := h.findAt
  simp only [Machine.parseAt, h1, ok_bind]
  rcases m0 with _ | ⟨run, dist⟩
  · exact ⟨_, _, rfl, .literal b v hb h2⟩
  · by_cases hl : c.cfg.strategy = .lazy ∧ s + 1 < c.input.length
    · obtain ⟨m1, u, h4, h5, -⟩ := (h3.later (Nat.le_succ s)).findAt
      simp only [if_pos hl, h4, ok_bind]
      rcases m1 with _ | ⟨run', dist'⟩
      · exact ⟨_, _, rfl, .keep run dist none v u hl.1 hl.2 h2 h5 (by simp)⟩
      · by_cases hr : run < run'
        · exact ⟨_, _, by simp only [if_pos hr]; rfl, .defer b run dist run' dist' v u hl.1 hl.2 hb h2 h5 hr⟩
        · exact ⟨_, _, by simp only [if_neg hr]; rfl, .keep run dist _ v u hl.1 hl.2 h2 h5 (by simpa using hr)⟩
    · simp only [if_neg hl]
      refine ⟨_, _, rfl, .take run dist v ?_ h2⟩
      rcases hc : c.cfg.strategy
      · exact .inl rfl
      · exact .inr (Nat.le_of_not_lt fun hx => hl ⟨hc, hx⟩)
      · exact absurd hc hfull

/-- The edges of one vertex are those the rule says (spec/43_term_strategies.md R392). -/
theorem Before.edgesAt {c : Compressor} {p room : Nat} {w : Window} (h : Before c.input p w) (hroom : p + room ≤ c.input.length) :
    ∃ edges v, Machine.edgesAt referenceParams c p room w = .ok (edges, v) ∧ EdgesAt c w p room edges ∧ Before c.input p v
      ∧ Inserts c.input w v := by
  unfold Machine.edgesAt
  by_cases hp : c.input.length < p + 4
  · rw [if_pos hp]
    exact ⟨_, w, rfl, ⟨fun _ => rfl, fun hx => by omega⟩, h, .here w⟩
  · rw [if_neg hp]
    obtain ⟨v, head, h1, h2, h3, -, -, h6, h7⟩ := h.insertTo (by omega)
    obtain ⟨best, found, h8, h9, h10, h11⟩ := Window.findPerDecade_longest h2.sound h7 (lookahead := min maxRun room)
      (by rw [h2.fed]; omega) c.cfg.attempts.toNat c.cfg.goal.toNat
    refine ⟨edgesOf best, v, by simp only [h1, ok_bind, h8]; rfl, ⟨fun hx => by omega, fun _ => ⟨by simp [edgesOf, h10], v, head, found,
      h6, h3, h7, ?_, fun k hk => ?_⟩⟩, h2, h6⟩
    · have hmin : min 258 (min maxRun room) = min 258 room := by simp only [maxRun]; omega
      rwa [hmin] at h9
    · rcases h11 k hk with ⟨hb, hall⟩ | ⟨⟨run, dist⟩, hb, hlong, -⟩
      · exact .inr ⟨fun x hx => by rw [hall x hx]; omega, by simp [edgesOf, hb, minRun]⟩
      · by_cases h3 : 3 ≤ run
        · exact .inl ⟨run, dist, hlong, h3, by simp [edgesOf, hb, minRun, h3]⟩
        · refine .inr ⟨fun x hx => ?_, by simp [edgesOf, hb, minRun, h3]⟩
          obtain ⟨pre, post, he, hpre, hpost⟩ := hlong
          rw [he] at hx
          dsimp only at hpre hpost
          rcases List.mem_append.mp hx with hx | hx
          · have := hpre x hx; omega
          · rcases List.mem_cons.mp hx with rfl | hx
            · dsimp only; omega
            · have := hpost x hx; omega

/-- The search at a later vertex does not tell how the window came there. -/
theorem EdgesAt.of_inserts {c : Compressor} {p room : Nat} {w v : Window} {edges : List (Option Edge)} (h : EdgesAt c v p room edges)
    (hw : Inserts c.input w v) : EdgesAt c w p room edges := by
  refine ⟨h.1, fun hp => ?_⟩
  obtain ⟨hlen, u, head, found, hi, hrest⟩ := h.2 hp
  exact ⟨hlen, u, head, found, hw.trans hi, hrest⟩

/-- The vertices of a graph have the edges the rule says (spec/43_term_strategies.md R392). -/
theorem Before.graphLoop {c : Compressor} (k p : Nat) {w : Window} (h : Before c.input p w) (hp : p + k ≤ c.input.length) :
    ∃ vs v, Machine.graphLoop referenceParams c k p w = .ok (vs, v) ∧ vs.length = k ∧ Inserts c.input w v
      ∧ ∀ i x, vs[i]? = some x → c.input[p + i]? = some x.lit ∧ EdgesAt c w (p + i) (k - i) x.edges := by
  induction k generalizing p w with
  | zero => exact ⟨[], w, rfl, rfl, .here w, by simp⟩
  | succ k ih =>
    have hlt : p < c.input.length := by omega
    obtain ⟨edges, v, h1, h2, h3, h4⟩ := h.edgesAt (room := k + 1) hp
    obtain ⟨vs, u, h5, h6, h7, h8⟩ := ih (p + 1) (h3.later (Nat.le_succ p)) (by omega)
    refine ⟨{ lit := c.input[p], edges := edges } :: vs, u, ?_, by simp [h6], h4.trans h7, fun i x hx => ?_⟩
    · simp only [Machine.graphLoop, List.getElem?_eq_getElem hlt, written_some, ok_bind, h1, h5, pure_eq_ok]
    · cases i with
      | zero =>
        simp only [List.getElem?_cons_zero, Option.some.injEq] at hx
        subst hx
        exact ⟨List.getElem?_eq_getElem hlt, h2⟩
      | succ i =>
        have := h8 i x (by simpa using hx)
        rw [show p + (i + 1) = p + 1 + i by omega, show k + 1 - (i + 1) = k - i by omega]
        exact ⟨this.1, this.2.of_inserts h4⟩

/-- Building a graph over bytes that are there (spec/43_term_strategies.md R392). -/
theorem meets_buildGraph {P : Params} {s : State} (h : Workable s) (n : Nat) (hn : s.c.parsed + n ≤ s.c.input.length) :
    Meets (buildGraph P n s) (fun t => Work P s t ∧ Workable t ∧ t.mg.n = n ∧ t.c.parsed = s.c.parsed + n) := by
  unfold buildGraph
  refine (Window.Sound.meets_graphLoop n s.c.parsed h.window hn).bind fun ⟨vs, w⟩ ⟨hw, he, ho, hlen, hvs⟩ => ?_
  refine Meets.pure ⟨?_, ⟨hw, ⟨h.terms.terms, ⟨hlen, ?_, ?_⟩, h.terms.depth, h.terms.enc⟩, hn⟩, rfl, rfl⟩
  · constructor <;> first | rfl | exact id | exact he | exact ho | simp
  · intro v hv
    obtain ⟨i, hi⟩ := List.getElem?_of_mem hv
    exact (hvs i v hi).size
  · intro i v k e hi hk
    have hin := (List.getElem?_eq_some_iff.mp hi).1
    have := (hvs i v hi).sound k e hk
    dsimp only at hin hlen ⊢
    rw [hlen] at hin
    refine ⟨this.1, this.2.1, ?_, this.2.2.2⟩
    have := this.2.2.1
    omega

/-! ## The sweep (spec/43_term_strategies.md R396) -/

/-- What a sweep over `n` bytes keeps: every vertex with a cost, but the source, was reached by a term in range from a smaller vertex
with a cost; every vertex up to `i` has a cost. -/
structure Swept (n i : Nat) (w : Sweep) : Prop where
  costs  : w.cost.length = n + 1
  backs  : w.back.length = n + 1
  source : ∃ c, w.cost[0]? = some (some c)
  reached : ∀ j, j ≤ i → j ≤ n → ∃ c, w.cost[j]? = some (some c)
  back   : ∀ j c, w.cost[j]? = some (some c) → j = 0 ∨
    ∃ i' t c', w.back[j]? = some (some (i', t)) ∧ i' < j ∧ t.Valid ∧ i' + t.covers = j ∧ w.cost[i']? = some (some c')

/-- A relaxation within the graph keeps all that. -/
theorem Swept.relax {n k i j c : Nat} {w : Sweep} {t : Term} (h : Swept n k w) (hi : ∃ c', w.cost[i]? = some (some c'))
    (hj : j ≤ n) (hij : i < j) (ht : t.Valid) (hc : i + t.covers = j) :
    ∃ v : Sweep, w.relax i j c t = .ok v ∧ Swept n k v ∧ (∃ c' : Nat, v.cost[j]? = some (some c'))
      ∧ ∀ m c' : Nat, w.cost[m]? = some (some c') → ∃ c'' : Nat, v.cost[m]? = some (some c'') := by
  have hlt : j < w.cost.length := by rw [h.costs]; omega
  have hltb : j < w.back.length := by rw [h.backs]; omega
  simp only [Sweep.relax, List.getElem?_eq_getElem hlt, written_some, ok_bind]
  have hget : ∀ (x : Nat) (m : Nat), (w.cost.set j (some x))[m]? = if m = j then some (some x) else w.cost[m]? := by
    intro x m
    rw [List.getElem?_set]
    by_cases hm : j = m
    · subst hm; simp [hlt]
    · simp [hm, Ne.symm hm]
  have hgetb : ∀ (m : Nat), (w.back.set j (some (i, t)))[m]? = if m = j then some (some (i, t)) else w.back[m]? := by
    intro m
    rw [List.getElem?_set]
    by_cases hm : j = m
    · subst hm; simp [hltb]
    · simp [hm, Ne.symm hm]
  split
  · have hkeep : ∀ m c' : Nat, w.cost[m]? = some (some c') → ∃ c'' : Nat, (w.cost.set j (some c))[m]? = some (some c'') := by
      intro m c' hm
      rw [hget]
      split
      · exact ⟨c, rfl⟩
      · exact ⟨c', hm⟩
    refine ⟨_, rfl, ⟨by simp [h.costs], by simp [h.backs], ?_, ?_, ?_⟩, ⟨c, by rw [hget]; simp⟩, hkeep⟩
    · obtain ⟨c', hs⟩ := h.source
      exact hkeep 0 c' hs
    · intro m hm hmn
      obtain ⟨c', hs⟩ := h.reached m hm hmn
      exact hkeep m c' hs
    · intro m c' hm
      dsimp only at hm ⊢
      rw [hget] at hm
      by_cases hmj : m = j
      · right
        obtain ⟨ci, hci⟩ := hi
        obtain ⟨ci', hci'⟩ := hkeep i ci hci
        exact ⟨i, t, ci', by rw [hgetb]; simp [hmj], by omega, ht, by omega, hci'⟩
      · rw [if_neg hmj] at hm
        rcases h.back m c' hm with h0 | ⟨i', t', c'', h1, h2, h3, h4, h5⟩
        · exact .inl h0
        · right
          obtain ⟨d, hd⟩ := hkeep i' c'' h5
          exact ⟨i', t', d, by rw [hgetb, if_neg hmj]; exact h1, h2, h3, h4, hd⟩
  · rename_i hch
    refine ⟨w, rfl, h, ?_, fun m c' hm => ⟨c', hm⟩⟩
    rw [List.getElem?_eq_getElem hlt]
    rcases hx : w.cost[j] with _ | x
    · simp [hx, cheaper] at hch
    · exact ⟨x, rfl⟩

theorem sized_iff (dt : DepthTable) :
    dt.sized = true ↔ dt.lit.length = 256 ∧ dt.run.length = 256 ∧ dt.dist.length = 30 := by
  simp [DepthTable.sized, and_assoc]

/-- The match edges of one decade at a vertex. -/
theorem Swept.relaxRuns {dt : DepthTable} (hdt : dt.sized = true) {n k i base dec dist : Nat} (hdec : dec < 30)
    (hd : 1 ≤ dist ∧ dist ≤ 32768) (m r : Nat) {w : Sweep} (h : Swept n k w) (hi : ∃ c', w.cost[i]? = some (some c'))
    (hr3 : 3 ≤ r) (hr : r + m ≤ 259) (hrn : i + r + m ≤ n + 1) :
    ∃ v : Sweep, Machine.relaxRuns dt i base dec dist m r w = .ok v ∧ Swept n k v
      ∧ ∀ j c' : Nat, w.cost[j]? = some (some c') → ∃ c'' : Nat, v.cost[j]? = some (some c'') := by
  induction m generalizing r w with
  | zero => exact ⟨w, rfl, h, fun j c' hj => ⟨c', hj⟩⟩
  | succ m ih =>
    obtain ⟨h1, h2, h3⟩ := (sized_iff dt).mp hdt
    have hrun : r - 3 < dt.run.length := by omega
    have hdist : dec < dt.dist.length := by omega
    obtain ⟨v, hv, hs, -, hkeep⟩ := h.relax (c := base + (dt.run[r - 3] + dt.dist[dec])) hi (j := i + r) (by omega) (by omega)
      (t := .copy r dist) ⟨hr3, by omega, hd.1, hd.2⟩ rfl
    obtain ⟨c', hc'⟩ := hi
    obtain ⟨u, hu, hs', hkeep'⟩ := ih (r + 1) hs (hkeep i c' hc') (by omega) (by omega) (by omega)
    refine ⟨u, ?_, hs', fun j c hj => ?_⟩
    · simp only [Machine.relaxRuns, matchCost, List.getElem?_eq_getElem hrun, List.getElem?_eq_getElem hdist, written_some, ok_bind,
        pure_eq_ok, hv, hu]
    · obtain ⟨c2, h2⟩ := hkeep j c hj
      exact hkeep' j c2 h2

/-- The match edges of a vertex. -/
theorem Swept.relaxDecades {dt : DepthTable} (hdt : dt.sized = true) {n k i base : Nat} (edges : List (Option Edge)) (dec : Nat)
    {w : Sweep} (h : Swept n k w) (hi : ∃ c', w.cost[i]? = some (some c'))
    (he : ∀ m e, edges[m]? = some (some e) → 3 ≤ e.run ∧ e.run ≤ 258 ∧ i + e.run ≤ n ∧ dec + m < 30 ∧ 1 ≤ e.dist ∧ e.dist ≤ 32768) :
    ∃ v : Sweep, Machine.relaxDecades dt i base dec edges w = .ok v ∧ Swept n k v
      ∧ ∀ j c' : Nat, w.cost[j]? = some (some c') → ∃ c'' : Nat, v.cost[j]? = some (some c'') := by
  induction edges generalizing dec w with
  | nil => exact ⟨w, rfl, h, fun j c' hj => ⟨c', hj⟩⟩
  | cons e rest ih =>
    have hrest : ∀ m e, rest[m]? = some (some e) →
        3 ≤ e.run ∧ e.run ≤ 258 ∧ i + e.run ≤ n ∧ dec + 1 + m < 30 ∧ 1 ≤ e.dist ∧ e.dist ≤ 32768 := by
      intro m x hx
      have := he (m + 1) x (by simpa using hx)
      omega
    rcases e with _ | e
    · exact ih (dec + 1) h hi hrest
    · obtain ⟨h1, h2, h3, h4, h5, h6⟩ := he 0 e rfl
      obtain ⟨v, hv, hs, hkeep⟩ := h.relaxRuns hdt (base := base) (dec := dec) (by omega) ⟨h5, h6⟩ (e.run - 2) 3 hi (by omega) (by omega) (by omega)
      obtain ⟨c', hc'⟩ := hi
      obtain ⟨u, hu, hs', hkeep'⟩ := ih (dec + 1) hs (hkeep i c' hc') hrest
      refine ⟨u, by simp only [Machine.relaxDecades, hv, ok_bind, hu], hs', fun j c hj => ?_⟩
      obtain ⟨c2, h2⟩ := hkeep j c hj
      exact hkeep' j c2 h2

/-- The sweep from vertex `i` on reaches every vertex. -/
theorem Swept.exploreFrom {dt : DepthTable} (hdt : dt.sized = true) {g : Graph} (hg : g.Sound) (vs : List Vertex) (i : Nat)
    {w : Sweep} (h : Swept g.n i w) (hvs : g.vertices.drop i = vs) (hi : i ≤ g.n) :
    ∃ v : Sweep, Machine.exploreFrom dt i vs w = .ok v ∧ Swept g.n g.n v := by
  induction vs generalizing i w with
  | nil =>
    have : g.n = i := by
      have := congrArg List.length hvs
      simp [hg.size] at this
      omega
    subst this
    exact ⟨w, rfl, h⟩
  | cons x rest ih =>
    have hlen := congrArg List.length hvs
    simp only [List.length_drop, hg.size, List.length_cons] at hlen
    have hx : g.vertices[i]? = some x := by
      have := congrArg (fun l => l[0]?) hvs
      simpa using this
    have hrest : g.vertices.drop (i + 1) = rest := by
      have := congrArg List.tail hvs
      simpa using this
    obtain ⟨ci, hci⟩ := h.reached i (Nat.le_refl _) hi
    obtain ⟨hl, -, -⟩ := (sized_iff dt).mp hdt
    have hlit : x.lit.toNat < dt.lit.length := by have := x.lit.isLt; omega
    obtain ⟨v, hv, hs, hnew, hkeep⟩ := h.relax (c := ci + dt.lit[x.lit.toNat]) ⟨ci, hci⟩ (j := i + 1) (by omega) (by omega)
      (t := .lit x.lit) trivial rfl
    have hedges : ∀ m e, x.edges[m]? = some (some e) →
        3 ≤ e.run ∧ e.run ≤ 258 ∧ i + e.run ≤ g.n ∧ 0 + m < 30 ∧ 1 ≤ e.dist ∧ e.dist ≤ 32768 := by
      intro m e hm
      obtain ⟨h1, h2, h3, h4⟩ := hg.edges i x m e hx hm
      rcases hd : distSymbol e.dist with _ | ⟨k, dd⟩
      · simp [hd] at h4
      · simp [hd] at h4
        have := distSymbol_range hd
        omega
    obtain ⟨u, hu, hs', hkeep'⟩ := hs.relaxDecades hdt (base := ci) x.edges 0 (hkeep i ci hci) hedges
    have hs2 : Swept g.n (i + 1) u := by
      refine ⟨hs'.costs, hs'.backs, hs'.source, fun j hj hjn => ?_, hs'.back⟩
      by_cases hji : j ≤ i
      · exact hs'.reached j hji hjn
      · have : j = i + 1 := by omega
        subst this
        obtain ⟨c', hc'⟩ := hnew
        exact hkeep' _ c' hc'
    obtain ⟨z, hz, hz2⟩ := ih (i + 1) hs2 hrest (by omega)
    refine ⟨z, ?_, hz2⟩
    simp only [Machine.exploreFrom, hci, written_some, ok_bind, List.getElem?_eq_getElem hlit, hv, hu, hz]

theorem swept_start (n : Nat) : Swept n 0 { cost := costStart n, back := backStart n } := by
  refine ⟨by simp [costStart], by simp [backStart], ⟨0, rfl⟩, ?_, ?_⟩
  · intro j hj _
    have : j = 0 := by omega
    subst this
    exact ⟨0, rfl⟩
  · intro j c hj
    cases j with
    | zero => exact .inl rfl
    | succ j =>
      have := List.mem_of_getElem? (show (List.replicate n (none : Option Nat))[j]? = some (some c) by simpa [costStart] using hj)
      simp at this

/-- `Path()` after a sweep: terms in range that cover the bytes before `j` (spec/43_term_strategies.md R398). -/
theorem Swept.pathLoop {n i : Nat} {w : Sweep} (h : Swept n i w) (fuel j : Nat) (hf : j ≤ fuel) (after : List Term)
    (hj : ∃ c, w.cost[j]? = some (some c)) :
    ∃ ts, Machine.pathLoop w.back fuel j after = .ok (ts ++ after) ∧ (∀ t ∈ ts, t.Valid) ∧ coversAll ts = j := by
  induction fuel generalizing j after with
  | zero =>
    have : j = 0 := by omega
    subst this
    exact ⟨[], rfl, by simp, rfl⟩
  | succ fuel ih =>
    cases j with
    | zero => exact ⟨[], rfl, by simp, rfl⟩
    | succ j =>
      obtain ⟨c, hc⟩ := hj
      rcases h.back (j + 1) c hc with h0 | ⟨i', t, c', h1, h2, h3, h4, h5⟩
      · omega
      · obtain ⟨ts, h6, h7, h8⟩ := ih i' (by omega) (t :: after) ⟨c', h5⟩
        refine ⟨ts ++ [t], ?_, ?_, ?_⟩
        · simp only [Machine.pathLoop, h1, written_some, ok_bind, h6]
          simp
        · intro x hx
          rcases List.mem_append.mp hx with hx | hx
          · exact h7 x hx
          · simp at hx
            exact hx ▸ h3
        · simp only [coversAll, List.map_append, List.sum_append, List.map_cons, List.map_nil, List.sum_cons, List.sum_nil] at h8 ⊢
          omega

/-- One sweep on a sound graph (spec/43_term_strategies.md R396, R398). -/
theorem minimizeOnce_ok {P : Params} {s : State} (h : Workable s) :
    ∃ t terms total, minimizeOnce P s = .ok (t, terms, total) ∧ Work P s t ∧ Workable t ∧ t.mg.n = s.mg.n
      ∧ t.c.parsed = s.c.parsed ∧ t.tv = terms ∧ coversAll terms = s.mg.n ∧ t.c.termsBytes = s.mg.n := by
  have hdt := h.terms.depth
  obtain ⟨w, hw, hs⟩ := (swept_start s.mg.n).exploreFrom hdt h.terms.graph s.mg.vertices 0 rfl (by omega)
  obtain ⟨c, hc⟩ := hs.reached s.mg.n (Nat.le_refl _) (Nat.le_refl _)
  obtain ⟨ts, h1, h2, h3⟩ := hs.pathLoop s.mg.n s.mg.n (Nat.le_refl _) [] ⟨c, hc⟩
  rw [List.append_nil] at h1
  obtain ⟨codes, h4, -⟩ := codesOf_ok h2
  refine ⟨_, ts, c, by simp only [minimizeOnce, hw, ok_bind, pathTerms, h1, h4, hc, written_some]; rfl, ?_⟩
  refine ⟨?_, ?_, rfl, rfl, rfl, h3, rfl⟩
  · constructor <;> first | rfl | exact id
  · refine ⟨h.window, ⟨h2, ⟨h.terms.graph.size, h.terms.graph.decades, h.terms.graph.edges⟩, ?_, h.terms.enc⟩, h.parsed⟩
    simpa [DepthTable.sized, refineDepths] using hdt

/-! ## The block writer (spec/44_block_writer.md) -/

/-- A codeword of a symbol the table has (spec/44_block_writer.md R430). -/
theorem Sink.code_ok (t : EncTable) (s : Nat) (k : Sink) (hs : s < t.entries.length) :
    ∃ k', k.code t s = .ok k' ∧ k'.isOpen = k.isOpen ∧ (k.Sound → k'.Sound) := by
  refine ⟨_, by simp only [Sink.code, List.getElem?_eq_getElem hs, written_some, ok_bind]; rfl, by simp, fun h => h.append _ _⟩

/-- The metasymbol stream, when the table has every metasymbol of it (spec/44_block_writer.md R440). -/
theorem Sink.metaStream_ok (t : EncTable) (rle : List (Nat × Nat)) (k : Sink) (h : ∀ p ∈ rle, p.1 < t.entries.length) :
    ∃ k', k.metaStream t rle = .ok k' ∧ k'.isOpen = k.isOpen ∧ (k.Sound → k'.Sound) := by
  induction rle generalizing k with
  | nil => exact ⟨k, rfl, rfl, id⟩
  | cons p rest ih =>
    obtain ⟨m, x⟩ := p
    obtain ⟨k1, h1, h2, h3⟩ := Sink.code_ok t m k (h (m, x) (by simp))
    obtain ⟨k2, h4, h5, h6⟩ := ih (if 16 ≤ m then k1.append x (metaExtra m) else k1) fun q hq => h q (List.mem_cons_of_mem _ hq)
    refine ⟨k2, by simp only [Sink.metaStream, h1, ok_bind, h4], ?_, fun hk => h6 ?_⟩
    · rw [h5, ← h2]
      split <;> simp
    · split
      · exact (h3 hk).append _ _
      · exact h3 hk

/-- The tokens of terms in range (spec/44_block_writer.md R441). -/
theorem Sink.tokens_ok (e : EncTables) (he : e.Sized) (codes : List TermCodes) (k : Sink) (h : ∀ c ∈ codes, c.InRange) :
    ∃ k', k.tokens e codes = .ok k' ∧ k'.isOpen = k.isOpen ∧ (k.Sound → k'.Sound) := by
  induction codes generalizing k with
  | nil => exact ⟨k, rfl, rfl, id⟩
  | cons c rest ih =>
    have hc := h c (by simp)
    obtain ⟨k1, h1, h2, h3⟩ := Sink.code_ok e.runLit c.sym k (by rw [he.1]; have := hc.sym; omega)
    have htok : ∃ k', k.token e c = .ok k' ∧ k'.isOpen = k.isOpen ∧ (k.Sound → k'.Sound) := by
      rcases hd : c.dist with _ | ⟨d, eD, vD⟩
      · exact ⟨k1, by simp only [Sink.token, h1, ok_bind, hd, pure_eq_ok], h2, h3⟩
      · obtain ⟨k2, h4, h5, h6⟩ := Sink.code_ok e.dist d (k1.append c.value c.extra)
          (by rw [he.2.1]; have := hc.dist d eD vD hd; omega)
        refine ⟨k2.append vD eD, by simp only [Sink.token, h1, ok_bind, hd, h4, pure_eq_ok], ?_, fun hk => ?_⟩
        · simp [h5, h2]
        · exact (h6 ((h3 hk).append _ _)).append _ _
    obtain ⟨k2, h4, h5, h6⟩ := htok
    obtain ⟨k3, h7, h8, h9⟩ := ih k2 fun x hx => h x (List.mem_cons_of_mem _ hx)
    exact ⟨k3, by simp only [Sink.tokens, h4, ok_bind, h7], h8.trans h5, fun hk => h9 (h6 hk)⟩

/-- Metasymbols of zero runs. -/
theorem zeroRuns_le (n r : Nat) : ∀ p ∈ zeroRuns n r, p.1 ≤ 18 := by
  induction n generalizing r with
  | zero => intro p hp; simp only [zeroRuns] at hp; rw [(List.mem_replicate.mp hp).2]; simp
  | succ n ih =>
    intro p hp
    simp only [zeroRuns] at hp
    split at hp
    · rcases List.mem_cons.mp hp with rfl | hp
      · simp
      · exact ih _ p hp
    · split at hp
      · simp at hp; simp [hp]
      · rw [(List.mem_replicate.mp hp).2]; simp

/-- Metasymbols of repeats of `v`. -/
theorem repeatRuns_le (v n r : Nat) (hv : v ≤ 15) : ∀ p ∈ repeatRuns v n r, p.1 ≤ 18 := by
  induction n generalizing r with
  | zero => intro p hp; simp only [repeatRuns] at hp; rw [(List.mem_replicate.mp hp).2]; simp; omega
  | succ n ih =>
    intro p hp
    simp only [repeatRuns] at hp
    split at hp
    · rcases List.mem_cons.mp hp with rfl | hp
      · simp
      · exact ih _ p hp
    · rw [(List.mem_replicate.mp hp).2]; simp; omega

theorem runsOf_mem (seq : List Nat) : ∀ p ∈ runsOf seq, p.1 ∈ seq := by
  induction seq with
  | nil => simp [runsOf]
  | cons v rest ih =>
    intro p hp
    simp only [runsOf] at hp
    split at hp
    · rename_i u k more heq
      split at hp
      · rcases List.mem_cons.mp hp with rfl | hp
        · simp
        · exact List.mem_cons_of_mem _ (ih p (by rw [heq]; exact List.mem_cons_of_mem _ hp))
      · rcases List.mem_cons.mp hp with rfl | hp
        · simp
        · exact List.mem_cons_of_mem _ (ih p (by rw [heq]; exact hp))
    · simp at hp
      simp [hp]

/-- Every metasymbol of a code-length sequence is one of the 19 (spec/44_block_writer.md R436). -/
theorem rleOf_le (seq : List Nat) (h : ∀ l ∈ seq, l ≤ 15) : ∀ p ∈ rleOf seq, p.1 ≤ 18 := by
  intro p hp
  obtain ⟨⟨v, r⟩, hq, hp⟩ := List.mem_flatMap.mp hp
  have hv : v ≤ 15 := h v (runsOf_mem seq _ hq)
  dsimp only at hp
  split at hp
  · exact zeroRuns_le _ _ p hp
  · rcases List.mem_cons.mp hp with rfl | hp
    · simp; omega
    · exact repeatRuns_le v _ _ hv p hp

theorem Sink.isOpen_foldl (l : List Nat) (k : Sink) : (l.foldl (fun k x => k.append x 3) k).isOpen = k.isOpen := by
  induction l generalizing k with
  | nil => rfl
  | cons x rest ih => simp [ih]

theorem Sink.Sound.foldl (l : List Nat) {k : Sink} (h : k.Sound) : (l.foldl (fun k x => k.append x 3) k).Sound := by
  induction l generalizing k with
  | nil => exact h
  | cons x rest ih => exact ih (h.append x 3)

/-- Writing the terms in range as a dynamic block (spec/44_block_writer.md R430). -/
theorem writeDynamic_ok {P : Params} (hP : BoundedParams P) (final : Bool) {s : State} (h : Workable s) :
    ∃ t, writeDynamic P final s = .ok t ∧ Work P s t ∧ Workable t ∧ t.tv = [] ∧ t.c.parsed = s.c.parsed
      ∧ t.c.emitted = s.c.emitted + s.c.termsBytes ∧ t.c.termsBytes = 0 ∧ t.mg = s.mg := by
  obtain ⟨codes, h1, h2, -⟩ := codesOf_ok h.terms.terms
  have hlens : ∀ freqs n, ∀ l ∈ padTo n (P.build freqs 15), l ≤ 15 := by
    intro freqs n l hl
    rcases mem_padTo hl with hl | rfl
    · exact hP.build freqs 15 (by omega) l hl
    · omega
  have hrle : ∀ p ∈ (planBlock P codes).rle, p.1 < (planBlock P codes).tables.metasym.entries.length := by
    intro p hp
    have := rleOf_le _ (by
      intro l hl
      rcases List.mem_append.mp hl with hl | hl
      · exact hlens _ _ l hl
      · exact hlens _ _ l hl) p hp
    rw [(planBlock P codes).sized.2.2]
    omega
  obtain ⟨k1, h3, h4, h5⟩ := Sink.metaStream_ok (planBlock P codes).tables.metasym (planBlock P codes).rle
    (s.bs.dynamicHeader final (planBlock P codes)) hrle
  obtain ⟨k2, h6, h7, h8⟩ := Sink.tokens_ok (planBlock P codes).tables (planBlock P codes).sized codes k1 h2
  obtain ⟨k3, h9, h10, h11⟩ := Sink.code_ok (planBlock P codes).tables.runLit 256 k2
    (by rw [(planBlock P codes).sized.1]; omega)
  have hopen : (s.bs.dynamicHeader final (planBlock P codes)).isOpen = s.bs.isOpen := by
    simp [Sink.dynamicHeader, Sink.isOpen_foldl]
  have hsound : s.bs.Sound → (s.bs.dynamicHeader final (planBlock P codes)).Sound := fun hk =>
    Sink.Sound.foldl _ (((((hk.append _ _).append _ _).append _ _).append _ _).append _ _)
  have hk3 : k3.isOpen = s.bs.isOpen := h10.trans (h7.trans (h4.trans hopen))
  refine ⟨_, by simp only [writeDynamic, h1, ok_bind, h3, h6, h9]; rfl, ?_⟩
  refine ⟨?_, ?_, rfl, rfl, rfl, rfl, rfl⟩
  · constructor <;> first | rfl | exact id | exact hk3 | (intro _; exact isOpen_encLoad _ _) | skip
    intro hs ho
    exact h11 (h8 (h5 (hsound (hs (hk3.symm.trans ho)))))
  · exact ⟨h.window, ⟨by simp, h.terms.graph, h.terms.depth, (planBlock P codes).sized⟩, h.parsed⟩

/-- A stored block (spec/44_block_writer.md R448). -/
theorem Sink.isOpen_stored (k : Sink) (last : Bool) (bytes : List Byte) : (k.stored last bytes).isOpen = k.isOpen := by
  simp [Sink.stored]

theorem Sink.Sound.stored {k : Sink} (h : k.Sound) (last : Bool) (bytes : List Byte) : (k.stored last bytes).Sound :=
  (((((h.append _ _).append _ _).pad).append _ _).append _ _).appendBytes _

/-- The last block of a stream (spec/44_block_writer.md R452). -/
theorem finalBlock_ok {P : Params} (hP : BoundedParams P) {s : State} (h : Workable s) :
    ∃ t, finalBlock P s = .ok t ∧ Work P s t ∧ Workable t ∧ t.tv = [] ∧ t.c.parsed = s.c.parsed ∧ t.c.termsBytes = 0 := by
  unfold finalBlock
  split
  · refine ⟨_, rfl, ?_, ⟨h.window, ⟨by simp, h.terms.graph, h.terms.depth, h.terms.enc⟩, h.parsed⟩, rfl, rfl, rfl⟩
    constructor <;> first | rfl | exact id | exact Nat.le_refl _ | exact Sink.isOpen_stored _ _ _ | skip
    intro hs ho
    exact (hs ((Sink.isOpen_stored _ _ _).symm.trans ho)).stored _ _
  · obtain ⟨t, h1, h2, h3, h4, h5, -, h6, -⟩ := writeDynamic_ok hP true h
    exact ⟨t, h1, h2, h3, h4, h5, h6⟩

end Sys2Proof.Machine
end

