-- ==== Sys2Proof/Laws/Drive.lean ====
section
/-! SUPPORT. The laws of the compressor's driver (spec/46_stream_interface.md R543): on a workable state it never faults and leaves one. -/

namespace Sys2Proof.Machine

/-- From a computation that answers, what it meets. -/
theorem Meets.of_ok {α : Type} {x : Run α} {a : α} {Q : α → Prop} (hx : x = .ok a) (hq : Q a) : Meets x Q := by
  subst hx
  exact Meets.ok hq

/-- A block ended by term count, or nothing. -/
theorem endBlockIfFull_ok {P : Params} (hP : BoundedParams P) {s : State} (h : Workable s) :
    ∃ t, endBlockIfFull P s = .ok t ∧ Work P s t ∧ Workable t ∧ t.c.parsed = s.c.parsed := by
  unfold endBlockIfFull
  split
  · obtain ⟨t, h1, h2, h3, -, h4, -⟩ := writeDynamic_ok hP false h
    exact ⟨t, h1, h2, h3, h4⟩
  · exact ⟨s, rfl, Work.refl P s, h, rfl⟩

/-- The greedy and lazy loop. -/
theorem meets_driveTerms {P : Params} (hP : BoundedParams P) (fuel : Nat) {s : State} (h : Workable s)
    (hf : s.c.input.length - s.c.parsed < fuel) : Meets (driveTerms P fuel s) (fun t => Work P s t ∧ Workable t) := by
  induction fuel generalizing s with
  | zero => omega
  | succ fuel ih =>
    unfold driveTerms
    split
    · exact Meets.pure ⟨Work.refl P s, h⟩
    · rename_i hlt
      split
      · exact Meets.pure ⟨Work.refl P s, h⟩
      · obtain ⟨t, h1, h2, h3, h4⟩ := endBlockIfFull_ok hP h
        refine (Meets.of_ok h1 (Q := fun x => x = t) rfl).bind fun x hx => ?_
        subst hx
        have hpar : x.c.parsed < x.c.input.length := by rw [h4, h2.input]; omega
        refine (meets_parseStep h3 hpar).bind fun ⟨u, new⟩ ⟨h5, h6, h7, _⟩ => ?_
        refine (ih h6 ?_).mono fun v hv => ⟨(h2.trans h5).trans hv.1, hv.2⟩
        have := h5.input
        have := h2.input
        dsimp only at *
        simp only [*] at *
        omega

/-- Sweeps on a graph that was built. -/
theorem minimizeTimes_ok {P : Params} (k : Nat) {s : State} (h : Workable s) (hn : s.mg.n ≠ 0) :
    ∃ t, minimizeTimes P k s = .ok t ∧ Work P s t ∧ Workable t ∧ t.c.parsed = s.c.parsed := by
  induction k generalizing s with
  | zero => exact ⟨s, rfl, Work.refl P s, h, rfl⟩
  | succ k ih =>
    obtain ⟨t, terms, total, h1, h2, h3, h4, h5, -⟩ := minimizeOnce_ok (P := P) h
    obtain ⟨u, h6, h7, h8, h9⟩ := ih h3 (by rw [h4]; exact hn)
    refine ⟨u, ?_, h2.trans h7, h8, h9.trans h5⟩
    simp only [minimizeTimes, decide_eq_false hn, refuseIf_false, ok_bind, h1, h6]

/-- One graph segment. -/
theorem meets_segment {P : Params} (hP : BoundedParams P) (n : Nat) (final : Bool) {s : State} (h : Workable s) :
    Meets (segment P n final s) (fun t => Work P s t ∧ Workable t ∧ t.c.parsed = s.c.parsed + n ∧ 0 < n) := by
  unfold segment graphOver
  refine Meets.bind (R := fun t => (Work P s t ∧ Workable t ∧ t.mg.n = n ∧ t.c.parsed = s.c.parsed + n) ∧ 0 < n) ?_ ?_
  · refine Meets.bind (R := fun _ => 0 < n ∧ s.c.parsed + n ≤ s.c.input.length) (Meets.check fun hc => ?_) fun _ ⟨hn, hle⟩ => ?_
    · simp only [Bool.or_eq_false_iff, decide_eq_false_iff_not] at hc
      omega
    · exact (meets_buildGraph h n hle).mono fun t ht => ⟨ht, hn⟩
  · intro t ⟨⟨h1, h2, h3, h4⟩, hn⟩
    obtain ⟨u, h5, h6, h7, h8⟩ := minimizeTimes_ok (P := P) t.c.cfg.iterations.toNat h2 (by omega)
    refine (Meets.of_ok h5 (Q := fun x => x = u) rfl).bind fun x hx => ?_
    subst hx
    obtain ⟨v, h9, h10, h11, -, h12, -⟩ := writeDynamic_ok hP final h7
    refine (Meets.of_ok h9 (Q := fun x => x = v) rfl).bind fun y hy => ?_
    subst hy
    refine Meets.pure ⟨?_, ⟨h11.window, ⟨h11.terms.terms, h11.terms.graph, ?_, h11.terms.enc⟩, h11.parsed⟩, ?_, hn⟩
    · refine (h1.trans (h6.trans h10)).trans ?_
      constructor <;> first | rfl | exact id
    · have hd := (sized_iff _).mp h11.terms.depth
      have hp := (sized_iff _).mp hP.depth
      refine (sized_iff _).mpr ?_
      simp [blendDepths, hd, hp]
    · change y.c.parsed = _
      rw [h12, h8, h4]

/-- The full-strategy loop. -/
theorem meets_driveGraphs {P : Params} (hP : BoundedParams P) (fuel : Nat) {s : State} (h : Workable s)
    (hf : s.c.input.length - s.c.parsed < fuel) : Meets (driveGraphs P fuel s) (fun t => Work P s t ∧ Workable t) := by
  induction fuel generalizing s with
  | zero => omega
  | succ fuel ih =>
    unfold driveGraphs
    dsimp only
    split
    · exact Meets.pure ⟨Work.refl P s, h⟩
    · split
      · exact Meets.pure ⟨Work.refl P s, h⟩
      · split
        · have hp := h.parsed
          have hw : Workable { s with c := { s.c with parsed := s.c.parsed + min s.c.limit (s.c.input.length - s.c.parsed) } } :=
            ⟨h.window, ⟨h.terms.terms, h.terms.graph, h.terms.depth, h.terms.enc⟩, by simp only; omega⟩
          obtain ⟨t, h1, h2, h3, -⟩ := finalBlock_ok hP hw
          refine Meets.of_ok h1 ⟨Work.trans ?_ h2, h3⟩
          constructor <;> first | rfl | exact id | exact Nat.le_add_right _ _
        · refine (meets_segment hP _ _ h).bind fun t ⟨h1, h2, h3, h4⟩ => ?_
          refine (ih h2 ?_).mono fun u hu => ⟨h1.trans hu.1, hu.2⟩
          rw [h1.input, h3]
          omega

/-- `Drive()` on a workable state (spec/46_stream_interface.md R543). -/
theorem meets_drive {P : Params} (hP : BoundedParams P) {s : State} (h : Workable s) :
    Meets (drive P s) (fun t => Work P s t ∧ Workable t) := by
  unfold drive
  dsimp only
  have hfin : ∀ t, Work P s t → Workable t → Meets (finalBlock P t) (fun u => Work P s u ∧ Workable u) := by
    intro t h1 h2
    obtain ⟨u, h3, h4, h5, -⟩ := finalBlock_ok hP h2
    exact Meets.of_ok h3 ⟨h1.trans h4, h5⟩
  split
  · refine (meets_driveGraphs hP _ h (by omega)).bind fun t ⟨h1, h2⟩ => ?_
    split
    · exact hfin t h1 h2
    · exact Meets.pure ⟨h1, h2⟩
  · refine (meets_driveTerms hP _ h (by omega)).bind fun t ⟨h1, h2⟩ => ?_
    split
    · exact hfin t h1 h2
    · exact Meets.pure ⟨h1, h2⟩

end Sys2Proof.Machine
end

