-- ==== Sys2Proof/Laws/PerInstr.lean ====
section
/-! SUPPORT. A family of statements made per command: the word of a well-formed command carries its opcode, clears the reserved
bits, and announces the argument words and the payload the command has (spec/30_encoding.md R140, R141, R148). -/

namespace Sys2Proof.Laws.Encoded

/-- The command word of a well-formed command. -/
def Statement (i : Instr) : Prop :=
  i.wellFormed = true →
    field i.commandWord 24 8 = i.op.code ∧ i.op.reservedClear i.commandWord = true
      ∧ i.op.argCount i.commandWord = i.args.length ∧ i.op.payloadLen i.commandWord = i.payload.length

/-- The number a command word stands for. -/
theorem toNat_commandWord (i : Instr) (h : i.op.code * 2 ^ 24 + i.operandField < 2 ^ 32) :
    i.commandWord.toNat = i.op.code * 2 ^ 24 + i.operandField := by
  simp only [Instr.commandWord, word, BitVec.toNat_ofNat]
  exact Nat.mod_eq_of_lt h

/-- Every command at once; the lemmas below are this one, per command. -/
theorem ofWellFormed (i : Instr) : Statement i := by
  intro hw
  have hn : i.commandWord.toNat = _ := toNat_commandWord i (by
    cases i <;> simp only [Instr.wellFormed, decide_eq_true_eq, Instr.op, Op.code, Instr.operandField] at hw ⊢ <;>
      first | omega | (rename_i b _; have := Bool.toNat_le b; omega) | (rename_i b; have := Bool.toNat_le b; omega))
  cases i <;>
    simp only [Instr.wellFormed, decide_eq_true_eq, Instr.op, Op.code, Instr.operandField, Op.reservedClear, Op.reserved,
      Op.argCount, Op.payloadLen, Instr.args, Instr.payload, List.all_cons, List.all_nil, Bool.and_true, Bool.and_eq_true,
      beq_iff_eq, field, List.length_nil, List.length_cons] at hw hn ⊢ <;>
    rw [hn] <;> clear hn <;> refine ⟨?_, ?_, ?_, ?_⟩ <;> (try and_intros) <;>
    first | rfl | trivial | omega | (rename_i b _; have := Bool.toNat_le b; omega) | (rename_i b; have := Bool.toNat_le b; omega)

theorem bsInit (hint : Word) : Statement (.bsInit hint) := ofWellFormed _
theorem bsAppend (count : BitVec 5) (bits : BitVec 16) : Statement (.bsAppend count bits) := ofWellFormed _
theorem bsPad : Statement (.bsPad) := ofWellFormed _
theorem bsPull : Statement (.bsPull) := ofWellFormed _
theorem bsPop : Statement (.bsPop) := ofWellFormed _
theorem bcNew (bytes : List Byte) : Statement (.bcNew bytes) := ofWellFormed _
theorem bcRebase (data : List Byte) (pointer : Word) : Statement (.bcRebase data pointer) := ofWellFormed _
theorem bcRead (width : BitVec 5) (offset : Word) : Statement (.bcRead width offset) := ofWellFormed _
theorem hfBuild (maxlen : BitVec 4) (freqs : List Word) : Statement (.hfBuild maxlen freqs) := ofWellFormed _
theorem hfLoad (t : BitVec 2) (lengths : List Byte) : Statement (.hfLoad t lengths) := ofWellFormed _
theorem hfEncode (t : BitVec 2) (sym : BitVec 9) : Statement (.hfEncode t sym) := ofWellFormed _
theorem hfDecode (t : BitVec 2) (avail : BitVec 5) (peek : Word) : Statement (.hfDecode t avail peek) := ofWellFormed _
theorem wnInit (exp : BitVec 4) : Statement (.wnInit exp) := ofWellFormed _
theorem wnUpdate (byte : Byte) : Statement (.wnUpdate byte) := ofWellFormed _
theorem wnMatch (lookahead : Word) (attempts : Word) (goal : Word) : Statement (.wnMatch lookahead attempts goal) := ofWellFormed _
theorem wnMatchd (lookahead : Word) (attempts : Word) (goal : Word) : Statement (.wnMatchd lookahead attempts goal) := ofWellFormed _
theorem wnFeed (bytes : List Byte) : Statement (.wnFeed bytes) := ofWellFormed _
theorem tmMap (term : Word) : Statement (.tmMap term) := ofWellFormed _
theorem tmStep : Statement (.tmStep) := ofWellFormed _
theorem tmGraph (n : BitVec 24) : Statement (.tmGraph n) := ofWellFormed _
theorem tmMinimize : Statement (.tmMinimize) := ofWellFormed _
theorem tmGeneralize : Statement (.tmGeneralize) := ofWellFormed _
theorem bwDynamic (final : Bool) : Statement (.bwDynamic final) := ofWellFormed _
theorem bwStored (last : Bool) (bytes : List Byte) : Statement (.bwStored last bytes) := ofWellFormed _
theorem brStep : Statement (.brStep) := ofWellFormed _
theorem cNew (format : BitVec 2) (exp : BitVec 4) (level : Byte) (hint : Word) : Statement (.cNew format exp level hint) := ofWellFormed _
theorem cPush (last : Bool) (bytes : List Byte) : Statement (.cPush last bytes) := ofWellFormed _
theorem cPop : Statement (.cPop) := ofWellFormed _
theorem cPull : Statement (.cPull) := ofWellFormed _
theorem dNew (format : BitVec 2) : Statement (.dNew format) := ofWellFormed _
theorem dPush (bytes : List Byte) : Statement (.dPush bytes) := ofWellFormed _
theorem dPulln (count : Word) : Statement (.dPulln count) := ofWellFormed _
theorem dPull : Statement (.dPull) := ofWellFormed _
theorem ckAdler (bytes : List Byte) (value : Word) : Statement (.ckAdler bytes value) := ofWellFormed _
theorem ckCrc32 (bytes : List Byte) (value : Word) : Statement (.ckCrc32 bytes value) := ofWellFormed _

end Sys2Proof.Laws.Encoded
end

