-- ==== Sys2Proof/Laws/Reader.lean ====
section
/-! SUPPORT. The laws of the block reader: its primitives, and what one state step can do to a sound reader. -/

namespace Sys2Proof.Machine

/-! ## What a part of a step meets -/

/-- The part does not fault, and what it answers meets `Q`. It may run out of input, raise, or be refused. -/
structure Runs {α : Type} (x : Txn α) (Q : α → Prop) : Prop where
  answer  : ∀ a, x = .ok a → Q a
  noFault : ∀ f, x ≠ .error (.fault f)

theorem Runs.ok {α : Type} {a : α} {Q : α → Prop} (h : Q a) : Runs (Except.ok a) Q :=
  ⟨fun b hb => (by cases hb; exact h), fun f hf => (by cases hf)⟩

theorem Runs.pure {α : Type} {a : α} {Q : α → Prop} (h : Q a) : Runs (Pure.pure a) Q := Runs.ok h

theorem Runs.bind {α β : Type} {x : Txn α} {f : α → Txn β} {R : α → Prop} {Q : β → Prop} (h : Runs x R)
    (hf : ∀ a, R a → Runs (f a) Q) : Runs (x >>= f) Q := by
  refine ⟨fun b hb => ?_, fun g hg => ?_⟩
  · obtain ⟨a, h1, h2⟩ := bind_eq_ok.mp hb
    exact (hf a (h.answer a h1)).answer b h2
  · rcases bind_eq_error.mp hg with h1 | ⟨a, h1, h2⟩
    · exact h.noFault g h1
    · exact (hf a (h.answer a h1)).noFault g h2

theorem Runs.mono {α : Type} {x : Txn α} {R Q : α → Prop} (h : Runs x R) (hq : ∀ a, R a → Q a) : Runs x Q :=
  ⟨fun a ha => hq a (h.answer a ha), h.noFault⟩

theorem Runs.check {c : Bool} {e : DecodeError} {Q : Unit → Prop} (h : c = false → Q ()) : Runs (raiseIf c e) Q := by
  cases c
  · exact Runs.ok (h rfl)
  · exact ⟨fun b hb => (by cases hb), fun f hf => (by cases hf)⟩

theorem Runs.needInput {α : Type} {Q : α → Prop} : Runs (Except.error .needInput) Q :=
  ⟨fun b hb => (by cases hb), fun f hf => (by cases hf)⟩

theorem Runs.error {α : Type} {e : DecodeError} {Q : α → Prop} : Runs (Except.error (.error e)) Q :=
  ⟨fun b hb => (by cases hb), fun f hf => (by cases hf)⟩

theorem Runs.refuse {α : Type} {r : Reason} {Q : α → Prop} : Runs (Except.error (.refuse r)) Q :=
  ⟨fun b hb => (by cases hb), fun f hf => (by cases hf)⟩

/-! ## Sound decompressors -/

/-- A change of the registers a step may set freely keeps the sound form, when it does not touch the error. -/
theorem Decompressor.Sound.advance {d : Decompressor} (h : d.Sound) {n : Nat} (hn : n ≤ d.valid) : { d with cur := n }.Sound :=
  ⟨h.total, h.drained, hn, h.histWf, h.hist, h.check, h.err⟩

/-- A byte emitted keeps the sound form (spec/45_block_reader.md R482). -/
theorem Decompressor.Sound.emit {d : Decompressor} (h : d.Sound) (b : Byte) : (d.emit b).Sound := by
  refine ⟨?_, ?_, h.cursor, ?_, ?_, ?_, h.err⟩
  · simp [h.total]
  · have := h.drained
    simp only [Decompressor.emit_drained, Decompressor.emit_out, List.length_append, List.length_singleton]
    omega
  · exact Memory.wf_write _ _ _ h.histWf
  · intro p hp hlow
    simp only [Decompressor.emit_out, Decompressor.emit_hist, List.length_append, List.length_singleton] at hp hlow ⊢
    rw [h.total]
    by_cases he : p = d.out.length
    · subst he
      simp
    · have hne : p % history ≠ d.out.length % history := by
        intro hmod
        have : (d.out.length - p) % history = 0 := Nat.sub_mod_eq_zero_of_mod_eq hmod.symm
        rw [Nat.mod_eq_of_lt (by omega)] at this
        omega
      rw [Memory.read_write_other _ hne, h.hist p (by omega) (by omega), List.getElem?_append_left (by omega)]
  · intro ho
    have := h.check ho
    simp only [Decompressor.emit_check, Decompressor.emit_format, Decompressor.emit_out]
    rw [this, checkOver_append]

/-- What a part of a step leaves of a decompressor: more output, an advanced cursor, and nothing else of this list. -/
structure Moves (d e : Decompressor) : Prop where
  sound     : e.Sound
  input     : e.input = d.input
  format    : e.format = d.format
  drained   : e.drained = d.drained
  disturbed : e.disturbed = d.disturbed
  err       : e.err = d.err
  cur       : d.cur ≤ e.cur
  out       : ∃ more, e.out = d.out ++ more

theorem Moves.refl {d : Decompressor} (h : d.Sound) : Moves d d :=
  ⟨h, rfl, rfl, rfl, rfl, rfl, Nat.le_refl _, [], by simp⟩

theorem Moves.trans {a b c : Decompressor} (x : Moves a b) (y : Moves b c) : Moves a c := by
  obtain ⟨m1, h1⟩ := x.out
  obtain ⟨m2, h2⟩ := y.out
  exact ⟨y.sound, y.input.trans x.input, y.format.trans x.format, y.drained.trans x.drained, y.disturbed.trans x.disturbed,
    y.err.trans x.err, Nat.le_trans x.cur y.cur, m1 ++ m2, by rw [h2, h1, List.append_assoc]⟩

theorem Moves.emit {d : Decompressor} (h : d.Sound) (b : Byte) : Moves d (d.emit b) :=
  ⟨h.emit b, rfl, rfl, rfl, rfl, rfl, Nat.le_refl _, [b], rfl⟩

theorem Moves.advance {d : Decompressor} (h : d.Sound) {n : Nat} (h1 : d.cur ≤ n) (h2 : n ≤ d.valid) :
    Moves d { d with cur := n } := ⟨h.advance h2, rfl, rfl, rfl, rfl, rfl, h1, [], by simp⟩

/-- The registers a step carries along while it reads. -/
structure SameRegs (d e : Decompressor) : Prop where
  state : e.state = d.state
  hlit : e.hlit = d.hlit
  hdist : e.hdist = d.hdist
  storedLeft : e.storedLeft = d.storedLeft
  final : e.final = d.final

theorem SameRegs.refl (d : Decompressor) : SameRegs d d := ⟨rfl, rfl, rfl, rfl, rfl⟩

theorem SameRegs.trans {a b c : Decompressor} (x : SameRegs a b) (y : SameRegs b c) : SameRegs a c :=
  ⟨y.state.trans x.state, y.hlit.trans x.hlit, y.hdist.trans x.hdist, y.storedLeft.trans x.storedLeft, y.final.trans x.final⟩

theorem SameRegs.emit (d : Decompressor) (b : Byte) : SameRegs d (d.emit b) := ⟨rfl, rfl, rfl, rfl, rfl⟩

/-! ## The registers' ranges (spec/10_state.md R52, R53) -/

theorem Memory.wf_shaped (size : Nat) (m : Memory) : (Memory.shaped size m).wf = true := by
  have h : ∀ (m acc : Memory), acc.wf = true → (m.foldl (fun acc c => acc.write (c.1 % size) c.2) acc).wf = true := by
    intro m
    induction m with
    | nil => exact fun _ h => h
    | cons c rest ih => exact fun acc h => ih _ (Memory.wf_write acc _ _ h)
  exact h m [] rfl

/-- What a shaped decompressor's registers hold: their ranges, whatever the registers shaped held. -/
theorem Decompressor.shaped_ranges (d : Decompressor) :
    (d.shaped.hlit = 0 ∨ 257 ≤ d.shaped.hlit ∧ d.shaped.hlit ≤ 286) ∧ d.shaped.hdist ≤ 30
      ∧ (d.shaped.hclen = 0 ∨ 4 ≤ d.shaped.hclen ∧ d.shaped.hclen ≤ 19)
      ∧ d.shaped.total = d.shaped.out.length ∧ d.shaped.drained ≤ d.shaped.out.length ∧ d.shaped.hist.wf = true := by
  refine ⟨?_, ?_, ?_, rfl, Nat.min_le_right _ _, Memory.wf_shaped _ _⟩ <;> dsimp only [Decompressor.shaped] <;> split <;> omega

/-- `D_STORED_LEFT` counts down without wrapping: no more bytes are taken than are left (spec/45_block_reader.md R520). -/
theorem storedLeft_sub {x : BitVec 16} {k : Nat} (h : k ≤ x.toNat) : (x - BitVec.ofNat 16 k).toNat = x.toNat - k := by
  have hx := x.isLt
  rw [BitVec.toNat_sub, BitVec.toNat_ofNat]
  omega

/-! ## The primitives -/

/-- Bits of a stream are a number below `2^n`. -/
theorem bitsAt_lt (bytes : List Byte) (off n : Nat) : bitsAt bytes off n < 2 ^ n := by
  induction n generalizing off with
  | zero => simp [bitsAt]
  | succ n ih =>
    have := ih (off + 1)
    have hb : (bitAt bytes off).toNat ≤ 1 := Bool.toNat_le _
    simp only [bitsAt, Nat.pow_succ]
    omega

/-- `Bits(n)` (spec/45_block_reader.md R480, R481). -/
theorem Decompressor.Sound.runs_bits {d : Decompressor} (h : d.Sound) (n : Nat) :
    Runs (d.bits n) (fun r => r.1 = bitsAt d.input d.cur n ∧ r.1 < 2 ^ n ∧ Moves d r.2 ∧ SameRegs d r.2 ∧ r.2.cur = d.cur + n
      ∧ r.2.out = d.out ∧ r.2.total = d.total) := by
  unfold Decompressor.bits
  split
  · exact Runs.needInput
  · exact Runs.ok ⟨rfl, bitsAt_lt _ _ _, Moves.advance h (by omega) (by omega), ⟨rfl, rfl, rfl, rfl, rfl⟩, rfl, rfl, rfl⟩

/-- `n` byte fields. -/
theorem Decompressor.Sound.runs_byteFields {d : Decompressor} (h : d.Sound) (n : Nat) :
    Runs (d.byteFields n) (fun r => r.1.length = n ∧ Moves d r.2 ∧ SameRegs d r.2 ∧ r.2.cur = d.cur + 8 * n) := by
  induction n generalizing d with
  | zero => exact Runs.ok ⟨rfl, Moves.refl h, SameRegs.refl d, rfl⟩
  | succ n ih =>
    unfold Decompressor.byteFields
    refine (h.runs_bits 8).bind fun ⟨x, e⟩ ⟨_, _, hm, hs, hc, _⟩ => ?_
    refine (ih hm.sound).bind fun ⟨xs, f⟩ ⟨hl, hm', hs', hc'⟩ => ?_
    refine Runs.pure ⟨by simpa using hl, hm.trans hm', hs.trans hs', ?_⟩
    dsimp only at *
    omega

/-- `Align()` (spec/45_block_reader.md R480). -/
theorem Decompressor.Sound.align {d : Decompressor} (h : d.Sound) :
    Moves d d.align ∧ SameRegs d d.align ∧ d.align.cur % 8 = 0 := by
  have hc := h.cursor
  have hv : d.valid = 8 * d.input.length := rfl
  refine ⟨Moves.advance h (by omega) (by omega), ⟨rfl, rfl, rfl, rfl, rfl⟩, ?_⟩
  simp only [Decompressor.align_cur]
  omega

theorem findCode_lt {l c s r : Nat} {lens codes : List Nat} (h : findCode l c s lens codes = some r) :
    s ≤ r ∧ lens[r - s]? = some l := by
  induction lens generalizing s codes with
  | nil => simp [findCode] at h
  | cons x rest ih =>
    cases codes with
    | nil => simp [findCode] at h
    | cons y ys =>
      simp only [findCode] at h
      split at h
      · rename_i hx
        simp only [Option.some.injEq] at h
        subst h
        simp [hx.1]
      · obtain ⟨h1, h2⟩ := ih h
        refine ⟨by omega, ?_⟩
        have : r - s = (r - (s + 1)) + 1 := by omega
        rw [this, List.getElem?_cons_succ]
        exact h2

/-- A symbol that a search finds has its length, within the lengths searched (spec/41_huffman.md R287). -/
theorem searchCode_spec {lens codes : List Nat} (k l c peek s n : Nat) (h : searchCode lens codes k l c peek = some (s, n)) :
    l ≤ n ∧ n < l + k ∧ lens[s]? = some n := by
  induction k generalizing l c peek with
  | zero => simp [searchCode] at h
  | succ k ih =>
    simp only [searchCode] at h
    split at h
    · rename_i x hx
      simp only [Option.some.injEq, Prod.mk.injEq] at h
      obtain ⟨rfl, rfl⟩ := h
      obtain ⟨h1, h2⟩ := findCode_lt hx
      exact ⟨Nat.le_refl _, by omega, by simpa using h2⟩
    · obtain ⟨h1, h2, h3⟩ := ih _ _ _ h
      exact ⟨by omega, by omega, h3⟩

/-- What a decoded symbol is (spec/41_huffman.md R284, R287). -/
theorem decodeSymbol_spec {t : DecTable} {avail peek s l : Nat} (h : decodeSymbol t avail peek = .symbol s l) :
    1 ≤ l ∧ l ≤ avail ∧ t.lens[s]? = some l := by
  unfold decodeSymbol at h
  split at h
  · simp at h
  · dsimp only at h
    split at h
    · rename_i x y hx
      simp only [Decoded.symbol.injEq] at h
      obtain ⟨rfl, rfl⟩ := h
      obtain ⟨h1, h2, h3⟩ := searchCode_spec _ _ _ _ _ _ hx
      exact ⟨h1, by omega, h3⟩
    · split at h <;> simp at h

/-- A sound table holds the length of every symbol. -/
theorem DecTable.Sound.holds {t : Table} {x : DecTable} (h : x.Sound t) : x.holds t = true := by
  simp [DecTable.holds, h.size]

/-- `Decode(t)` in a step (spec/45_block_reader.md R483). -/
theorem Decompressor.Sound.runs_decode {d : Decompressor} (h : d.Sound) {t : Table} {x : DecTable} (hx : x.Sound t) (e : DecodeError) :
    Runs (d.decode t x e) (fun r => (∃ l, x.lens[r.1]? = some l) ∧ Moves d r.2 ∧ SameRegs d r.2 ∧ d.cur < r.2.cur
      ∧ r.2.out = d.out ∧ r.2.total = d.total) := by
  unfold Decompressor.decode Decompressor.peekSymbol
  rw [hx.holds]
  simp only [Bool.not_true, Bool.false_eq_true, if_false]
  split
  · rename_i s l hsl
    obtain ⟨h1, h2, h3⟩ := decodeSymbol_spec hsl
    have := h.cursor
    exact Runs.ok ⟨⟨l, h3⟩, Moves.advance h (by omega) (by omega), ⟨rfl, rfl, rfl, rfl, rfl⟩, by simp only; omega, rfl, rfl⟩
  · exact Runs.needInput
  · exact Runs.error

/-- `Copy(run, dist)` within the output (spec/45_block_reader.md R512). -/
theorem Decompressor.Sound.runs_copyLoop {d : Decompressor} (h : d.Sound) (dist n : Nat) (h1 : 1 ≤ dist) (h2 : dist ≤ d.total) :
    Runs (Decompressor.copyLoop dist n d) (fun e => Moves d e ∧ SameRegs d e ∧ e.cur = d.cur) := by
  induction n generalizing d with
  | zero => exact Runs.ok ⟨Moves.refl h, SameRegs.refl d, rfl⟩
  | succ n ih =>
    have hlt : d.total - dist < d.out.length := by have := h.total; omega
    simp only [Decompressor.copyLoop, List.getElem?_eq_getElem hlt]
    refine (ih (h.emit _) (by simp; omega)).mono fun e ⟨hm, hs, hc⟩ => ?_
    exact ⟨(Moves.emit h _).trans hm, (SameRegs.emit d _).trans hs, hc⟩

/-- Stored bytes copied (spec/45_block_reader.md R520). -/
theorem Decompressor.Sound.runs_storedLoop {d : Decompressor} (h : d.Sound) (k : Nat) :
    Runs (storedLoop k d) (fun e => Moves d e ∧ SameRegs d e ∧ e.cur = d.cur + 8 * k) := by
  induction k generalizing d with
  | zero => exact Runs.ok ⟨Moves.refl h, SameRegs.refl d, rfl⟩
  | succ k ih =>
    unfold storedLoop
    refine (h.runs_bits 8).bind fun ⟨x, e⟩ ⟨_, _, hm, hs, hc, _⟩ => ?_
    refine (ih (hm.sound.emit (BitVec.ofNat 8 x))).mono fun f ⟨hm', hs', hc'⟩ => ?_
    refine ⟨(hm.trans (Moves.emit hm.sound _)).trans hm', (hs.trans (SameRegs.emit _ _)).trans hs', ?_⟩
    simp only [Decompressor.emit_cur] at hc'
    dsimp only at *
    omega

/-! ## The steps -/

/-- A reader with everything sound. -/
structure Reader.Whole (r : Reader) : Prop where
  d       : r.d.Sound
  ready   : r.Ready
  runLit  : r.dec.runLit.Sound .runLit
  dist    : r.dec.dist.Sound .dist
  metasym : r.dec.metasym.Sound .metasym

/-- What the states that take no bit of their own count for (see `Decompressor.turns`). -/
def DState.weight : DState → Nat
  | .streamStart | .blockUncompressed => 1
  | .closed | .blockStart | .blockTables | .blockCompressed | .streamChecksum | .streamEnd | .error => 0

/-- What a step that commits does to a reader. -/
structure Commits (r r' : Reader) : Prop where
  whole    : r'.Whole
  moves    : Moves r.d r'.d
  state    : r'.d.state ≠ .closed ∧ r'.d.state ≠ .error
  progress : r'.d.state = .streamEnd ∨ r.d.cur < r'.d.cur ∨ r'.d.state.weight < r.d.state.weight
  opened   : (r.dec.runLit.isOpen = true → r'.dec.runLit.isOpen = true) ∧ (r.dec.dist.isOpen = true → r'.dec.dist.isOpen = true)
    ∧ (r.dec.metasym.isOpen = true → r'.dec.metasym.isOpen = true)

/-- A sound decompressor in a state without an error keeps its sound form when the state goes to another such. -/
theorem Decompressor.Sound.setState {d : Decompressor} (h : d.Sound) (s : DState) (he : d.state ≠ .error) (hs : s ≠ .error)
    (hc : d.isOpen = true) : { d with state := s }.Sound := by
  refine ⟨h.total, h.drained, h.cursor, h.histWf, h.hist, fun _ => h.check hc, ?_⟩
  constructor
  · intro h'; exact absurd h' hs
  · intro h'; exact absurd (h.err.mpr h') he

theorem Moves.setState {d e : Decompressor} (h : Moves d e) (s : DState) (he : e.state ≠ .error) (hs : s ≠ .error)
    (hc : e.isOpen = true) : Moves d { e with state := s } :=
  ⟨h.sound.setState s he hs hc, h.input, h.format, h.drained, h.disturbed, h.err, h.cur, h.out⟩

/-- The end of a block (spec/45_block_reader.md R516). -/
theorem endOfBlock_state (d : Decompressor) :
    d.endOfBlock.state = .blockStart ∨ d.endOfBlock.state = .streamChecksum ∨ d.endOfBlock.state = .streamEnd := by
  simp only [Decompressor.endOfBlock_state]
  split
  · split <;> simp
  · simp

theorem Moves.endOfBlock {d e : Decompressor} (h : Moves d e) (he : e.state ≠ .error) (hc : e.isOpen = true) : Moves d e.endOfBlock := by
  refine h.setState _ he ?_ hc
  split
  · split <;> simp
  · simp

/-- The tables a reader keeps when it keeps its decode tables. -/
theorem Commits.keepTables {r : Reader} (h : r.Whole) {e : Decompressor} (hm : Moves r.d e)
    (hs : e.state ≠ .closed ∧ e.state ≠ .error) (hready : ({ r with d := e } : Reader).Ready)
    (hp : e.state = .streamEnd ∨ r.d.cur < e.cur ∨ e.state.weight < r.d.state.weight) : Commits r { r with d := e } :=
  ⟨⟨hm.sound, hready, h.runLit, h.dist, h.metasym⟩, hm, hs, hp, id, id, id⟩

/-- A reader in a state that relies on nothing is ready. -/
theorem Reader.ready_of_state {r : Reader} (h : r.d.state ≠ .blockTables ∧ r.d.state ≠ .blockCompressed ∧ r.d.state ≠ .blockUncompressed) :
    r.Ready := ⟨fun hs => absurd hs h.1, fun hs => absurd hs h.2.1, fun hs => absurd hs h.2.2⟩

theorem endOfBlock_ready (r : Reader) (d : Decompressor) : ({ r with d := d.endOfBlock } : Reader).Ready := by
  apply Reader.ready_of_state
  rcases endOfBlock_state d with h | h | h <;> dsimp only <;> rw [h] <;> simp

theorem endOfBlock_ne (d : Decompressor) : d.endOfBlock.state ≠ .closed ∧ d.endOfBlock.state ≠ .error := by
  rcases endOfBlock_state d with h | h | h <;> rw [h] <;> simp

/-- The `STREAM_START` step (spec/45_block_reader.md R490 to R492). -/
theorem runs_stepStreamStart {r : Reader} (h : r.Whole) (hs : r.d.state = .streamStart) : Runs (stepStreamStart r) (Commits r) := by
  have hopen : r.d.isOpen = true := by simp [Decompressor.isOpen, hs]
  have hfin : ∀ e, Moves r.d e → SameRegs r.d e → Moves r.d { e with state := .blockStart } := by
    intro e hm hr
    exact hm.setState _ (by rw [hr.state, hs]; simp) (by simp) (by simp [Decompressor.isOpen, hr.state, hs])
  have hcommit : ∀ e, Moves r.d e → SameRegs r.d e → Commits r { r with d := { e with state := .blockStart } } := by
    intro e hm hr
    refine Commits.keepTables h (hfin e hm hr) (by simp) (Reader.ready_of_state (by simp)) (.inr (.inr ?_))
    simp [DState.weight, hs]
  unfold stepStreamStart streamHeader
  refine Runs.bind (R := fun d => ∃ e, d = { e with state := .blockStart } ∧ Moves r.d e ∧ SameRegs r.d e) ?_ ?_
  · split
    · unfold zlibHeader
      refine (h.d.runs_bits 8).bind fun ⟨x, d1⟩ ⟨_, _, m1, s1, _⟩ => ?_
      refine (m1.sound.runs_bits 8).bind fun ⟨y, d2⟩ ⟨_, _, m2, s2, _⟩ => ?_
      refine (Runs.check (Q := fun _ => True) fun _ => trivial).bind fun _ _ => ?_
      refine (Runs.check (Q := fun _ => True) fun _ => trivial).bind fun _ _ => ?_
      refine (Runs.check (Q := fun _ => True) fun _ => trivial).bind fun _ _ => ?_
      refine (Runs.check (Q := fun _ => True) fun _ => trivial).bind fun _ _ => ?_
      exact Runs.pure ⟨d2, rfl, m1.trans m2, s1.trans s2⟩
    · unfold gzipHeader
      refine (h.d.runs_byteFields 10).bind fun ⟨x, d1⟩ ⟨_, m1, s1, _⟩ => ?_
      dsimp only
      refine (Runs.check (Q := fun _ => True) fun _ => trivial).bind fun _ _ => ?_
      refine (Runs.check (Q := fun _ => True) fun _ => trivial).bind fun _ _ => ?_
      refine (Runs.check (Q := fun _ => True) fun _ => trivial).bind fun _ _ => ?_
      split
      · exact Runs.refuse
      · exact Runs.pure ⟨d1, rfl, m1, s1⟩
    · exact Runs.pure ⟨r.d, rfl, Moves.refl h.d, SameRegs.refl _⟩
  · rintro d ⟨e, rfl, hm, hr⟩
    exact Runs.pure (hcommit e hm hr)

theorem fixedTables_sound :
    (DecTable.load fixedRunLit).Sound .runLit ∧ (DecTable.load fixedDist).Sound .dist
      ∧ (DecTable.load fixedRunLit).verdict.sound = true ∧ usableFor .dist (DecTable.load fixedDist).verdict = true := by
  refine ⟨DecTable.sound_load (by decide +kernel) (by decide +kernel), DecTable.sound_load (by decide) (by decide), by decide +kernel, by decide +kernel⟩

/-- The metasymbol lengths are 3-bit numbers. -/
theorem Decompressor.Sound.runs_readMetaLens {d : Decompressor} (h : d.Sound) (order : List Nat) :
    Runs (readMetaLens d order) (fun r => (∀ p ∈ r.1, p.2 ≤ 7) ∧ Moves d r.2 ∧ SameRegs d r.2) := by
  induction order generalizing d with
  | nil => exact Runs.ok ⟨by simp, Moves.refl h, SameRegs.refl d⟩
  | cons m rest ih =>
    unfold readMetaLens
    refine (h.runs_bits 3).bind fun ⟨x, e⟩ ⟨_, hx, hm, hs, _⟩ => ?_
    refine (ih hm.sound).bind fun ⟨xs, f⟩ ⟨hxs, hm', hs'⟩ => ?_
    refine Runs.pure ⟨?_, hm.trans hm', hs.trans hs'⟩
    intro p hp
    rcases List.mem_cons.mp hp with rfl | hp
    · dsimp only at *; omega
    · exact hxs p hp

/-- The `BLOCK_START` step (spec/45_block_reader.md R494 to R497). -/
theorem runs_stepBlockStart {r : Reader} (h : r.Whole) (hs : r.d.state = .blockStart) : Runs (stepBlockStart r) (Commits r) := by
  unfold stepBlockStart
  refine (h.d.runs_bits 1).bind fun ⟨fin, d1⟩ ⟨_, _, m1, s1, c1, _⟩ => ?_
  refine (m1.sound.runs_bits 2).bind fun ⟨bt, d2⟩ ⟨_, _, m2, s2, c2, _⟩ => ?_
  dsimp only at m1 s1 c1 m2 s2 c2 ⊢
  have m12 := m1.trans m2
  have hst : d2.state = .blockStart := by rw [s2.state, s1.state, hs]
  have hcur : r.d.cur < d2.cur := by omega
  have m3 : Moves r.d { d2 with final := fin == 1, btype := BitVec.ofNat 2 bt } :=
    ⟨⟨m12.sound.total, m12.sound.drained, m12.sound.cursor, m12.sound.histWf, m12.sound.hist, m12.sound.check, m12.sound.err⟩,
      m12.input, m12.format, m12.drained, m12.disturbed, m12.err, m12.cur, m12.out⟩
  generalize hd3 : ({ d2 with final := fin == 1, btype := BitVec.ofNat 2 bt } : Decompressor) = d3 at m3
  have hst3 : d3.state = .blockStart := by rw [← hd3]; exact hst
  have hcur3 : r.d.cur < d3.cur := by rw [← hd3]; exact hcur
  split
  · -- stored
    unfold storedHeader
    refine Runs.bind (R := fun e => ∃ e0, e = { e0 with storedLeft := e.storedLeft, state := .blockUncompressed } ∧ Moves r.d e0
      ∧ e0.state = .blockStart ∧ r.d.cur < e0.cur ∧ e0.cur % 8 = 0) ?_ ?_
    · obtain ⟨ma, sa, ca⟩ := m3.sound.align
      refine (ma.sound.runs_bits 16).bind fun ⟨x, e1⟩ ⟨_, _, m4, s4, c4, _⟩ => ?_
      refine (m4.sound.runs_bits 16).bind fun ⟨y, e2⟩ ⟨_, _, m5, s5, c5, _⟩ => ?_
      refine (Runs.check (Q := fun _ => True) fun _ => trivial).bind fun _ _ => ?_
      have mall := ((m3.trans ma).trans m4).trans m5
      have hle := ma.cur
      dsimp only at *
      refine Runs.pure ⟨e2, rfl, mall, by rw [s5.state, s4.state, sa.state, hst3], by omega, by omega⟩
    · rintro e ⟨e0, he, hm, hst0, hc0, h8⟩
      have hm2 : Moves r.d e := by
        rw [he]
        have := hm.setState .blockUncompressed (by rw [hst0]; simp) (by simp) (by simp [Decompressor.isOpen, hst0])
        exact ⟨⟨this.sound.total, this.sound.drained, this.sound.cursor, this.sound.histWf, this.sound.hist, this.sound.check, this.sound.err⟩,
          this.input, this.format, this.drained, this.disturbed, this.err, this.cur, this.out⟩
      have hse : e.state = .blockUncompressed := by rw [he]
      have hce : e.cur = e0.cur := by rw [he]
      refine Runs.pure (Commits.keepTables h hm2 (by rw [hse]; simp) ?_ (.inr (.inl (by omega))))
      refine ⟨fun hx => ?_, fun hx => ?_, fun _ => by dsimp only; omega⟩
      · exact absurd (hse.symm.trans hx) (by simp)
      · exact absurd (hse.symm.trans hx) (by simp)
  · -- fixed
    subst hd3
    obtain ⟨f1, f2, f3, f4⟩ := fixedTables_sound
    have hm := m3.setState .blockCompressed (by rw [hst3]; simp) (by simp) (by simp [Decompressor.isOpen, hst])
    refine Runs.pure ⟨⟨hm.sound, ⟨fun hx => ?_, fun _ => ⟨f3, f4⟩, fun hx => ?_⟩, f1, f2, h.metasym⟩, hm, by simp, .inr (.inl hcur3), ?_⟩
    · simp at hx
    · simp at hx
    · exact ⟨fun _ => rfl, fun _ => rfl, id⟩
  · -- dynamic
    unfold dynamicHeader
    refine (m3.sound.runs_bits 5).bind fun ⟨a, e1⟩ ⟨_, ha, m4, s4, c4, _⟩ => ?_
    refine (m4.sound.runs_bits 5).bind fun ⟨b, e2⟩ ⟨_, hb, m5, s5, c5, _⟩ => ?_
    refine (m5.sound.runs_bits 4).bind fun ⟨c, e3⟩ ⟨_, hc, m6, s6, c6, _⟩ => ?_
    dsimp only at ha hb hc m4 s4 c4 m5 s5 c5 m6 s6 c6 ⊢
    have mall := ((m3.trans m4).trans m5).trans m6
    have hst6 : e3.state = .blockStart := by rw [s6.state, s5.state, s4.state, hst3]
    refine Runs.bind (R := fun _ => a + 257 ≤ 286) (Runs.check fun hx => by simpa using hx) fun _ h286 => ?_
    refine Runs.bind (R := fun _ => b + 1 ≤ 30) (Runs.check fun hx => by simpa using hx) fun _ h30 => ?_
    have m7 : Moves r.d { e3 with hlit := a + 257, hdist := b + 1, hclen := c + 4 } :=
      ⟨⟨mall.sound.total, mall.sound.drained, mall.sound.cursor, mall.sound.histWf, mall.sound.hist, mall.sound.check, mall.sound.err⟩,
        mall.input, mall.format, mall.drained, mall.disturbed, mall.err, mall.cur, mall.out⟩
    refine (m7.sound.runs_readMetaLens _).bind fun ⟨sent, e4⟩ ⟨hsent, m8, s8⟩ => ?_
    dsimp only at hsent m8 s8 ⊢
    refine Runs.bind (R := fun _ => (DecTable.load ((List.range 19).map (fun m => depthOf sent m))).verdict.sound = true)
      (Runs.check fun hx => by simpa using hx) fun _ hsound => ?_
    have hm := (m7.trans m8).setState .blockTables (by rw [s8.state]; dsimp only; rw [hst6]; simp) (by simp)
      (by simp only [Decompressor.isOpen]; rw [s8.state]; dsimp only; rw [hst6]; rfl)
    have hcur8 : r.d.cur < e4.cur := by
      have := m8.cur
      dsimp only at this
      omega
    refine Runs.pure ⟨⟨hm.sound, ⟨fun _ => ?_, fun hx => ?_, fun hx => ?_⟩, h.runLit, h.dist, ?_⟩, hm, by simp, .inr (.inl hcur8), id, id, fun _ => rfl⟩
    · have e1 := s8.hlit
      have e2 := s8.hdist
      dsimp only at e1 e2 ⊢
      rw [e1, e2]
      exact ⟨by omega, by omega, by omega, by omega, hsound⟩
    · simp at hx
    · simp at hx
    · refine DecTable.sound_load (by simp [Table.size]) fun l hl => ?_
      obtain ⟨m, -, rfl⟩ := List.mem_map.mp hl
      exact Nat.le_trans (depthOf_le sent m 7 hsent) (by omega)
  · exact Runs.error

/-- One metasymbol of the code-length sequence (spec/45_block_reader.md R500). -/
theorem Decompressor.Sound.runs_readLens {d : Decompressor} (h : d.Sound) {t : DecTable} (ht : t.Sound .metasym) (seq : List Nat) (hseq : ∀ l ∈ seq, l ≤ 15) :
    Runs (readLens t seq d) (fun r => (∀ l ∈ r.1, l ≤ 15) ∧ 1 ≤ r.1.length ∧ Moves d r.2 ∧ SameRegs d r.2 ∧ d.cur < r.2.cur) := by
  unfold readLens
  refine (h.runs_decode ht .invalidCodelengthTable).bind fun ⟨m, e⟩ ⟨_, hm, hs, hc, _⟩ => ?_
  dsimp only at hm hs hc ⊢
  split
  · rename_i hle
    exact Runs.pure ⟨by simpa using hle, by simp, hm, hs, hc⟩
  · split
    · split
      · exact Runs.error
      · rename_i l hl
        refine (hm.sound.runs_bits 2).bind fun ⟨x, f⟩ ⟨_, _, hm', hs', hc', _⟩ => ?_
        dsimp only at hm' hs' hc' ⊢
        refine Runs.pure ⟨?_, by simp; omega, hm.trans hm', hs.trans hs', by dsimp only; omega⟩
        intro y hy
        rw [(List.mem_replicate.mp hy).2]
        exact hseq l (List.mem_of_getLast? hl)
    · split
      · refine (hm.sound.runs_bits 3).bind fun ⟨x, f⟩ ⟨_, _, hm', hs', hc', _⟩ => ?_
        dsimp only at hm' hs' hc' ⊢
        refine Runs.pure ⟨?_, by simp; omega, hm.trans hm', hs.trans hs', by dsimp only; omega⟩
        intro y hy
        rw [(List.mem_replicate.mp hy).2]
        omega
      · refine (hm.sound.runs_bits 7).bind fun ⟨x, f⟩ ⟨_, _, hm', hs', hc', _⟩ => ?_
        dsimp only at hm' hs' hc' ⊢
        refine Runs.pure ⟨?_, by simp; omega, hm.trans hm', hs.trans hs', by dsimp only; omega⟩
        intro y hy
        rw [(List.mem_replicate.mp hy).2]
        omega

/-- The loop of the `BLOCK_TABLES` step. -/
theorem Decompressor.Sound.runs_lensLoop {t : DecTable} (ht : t.Sound .metasym) (total fuel : Nat) {d : Decompressor} (h : d.Sound) (seq : List Nat)
    (hseq : ∀ l ∈ seq, l ≤ 15) (hf : total ≤ seq.length + fuel) :
    Runs (lensLoop t total fuel seq d) (fun r => (∀ l ∈ r.1, l ≤ 15) ∧ total ≤ r.1.length ∧ Moves d r.2 ∧ SameRegs d r.2
      ∧ (seq.length < total → d.cur < r.2.cur)) := by
  induction fuel generalizing d seq with
  | zero =>
    unfold lensLoop
    rw [if_pos (by omega)]
    exact Runs.ok ⟨hseq, by omega, Moves.refl h, SameRegs.refl d, fun hx => by omega⟩
  | succ fuel ih =>
    unfold lensLoop
    split
    · rename_i hle
      exact Runs.ok ⟨hseq, hle, Moves.refl h, SameRegs.refl d, fun hx => by omega⟩
    · dsimp only
      refine (h.runs_readLens ht seq hseq).bind fun ⟨more, e⟩ ⟨hmore, hlen, hm, hs, hc⟩ => ?_
      dsimp only at hmore hlen hm hs hc ⊢
      refine (Runs.check (Q := fun _ => True) fun _ => trivial).bind fun _ _ => ?_
      refine (ih hm.sound (seq ++ more) ?_ (by simp; omega)).mono fun r ⟨h1, h2, h3, h4, _⟩ => ?_
      · intro l hl
        rcases List.mem_append.mp hl with hl | hl
        · exact hseq l hl
        · exact hmore l hl
      · exact ⟨h1, h2, hm.trans h3, hs.trans h4, fun _ => by have := h3.cur; omega⟩

/-- The `BLOCK_TABLES` step (spec/45_block_reader.md R500). -/
theorem runs_stepBlockTables {r : Reader} (h : r.Whole) (hs : r.d.state = .blockTables) : Runs (stepBlockTables r) (Commits r) := by
  unfold stepBlockTables
  dsimp only
  obtain ⟨t1, t2, t3, t4, t5⟩ := h.ready.tables hs
  refine (Decompressor.Sound.runs_lensLoop h.metasym _ _ h.d [] (by simp) (by simp)).bind fun ⟨seq, d⟩ ⟨hseq, hlen, hm, hr, hc⟩ => ?_
  dsimp only at hseq hlen hm hr hc ⊢
  refine (Runs.check (Q := fun _ => True) fun _ => trivial).bind fun _ _ => ?_
  refine Runs.bind (R := fun _ => (verdictOf (padTo 288 (seq.take d.hlit))).sound = true) (Runs.check fun hx => by simpa using hx) fun _ hL => ?_
  refine Runs.bind (R := fun _ => usableFor .dist (verdictOf (padTo 32 (seq.drop d.hlit))) = true)
    (Runs.check fun hx => by simpa using hx) fun _ hD => ?_
  have hm2 := hm.setState .blockCompressed (by rw [hr.state, hs]; simp) (by simp) (by simp [Decompressor.isOpen, hr.state, hs])
  refine Runs.pure ⟨⟨hm2.sound, ⟨fun hx => ?_, fun _ => ⟨hL, hD⟩, fun hx => ?_⟩, ?_, ?_, h.metasym⟩, hm2, by simp, .inr (.inl ?_), ?_⟩
  · simp at hx
  · simp at hx
  · refine DecTable.sound_load (by simp [Table.size]) fun l hl => ?_
    rcases mem_padTo hl with hl | rfl
    · exact hseq l (List.mem_of_mem_take hl)
    · omega
  · refine DecTable.sound_load (by simp [Table.size]) fun l hl => ?_
    rcases mem_padTo hl with hl | rfl
    · exact hseq l (List.mem_of_mem_drop hl)
    · omega
  · exact hc (by simp; omega)
  · exact ⟨fun _ => rfl, fun _ => rfl, id⟩

/-- The `BLOCK_COMPRESSED` step (spec/45_block_reader.md R510). -/
theorem runs_stepCompressed {r : Reader} (h : r.Whole) (hs : r.d.state = .blockCompressed) : Runs (stepCompressed r) (Commits r) := by
  have hready := h.ready.compressed hs
  have hstay : ∀ e : Decompressor, e.state = .blockCompressed → ({ r with d := e } : Reader).Ready := fun e he =>
    ⟨fun hx => absurd (he.symm.trans hx) (by simp), fun _ => hready, fun hx => absurd (he.symm.trans hx) (by simp)⟩
  unfold stepCompressed
  refine (h.d.runs_decode h.runLit _).bind fun ⟨s, d⟩ ⟨_, hm, hr, hc, ho, ht⟩ => ?_
  dsimp only at hm hr hc ho ht ⊢
  have hst : d.state = .blockCompressed := hr.state.trans hs
  split
  · refine Runs.pure (Commits.keepTables h (hm.trans (Moves.emit hm.sound _)) ?_ (hstay _ hst) (.inr (.inl hc)))
    simp [hst]
  · split
    · refine Runs.pure (Commits.keepTables h (hm.endOfBlock (by rw [hst]; simp) (by simp [Decompressor.isOpen, hst])) (endOfBlock_ne d)
        (endOfBlock_ready r d) (.inr (.inl hc)))
    · split
      · exact Runs.error
      · rename_i run hrun
        refine Runs.bind (R := fun e => Moves d e ∧ SameRegs d e ∧ d.cur ≤ e.cur) ?_ ?_
        · unfold readMatch
          refine (hm.sound.runs_bits _).bind fun ⟨x, d1⟩ ⟨_, _, m1, s1, c1, o1, t1⟩ => ?_
          refine (m1.sound.runs_decode h.dist _).bind fun ⟨k, d2⟩ ⟨_, m2, s2, c2, o2, t2⟩ => ?_
          dsimp only at m1 s1 c1 o1 t1 m2 s2 c2 o2 t2 ⊢
          split
          · exact Runs.error
          · rename_i dd hdd
            refine (m2.sound.runs_bits _).bind fun ⟨y, d3⟩ ⟨_, _, m3, s3, c3, o3, t3⟩ => ?_
            dsimp only at m3 s3 c3 o3 t3 ⊢
            refine Runs.bind (R := fun _ => dd.base + y ≤ d3.total) (Runs.check fun hx => by simpa using hx) fun _ hb => ?_
            have hbase : 1 ≤ dd.base := by
              have hall : ∀ x ∈ distDecades, 1 ≤ x.base := by decide
              exact hall dd (List.mem_of_getElem? hdd)
            refine (m3.sound.runs_copyLoop (dd.base + y) (run.base + x) (by omega) hb).mono fun e ⟨m4, s4, c4⟩ => ?_
            exact ⟨((m1.trans m2).trans m3).trans m4, ((s1.trans s2).trans s3).trans s4, by omega⟩
        · intro e ⟨he, hre, hce⟩
          have hste : e.state = .blockCompressed := hre.state.trans hst
          refine Runs.pure (Commits.keepTables h (hm.trans he) (by rw [hste]; simp) (hstay e hste) (.inr (.inl (by omega))))

/-- The `BLOCK_UNCOMPRESSED` step (spec/45_block_reader.md R520). -/
theorem runs_stepUncompressed {r : Reader} (h : r.Whole) (hs : r.d.state = .blockUncompressed) :
    Runs (stepUncompressed r) (Commits r) := by
  have h8 := h.ready.stored hs
  unfold stepUncompressed
  split
  · refine Runs.pure (Commits.keepTables h ((Moves.refl h.d).endOfBlock (by rw [hs]; simp) (by simp [Decompressor.isOpen, hs]))
      (endOfBlock_ne _) (endOfBlock_ready r _) (.inr (.inr ?_)))
    rcases endOfBlock_state r.d with hx | hx | hx <;> rw [hx, hs] <;> simp [DState.weight]
  · dsimp only
    split
    · exact Runs.needInput
    · rename_i hk
      refine (h.d.runs_storedLoop _).bind fun d ⟨hm, hr, hc⟩ => ?_
      have hst : d.state = .blockUncompressed := hr.state.trans hs
      have hm2 : Moves r.d { d with storedLeft := d.storedLeft - BitVec.ofNat 16 (min r.d.storedLeft.toNat ((r.d.valid - r.d.cur) / 8)) } :=
        ⟨⟨hm.sound.total, hm.sound.drained, hm.sound.cursor, hm.sound.histWf, hm.sound.hist, hm.sound.check, hm.sound.err⟩,
          hm.input, hm.format, hm.drained, hm.disturbed, hm.err, hm.cur, hm.out⟩
      have hcur : r.d.cur < d.cur := by omega
      split
      · exact Runs.pure (Commits.keepTables h (hm2.endOfBlock (by dsimp only; rw [hst]; simp) (by simp [Decompressor.isOpen, hst]))
          (endOfBlock_ne _) (endOfBlock_ready r _) (.inr (.inl hcur)))
      · refine Runs.pure (Commits.keepTables h hm2 (by dsimp only; rw [hst]; simp) ?_ (.inr (.inl hcur)))
        refine ⟨fun hx => ?_, fun hx => ?_, fun _ => by dsimp only; omega⟩
        · exact absurd (hst.symm.trans hx) (by simp)
        · exact absurd (hst.symm.trans hx) (by simp)

/-- The `STREAM_CHECKSUM` step (spec/45_block_reader.md R525). -/
theorem runs_stepChecksum {r : Reader} (h : r.Whole) (hs : r.d.state = .streamChecksum) : Runs (stepChecksum r) (Commits r) := by
  obtain ⟨ma, sa, -⟩ := h.d.align
  unfold stepChecksum streamTrailer
  refine Runs.bind (R := fun d => Moves r.d d ∧ SameRegs r.d d) ?_ ?_
  · split
    · refine (ma.sound.runs_byteFields 4).bind fun ⟨a, d⟩ ⟨_, hm, hr, _⟩ => ?_
      refine (Runs.check (Q := fun _ => True) fun _ => trivial).bind fun _ _ => ?_
      exact Runs.pure ⟨ma.trans hm, sa.trans hr⟩
    · refine (ma.sound.runs_byteFields 8).bind fun ⟨a, d⟩ ⟨_, hm, hr, _⟩ => ?_
      refine (Runs.check (Q := fun _ => True) fun _ => trivial).bind fun _ _ => ?_
      refine (Runs.check (Q := fun _ => True) fun _ => trivial).bind fun _ _ => ?_
      exact Runs.pure ⟨ma.trans hm, sa.trans hr⟩
    · exact Runs.pure ⟨ma, sa⟩
  · intro d ⟨hm, hr⟩
    have hst : d.state = .streamChecksum := hr.state.trans hs
    refine Runs.pure (Commits.keepTables h (hm.setState .streamEnd (by rw [hst]; simp) (by simp) (by simp [Decompressor.isOpen, hst]))
      (by simp) (Reader.ready_of_state (by simp)) (.inl rfl))

/-! ## `BR.STEP` and its loop -/

/-- The error state entered (spec/60_exceptions.md R603). -/
theorem Reader.Whole.raise {r : Reader} (h : r.Whole) (e : DecodeError) (ho : r.d.isOpen = true) : ({ r with d := r.d.raise e } : Reader).Whole :=
  ⟨⟨h.d.total, h.d.drained, h.d.cursor, h.d.histWf, h.d.hist, fun _ => h.d.check ho, by simp⟩, Reader.ready_of_state (by simp),
    h.runLit, h.dist, h.metasym⟩

/-- What one turn of `BR.STEP` can answer, and the reader after it (spec/45_block_reader.md R486). -/
inductive StepOf (r : Reader) : StepAnswer → Prop where
  | commits (r' : Reader) : Commits r r' → StepOf r { reader := r', status := if r'.d.state = .streamEnd then .finished else .ok }
  | needInput : StepOf r { reader := r, status := .needInput }
  | raises (e : DecodeError) : r.d.state ≠ .error → StepOf r { reader := { r with d := r.d.raise e }, status := .error e }
  | latched (e : DecodeError) : r.d.state = .error → r.d.err = some e → StepOf r { reader := r, status := .error e }
  | ended : r.d.state = .streamEnd → StepOf r { reader := r, status := .finished }

/-- `BR.STEP` on a sound open reader. -/
theorem meets_brStep {r : Reader} (h : r.Whole) (ho : r.d.isOpen = true) : Meets (brStep r) (StepOf r) := by
  have hgo : ∀ x : Txn Reader, stateStep r = some x → r.d.state ≠ .error → Runs x (Commits r) → Meets (brStep r) (StepOf r) := by
    intro x hx hne hruns
    unfold brStep
    rw [hx]
    rcases x with (_ | e | q | f) | r'
    · exact Meets.ok .needInput
    · exact Meets.ok (.raises e hne)
    · exact Meets.refused
    · exact absurd rfl (hruns.noFault f)
    · exact Meets.ok (.commits r' (hruns.answer r' rfl))
  rcases hs : r.d.state with _ | _ | _ | _ | _ | _ | _ | _ | _
  · simp [Decompressor.isOpen, hs] at ho
  · exact hgo _ (by simp [stateStep, hs]) (by simp [hs]) (runs_stepStreamStart h hs)
  · exact hgo _ (by simp [stateStep, hs]) (by simp [hs]) (runs_stepBlockStart h hs)
  · exact hgo _ (by simp [stateStep, hs]) (by simp [hs]) (runs_stepBlockTables h hs)
  · exact hgo _ (by simp [stateStep, hs]) (by simp [hs]) (runs_stepCompressed h hs)
  · exact hgo _ (by simp [stateStep, hs]) (by simp [hs]) (runs_stepUncompressed h hs)
  · exact hgo _ (by simp [stateStep, hs]) (by simp [hs]) (runs_stepChecksum h hs)
  · unfold brStep
    simp only [stateStep, hs]
    exact Meets.ok (.ended hs)
  · obtain ⟨e, he⟩ := Option.isSome_iff_exists.mp (h.d.err.mp hs)
    unfold brStep
    simp only [stateStep, hs, he]
    exact Meets.ok (.latched e hs he)

/-- What a run of steps leaves: a sound reader, more output, an advanced cursor. -/
structure ReadOn (r r' : Reader) : Prop where
  whole     : r'.Whole
  isOpen    : r'.d.isOpen = true
  input     : r'.d.input = r.d.input
  format    : r'.d.format = r.d.format
  drained   : r'.d.drained = r.d.drained
  disturbed : r'.d.disturbed = r.d.disturbed
  cur       : r.d.cur ≤ r'.d.cur
  out       : ∃ more, r'.d.out = r.d.out ++ more
  opened    : (r.dec.runLit.isOpen = true → r'.dec.runLit.isOpen = true) ∧ (r.dec.dist.isOpen = true → r'.dec.dist.isOpen = true)
    ∧ (r.dec.metasym.isOpen = true → r'.dec.metasym.isOpen = true)

theorem ReadOn.refl {r : Reader} (h : r.Whole) (ho : r.d.isOpen = true) : ReadOn r r :=
  ⟨h, ho, rfl, rfl, rfl, rfl, Nat.le_refl _, ⟨[], by simp⟩, id, id, id⟩

theorem ReadOn.trans {a b c : Reader} (x : ReadOn a b) (y : ReadOn b c) : ReadOn a c := by
  obtain ⟨m1, h1⟩ := x.out
  obtain ⟨m2, h2⟩ := y.out
  exact ⟨y.whole, y.isOpen, y.input.trans x.input, y.format.trans x.format, y.drained.trans x.drained,
    y.disturbed.trans x.disturbed, Nat.le_trans x.cur y.cur, ⟨m1 ++ m2, by rw [h2, h1, List.append_assoc]⟩,
    fun h => y.opened.1 (x.opened.1 h), fun h => y.opened.2.1 (x.opened.2.1 h), fun h => y.opened.2.2 (x.opened.2.2 h)⟩

theorem Commits.readOn {r r' : Reader} (h : Commits r r') : ReadOn r r' :=
  ⟨h.whole, by simp [Decompressor.isOpen, h.state.1], h.moves.input, h.moves.format, h.moves.drained, h.moves.disturbed, h.moves.cur,
    h.moves.out, h.opened⟩

/-- Every answer of `BR.STEP` reads on. -/
theorem StepOf.readOn {r : Reader} {a : StepAnswer} (h : StepOf r a) (hw : r.Whole) (ho : r.d.isOpen = true) : ReadOn r a.reader := by
  cases h with
  | commits r' hc => exact hc.readOn
  | needInput => exact ReadOn.refl hw ho
  | raises e _ => exact ⟨hw.raise e ho, by simp [Decompressor.isOpen], rfl, rfl, rfl, rfl, Nat.le_refl _, ⟨[], by simp⟩, id, id, id⟩
  | latched e _ _ => exact ReadOn.refl hw ho
  | ended _ => exact ReadOn.refl hw ho

/-- The bits and the weight that are left to a reader. -/
def Reader.left (r : Reader) : Nat := 2 * (r.d.valid - r.d.cur) + r.d.state.weight

theorem DState.weight_le (s : DState) : s.weight ≤ 1 := by cases s <;> simp [DState.weight]

/-- A step that answers `OK` leaves less. -/
theorem Commits.less {r r' : Reader} (h : Commits r r') (hs : r'.d.state ≠ .streamEnd) : r'.left < r.left := by
  have hv : r'.d.valid = r.d.valid := by simp [Decompressor.valid, h.moves.input]
  have h1 := h.moves.cur
  have h2 := h.whole.d.cursor
  have h3 := DState.weight_le r'.d.state
  unfold Reader.left
  rw [hv] at h2 ⊢
  rcases h.progress with hp | hp | hp
  · exact absurd hp hs
  · omega
  · omega

/-- `readLoop` on a sound open reader: with turns for all that is left, it never runs out of them, and it ends with a status other than
`OK` (spec/46_stream_interface.md R551). -/
theorem meets_readLoop (fuel : Nat) {r : Reader} (h : r.Whole) (ho : r.d.isOpen = true) (hf : r.left < fuel) :
    Meets (readLoop fuel r) (fun a => ReadOn r a.reader ∧ a.status ≠ .ok
      ∧ (a.status = .needInput ∨ a.status = .finished ∨ ∃ e, a.status = .error e)) := by
  induction fuel generalizing r with
  | zero => omega
  | succ fuel ih =>
    unfold readLoop
    refine (meets_brStep h ho).bind fun a ha => ?_
    have hr := ha.readOn h ho
    split
    · rename_i hok
      have hless : a.reader.left < r.left := by
        cases ha with
        | commits r' hc =>
          dsimp only at hok ⊢
          split at hok
          · simp at hok
          · rename_i hne
            exact hc.less hne
        | needInput => simp at hok
        | raises e _ => simp at hok
        | latched e _ _ => simp at hok
        | ended _ => simp at hok
      refine (ih hr.whole hr.isOpen (by omega)).mono fun b ⟨h1, h2⟩ => ⟨hr.trans h1, h2⟩
    · rename_i hok
      refine Meets.pure ⟨hr, hok, ?_⟩
      cases ha with
      | commits r' hc =>
        dsimp only at hok ⊢
        split at hok
        · rename_i he; simp [he]
        · simp at hok
      | needInput => simp
      | raises e _ => simp
      | latched e _ _ => simp
      | ended _ => simp

/-- The turns of `D.PUSH` are enough. -/
theorem Reader.left_lt_turns (r : Reader) : r.left < r.d.turns := by
  have := DState.weight_le r.d.state
  unfold Reader.left Decompressor.turns
  omega

end Sys2Proof.Machine
end

