-- ==== Sys2Proof/Tests/Slice0.lean ====
section
/-! SUPPORT. The model's own tests: the checks of WellFormed, words of the spec decoded, one step of each command against the vectors
of spec/95_test_vectors.md, and for every statement with hypotheses a concrete state and operands that meet them. -/

namespace Sys2Proof.Tests

open Sys2Proof Sys2Proof.Machine

set_option Elab.async false

/-! ## Reading an outcome -/

/-- A part of the next state, if there is one. -/
def after {α : Type} (o : Host.Outcome State Fault Refusal) (f : State → α) : Option α :=
  match o with
  | .next t => some (f t)
  | .fault _ => none
  | .refused _ => none

/-- The result interface of the next state. -/
def results (o : Host.Outcome State Fault Refusal) : Option (Status × List Word × List Byte) :=
  after o (fun t => (t.status, t.res, t.dataOut))

/-- The model fault, if there is one. -/
def faultOf (o : Host.Outcome State Fault Refusal) : Option Fault :=
  match o with
  | .fault f => some f
  | .next _ => none
  | .refused _ => none

/-- The reason of a refusal, as the result word it is reported in. -/
def refusal (o : Host.Outcome State Fault Refusal) : Option (Status × List Word) := after o (fun t => (t.status, t.res))

theorem of_after {o : Host.Outcome State Fault Refusal} {p : State → Bool} (h : after o p = some true) :
    ∃ t, o = .next t ∧ p t = true := by
  cases o <;> simp_all [after]

/-- An accepted command, from what the evaluation says. -/
theorem accepts_of {i : Instr} {s : State} (h : after (exec i s) (fun t => t.status != .refused) = some true) :
    ∃ t, Accepts i s t := by
  obtain ⟨t, h1, h2⟩ := of_after h
  exact ⟨t, h1, by simpa using h2⟩

/-! ## WellFormed refuses what the format cannot carry -/

theorem test_wf_bcNew : (Instr.bcNew (List.replicate (2 ^ 24) 0)).wellFormed = false := by
  simp only [Instr.wellFormed, List.length_replicate, Nat.reducePow, Nat.lt_irrefl, decide_false]
theorem test_wf_bcRebase : (Instr.bcRebase (List.replicate (2 ^ 24) 0) 0).wellFormed = false := by
  simp only [Instr.wellFormed, List.length_replicate, Nat.reducePow, Nat.lt_irrefl, decide_false]
theorem test_wf_hfBuild : (Instr.hfBuild 15 (List.replicate 512 1)).wellFormed = false := by
  simp only [Instr.wellFormed, List.length_replicate, Nat.reducePow, Nat.lt_irrefl, decide_false]
theorem test_wf_hfLoad : (Instr.hfLoad 0 (List.replicate 512 1)).wellFormed = false := by
  simp only [Instr.wellFormed, List.length_replicate, Nat.reducePow, Nat.lt_irrefl, decide_false]
theorem test_wf_wnFeed : (Instr.wnFeed (List.replicate (2 ^ 24) 0)).wellFormed = false := by
  simp only [Instr.wellFormed, List.length_replicate, Nat.reducePow, Nat.lt_irrefl, decide_false]
theorem test_wf_bwStored : (Instr.bwStored true (List.replicate (2 ^ 23) 0)).wellFormed = false := by
  simp only [Instr.wellFormed, List.length_replicate, Nat.reducePow, Nat.lt_irrefl, decide_false]
theorem test_wf_cPush : (Instr.cPush true (List.replicate (2 ^ 23) 0)).wellFormed = false := by
  simp only [Instr.wellFormed, List.length_replicate, Nat.reducePow, Nat.lt_irrefl, decide_false]
theorem test_wf_dPush : (Instr.dPush (List.replicate (2 ^ 24) 0)).wellFormed = false := by
  simp only [Instr.wellFormed, List.length_replicate, Nat.reducePow, Nat.lt_irrefl, decide_false]
theorem test_wf_ckAdler : (Instr.ckAdler (List.replicate (2 ^ 24) 0) 1).wellFormed = false := by
  simp only [Instr.wellFormed, List.length_replicate, Nat.reducePow, Nat.lt_irrefl, decide_false]
theorem test_wf_ckCrc32 : (Instr.ckCrc32 (List.replicate (2 ^ 24) 0) 0).wellFormed = false := by
  simp only [Instr.wellFormed, List.length_replicate, Nat.reducePow, Nat.lt_irrefl, decide_false]

/-! ## Words of the spec decode to what they stand for (spec/30_encoding.md R141, R147; words of spec/95_test_vectors.md where it gives one) -/

theorem test_decode_bs :
    decode [0x10000000, 16] [] = .command (.bsInit 16) [] [] ∧ decode [0x11030005] [] = .command (.bsAppend 3 5) [] []
      ∧ decode [0x12000000] [] = .command .bsPad [] [] ∧ decode [0x13000000] [] = .command .bsPull [] []
      ∧ decode [0x14000000] [] = .command .bsPop [] [] := by decide
theorem test_decode_bc :
    decode [0x20000001] [0xA5] = .command (.bcNew [0xA5]) [] [] ∧ decode [0x21000001, 20] [0x01] = .command (.bcRebase [0x01] 20) [] []
      ∧ decode [0x22000005, 6] [] = .command (.bcRead 5 6) [] [] := by decide
theorem test_decode_hf :
    decode [0x30F00004, 1, 1, 2, 2] [] = .command (.hfBuild 15 [1, 1, 2, 2]) [] []
      ∧ decode [0x31020004] [2, 1, 3, 3] = .command (.hfLoad 2 [2, 1, 3, 3]) [] []
      ∧ decode [0x32020003] [] = .command (.hfEncode 2 3) [] [] ∧ decode [0x33020005, 1] [] = .command (.hfDecode 2 5 1) [] [] := by decide
theorem test_decode_wn :
    decode [0x40000008] [] = .command (.wnInit 8) [] [] ∧ decode [0x41000041] [] = .command (.wnUpdate 0x41) [] []
      ∧ decode [0x42000000, 12, 8, 258] [] = .command (.wnMatch 12 8 258) [] []
      ∧ decode [0x43000000, 11, 8, 258] [] = .command (.wnMatchd 11 8 258) [] []
      ∧ decode [0x44000002] [0x41, 0x42, 0x43] = .command (.wnFeed [0x41, 0x42]) [] [0x43] := by decide
theorem test_decode_tm :
    decode [0x50000000, 0x800C0004] [] = .command (.tmMap 0x800C0004) [] [] ∧ decode [0x51000000] [] = .command .tmStep [] []
      ∧ decode [0x52000010] [] = .command (.tmGraph 16) [] [] ∧ decode [0x53000000] [] = .command .tmMinimize [] []
      ∧ decode [0x54000000] [] = .command .tmGeneralize [] [] := by decide
theorem test_decode_bw :
    decode [0x60000001] [] = .command (.bwDynamic true) [] []
      ∧ decode [0x61800003] [0x41, 0x42, 0x43] = .command (.bwStored true [0x41, 0x42, 0x43]) [] []
      ∧ decode [0x61000001] [0x41] = .command (.bwStored false [0x41]) [] [] := by decide
theorem test_decode_br : decode [0x70000000] [] = .command .brStep [] [] := by decide
theorem test_decode_c :
    decode [0x804F0000, 64] [] = .command (.cNew 1 15 0 64) [] [] ∧ decode [0x80080700, 4] [] = .command (.cNew 0 8 7 4) [] []
      ∧ decode [0x81800003] [0x41, 0x42, 0x43] = .command (.cPush true [0x41, 0x42, 0x43]) [] []
      ∧ decode [0x82000000] [] = .command .cPop [] [] ∧ decode [0x83000000] [] = .command .cPull [] [] := by decide
theorem test_decode_d :
    decode [0x88400000] [] = .command (.dNew 1) [] []
      ∧ decode [0x89000003] [0x78, 0x01, 0x05] = .command (.dPush [0x78, 0x01, 0x05]) [] []
      ∧ decode [0x8A000000, 4] [] = .command (.dPulln 4) [] [] ∧ decode [0x8B000000] [] = .command .dPull [] [] := by decide
theorem test_decode_ck :
    decode [0x90000003, 1] [0x41, 0x42, 0x43] = .command (.ckAdler [0x41, 0x42, 0x43] 1) [] []
      ∧ decode [0x91000000, 0] [] = .command (.ckCrc32 [] 0) [] [] := by decide
/-- V-BS-11, V-EX-1 to V-EX-3, V-EX-10: reserved bits and unlisted opcodes. -/
theorem test_decode_bad :
    decode [0x12000001] [] = .bad .reservedBit [] ∧ decode [0x00000000] [] = .bad .illegalOpcode []
      ∧ decode [0xA0000000] [] = .bad .illegalOpcode [] ∧ decode [0x15000000] [] = .bad .illegalOpcode []
      ∧ decode [0x801F0000, 4] [] = .bad .reservedBit [4] := by decide
theorem test_decode_table_word :
    decodeTableWord 32 0x11030005 = some (.bsAppend 3 5) ∧ decodeTableWord 64 (0x10000000 + 16 * 2 ^ 32) = some (.bsInit 16)
      ∧ decodeTableWord 32 0x15000000 = none := by decide

/-! ## Small states -/

/-- Power-on with the given sink. -/
def withSink (k : Sink) : State := { State.reset with bs := k }

/-- Power-on with the given cursor. -/
def withCursor (k : Cursor) : State := { State.reset with bc := k }

/-- Power-on with table 2 loaded from the given lengths, as `HF.LOAD` loads it. -/
def withMeta (lens : List Nat) : State :=
  { State.reset with
    enc := { State.reset.enc with metasym := EncTable.load .metasym (padTo 19 lens) }
    dec := { State.reset.dec with metasym := DecTable.load (padTo 19 lens) } }

/-- Power-on with the fixed tables loaded. -/
def withFixed : State :=
  { State.reset with
    enc := { State.reset.enc with runLit := EncTable.load .runLit fixedRunLit, dist := EncTable.load .dist fixedDist }
    dec := State.reset.dec.fixed }

/-- The window after one more byte. -/
def updated (w : Window) (b : Byte) : Window :=
  match w.update referenceParams b with
  | .ok v => v
  | .error _ => w

/-- The bytes `ABCD` four times over. -/
def abcd : List Byte := [0x41, 0x42, 0x43, 0x44, 0x41, 0x42, 0x43, 0x44, 0x41, 0x42, 0x43, 0x44, 0x41, 0x42, 0x43, 0x44]

/-- The window of V-WN-2: `ABCD` four times fed, eight bytes inserted. -/
def window2 : Window := (abcd.take 8).foldl updated ((Window.init 8).feed abcd)

/-- Power-on with the given window. -/
def withWindow (w : Window) : State := { State.reset with wn := w }

/-- The core with a compressor stream of the given configuration and a decompressor stream of the given format. -/
def streams (f : Format) (exp : BitVec 4) (level : Byte) (hint : Word) (g : Format) : State :=
  (State.reset.openCompressor referenceParams (configFor referenceParams f exp level hint)).openDecompressor g

/-- The zlib streams of level 0. -/
def zlibStreams : State := streams .zlib 15 0 4 .zlib

/-- The raw streams of level 7 (full). -/
def rawStreams : State := streams .raw 15 7 4 .raw

/-- The core with input handed to the compressor and nothing of it parsed. -/
def fedState (s : State) (bytes : List Byte) : State := { s with c := s.c.take false bytes, wn := s.wn.feed bytes }

/-- The core with the last input handed to the compressor and nothing of it parsed. -/
def lastState (s : State) (bytes : List Byte) : State :=
  { s with c := { s.c.take true bytes with state := .finished }, wn := s.wn.feed bytes }

/-- The raw decompressor in a state, over an input, at a bit. -/
def reading (f : Format) (st : DState) (input : List Byte) (cur : Nat) : State :=
  { zlibStreams with d := { Decompressor.fresh f with state := st, input := input, cur := cur }, bc := Cursor.init input }

/-! ## One step of each command (spec/95_test_vectors.md) -/

/-- V-BS-10 and a hint that is taken. -/
theorem test_bsInit : refusal (exec (.bsInit 0) State.reset) = some (.refused, [2])
    ∧ after (exec (.bsInit 16) State.reset) (fun t => (t.status, t.bs)) = some (.ok, Sink.init 16) := by decide
/-- V-BS-1, V-BS-5, V-BS-9. -/
theorem test_bsAppend :
    after (exec (.bsAppend 5 0x13) (withSink { Sink.init 16 with acc := 5, nacc := 3 })) (fun t => (t.bs.done, t.bs.nacc)) = some ([0x9D], 0)
      ∧ after (exec (.bsAppend 16 0xABCD) (withSink (Sink.init 16))) (fun t => t.bs.done) = some [0xCD, 0xAB]
      ∧ refusal (exec (.bsAppend 17 0) (withSink (Sink.init 16))) = some (.refused, [2]) := by decide
/-- V-BS-4's chunk and V-BS-7. -/
theorem test_bsAppend_chunk :
    after (exec (.bsAppend 16 0xBEEF) (withSink (Sink.init 2))) (fun t => (t.bs.queue, t.bs.done)) = some ([[0xEF, 0xBE]], [])
      ∧ after (exec (.bsAppend 3 0xFFFD) (withSink (Sink.init 16))) (fun t => (t.bs.acc, t.bs.nacc)) = some (5, 3) := by decide
/-- V-BS-2 and V-BS-8. -/
theorem test_bsPad :
    after (exec .bsPad (withSink { Sink.init 16 with acc := 5, nacc := 3 })) (fun t => (t.bs.done, t.bs.nacc)) = some ([0x05], 0)
      ∧ after (exec .bsPad (withSink (Sink.init 16))) (fun t => t.bs) = some (Sink.init 16) := by decide
/-- V-BS-3. -/
theorem test_bsPull :
    results (exec .bsPull (withSink { Sink.init 16 with acc := 5, nacc := 3 })) = some (.ok, [1], [0x05])
      ∧ after (exec .bsPull (withSink { Sink.init 16 with acc := 5, nacc := 3 })) (fun t => t.bs) = some (Sink.init 16) := by decide
/-- V-BS-4. -/
theorem test_bsPop :
    results (exec .bsPop (withSink { Sink.init 2 with queue := [[0xEF, 0xBE]], done := [0x01] })) = some (.ok, [2], [0xEF, 0xBE])
      ∧ results (exec .bsPop (withSink { Sink.init 2 with done := [0x01] })) = some (.noResult, [], []) := by decide
/-- V-BC-1. -/
theorem test_bcNew :
    after (exec (.bcNew [0xA5]) State.reset) (fun t => (t.status, t.bc)) =
      some (.ok, { isOpen := true, buf := [0xA5, 0, 0, 0, 0, 0, 0], count := 8, ptr := 0 }) := by decide
/-- V-BC-10 and V-BC-13. -/
theorem test_bcRebase :
    after (exec (.bcRebase [0x01] 20) (withCursor (Cursor.init [0xB0, 0xB1, 0xB2, 0xB3]))) (fun t => (t.bc.count, t.bc.ptr, t.res)) =
        some (24, 4, [4])
      ∧ refusal (exec (.bcRebase [] 9) (withCursor (Cursor.init [0xA5]))) = some (.refused, [2]) := by decide
/-- V-BC-11: the unit before the pointer goes, the last byte stays whole. -/
theorem test_bcRebase_keeps :
    after (exec (.bcRebase [] 20) (withCursor (Cursor.init [0xA5, 0x0F, 0x33]))) (fun t => (t.bc.count, t.bc.ptr, t.bc.buf)) =
      some (8, 4, [0x33, 0, 0, 0, 0, 0, 0]) := by decide
/-- V-BC-3, V-BC-4, V-BC-5, V-BC-6. -/
theorem test_bcRead :
    results (exec (.bcRead 5 6) (withCursor (Cursor.init [0xA5, 0x0F]))) = some (.ok, [30], [])
      ∧ results (exec (.bcRead 8 4) (withCursor (Cursor.init [0xA5, 0x0F]))) = some (.ok, [0xFA], [])
      ∧ results (exec (.bcRead 16 12) (withCursor (Cursor.init [0xA5, 0x0F]))) = some (.ok, [0], [])
      ∧ results (exec (.bcRead 16 48) (withCursor (Cursor.init [0xA5, 0x0F]))) = some (.ok, [0], []) := by decide
/-- A read of a valid bit whose byte was never written, and a decode by a table without its lengths, stop (R608). -/
theorem test_unwritten :
    faultOf (exec (.bcRead 1 0) (withCursor { isOpen := true, buf := [], count := 8, ptr := 0 })) = some (.unwrittenUnit .bcbuf)
      ∧ faultOf (exec (.hfDecode 2 1 0) { State.reset with dec := { State.reset.dec with metasym := DecTable.load [1] } }) =
        some (.unwrittenUnit .dec) := by decide +kernel
/-- The host takes two of three bytes (R110). -/
theorem test_takeDataOut : ({ State.reset with dataOut := [1, 2, 3] } : State).takeDataOut 2 = ([1, 2], { State.reset with dataOut := [3] }) := by
  decide +kernel
/-- V-BC-7, V-BC-9, V-BC-12. -/
theorem test_bcRead_refused :
    refusal (exec (.bcRead 16 49) (withCursor (Cursor.init [0xA5, 0x0F]))) = some (.refused, [4])
      ∧ refusal (exec (.bcRead 17 0) (withCursor (Cursor.init [0xA5, 0x0F]))) = some (.refused, [2])
      ∧ refusal (exec (.bcRead 1 3) (withCursor { Cursor.init [0xB2, 0xB3, 0x01] with ptr := 4 })) = some (.refused, [3]) := by decide
/-- V-HF-1 and V-HF-3. -/
theorem test_hfBuild :
    results (exec (.hfBuild 15 [1, 1, 2, 4, 8, 16]) State.reset) = some (.ok, [5], [5, 5, 4, 3, 2, 1])
      ∧ results (exec (.hfBuild 3 [1, 1, 2, 4, 8, 16]) State.reset) = some (.ok, [3], [3, 3, 3, 3, 2, 2]) := by decide +kernel
/-- V-HF-4, V-HF-5, V-HF-9, V-HF-10. -/
theorem test_hfBuild_corners :
    results (exec (.hfBuild 15 [0, 0, 0]) State.reset) = some (.ok, [1], [1, 0, 0])
      ∧ results (exec (.hfBuild 15 [0, 7, 0]) State.reset) = some (.ok, [1], [0, 1, 0])
      ∧ refusal (exec (.hfBuild 1 [1, 1, 1]) State.reset) = some (.refused, [2])
      ∧ refusal (exec (.hfBuild 15 []) State.reset) = some (.refused, [2]) := by decide +kernel
/-- V-HF-11. -/
theorem test_hfLoad :
    after (exec (.hfLoad 2 [2, 1, 3, 3]) State.reset) (fun t => (t.res, (t.enc.metasym.entries.take 4).map EncEntry.code)) =
      some ([0], [2, 0, 6, 7]) := by decide +kernel
/-- V-HF-12 to V-HF-15, V-HF-17, V-HF-18. -/
theorem test_hfLoad_verdicts :
    after (exec (.hfLoad 2 [1, 1, 1]) State.reset) State.res = some [4] ∧ after (exec (.hfLoad 2 [2, 2, 2]) State.reset) State.res = some [3]
      ∧ after (exec (.hfLoad 1 [0, 1]) State.reset) State.res = some [1] ∧ after (exec (.hfLoad 1 [0, 0]) State.reset) State.res = some [2]
      ∧ refusal (exec (.hfLoad 2 [16]) State.reset) = some (.refused, [2]) ∧ refusal (exec (.hfLoad 3 [1]) State.reset) = some (.refused, [2]) := by
  decide +kernel
/-- V-HF-19, V-HF-24, V-HF-26. -/
theorem test_hfEncode :
    results (exec (.hfEncode 0 0) withFixed) = some (.ok, [0x0008000C, 0x30], [])
      ∧ results (exec (.hfEncode 0 265) withFixed) = some (.ok, [0x01070048, 0x09], [])
      ∧ results (exec (.hfEncode 0 280) withFixed) = some (.ok, [0x04080003, 0xC0], []) := by decide +kernel
/-- A symbol without a code, and the unusable table of V-HF-13. -/
theorem test_hfEncode_none :
    results (exec (.hfEncode 2 4) (withMeta [2, 1, 3, 3])) = some (.noResult, [], [])
      ∧ refusal (exec (.hfEncode 2 0) (withMeta [2, 2, 2])) = some (.refused, [5]) := by decide +kernel
/-- V-HF-33 to V-HF-35, V-HF-40. -/
theorem test_hfDecode :
    results (exec (.hfDecode 2 8 0x0F) (withMeta [2, 1, 3, 3])) = some (.ok, [3 + 3 * 2 ^ 16], [])
      ∧ results (exec (.hfDecode 2 5 0x01) (withMeta [2, 1, 3, 3])) = some (.ok, [2 * 2 ^ 16], [])
      ∧ results (exec (.hfDecode 2 2 0x03) (withMeta [2, 1, 3, 3])) = some (.needInput, [], [])
      ∧ refusal (exec (.hfDecode 2 8 0) (withMeta [1, 1, 1])) = some (.refused, [5]) := by decide +kernel
/-- V-HF-29, V-HF-32. -/
theorem test_hfDecode_fixed :
    results (exec (.hfDecode 0 7 0) withFixed) = some (.ok, [256 + 7 * 2 ^ 16], [])
      ∧ results (exec (.hfDecode 0 8 0xFF) withFixed) = some (.needInput, [], []) := by decide +kernel
/-- V-WN-7 and the window of V-WN-1. -/
theorem test_wnInit : refusal (exec (.wnInit 7) State.reset) = some (.refused, [2])
    ∧ after (exec (.wnInit 8) State.reset) (fun t => (t.status, t.wn)) = some (.ok, Window.init 8) := by decide
/-- V-WN-5's update. -/
theorem test_wnUpdate : results (exec (.wnUpdate 0x41) (withWindow window2)) = some (.ok, [5, 1, 5], []) := by decide +kernel
/-- V-WN-1's first byte, V-WN-2e. -/
theorem test_wnUpdate_corners :
    results (exec (.wnUpdate 0x41) (withWindow (Window.init 8))) = some (.noResult, [], [])
      ∧ refusal (exec (.wnUpdate 0x42) (withWindow window2)) = some (.refused, [2]) := by decide +kernel
/-- V-WN-2, V-WN-2a, V-WN-2b. -/
theorem test_wnMatch :
    results (exec (.wnMatch 12 8 258) (withWindow window2)) = some (.ok, [12, 4], [])
      ∧ results (exec (.wnMatch 12 8 5) (withWindow window2)) = some (.ok, [12, 4], [])
      ∧ results (exec (.wnMatch 4 8 258) (withWindow window2)) = some (.noResult, [], []) := by decide +kernel
/-- V-WN-2c, V-WN-2d, V-WN-6. -/
theorem test_wnMatch_corners :
    results (exec (.wnMatch 12 0 258) (withWindow window2)) = some (.noResult, [], [])
      ∧ refusal (exec (.wnMatch 13 8 258) (withWindow window2)) = some (.refused, [2])
      ∧ results (exec (.wnMatch 0 1 1) (withWindow (Window.init 8))) = some (.noResult, [], []) := by decide +kernel
/-- V-WN-5: decade 3 holds run 11 at distance 4, every other word is 0. -/
theorem test_wnMatchd :
    results (exec (.wnMatchd 11 8 258) (withWindow (updated window2 0x41))) =
      some (.ok, [0, 0, 0, 11 + 4 * 2 ^ 16] ++ List.replicate 26 0, []) := by decide +kernel
/-- The window of V-WN-4: `ABCDEABCDFABCDE` with 14 bytes inserted; the chain of position 10 is 5, then 0. -/
def window4 : Window :=
  [0x41, 0x42, 0x43, 0x44, 0x45, 0x41, 0x42, 0x43, 0x44, 0x46, 0x41, 0x42, 0x43, 0x44].foldl updated
    ((Window.init 8).feed [0x41, 0x42, 0x43, 0x44, 0x45, 0x41, 0x42, 0x43, 0x44, 0x46, 0x41, 0x42, 0x43, 0x44, 0x45])
/-- V-WN-4, both candidates; R327: with one attempt, or with the goal reached at once, only the first; the second is the longer one
when the lookahead reaches the `E`. -/
theorem test_wnMatchd_walk :
    results (exec (.wnMatchd 4 8 258) (withWindow window4)) =
        some (.ok, [0, 0, 0, 0, 4 + 5 * 2 ^ 16, 0, 4 + 10 * 2 ^ 16] ++ List.replicate 23 0, [])
      ∧ results (exec (.wnMatchd 4 1 258) (withWindow window4)) = some (.ok, [0, 0, 0, 0, 4 + 5 * 2 ^ 16] ++ List.replicate 25 0, [])
      ∧ results (exec (.wnMatchd 4 8 4) (withWindow window4)) = some (.ok, [0, 0, 0, 0, 4 + 5 * 2 ^ 16] ++ List.replicate 25 0, [])
      ∧ results (exec (.wnMatch 5 8 258) (withWindow window4)) = some (.ok, [5, 10], []) := by decide +kernel
theorem test_wnFeed :
    after (exec (.wnFeed [0x41, 0x42]) (withWindow (Window.init 8))) (fun t => (t.status, t.wn.input, t.wn.inserted)) = some (.ok, [0x41, 0x42], 0) := by
  decide
/-- V-TM-M4, V-TM-M5, V-TM-M6. -/
theorem test_tmMap :
    results (exec (.tmMap 0x800B0005) State.reset) = some (.ok, [265, 1, 4, 1], [])
      ∧ results (exec (.tmMap 0x81016001) State.reset) = some (.ok, [284, 5 + 30 * 2 ^ 8, 29, 13], [])
      ∧ results (exec (.tmMap 0x81028000) State.reset) = some (.ok, [285, 0, 29, 13 + 8191 * 2 ^ 8], []) := by decide +kernel
/-- V-TM-M8, V-TM-M10. -/
theorem test_tmMap_refused :
    refusal (exec (.tmMap 0x80020001) State.reset) = some (.refused, [2])
      ∧ refusal (exec (.tmMap 0x00000141) State.reset) = some (.refused, [2]) := by decide +kernel
/-- V-TM-1: a literal first; 16 bytes without the last flag are not enough lookahead. -/
theorem test_tmStep :
    results (exec .tmStep (lastState zlibStreams abcd)) = some (.ok, [1, 0x41], [])
      ∧ results (exec .tmStep (fedState zlibStreams abcd)) = some (.needInput, [], []) := by decide +kernel
/-- V-TM-6. -/
theorem test_tmStep_full : refusal (exec .tmStep (fedState rawStreams abcd)) = some (.refused, [2]) := by decide +kernel
/-- V-TM-3: the edges of vertex 8. -/
theorem test_tmGraph :
    after (exec (.tmGraph 16) (fedState rawStreams abcd)) (fun t => (t.mg.vertices[8]?).map (fun v => (v.edges[3]?, v.edges[5]?))) =
      some (some (some (some { run := 8, dist := 4 }), some (some { run := 8, dist := 8 }))) := by decide +kernel
/-- V-TM-6. -/
theorem test_tmGraph_zero : refusal (exec (.tmGraph 0) (fedState rawStreams abcd)) = some (.refused, [2])
    ∧ refusal (exec (.tmGraph 1) State.reset) = some (.refused, [6]) ∧ refusal (exec (.tmGraph 0) State.reset) = some (.refused, [6]) := by
  decide +kernel
/-- A graph of one vertex: its literal, at the depth of the default table (spec/43_term_strategies.md R394, R396). -/
def oneVertex : State :=
  { rawStreams with mg := { n := 1, vertices := [{ lit := 0x41, edges := noEdges }], cost := costStart 1, back := backStart 1 } }
theorem test_tmMinimize :
    after (exec .tmMinimize oneVertex) (fun t => (t.res, t.tv)) = some ([1, 128], [.lit 0x41])
      ∧ refusal (exec .tmMinimize rawStreams) = some (.refused, [6]) := by decide +kernel
/-- V-TM-5: an entry of 48 or 49 with default 128 becomes 88. -/
theorem test_tmGeneralize :
    after (exec .tmGeneralize { rawStreams with dt := { referenceDepth with lit := (referenceDepth.lit.set 0x41 48).set 0x42 49 } })
      (fun t => (t.dt.lit.getD 0x41 0, t.dt.lit.getD 0x42 0, t.dt.lit.getD 0x43 0)) = some (88, 88, 128) := by decide +kernel
/-- V-BW-5: the block of no terms, 11 whole bytes and 2 bits of the twelfth. -/
theorem test_bwDynamic :
    after (exec (.bwDynamic true) { zlibStreams with bs := Sink.init 64 }) (fun t => (t.bs.done, t.bs.nacc)) =
      some ([0x05, 0xC0, 0x81, 0x00, 0x00, 0x00, 0x00, 0x00, 0x90, 0xFF, 0x6B], 2) := by decide +kernel
/-- V-BW-3, V-BW-8. -/
theorem test_bwStored :
    after (exec (.bwStored true [0x41, 0x42, 0x43]) (withSink (Sink.init 16))) (fun t => t.bs.done) = some [0x01, 3, 0, 0xFC, 0xFF, 0x41, 0x42, 0x43]
      ∧ after (exec (.bwStored false [0x41]) (withSink (Sink.init 16))) (fun t => t.bs.done) = some [0, 1, 0, 0xFE, 0xFF, 0x41] := by decide +kernel
/-- V-BW-9; with no sink the first check of R448 fails. -/
theorem test_bwStored_long : refusal (exec (.bwStored true (List.replicate 65536 0)) (withSink (Sink.init 16))) = some (.refused, [2])
    ∧ refusal (exec (.bwStored true (List.replicate 65536 0)) State.reset) = some (.refused, [6]) := by
  have h : (decide (65535 < (List.replicate 65536 (0 : Byte)).length)) = true := by rw [List.length_replicate]; decide
  simp only [exec, execBwStored, h]
  exact ⟨rfl, rfl⟩
/-- V-BR-4 (block type 3), V-BR-3 (a stored length whose complement is wrong). -/
theorem test_brStep_errors :
    after (exec .brStep (reading .raw .blockStart [0x07] 0)) (fun t => (t.status, t.d.state, t.d.cur)) = some (.error .invalidBlockType, .error, 0)
      ∧ after (exec .brStep (reading .raw .blockStart [1, 3, 0, 0xFD, 0xFF, 0x41, 0x42, 0x43] 0)) (fun t => (t.status, t.res)) =
        some (.error .invalidStoredLength, [8]) := by decide +kernel
/-- V-BR-17: of three stored bytes one is there; V-HDR-10: the header of a 256-byte window. -/
theorem test_brStep :
    after (exec .brStep { reading .raw .blockUncompressed [1, 3, 0, 0xFC, 0xFF, 0x41] 40 with
        d := { (reading .raw .blockUncompressed [1, 3, 0, 0xFC, 0xFF, 0x41] 40).d with storedLeft := 3#16, final := true } })
      (fun t => (t.status, t.d.out, t.d.cur, t.d.storedLeft)) = some (.ok, [0x41], 48, 2)
      ∧ after (exec .brStep (reading .zlib .streamStart [0x08, 0x1D] 0)) (fun t => (t.status, t.res, t.d.cur)) = some (.ok, [2], 16) := by
  decide +kernel
/-- A stored block of the greatest length: `D_STORED_LEFT` holds 65535 (R52, R494, R495). -/
theorem test_brStep_storedLongest :
    after (exec .brStep (reading .raw .blockStart [1, 0xFF, 0xFF, 0, 0] 0)) (fun t => (t.status, t.res, t.d.storedLeft.toNat, t.d.cur)) =
      some (.ok, [5], 65535, 40) := by decide +kernel
/-- P1 line 1; V-EX-11: a raw stream has exponent 15. -/
theorem test_cNew :
    after (exec (.cNew 0 15 0 4) State.reset) (fun t => (t.status, t.bs.done, t.c.state)) = some (.ok, [0x78, 0x01], .opened)
      ∧ after (exec (.cNew 2 9 0 4) State.reset) (fun t => (t.c.cfg.exp, t.wn.exp)) = some (15, 15) := by decide +kernel
/-- V-EX-7 to V-EX-9. -/
theorem test_cNew_refused :
    refusal (exec (.cNew 3 15 0 4) State.reset) = some (.refused, [2]) ∧ refusal (exec (.cNew 0 7 0 4) State.reset) = some (.refused, [2])
      ∧ refusal (exec (.cNew 0 15 0 0) State.reset) = some (.refused, [2]) := by decide +kernel
/-- V-ST-4: the one-byte stream; the chunks of 4 bytes and the rest. -/
theorem test_cPush :
    after (exec (.cPush true [0x41]) zlibStreams) (fun t => (t.status, t.bs.queue, t.bs.done)) =
      some (.ok, [[0x78, 0x01, 0x01, 0x01], [0x00, 0xFE, 0xFF, 0x41], [0x00, 0x42, 0x00, 0x42]], []) := by decide +kernel
/-- V-EX-4, P1 line 2. -/
theorem test_cPush_corners :
    refusal (exec (.cPush true []) State.reset) = some (.refused, [6])
      ∧ after (exec (.cPush false [0x41, 0x42, 0x43]) zlibStreams) (fun t => (t.status, t.res, t.c.parsed)) = some (.ok, [0], 0) := by decide +kernel
/-- P1 line 3. -/
theorem test_cPop : results (exec .cPop zlibStreams) = some (.noResult, [], []) := by decide +kernel
/-- P1 line 4. -/
theorem test_cPull : results (exec .cPull zlibStreams) = some (.ok, [2], [0x78, 0x01]) := by decide +kernel
/-- P2 line 1; `D.NEW 3`. -/
theorem test_dNew : after (exec (.dNew 0) State.reset) (fun t => (t.status, t.d.state, t.d.check)) = some (.ok, .streamStart, 1)
    ∧ refusal (exec (.dNew 3) State.reset) = some (.refused, [2]) := by decide +kernel
/-- V-HDR-8: an empty zlib stream; V-HDR-9: its trailer wrong. -/
theorem test_dPush :
    after (exec (.dPush [0x78, 0x01, 0x01, 0, 0, 0xFF, 0xFF, 0, 0, 0, 1]) zlibStreams) (fun t => (t.status, t.res, t.d.cur)) = some (.finished, [0], 88)
      ∧ after (exec (.dPush [0x78, 0x01, 0x01, 0, 0, 0xFF, 0xFF, 0, 0, 0, 2]) zlibStreams) (fun t => (t.status, t.d.cur)) =
        some (.error .checksumMismatch, 56) := by decide +kernel
/-- V-BR-8: a fixed block with a match that overlaps itself. -/
theorem test_dPush_fixed :
    after (exec (.dPush [0x73, 0x04, 0x02, 0x00]) rawStreams) (fun t => (t.status, t.d.out, t.d.cur)) =
      some (.finished, [0x41, 0x41, 0x41, 0x41], 30) := by decide +kernel
/-- P2 lines 4 and 5. -/
theorem test_dPulln :
    results (exec (.dPulln 4) { zlibStreams with d := { zlibStreams.d with out := [0x41, 0x42, 0x43] } }) = some (.noResult, [], [])
      ∧ results (exec (.dPulln 2) { zlibStreams with d := { zlibStreams.d with out := [0x41, 0x42, 0x43] } }) = some (.ok, [2], [0x41, 0x42]) := by
  decide +kernel
/-- P2 line 6; V-EX-5. -/
theorem test_dPull :
    results (exec .dPull { zlibStreams with d := { zlibStreams.d with out := [0x41, 0x42, 0x43], drained := 2 } }) = some (.ok, [1], [0x43])
      ∧ refusal (exec .dPull State.reset) = some (.refused, [6]) := by decide +kernel
/-- V-CK-2, V-CK-7. -/
theorem test_ckAdler :
    results (exec (.ckAdler [0x41, 0x42, 0x43] 1) State.reset) = some (.ok, [0x018D00C7], [])
      ∧ results (exec (.ckAdler [0x00] 0xFFF1FFF1) State.reset) = some (.ok, [0], []) := by decide +kernel
/-- V-CK-10, V-CK-12. -/
theorem test_ckCrc32 :
    results (exec (.ckCrc32 [0x41, 0x42, 0x43] 0) State.reset) = some (.ok, [0xA3830348], [])
      ∧ results (exec (.ckCrc32 [0x00] 0) State.reset) = some (.ok, [0xD202EF8D], []) := by decide +kernel
/-- The table word of `BS.APPEND`, placed where the next step takes it. -/
theorem test_fetch : refusal (step (State.reset.withFetchWord 32 0x11030005)) = some (.refused, [6])
    ∧ after (step (State.reset.withFetchWord 64 (0x10000000 + 16 * 2 ^ 32))) (fun t => t.bs) = some (Sink.init 16) := by decide
/-- V-BW-2 and the corner cases of the run-length code. -/
theorem test_rle :
    rleOf (List.replicate 10 8 ++ List.replicate 150 0 ++ [5, 5, 0, 0, 3, 3, 3, 3]) =
        [(8, 0), (16, 3), (16, 0), (18, 127), (18, 1), (5, 0), (5, 0), (0, 0), (0, 0), (3, 0), (16, 0)]
      ∧ rleOf (List.replicate 139 0) = [(18, 127), (0, 0)] ∧ rleOf (List.replicate 8 7) = [(7, 0), (16, 3), (7, 0)] := by decide +kernel

/-! ## Sound states to meet the hypotheses with -/

theorem level_row_legal (n : Nat) : 1 ≤ (referenceLevel n).goal.toNat ∧ (referenceLevel n).goal.toNat ≤ 258
    ∧ 1 ≤ (referenceLevel n).iterations.toNat ∧ (referenceLevel n).iterations.toNat ≤ 6 := by
  unfold referenceLevel
  split <;> decide

/-- The encode tables after `C.NEW` have their sizes and are open. -/
theorem cleared_tables : EncTables.cleared.Sized ∧ EncTables.cleared.runLit.isOpen = true ∧ EncTables.cleared.dist.isOpen = true
    ∧ EncTables.cleared.metasym.isOpen = true := by
  have h : ∀ t : Table, (EncTable.cleared t).entries.length = t.size ∧ (EncTable.cleared t).isOpen = true := fun t =>
    ⟨(length_encLoad _ _).trans List.length_replicate, isOpen_encLoad _ _⟩
  exact ⟨⟨(h .runLit).1, (h .dist).1, (h .metasym).1⟩, (h .runLit).2, (h .dist).2, (h .metasym).2⟩

/-- Two fresh streams are a sound state, the compressor's driven by its own commands. -/
theorem streams_sound (f : Format) (exp : BitVec 4) (level : Byte) (hint : Word) (g : Format) (he : 8 ≤ exp.toNat) (hh : 1 ≤ hint.toNat) :
    (streams f exp level hint g).Sound ∧ (streams f exp level hint g).DrivenAlone := by
  have hrow := level_row_legal level.toNat
  refine ⟨⟨fun _ => (Sink.sound_init _ hh).appendBytes _, Window.sound_init _, ⟨?_, ⟨?_, ?_, ?_⟩, referenceParams_bounded.depth, ?_⟩,
    fun _ => ⟨⟨?_, ?_⟩, ⟨hrow.1, hrow.2.1⟩, hrow.2.2, ?_, ?_, ?_, ?_, ?_, ?_⟩, fun _ => ⟨?_, ?_, ?_⟩, ⟨?_, ?_, ?_⟩, .inr ⟨?_, ?_, fun _ => ?_⟩,
    ⟨fun _ => ?_, fun _ => ?_⟩⟩, ⟨?_, ?_, ?_⟩⟩
  · simp [streams, State.openCompressor, State.openDecompressor]
  · rfl
  · simp [streams, State.openCompressor, State.openDecompressor, Graph.blank]
  · simp [streams, State.openCompressor, State.openDecompressor, Graph.blank]
  · exact cleared_tables.1
  · simp only [streams, State.openCompressor, State.openDecompressor, Compressor.fresh, configFor]
    split
    · decide
    · exact he
  · intro hf
    simp only [streams, State.openCompressor, State.openDecompressor, Compressor.fresh, configFor] at hf ⊢
    simp [hf]
  · intro h0
    have : hint = 0 := h0
    simp [this] at hh
  · exact Nat.le_refl _
  · simp [streams, State.openCompressor, State.openDecompressor, Compressor.fresh]
  · rfl
  · simp [streams, State.openCompressor, State.openDecompressor, Compressor.fresh]
  · simp only [streams, State.openCompressor, State.openDecompressor, Compressor.fresh]
    decide
  · rfl
  · simp [streams, State.openDecompressor, Cursor.init]
  · exact Nat.le_refl _
  · exact DecTable.sound_load List.length_replicate fun l hl => by rw [(List.mem_replicate.mp hl).2]; omega
  · exact DecTable.sound_load List.length_replicate fun l hl => by rw [(List.mem_replicate.mp hl).2]; omega
  · exact DecTable.sound_load List.length_replicate fun l hl => by rw [(List.mem_replicate.mp hl).2]; omega
  · constructor <;> simp [streams, State.openDecompressor, Decompressor.fresh, Memory.wf, Cells.wf]
  · constructor <;> simp [streams, State.openDecompressor, Decompressor.fresh, State.reader]
  · constructor <;> simp [streams, State.openDecompressor, Decompressor.fresh, Cursor.init, Decompressor.valid]
  · refine ⟨?_, rfl, cleared_tables.2⟩
    simp [streams, State.openCompressor, State.openDecompressor, Sink.init]
  · exact ⟨rfl, rfl, rfl, rfl⟩
  · rfl
  · rfl
  · exact Nat.zero_le _

/-- Input handed to the compressor keeps the state sound and the stream driven. -/
theorem fedState_sound {s : State} (h : s.Sound) (hd : s.DrivenAlone) (hs : s.c.state = .opened) (bytes : List Byte) :
    (fedState s bytes).Sound ∧ (fedState s bytes).DrivenAlone := by
  have hc := h.compressor hd.isOpen
  have hl : s.c.last = false := by
    have := hc.last
    simpa [hs] using this
  refine ⟨⟨h.sink, h.window.feed bytes, ⟨h.terms.terms, h.terms.graph, h.terms.depth, h.terms.enc⟩,
    fun _ => ⟨hc.exp, hc.goal, hc.sweeps, hc.hint, ?_, ?_, rfl, ?_, hc.limit⟩, h.cursor, h.tables, h.reader, ⟨h.opened.compressor, h.opened.decompressor⟩⟩,
    ⟨hd.isOpen, ?_, hd.near⟩⟩
  · have := hc.parsed
    simp only [fedState, Compressor.take, List.length_append]
    omega
  · have hck := hc.check
    cases hf : s.c.cfg.format <;> simp_all [fedState, Compressor.take, inputCheck, checkOver, checkInit]
  · simp [fedState, Compressor.take, lastFlag, hl, hs]
  · simp [fedState, Compressor.take, Window.feed, hd.fed]

/-- The last input handed to the compressor, not parsed yet, is a sound state too. -/
theorem lastState_sound {s : State} (h : s.Sound) (hd : s.DrivenAlone) (bytes : List Byte) :
    (lastState s bytes).Sound ∧ (lastState s bytes).DrivenAlone := by
  have hc := h.compressor hd.isOpen
  refine ⟨⟨h.sink, h.window.feed bytes, ⟨h.terms.terms, h.terms.graph, h.terms.depth, h.terms.enc⟩,
    fun _ => ⟨hc.exp, hc.goal, hc.sweeps, hc.hint, ?_, ?_, rfl, ?_, hc.limit⟩, h.cursor, h.tables, h.reader,
    ⟨fun _ => h.opened.compressor hd.isOpen, h.opened.decompressor⟩⟩, ⟨rfl, ?_, hd.near⟩⟩
  · have := hc.parsed
    simp only [lastState, Compressor.take, List.length_append]
    omega
  · have hck := hc.check
    cases hf : s.c.cfg.format <;> simp_all [lastState, Compressor.take, inputCheck, checkOver, checkInit]
  · simp [lastState, Compressor.take, lastFlag]
  · simp [lastState, Compressor.take, Window.feed, hd.fed]

theorem zlibStreams_sound : zlibStreams.Sound ∧ zlibStreams.DrivenAlone := streams_sound _ _ _ _ _ (by decide) (by decide)

theorem rawStreams_sound : rawStreams.Sound ∧ rawStreams.DrivenAlone := streams_sound _ _ _ _ _ (by decide) (by decide)

theorem updated_sound {w : Window} (h : w.Sound) (b : Byte) : (updated w b).Sound := by
  unfold updated
  split
  · exact h.update ‹_›
  · exact h

theorem window2_sound : window2.Sound := by
  unfold window2
  have hgen : ∀ (bs : List Byte) (w : Window), w.Sound → (bs.foldl updated w).Sound := by
    intro bs
    induction bs with
    | nil => exact fun w h => h
    | cons b rest ih => exact fun w h => ih _ (updated_sound h b)
  exact hgen _ _ ((Window.sound_init 8).feed abcd)

/-- The decompressor in a state, over an input, at a bit, with the given tables and counts. -/
def inBlock (f : Format) (st : DState) (input : List Byte) (cur : Nat) (dec : DecTables) : State :=
  { streams .raw 15 7 4 f with
    d := { Decompressor.fresh f with state := st, input := input, cur := cur, hlit := 257, hdist := 1 }
    bc := Cursor.init input, dec := dec }

/-- Decode tables loaded from code lengths. -/
def tablesOf (lL lD lM : List Nat) : DecTables := { runLit := DecTable.load lL, dist := DecTable.load lD, metasym := DecTable.load lM }

/-- The tables of the fixed code. -/
def fixedTables : DecTables := tablesOf fixedRunLit fixedDist (List.replicate 19 0)

theorem zeros_legal (n : Nat) : (List.replicate n 0).length = n ∧ ∀ l ∈ List.replicate n 0, l ≤ 15 :=
  ⟨List.length_replicate, fun l hl => by rw [(List.mem_replicate.mp hl).2]; omega⟩

theorem inBlock_sound (f : Format) (st : DState) (input : List Byte) (cur : Nat) (lL lD lM : List Nat) (hc : cur ≤ 8 * input.length)
    (hL : lL.length = 288 ∧ ∀ l ∈ lL, l ≤ 15) (hD : lD.length = 32 ∧ ∀ l ∈ lD, l ≤ 15) (hM : lM.length = 19 ∧ ∀ l ∈ lM, l ≤ 15)
    (hs : st ≠ .blockUncompressed ∧ st ≠ .error) (ht : st = .blockTables → (verdictOf lM).sound = true)
    (hb : st = .blockCompressed → (verdictOf lL).sound = true ∧ usableFor .dist (verdictOf lD) = true) :
    (inBlock f st input cur (tablesOf lL lD lM)).Sound := by
  have h := (streams_sound .raw 15 7 4 f (by decide) (by decide)).1
  refine ⟨h.sink, h.window, ⟨h.terms.terms, h.terms.graph, h.terms.depth, h.terms.enc⟩, h.compressor, fun _ => ⟨?_, ?_, Nat.zero_le _⟩,
    ⟨DecTable.sound_load hL.1 hL.2, DecTable.sound_load hD.1 hD.2, DecTable.sound_load hM.1 hM.2⟩,
    .inr ⟨⟨rfl, Nat.le_refl _, hc, rfl, fun p hp => absurd hp (Nat.not_lt_zero p), fun _ => (checkOver_nil f _).symm, ?_⟩,
      ⟨fun hx => ⟨Nat.le_refl 257, Nat.le_of_ble_eq_true rfl, Nat.le_refl 1, Nat.le_of_ble_eq_true rfl, ht hx⟩, hb, fun hx => absurd hx hs.1⟩, fun _ => ⟨Nat.le_refl _, ?_, ?_⟩⟩,
    ⟨h.opened.compressor, fun _ => ⟨rfl, rfl, rfl, rfl⟩⟩⟩
  · simp [inBlock, Cursor.init]
  · simp [inBlock, Cursor.init]
  · simp [inBlock, Decompressor.fresh, hs.2]
  · simp [inBlock, Cursor.init, Decompressor.valid]
  · simp [inBlock, Cursor.init, Decompressor.valid]

/-- The raw decompressor in a block of the fixed code, over an input, at a bit. -/
def inFixed (input : List Byte) (cur : Nat) : State := inBlock .raw .blockCompressed input cur fixedTables

theorem inFixed_sound (input : List Byte) (cur : Nat) (hc : cur ≤ 8 * input.length) : (inFixed input cur).Sound := by
  obtain ⟨f1, f2, f3, f4⟩ := fixedTables_sound
  rw [f1.verdict] at f3
  rw [f2.verdict] at f4
  exact inBlock_sound .raw .blockCompressed input cur fixedRunLit fixedDist (List.replicate 19 0) hc ⟨f1.size, f1.lengths⟩
    ⟨f2.size, f2.lengths⟩ (zeros_legal 19) (by decide) (fun h => (by cases h)) (fun _ => ⟨f3, f4⟩)

/-- The state after one more byte of output. -/
def emitting (s : State) (b : Byte) : State := { s with d := s.d.emit b }

theorem emitting_sound {s : State} (h : s.Sound) (hd : s.d.disturbed = false) (b : Byte) : (emitting s b).Sound := by
  refine ⟨h.sink, h.window, ⟨h.terms.terms, h.terms.graph, h.terms.depth, h.terms.enc⟩, h.compressor, h.cursor, h.tables, ?_,
    ⟨h.opened.compressor, h.opened.decompressor⟩⟩
  rcases h.reader with hx | ⟨h1, h2, h3⟩
  · simp [hd] at hx
  · exact .inr ⟨h1.emit b, ⟨h2.tables, h2.compressed, h2.stored⟩, fun hx => ⟨(h3 hx).retained, (h3 hx).suffix, (h3 hx).pointer⟩⟩

/-- The decompressor reading its code lengths with the metasymbol table of `lM`, 257 run-literal lengths and one distance length. -/
def inTables (lM : List Nat) (input : List Byte) : State :=
  inBlock .raw .blockTables input 0 (tablesOf (List.replicate 288 0) (List.replicate 32 0) lM)

theorem inTables_sound (lM : List Nat) (input : List Byte) (hM : lM.length = 19 ∧ ∀ l ∈ lM, l ≤ 15) (hv : (verdictOf lM).sound = true) :
    (inTables lM input).Sound :=
  inBlock_sound _ _ _ _ _ _ _ (Nat.zero_le _) (zeros_legal 288) (zeros_legal 32) hM (by decide) (fun _ => hv) (fun h => (by cases h))

/-- The decompressor at its trailer. -/
def inTrailer (f : Format) (input : List Byte) : State :=
  inBlock f .streamChecksum input 0 (tablesOf (List.replicate 288 0) (List.replicate 32 0) (List.replicate 19 0))

theorem inTrailer_sound (f : Format) (input : List Byte) : (inTrailer f input).Sound :=
  inBlock_sound _ _ _ _ _ _ _ (Nat.zero_le _) (zeros_legal 288) (zeros_legal 32) (zeros_legal 19) (by decide) (fun h => (by cases h)) (fun h => (by cases h))

/-- The raw decompressor stopped at a bad block type. -/
def inError : State :=
  { rawStreams with d := { Decompressor.fresh .raw with state := .error, err := some .invalidBlockType, input := [0x07], out := [0x41] } }

/-- Pushes one after another, as long as they are accepted. -/
def pushAll : State → List (List Byte) → Option State
  | s, [] => some s
  | s, bytes :: rest =>
    match exec (.dPush bytes) s with
    | .next t => if t.status = .refused then none else pushAll t rest
    | .fault _ => none
    | .refused _ => none

theorem pushes_of {s t : State} {pieces : List (List Byte)} (h : pushAll s pieces = some t) : Pushes s pieces t := by
  induction pieces generalizing s with
  | nil =>
    simp only [pushAll, Option.some.injEq] at h
    subst h
    exact .done s
  | cons bytes rest ih =>
    simp only [pushAll] at h
    split at h
    · rename_i u hu
      split at h
      · simp at h
      · rename_i hne
        exact .push s u t bytes rest ⟨hu, hne⟩ (ih h)
    · simp at h
    · simp at h

/-! ## For each statement with hypotheses, a state and operands that meet them, clause by clause -/

theorem witness_DecodeEncode : (Instr.hfBuild 15 (List.replicate 511 1)).wellFormed = true ∧ Instr.bsPad.wellFormed = true := by
  simp only [Instr.wellFormed, List.length_replicate, Nat.reducePow, Nat.reduceLT, decide_true, and_self]

theorem witness_EncodeDecode : decode [0x20000001, 7] [0xA5, 0x01] = .command (.bcNew [0xA5]) [7] [0x01] := by decide

theorem witness_IllegalEncodingsRefused :
    (∀ r ∈ opcodeTable, r.sameOpcode 0x15000000 = false) ∧ (∃ r ∈ opcodeTable, r.sameOpcode 0x12000001 = true ∧ r.holds 0x12000001 = false)
      ∧ operandsLegal (.bsAppend 17 0) = false ∧ (operandsLegal (.bwStored true []) = true ∧ needsMet (.bwStored true []) State.reset = false) := by
  refine ⟨by decide, ⟨⟨.bsPad, 0x12000000, 0xFFFFFFFF⟩, by decide, by decide, by decide⟩, by decide, by decide, by decide⟩

/-- Where the operand and the context both fail: `BW.STORED` of 65536 bytes with no sink, `TM.GRAPH 0` with no compressor. -/
theorem witness_IllegalEncodingsRefused_both :
    (operandsLegal (.bwStored true (List.replicate 65536 0)) = false ∧ needsMet (.bwStored true (List.replicate 65536 0)) State.reset = false)
      ∧ (operandsLegal (.tmGraph 0) = false ∧ needsMet (.tmGraph 0) State.reset = false)
      ∧ (operandsLegal (.tmGraph 1) = true ∧ needsMet (.tmGraph 1) State.reset = false) := by
  refine ⟨⟨?_, rfl⟩, by decide, by decide⟩
  simp only [operandsLegal, List.length_replicate]
  decide

theorem witness_StepRunsCommand :
    decode [0x12000000] [] = .command .bsPad [] [] ∧ Instr.bsPad.wellFormed = true ∧ decode [0x10000000] [] = .incomplete
      ∧ decode [0x12000001, 5] [] = .bad .reservedBit [5] ∧ State.reset.refused = false ∧ (State.reset.refuse .illegal).refused = true := by
  decide

theorem witness_PowerOnValuesNotObservable :
    State.reset.c.state = .closed ∧ State.reset.d.state = .closed ∧ State.reset.bs.isOpen = false ∧ State.reset.bc.isOpen = false
      ∧ State.reset.wn.isOpen = false ∧ (∀ t : BitVec 2, t ≠ 3 → encOpen State.reset t = false)
      ∧ (∀ t : BitVec 2, t ≠ 3 → decOpen State.reset t = false) := by decide

/-- Power-on, and power-on with a term vector that cannot be told from it. -/
theorem witness_PowerOnValuesNotObservable_step :
    State.reset.UnitsOpen ∧ AgreeOpen State.reset { State.reset with tv := [.lit 0] } ∧ (∃ t, Accepts (.bsInit 1) State.reset t) := by
  refine ⟨⟨by decide, by decide⟩, ⟨rfl, rfl, rfl, rfl, rfl, rfl, rfl, fun _ => rfl, fun _ => rfl, ?_, fun _ => rfl, fun _ => rfl, fun _ => rfl,
    fun _ => rfl, fun _ _ => rfl, fun _ _ => rfl⟩, accepts_of (by decide)⟩
  intro h
  exact absurd h (by decide)

theorem witness_Opening : State.reset.UnitsOpen ∧ (∃ t, Accepts (.bsInit 16) State.reset t)
    ∧ (operandsLegal .cPull = true ∧ needsMet .cPull State.reset = false)
    ∧ (Instr.bsInit 0).op ∈ [Op.hfBuild, .tmMap, .ckAdler, .ckCrc32, .cNew, .dNew, .bsInit, .bcNew, .wnInit, .hfLoad] :=
  ⟨⟨by decide, by decide⟩, accepts_of (by decide), ⟨by decide, by decide⟩, by decide⟩

theorem witness_RefusalRecorded :
    (∃ t, exec .bsPad State.reset = .next t ∧ t.status = .refused) ∧ (∃ t, exec (.bsInit 1) State.reset = .next t ∧ t.status ≠ .refused) := by
  refine ⟨?_, accepts_of (by decide)⟩
  obtain ⟨t, h1, h2⟩ := of_after (o := exec .bsPad State.reset) (p := fun t => t.status == .refused) (by decide)
  exact ⟨t, h1, by simpa using h2⟩

theorem witness_ErrorEntryPrecise :
    (∃ t, exec .brStep (reading .raw .blockStart [0x07] 0) = .next t ∧ t.status = .error .invalidBlockType)
      ∧ ∃ t, exec (.dPush [0x07]) rawStreams = .next t ∧ t.status = .error .invalidBlockType := by
  constructor
  · obtain ⟨t, h1, h2⟩ := of_after (o := exec .brStep (reading .raw .blockStart [0x07] 0))
      (p := fun t => t.status == .error .invalidBlockType) (by decide +kernel)
    exact ⟨t, h1, by simpa using h2⟩
  · obtain ⟨t, h1, h2⟩ := of_after (o := exec (.dPush [0x07]) rawStreams)
      (p := fun t => t.status == .error .invalidBlockType) (by decide +kernel)
    exact ⟨t, h1, by simpa using h2⟩

theorem witness_StuckStates :
    (inError.d.disturbed = false ∧ inError.d.state = .error ∧ inError.d.err = some .invalidBlockType)
      ∧ ((1 : Word).toNat ≤ inError.d.out.length - inError.d.drained) ∧ (∃ t, Accepts .brStep inError t)
      ∧ ((reading .raw .streamEnd [] 0).d.disturbed = false ∧ (reading .raw .streamEnd [] 0).d.state = .streamEnd) :=
  ⟨by decide, by decide, accepts_of (by decide +kernel), by decide⟩

theorem witness_Transitions :
    (rawStreams.d.disturbed = false ∧ (∃ t, exec .brStep rawStreams = .next t ∧ t.status = .ok))
      ∧ (∃ t, exec .brStep (reading .raw .blockStart [] 0) = .next t ∧ t.status = .needInput)
      ∧ (∃ t, exec .brStep (reading .raw .streamEnd [] 0) = .next t ∧ t.status = .finished) ∧ ∃ t, Accepts .dPull rawStreams t := by
  refine ⟨⟨by decide, ?_⟩, ?_, ?_, accepts_of (by decide +kernel)⟩
  · obtain ⟨t, h1, h2⟩ := of_after (o := exec .brStep rawStreams) (p := fun t => t.status == .ok) (by decide +kernel)
    exact ⟨t, h1, by simpa using h2⟩
  · obtain ⟨t, h1, h2⟩ := of_after (o := exec .brStep (reading .raw .blockStart [] 0)) (p := fun t => t.status == .needInput) (by decide +kernel)
    exact ⟨t, h1, by simpa using h2⟩
  · obtain ⟨t, h1, h2⟩ := of_after (o := exec .brStep (reading .raw .streamEnd [] 0)) (p := fun t => t.status == .finished) (by decide +kernel)
    exact ⟨t, h1, by simpa using h2⟩

theorem witness_OnlyTheReaderRaises : ∃ t, exec (.dPush []) inError = .next t ∧ t.status = .error .invalidBlockType := by
  obtain ⟨t, h1, h2⟩ := of_after (o := exec (.dPush []) inError) (p := fun t => t.status == .error .invalidBlockType) (by decide +kernel)
  exact ⟨t, h1, by simpa using h2⟩

theorem witness_ReaderChunkingIndependence :
    rawStreams.Sound ∧ rawStreams.d.isOpen = true ∧ rawStreams.d.disturbed = false
      ∧ ∃ t u, Pushes rawStreams [[0x01, 0x01], [], [0x00, 0xFE, 0xFF, 0x41]] t ∧ Pushes rawStreams [[0x01, 0x01, 0x00, 0xFE, 0xFF, 0x41]] u := by
  refine ⟨rawStreams_sound.1, by decide, by decide, ?_⟩
  obtain ⟨t, ht⟩ := Option.isSome_iff_exists.mp
    (show (pushAll rawStreams [[0x01, 0x01], [], [0x00, 0xFE, 0xFF, 0x41]]).isSome = true by decide +kernel)
  obtain ⟨u, hu⟩ := Option.isSome_iff_exists.mp
    (show (pushAll rawStreams [[0x01, 0x01, 0x00, 0xFE, 0xFF, 0x41]]).isSome = true by decide +kernel)
  exact ⟨t, u, pushes_of ht, pushes_of hu⟩

theorem witness_StepKeepsInv : ∃ s t : State, s.Inv ∧ s.cmdIn ≠ [] ∧ step s = .next t ∧ t.status = .ok := by
  have hs := zlibStreams_sound.1
  obtain ⟨t, h1, h2⟩ := of_after (o := step { zlibStreams with cmdIn := [0x12000000] }) (p := fun t => t.status == .ok) (by decide +kernel)
  exact ⟨{ zlibStreams with cmdIn := [0x12000000] }, t, .inr ⟨hs.sink, hs.window, ⟨hs.terms.terms, hs.terms.graph, hs.terms.depth, hs.terms.enc⟩, hs.compressor, hs.cursor, hs.tables, hs.reader,
    ⟨hs.opened.compressor, hs.opened.decompressor⟩⟩, by simp, h1, by simpa using h2⟩

theorem witness_NeverFaults : zlibStreams.Inv := .inr zlibStreams_sound.1

theorem witness_Positions :
    (∃ t, Accepts (.cPush true [0x41]) zlibStreams t) ∧ (∃ t, Accepts (.dPush [0x73, 0x04, 0x02, 0x00]) rawStreams t)
      ∧ rawStreams.d.disturbed = false ∧ zlibStreams.c.cfg.strategy ≠ .full
      ∧ zlibStreams.c.emitted + zlibStreams.c.termsBytes = zlibStreams.c.parsed :=
  ⟨accepts_of (by decide +kernel), accepts_of (by decide +kernel), by decide, by decide, by decide⟩

theorem witness_BsInit : (0 : Word) = 0 ∧ (1 : Word) ≠ 0 := by decide

theorem witness_BsAppend : 16 < (17 : BitVec 5).toNat ∧ (16 : BitVec 5).toNat ≤ 16 ∧ zlibStreams.bs.isOpen = true ∧ zlibStreams.bs.Sound :=
  ⟨by decide, by decide, by decide, zlibStreams_sound.1.sink (by decide)⟩

theorem witness_BsPad : zlibStreams.bs.isOpen = true ∧ zlibStreams.bs.Sound := ⟨by decide, zlibStreams_sound.1.sink (by decide)⟩

theorem witness_BsPull : (withSink (Sink.init 1)).bs.isOpen = true ∧ (withSink (Sink.init 1)).bs.Sound := ⟨by decide, Sink.sound_init 1 (by decide)⟩

theorem witness_PopAndPull :
    ((withSink (Sink.init 1)).bs.isOpen = true ∧ (withSink (Sink.init 1)).bs.queue = []) ∧ State.reset.c.state = .closed
      ∧ (zlibStreams.c.state ≠ .closed ∧ zlibStreams.bs.queue = [])
      ∧ ((withSink { Sink.init 1 with queue := [[0x41]] }).bs.isOpen = true ∧ (withSink { Sink.init 1 with queue := [[0x41]] }).bs.queue = [0x41] :: [])
      ∧ ({ zlibStreams with bs := { zlibStreams.bs with queue := [[1, 2, 3, 4]] } } : State).bs.queue = [1, 2, 3, 4] :: [] := by
  decide +kernel

theorem witness_BcRebase :
    (withCursor { Cursor.init [0xA5, 0x0F] with ptr := 10 }).bc.isOpen = true ∧ (9 : Word).toNat < (withCursor { Cursor.init [0xA5, 0x0F] with ptr := 10 }).bc.ptr
      ∧ (withCursor { Cursor.init [0xA5, 0x0F] with ptr := 10 }).bc.ptr ≤ (16 : Word).toNat
      ∧ (16 : Word).toNat ≤ (withCursor { Cursor.init [0xA5, 0x0F] with ptr := 10 }).bc.count
      ∧ (withCursor { Cursor.init [0xA5, 0x0F] with ptr := 10 }).bc.count < (17 : Word).toNat
      ∧ (withCursor { Cursor.init [0xA5, 0x0F] with ptr := 10 }).bc.Sound :=
  ⟨by decide, by decide, by decide, by decide, by decide, ⟨by decide, by decide, by decide⟩⟩

theorem witness_BcRead :
    16 < (17 : BitVec 5).toNat ∧ (16 : BitVec 5).toNat ≤ 16 ∧ (withCursor { Cursor.init [0xA5, 0x0F] with ptr := 4 }).bc.isOpen = true
      ∧ (3 : Word).toNat < (withCursor { Cursor.init [0xA5, 0x0F] with ptr := 4 }).bc.ptr
      ∧ (withCursor { Cursor.init [0xA5, 0x0F] with ptr := 4 }).bc.ptr ≤ (48 : Word).toNat
      ∧ (48 : Word).toNat + (16 : BitVec 5).toNat ≤ (withCursor { Cursor.init [0xA5, 0x0F] with ptr := 4 }).bc.count + 48
      ∧ (withCursor { Cursor.init [0xA5, 0x0F] with ptr := 4 }).bc.count + 48 < (49 : Word).toNat + (16 : BitVec 5).toNat
      ∧ (∀ j, j < 16 → 4 + j < (withCursor { Cursor.init [0xA5, 0x0F] with ptr := 4 }).bc.count →
        (4 + j) / 8 < (withCursor { Cursor.init [0xA5, 0x0F] with ptr := 4 }).bc.buf.length)
      ∧ (0 < 1 ∧ 0 + 0 < 8 ∧ (withCursor { isOpen := true, buf := [], count := 8, ptr := 0 }).bc.buf.length ≤ (0 + 0) / 8) := by decide

theorem witness_HfBuild : operandsLegal (.hfBuild 1 [1, 1]) = true ∧ operandsLegal (.hfBuild 15 [0]) = true := by decide

theorem witness_BuilderLegal : ([1, 1] : List Nat) ≠ [] ∧ usedCount [1, 1] ≤ 2 ^ 1 ∧ ([0] : List Nat) ≠ [] ∧ usedCount [0] ≤ 2 ^ 15
    ∧ 2 ≤ usedCount [1, 1] := by decide

theorem witness_HfLoad : operandsLegal (.hfLoad 2 (List.replicate 19 15)) = true ∧ tableOf 2 = .ok .metasym
    ∧ operandsLegal (.hfLoad 0 []) = true ∧ tableOf 0 = .ok .runLit ∧ tableOf 1 = .ok .dist
    ∧ operandsLegal (.hfLoad 2 [16]) = false ∧ operandsLegal (.hfLoad 2 (List.replicate 20 0)) = false ∧ operandsLegal (.hfLoad 3 []) = false := by
  refine ⟨by decide, rfl, by decide, rfl, rfl, by decide, by decide, by decide⟩

theorem witness_CanonicalCodes : (∀ x ∈ [2, 1, 15, 15], x ≤ 15) ∧ ([2, 1, 15, 15] : List Nat)[3]? = some 15 ∧ ([2, 1, 15, 15] : List Nat)[1]? = some 1 := by
  decide

theorem witness_HfEncode :
    Table.metasym.size ≤ (19 : BitVec 9).toNat ∧ (18 : BitVec 9).toNat < Table.metasym.size
      ∧ (((withMeta [2, 2, 2]).enc.get .metasym).isOpen = true ∧ ((withMeta [2, 2, 2]).enc.get .metasym).usable = false)
      ∧ (((withMeta [2, 1, 3, 3]).enc.get .metasym).isOpen = true ∧ ((withMeta [2, 1, 3, 3]).enc.get .metasym).usable = true
        ∧ ((withMeta [2, 1, 3, 3]).enc.get .metasym).entries[18]? = some { code := 0, len := 0, extra := 7 }
        ∧ ((withMeta [2, 1, 3, 3]).enc.get .metasym).entries[3]? = some { code := 7, len := 3, extra := 0 }) := by decide +kernel

theorem withMeta_sound (lens : List Nat) (h : ∀ l ∈ lens, l ≤ 15) : ((withMeta lens).dec.get .metasym).Sound .metasym :=
  DecTable.sound_load (length_padTo _ _) fun l hl => by
    rcases mem_padTo hl with h1 | rfl
    · exact h l h1
    · omega

theorem witness_HfDecode :
    ((withMeta []).dec.get .metasym).Sound .metasym ∧ ((withMeta []).dec.get .metasym).verdict = .empty
      ∧ ((withMeta [1, 1, 1]).dec.get .metasym).verdict = .oversubscribed ∧ ((withMeta [2, 2, 2]).dec.get .metasym).verdict = .incomplete
      ∧ ((withMeta [2, 1, 3, 3]).dec.get .metasym).Sound .metasym ∧ ((withMeta [2, 1, 3, 3]).dec.get .metasym).isOpen = true
      ∧ ((withMeta [2, 1, 3, 3]).dec.get .metasym).verdict.sound = true
      ∧ (((withMeta [2, 1, 3, 3]).dec.get .metasym).lens[3]? = some 3 ∧ 3 ≤ (3 : BitVec 5).toNat
        ∧ (canonicalCodes ((withMeta [2, 1, 3, 3]).dec.get .metasym).lens)[3]? = some (revBits 3 (0x0F : Word).toNat)) := by
  refine ⟨withMeta_sound _ (by simp), by decide +kernel, by decide +kernel, by decide +kernel, withMeta_sound _ (by decide), by decide +kernel,
    by decide +kernel, by decide +kernel⟩

/-- No codeword within one bit of `1`: the code of one symbol, of length 1 and codeword `0` (V-HF-37), and no bit at all (V-HF-38). -/
theorem witness_HfDecode_none :
    ((withMeta [0, 1]).dec.get .metasym).verdict.sound = true
      ∧ (∀ sym ∈ List.range 19, ∀ l, ((withMeta [0, 1]).dec.get .metasym).lens[sym]? = some l → 1 ≤ l → l ≤ 1 →
          (canonicalCodes ((withMeta [0, 1]).dec.get .metasym).lens)[sym]? ≠ some (revBits l 1)) := by
  refine ⟨by decide +kernel, fun sym hs l hl h1 h2 => ?_⟩
  obtain rfl : l = 1 := by omega
  have hall : ∀ sym ∈ List.range 19, ((withMeta [0, 1]).dec.get .metasym).lens[sym]? = some 1 →
      (canonicalCodes ((withMeta [0, 1]).dec.get .metasym).lens)[sym]? ≠ some (revBits 1 1) := by decide +kernel
  exact hall sym hs hl

theorem witness_CodeRoundTrip :
    (∃ u v, Accepts (.hfLoad 2 [2, 1, 3, 3]) State.reset u ∧ exec (.hfEncode 2 3) u = .next v ∧ v.status = .ok ∧ v.res = [0x00030007, 7])
      ∧ (0x00030007 : Word).toNat / 2 ^ 16 % 2 ^ 8 ≤ (3 : BitVec 5).toNat ∧ (3 : BitVec 5).toNat ≤ 16
      ∧ (0x0F : Word).toNat % 2 ^ ((0x00030007 : Word).toNat / 2 ^ 16 % 2 ^ 8) = (0x00030007 : Word).toNat % 2 ^ 16 := by
  refine ⟨?_, by decide, by decide, by decide⟩
  obtain ⟨u, h1, h2⟩ := of_after (o := exec (.hfLoad 2 [2, 1, 3, 3]) State.reset)
    (p := fun u => u.status != .refused && after (exec (.hfEncode 2 3) u) (fun v => v.status == .ok && v.res == [0x00030007, 7]) == some true)
    (by decide +kernel)
  simp only [Bool.and_eq_true, bne_iff_ne, beq_iff_eq] at h2
  obtain ⟨v, h3, h4⟩ := of_after h2.2
  simp only [Bool.and_eq_true, beq_iff_eq] at h4
  exact ⟨u, v, ⟨h1, h2.1⟩, h3, h4.1, h4.2⟩

theorem witness_WnInitAndFeed : (7 : BitVec 4).toNat < 8 ∧ 8 ≤ (8 : BitVec 4).toNat ∧ (withWindow (Window.init 8)).wn.isOpen = true := by decide

theorem witness_WnUpdate :
    (withWindow window2).wn.isOpen = true ∧ (withWindow window2).wn.inserted < (withWindow window2).wn.input.length
      ∧ (withWindow window2).wn.input[(withWindow window2).wn.inserted]? = some 0x41 ∧ (withWindow window2).wn.input[(withWindow window2).wn.inserted]? ≠ some 0x42
      ∧ ¬ (withWindow (Window.init 8)).wn.inserted < (withWindow (Window.init 8)).wn.input.length := by decide +kernel

theorem witness_WnMatch :
    (withWindow window2).wn.isOpen = true ∧ (withWindow window2).wn.Sound ∧ (Window.init 8).last = none ∧ (Window.init 8).Sound
      ∧ window2.last = some (4, some 0) ∧ window2.input.length - 4 < (13 : Word).toNat ∧ (12 : Word).toNat ≤ window2.input.length - 4
      ∧ 4 - 0 ≤ 2 ^ window2.exp.toNat ∧ (∀ j, j < 12 → window2.input[4 + j]? = window2.input[0 + j]?) :=
  ⟨by decide +kernel, window2_sound, by decide, Window.sound_init 8, by decide +kernel, by decide +kernel, by decide +kernel, by decide +kernel,
    by decide +kernel⟩

theorem witness_WnMatchd : (withWindow window2).wn.isOpen = true ∧ (withWindow window2).wn.Sound ∧ (withWindow window2).wn.last = some (4, some 0)
    ∧ (withWindow window2).wn.input.length - 4 < (13 : Word).toNat ∧ (12 : Word).toNat ≤ (withWindow window2).wn.input.length - 4
    ∧ (Window.init 8).last = none ∧ 4 - 0 ≤ 2 ^ (withWindow window2).wn.exp.toNat ∧ 0 < (1 : Word).toNat
    ∧ (∀ j, j < 12 → (withWindow window2).wn.input[4 + j]? = (withWindow window2).wn.input[0 + j]?) :=
  ⟨by decide +kernel, window2_sound, by decide +kernel, by decide +kernel, by decide +kernel, by decide, by decide +kernel, by decide,
    by decide +kernel⟩

theorem witness_TmMap : legalTermWord 0x80020001 = false ∧ 3 ≤ 3 ∧ 258 ≤ 258 ∧ 1 ≤ 1 ∧ 32768 ≤ 32768 ∧ legalTermWord 0x81028000 = true := by
  decide +kernel

theorem witness_TmStep :
    (zlibStreams.Sound ∧ zlibStreams.DrivenAlone ∧ zlibStreams.c.cfg.strategy ≠ .full ∧ zlibStreams.c.parsed = zlibStreams.c.input.length)
      ∧ (rawStreams.Sound ∧ rawStreams.DrivenAlone ∧ rawStreams.c.cfg.strategy = .full)
      ∧ ((fedState zlibStreams abcd).Sound ∧ (fedState zlibStreams abcd).DrivenAlone
        ∧ (fedState zlibStreams abcd).c.parsed < (fedState zlibStreams abcd).c.input.length
        ∧ (fedState zlibStreams abcd).c.input.length - (fedState zlibStreams abcd).c.parsed < 259 ∧ (fedState zlibStreams abcd).c.last = false)
      ∧ ((lastState zlibStreams [0x41]).Sound ∧ (lastState zlibStreams [0x41]).DrivenAlone ∧ (lastState zlibStreams [0x41]).c.last = true
        ∧ (lastState zlibStreams [0x41]).c.parsed < (lastState zlibStreams [0x41]).c.input.length) := by
  have hz := zlibStreams_sound
  have hf := fedState_sound hz.1 hz.2 (by decide) abcd
  have hl := lastState_sound hz.1 hz.2 [0x41]
  exact ⟨⟨hz.1, hz.2, by decide, by decide⟩, ⟨rawStreams_sound.1, rawStreams_sound.2, by decide⟩, ⟨hf.1, hf.2, by decide, by decide, by decide⟩,
    hl.1, hl.2, by decide, by decide⟩

theorem witness_TmGraph :
    (fedState rawStreams abcd).Sound ∧ (fedState rawStreams abcd).DrivenAlone
      ∧ (1 ≤ (16 : BitVec 24).toNat ∧ (16 : BitVec 24).toNat ≤ (fedState rawStreams abcd).c.limit
        ∧ (fedState rawStreams abcd).c.parsed + (16 : BitVec 24).toNat ≤ (fedState rawStreams abcd).c.input.length)
      ∧ (fedState rawStreams abcd).c.input.length < (fedState rawStreams abcd).c.parsed + (17 : BitVec 24).toNat
      ∧ (fedState rawStreams abcd).c.limit < (2049 : BitVec 24).toNat := by
  have hr := rawStreams_sound
  have hf := fedState_sound hr.1 hr.2 (by decide) abcd
  exact ⟨hf.1, hf.2, by decide, by decide, by decide⟩

theorem witness_TmMinimizeOptimal : (rawStreams.TermsOk ∧ rawStreams.c.isOpen = true ∧ rawStreams.mg.n = 0)
    ∧ (oneVertex.TermsOk ∧ oneVertex.c.isOpen = true ∧ 0 < oneVertex.mg.n) := by
  have h := rawStreams_sound.1.terms
  refine ⟨⟨h, by decide, by decide⟩, ⟨h.terms, ⟨rfl, ?_, ?_⟩, h.depth, h.enc⟩, by decide, by decide⟩
  · intro v hv
    simp only [oneVertex, List.mem_singleton] at hv
    subst hv
    decide
  · intro i v k e hv he
    simp only [oneVertex] at hv
    have hi : v.edges = noEdges := by
      cases i with
      | zero => simp at hv; rw [← hv]
      | succ i => simp at hv
    rw [hi] at he
    have := List.mem_of_getElem? he
    simp [noEdges] at this

theorem witness_Depths : oneVertex.dt.sized = true ∧ (∃ t, Accepts .tmMinimize oneVertex t) ∧ rawStreams.c.isOpen = true
    ∧ oneVertex.dt.lit[0x41]? = some 128 ∧ runSymbol (0 + 3) = some (257, { base := 3, extra := 0, top := 3 }) :=
  ⟨by decide +kernel, accepts_of (by decide +kernel), by decide, by decide +kernel, by decide +kernel⟩

theorem witness_BwDynamic : zlibStreams.c.isOpen = true ∧ zlibStreams.bs.Sound ∧ (∀ x ∈ zlibStreams.tv, x.Valid) :=
  ⟨by decide, zlibStreams_sound.1.sink (by decide), zlibStreams_sound.1.terms.terms⟩

theorem witness_BwStored : zlibStreams.bs.isOpen = true ∧ zlibStreams.bs.Sound ∧ 65535 < (List.replicate 65536 (0 : Byte)).length ∧ State.reset.bs.isOpen = false
    ∧ (List.replicate 65535 (0 : Byte)).length ≤ 65535 := by
  refine ⟨by decide, zlibStreams_sound.1.sink (by decide), ?_, rfl, ?_⟩ <;> simp only [List.length_replicate] <;> omega

theorem witness_StreamHeader :
    (∀ f input, (reading f .streamStart input 0).d.state = .streamStart ∧ (reading f .streamStart input 0).d.disturbed = false
        ∧ (reading f .streamStart input 0).d.cur ≤ (reading f .streamStart input 0).d.valid)
      ∧ (reading .zlib .streamStart [0x78] 0).d.valid - 0 < 16 ∧ 16 ≤ (reading .zlib .streamStart [0x78, 0x01] 0).d.valid - 0
      ∧ (reading .gzip .streamStart (List.replicate 9 0) 0).d.valid - 0 < 80 ∧ 80 ≤ (reading .gzip .streamStart (List.replicate 10 0) 0).d.valid - 0
      ∧ bitsAt [0x79, 0x01] 0 8 % 16 ≠ 8 ∧ 7 < bitsAt [0x88, 0x01] 0 8 / 16 ∧ (bitsAt [0x78, 0x00] 0 8 * 256 + bitsAt [0x78, 0x00] 8 8) % 31 ≠ 0
      ∧ ((bitsAt [0x78, 0x20] 0 8 * 256 + bitsAt [0x78, 0x20] 8 8) % 31 = 0 ∧ bitsAt [0x78, 0x20] 8 8 / 32 % 2 = 1)
      ∧ ((bitsAt [0x78, 0x01] 0 8 * 256 + bitsAt [0x78, 0x01] 8 8) % 31 = 0 ∧ bitsAt [0x78, 0x01] 8 8 / 32 % 2 = 0)
      ∧ bitsAt [0x1F, 0x8B, 8, 0x20] 24 8 / 32 ≠ 0 ∧ (bitsAt [0x1F, 0x8B, 8, 4] 24 8 / 32 = 0 ∧ bitsAt [0x1F, 0x8B, 8, 4] 24 8 / 2 ≠ 0)
      ∧ bitsAt [0x1F, 0x8B, 8, 1] 24 8 / 2 = 0 := by
  refine ⟨fun f input => ⟨rfl, rfl, Nat.zero_le _⟩, ?_⟩
  decide

theorem witness_BlockHeader :
    ((reading .raw .blockStart [] 0).d.valid < 0 + 3) ∧ (0 + 3 ≤ (reading .raw .blockStart [0x07] 0).d.valid ∧ bitsAt [0x07] 1 2 = 3)
      ∧ (bitsAt [0x01, 0x03, 0x00] 1 2 = 0 ∧ (reading .raw .blockStart [0x01, 0x03, 0x00] 0).d.valid < (0 + 3 + 7) / 8 * 8 + 32)
      ∧ ((0 + 3 + 7) / 8 * 8 + 32 ≤ (reading .raw .blockStart [1, 3, 0, 0xFD, 0xFF] 0).d.valid
        ∧ bitsAt [1, 3, 0, 0xFD, 0xFF] 8 16 + bitsAt [1, 3, 0, 0xFD, 0xFF] 24 16 ≠ 65535)
      ∧ bitsAt [1, 3, 0, 0xFC, 0xFF] 8 16 + bitsAt [1, 3, 0, 0xFC, 0xFF] 24 16 = 65535 ∧ bitsAt [0x03] 1 2 = 1
      ∧ (bitsAt [0x05, 0x00] 1 2 = 2 ∧ (reading .raw .blockStart [0x05, 0x00] 0).d.valid < 0 + 17)
      ∧ (bitsAt [0xF5, 0, 0] 1 2 = 2 ∧ 0 + 17 ≤ (reading .raw .blockStart [0xF5, 0, 0] 0).d.valid ∧ 286 < bitsAt [0xF5, 0, 0] 3 5 + 257)
      ∧ (bitsAt [0x05, 0x1E, 0] 3 5 + 257 ≤ 286 ∧ 30 < bitsAt [0x05, 0x1E, 0] 8 5 + 1) := by decide

/-- The metatree: bits missing, no length sent, and two symbols of one bit. -/
theorem witness_BlockHeader_metatree :
    (bitsAt [0x05, 0, 0] 1 2 = 2 ∧ bitsAt [0x05, 0, 0] 3 5 + 257 ≤ 286 ∧ bitsAt [0x05, 0, 0] 8 5 + 1 ≤ 30
        ∧ (reading .raw .blockStart [0x05, 0, 0] 0).d.valid < 0 + 17 + 3 * (bitsAt [0x05, 0, 0] 13 4 + 4))
      ∧ (0 + 17 + 3 * 4 ≤ (reading .raw .blockStart [0x05, 0, 0, 0] 0).d.valid ∧ (verdictOf (List.replicate 19 0)).sound = false
        ∧ ∀ k ∈ List.range 19, bitsAt [0x05, 0, 0, 0] (17 + 3 * k) 3 = 0)
      ∧ ((verdictOf ([1] ++ List.replicate 17 0 ++ [1])).sound = true
        ∧ ∀ k ∈ List.range 19, ([1] ++ List.replicate 17 0 ++ [1])[perm.getD k 0]? =
          some (if k < 4 then bitsAt [0x05, 0, 0x80, 0x04] (17 + 3 * k) 3 else 0)) := by decide +kernel

/-- Bits at the first metasymbol: none, no codeword, a repeat of nothing, the extra bits missing. -/
theorem witness_BlockTables :
    (∀ lM input, (inTables lM input).d.state = .blockTables ∧ (inTables lM input).d.disturbed = false
        ∧ LengthsRead (DecTable.load lM) (inTables lM input).d 258 0 [])
      ∧ ((inTables ([1] ++ List.replicate 18 0) []).Sound ∧ (inTables ([1] ++ List.replicate 18 0) []).d.peekSymbol (DecTable.load ([1] ++ List.replicate 18 0)) = .needInput)
      ∧ (inTables ([1] ++ List.replicate 18 0) [1]).d.peekSymbol (DecTable.load ([1] ++ List.replicate 18 0)) = .noCode
      ∧ ((inTables (List.replicate 16 0 ++ [1, 0, 0]) [0]).Sound
        ∧ (inTables (List.replicate 16 0 ++ [1, 0, 0]) [0]).d.peekSymbol (DecTable.load (List.replicate 16 0 ++ [1, 0, 0])) = .symbol 16 1)
      ∧ ((inTables (List.replicate 18 0 ++ [1]) []).Sound
        ∧ ({ (inTables (List.replicate 18 0 ++ [1]) [0]).d with cur := 1 } : Decompressor).peekSymbol (DecTable.load (List.replicate 18 0 ++ [1])) = .symbol 18 1
        ∧ (inTables (List.replicate 18 0 ++ [1]) [0]).d.valid < 1 + 1 + metaExtra 18) := by
  refine ⟨fun _ _ => ⟨rfl, rfl, .start⟩, ⟨inTables_sound _ _ (by decide) (by decide +kernel), by decide +kernel⟩, by decide +kernel,
    ⟨inTables_sound _ _ (by decide) (by decide +kernel), by decide +kernel⟩, inTables_sound _ _ (by decide) (by decide +kernel), by decide +kernel,
    by decide⟩

/-- The code lengths of 256 zeros and two more: for metasymbols 1 and 18 of one bit, and for 18 of one bit, 1 and 2 of two. -/
def oneOne : List Nat := [0, 1] ++ List.replicate 16 0 ++ [1]
def oneTwo : List Nat := [0, 2, 2] ++ List.replicate 15 0 ++ [1]

/-- All lengths read: every one zero; one run-literal code and one distance code; a distance code of one two-bit word; and one more run
of zeros than fits. -/
theorem witness_BlockTables_read :
    ((inTables oneOne [0xFF, 0xDB]).Sound ∧ LengthsRead (DecTable.load oneOne) (inTables oneOne [0xFF, 0xDB]).d 258 16 (List.replicate 258 0))
      ∧ (LengthsRead (DecTable.load oneOne) (inTables oneOne [0xFF, 0xD7, 0]).d 258 18 (List.replicate 256 0 ++ [1, 1])
        ∧ (verdictOf (List.replicate 256 0 ++ [1] ++ List.replicate 31 0)).sound = true ∧ verdictOf ([1] ++ List.replicate 31 0) = .degenerate)
      ∧ ((inTables oneTwo [0xFE, 0xD6, 0x0D]).Sound
        ∧ LengthsRead (DecTable.load oneTwo) (inTables oneTwo [0xFE, 0xD6, 0x0D]).d 258 20 (List.replicate 256 0 ++ [1, 2])
        ∧ verdictOf ([2] ++ List.replicate 31 0) = .incomplete)
      ∧ (LengthsRead (DecTable.load oneOne) (inTables oneOne [0xFF, 0xFF]).d 258 8 (List.replicate 138 0)
        ∧ LengthsAt (DecTable.load oneOne) (inTables oneOne [0xFF, 0xFF]).d 8 (List.replicate 138 0) 16 (List.replicate 138 0) ∧ 258 < 138 + 138) := by
  have first : ∀ (lM : List Nat) (input : List Byte), (inTables lM input).d.peekSymbol (DecTable.load lM) = .symbol 18 1 →
      8 ≤ (inTables lM input).d.valid → 11 + bitsAt input 1 7 = 138 →
      LengthsRead (DecTable.load lM) (inTables lM input).d 258 8 (List.replicate 138 0) := by
    intro lM input h1 h2 h3
    have ha : LengthsAt (DecTable.load lM) (inTables lM input).d 0 [] 8 (List.replicate 138 0) := by rw [← h3]; exact .manyZeros 1 h1 h2
    have hle : ([] ++ List.replicate 138 (0 : Nat)).length ≤ 258 := by rw [List.nil_append, List.length_replicate]; omega
    have := LengthsRead.more 0 8 [] (List.replicate 138 0) .start (Nat.succ_pos _) ha hle
    rwa [List.nil_append] at this
  have second : ∀ (lM : List Nat) (input : List Byte) (n : Nat),
      LengthsRead (DecTable.load lM) (inTables lM input).d 258 8 (List.replicate 138 0) →
      ({ (inTables lM input).d with cur := 8 } : Decompressor).peekSymbol (DecTable.load lM) = .symbol 18 1 →
      16 ≤ (inTables lM input).d.valid → 11 + bitsAt input 9 7 = n → n ≤ 120 →
      LengthsRead (DecTable.load lM) (inTables lM input).d 258 16 (List.replicate (138 + n) 0) := by
    intro lM input n h0 h1 h2 h3 h4
    have := LengthsRead.more 8 16 _ (List.replicate n 0) h0 (by rw [List.length_replicate]; omega) (by rw [← h3]; exact .manyZeros 1 h1 h2)
      (by rw [List.length_append, List.length_replicate, List.length_replicate]; omega)
    rwa [List.replicate_append_replicate] at this
  refine ⟨⟨inTables_sound _ _ (by decide) (by decide +kernel), ?_⟩, ⟨?_, by decide +kernel, by decide +kernel⟩,
    ⟨inTables_sound _ _ (by decide) (by decide +kernel), ?_, by decide +kernel⟩, ?_, ?_, by decide⟩
  · exact second _ _ 120 (first _ _ (by decide +kernel) (by decide) (by decide)) (by decide +kernel) (by decide) (by decide) (by decide)
  · have h := second oneOne [0xFF, 0xD7, 0] 118 (first _ _ (by decide +kernel) (by decide) (by decide)) (by decide +kernel) (by decide) (by decide) (by decide)
    have h1 := LengthsRead.more 16 17 _ [1] h (by decide +kernel) (.one 1 1 (by decide +kernel) (by decide)) (by decide +kernel)
    have h2 := LengthsRead.more 17 18 _ [1] h1 (by decide +kernel) (.one 1 1 (by decide +kernel) (by decide)) (by decide +kernel)
    rwa [List.append_assoc] at h2
  · have h := second oneTwo [0xFE, 0xD6, 0x0D] 118 (first _ _ (by decide +kernel) (by decide) (by decide)) (by decide +kernel) (by decide) (by decide) (by decide)
    have h1 := LengthsRead.more 16 18 _ [1] h (by decide +kernel) (.one 1 2 (by decide +kernel) (by decide)) (by decide +kernel)
    have h2 := LengthsRead.more 18 20 _ [2] h1 (by decide +kernel) (.one 2 2 (by decide +kernel) (by decide)) (by decide +kernel)
    rwa [List.append_assoc] at h2
  · exact first _ _ (by decide +kernel) (by decide) (by decide)
  · exact .manyZeros 1 (by decide +kernel) (by decide)

/-- A raw stream inside a stored block with `left` bytes of it still to come. -/
def inStored (left : BitVec 16) (input : List Byte) (cur : Nat) : State :=
  { reading .raw .blockUncompressed input cur with d := { (reading .raw .blockUncompressed input cur).d with storedLeft := left } }

/-- V-BR-17's block with one byte present and with none present, the longest block with one byte present, and an empty block. -/
theorem witness_StoredCopy :
    (reading .raw .blockUncompressed [1, 3, 0, 0xFC, 0xFF, 0x41] 40).d.disturbed = false
      ∧ (reading .raw .blockUncompressed [1, 3, 0, 0xFC, 0xFF, 0x41] 40).d.cur % 8 = 0
      ∧ (reading .raw .blockUncompressed [1, 3, 0, 0xFC, 0xFF, 0x41] 40).d.cur ≤ (reading .raw .blockUncompressed [1, 3, 0, 0xFC, 0xFF, 0x41] 40).d.valid
      ∧ (0 < (inStored 3 [1, 3, 0, 0xFC, 0xFF] 40).d.storedLeft.toNat
        ∧ min (inStored 3 [1, 3, 0, 0xFC, 0xFF] 40).d.storedLeft.toNat (((inStored 3 [1, 3, 0, 0xFC, 0xFF] 40).d.valid - 40) / 8) = 0)
      ∧ 0 < min (inStored 3 [1, 3, 0, 0xFC, 0xFF, 0x41] 40).d.storedLeft.toNat (((inStored 3 [1, 3, 0, 0xFC, 0xFF, 0x41] 40).d.valid - 40) / 8)
      ∧ min (inStored 65535 [1, 0xFF, 0xFF, 0, 0, 0x41] 40).d.storedLeft.toNat (((inStored 65535 [1, 0xFF, 0xFF, 0, 0, 0x41] 40).d.valid - 40) / 8) = 1
      ∧ (reading .raw .blockUncompressed [1, 0, 0, 0xFF, 0xFF] 40).d.storedLeft = 0 := by decide

/-- The distance 2 in a block of the fixed code, its extra bit the last of the input. -/
def farMatch : State := inFixed [0x00, 0x24] 4

theorem witness_CompressedStep : (inFixed [0x73, 0x04, 0x02, 0x00] 3).Sound ∧ (inFixed [0x73, 0x04, 0x02, 0x00] 3).d.state = .blockCompressed
    ∧ (inFixed [0x73, 0x04, 0x02, 0x00] 3).d.disturbed = false ∧ ∃ t, exec .brStep (inFixed [0x73, 0x04, 0x02, 0x00] 3) = .next t ∧ t.status = .ok := by
  refine ⟨inFixed_sound _ _ (by decide), by decide, by decide, ?_⟩
  obtain ⟨t, h1, h2⟩ := of_after (o := exec .brStep (inFixed [0x73, 0x04, 0x02, 0x00] 3)) (p := fun t => t.status == .ok) (by decide +kernel)
  exact ⟨t, h1, by simpa using h2⟩

/-- Of the fixed code: no bit, a literal, the end of the block, the symbol 286, a length whose extra bit is missing. -/
theorem witness_CompressedStep_tokens :
    (∀ input cur, (inFixed input cur).d.state = .blockCompressed ∧ (inFixed input cur).d.disturbed = false) ∧ (inFixed [] 0).Sound
      ∧ (inFixed [] 0).d.peekSymbol fixedTables.runLit = .needInput ∧ (inFixed [0x73, 0x04] 3).d.peekSymbol fixedTables.runLit = .symbol 65 8
      ∧ (inFixed [0] 0).d.peekSymbol fixedTables.runLit = .symbol 256 7 ∧ (inFixed [0x63] 0).d.peekSymbol fixedTables.runLit = .symbol 286 8
      ∧ (inFixed [0x90] 1).Sound ∧ (inFixed [0x90] 1).d.peekSymbol fixedTables.runLit = .symbol 265 7
      ∧ runDecades[265 - 257]? = some { base := 11, extra := 1, top := 12 } ∧ (inFixed [0x90] 1).d.valid < 1 + 7 + 1 := by
  refine ⟨fun _ _ => ⟨rfl, rfl⟩, inFixed_sound _ _ (by decide), by decide +kernel, by decide +kernel, by decide +kernel, by decide +kernel,
    inFixed_sound _ _ (by decide), by decide +kernel, by decide, by decide⟩

/-- A code of two symbols of which the bit `1` is a match, and an empty distance code; a code of one symbol and the other bit. -/
theorem witness_CompressedStep_noCode :
    (inBlock .raw .blockCompressed [1] 0 (tablesOf (List.replicate 256 0 ++ [1, 1] ++ List.replicate 30 0) (List.replicate 32 0) (List.replicate 19 0))).Sound
      ∧ ({ (Decompressor.fresh .raw) with input := [1] } : Decompressor).peekSymbol
        (DecTable.load (List.replicate 256 0 ++ [1, 1] ++ List.replicate 30 0)) = .symbol 257 1
      ∧ ({ (Decompressor.fresh .raw) with input := [1], cur := 1 } : Decompressor).peekSymbol (DecTable.load (List.replicate 32 0)) = .noCode
      ∧ (inBlock .raw .blockCompressed [1] 0 (tablesOf (List.replicate 256 0 ++ [1] ++ List.replicate 31 0) (List.replicate 32 0) (List.replicate 19 0))).Sound
      ∧ ({ (Decompressor.fresh .raw) with input := [1] } : Decompressor).peekSymbol
        (DecTable.load (List.replicate 256 0 ++ [1] ++ List.replicate 31 0)) = .noCode := by
  refine ⟨?_, by decide +kernel, by decide +kernel, ?_, by decide +kernel⟩ <;>
    exact inBlock_sound _ _ _ _ _ _ _ (by decide) (by decide +kernel) (by decide +kernel) (by decide +kernel) (by decide) (by decide)
      fun _ => by decide +kernel

/-- After a length symbol of the fixed code: no distance bit, the symbol 30, an extra bit missing, a distance before the output, and one
within it. -/
theorem witness_CompressedStep_distance :
    ((inFixed [0x40] 0).Sound ∧ (inFixed [0x40] 0).d.peekSymbol fixedTables.runLit = .symbol 257 7
        ∧ ({ (inFixed [0x40] 0).d with cur := 7 } : Decompressor).peekSymbol fixedTables.dist = .needInput)
      ∧ ((inFixed [0xC0, 0x07] 0).d.peekSymbol fixedTables.runLit = .symbol 257 7
        ∧ ({ (inFixed [0xC0, 0x07] 0).d with cur := 7 } : Decompressor).peekSymbol fixedTables.dist = .symbol 30 5)
      ∧ (farMatch.d.peekSymbol fixedTables.runLit = .symbol 257 7
        ∧ ({ farMatch.d with cur := 11 } : Decompressor).peekSymbol fixedTables.dist = .symbol 4 5
        ∧ distDecades[4]? = some { base := 5, extra := 1, top := 6 } ∧ farMatch.d.valid < 11 + 5 + 1)
      ∧ ((inFixed [0x40, 0x00] 0).d.total < 1 ∧ ({ (inFixed [0x40, 0x00] 0).d with cur := 7 } : Decompressor).peekSymbol fixedTables.dist = .symbol 0 5
        ∧ distDecades[0]? = some { base := 1, extra := 0, top := 1 } ∧ 7 + 5 + 0 ≤ (inFixed [0x40, 0x00] 0).d.valid)
      ∧ ((emitting (inFixed [0x40, 0x00] 0) 0x41).Sound ∧ 1 ≤ (emitting (inFixed [0x40, 0x00] 0) 0x41).d.total) := by
  refine ⟨⟨inFixed_sound _ _ (by decide), by decide +kernel, by decide +kernel⟩, ⟨by decide +kernel, by decide +kernel⟩,
    ⟨by decide +kernel, by decide +kernel, by decide, by decide⟩, ⟨by decide, by decide +kernel, by decide, by decide⟩,
    emitting_sound (inFixed_sound _ _ (by decide)) rfl _, by decide⟩

theorem witness_FinishedMeansChecked :
    (zlibStreams.Sound ∧ zlibStreams.d.disturbed = false ∧ zlibStreams.d.state ≠ .streamEnd)
      ∧ (∃ t, Accepts (.dPush [0x78, 0x01, 0x01, 0, 0, 0xFF, 0xFF, 0, 0, 0, 1]) zlibStreams t ∧ t.status = .finished ∧ t.d.format = .zlib)
      ∧ ∃ t, Accepts (.dPush ([0x1F, 0x8B, 8, 0, 0, 0, 0, 0, 0, 0xFF, 1, 0, 0, 0xFF, 0xFF] ++ List.replicate 8 0)) (streams .raw 15 0 4 .gzip) t
          ∧ t.status = .finished ∧ t.d.format = .gzip := by
  refine ⟨⟨zlibStreams_sound.1, by decide, by decide⟩, ?_, ?_⟩
  · obtain ⟨t, h1, h2⟩ := of_after (o := exec (.dPush [0x78, 0x01, 0x01, 0, 0, 0xFF, 0xFF, 0, 0, 0, 1]) zlibStreams)
      (p := fun t => t.status == .finished && t.d.format == .zlib) (by decide +kernel)
    simp only [Bool.and_eq_true, beq_iff_eq] at h2
    exact ⟨t, ⟨h1, by simp [h2.1]⟩, h2.1, h2.2⟩
  · obtain ⟨t, h1, h2⟩ := of_after
      (o := exec (.dPush ([0x1F, 0x8B, 8, 0, 0, 0, 0, 0, 0, 0xFF, 1, 0, 0, 0xFF, 0xFF] ++ List.replicate 8 0)) (streams .raw 15 0 4 .gzip))
      (p := fun t => t.status == .finished && t.d.format == .gzip) (by decide +kernel)
    simp only [Bool.and_eq_true, beq_iff_eq] at h2
    exact ⟨t, ⟨h1, by simp [h2.1]⟩, h2.1, h2.2⟩

/-- The trailer of no output: a byte missing, equal, and different, in both formats. -/
theorem witness_FinishedMeansChecked_step :
    (∀ f input, (inTrailer f input).Sound ∧ (inTrailer f input).d.state = .streamChecksum ∧ (inTrailer f input).d.disturbed = false
        ∧ (inTrailer f input).d.format = f ∧ (inTrailer f input).d.out = [])
      ∧ (bigEndian (([0, 0, 0, 1] : List Byte).map BitVec.toNat) = (adler32 1 []).toNat ∧ bigEndian (([0, 0, 0, 2] : List Byte).map BitVec.toNat) ≠ (adler32 1 []).toNat)
      ∧ littleEndian (([0, 0, 0, 0] : List Byte).map BitVec.toNat) = (crc32 0 []).toNat
      ∧ littleEndian (([0, 0, 0, 0] : List Byte).map BitVec.toNat) = ([] : List Byte).length % 2 ^ 32
      ∧ littleEndian (([1, 0, 0, 0] : List Byte).map BitVec.toNat) ≠ (crc32 0 []).toNat :=
  ⟨fun f input => ⟨inTrailer_sound f input, rfl, rfl, rfl, rfl⟩, by decide +kernel⟩

theorem witness_CNew : formatOf 0 = .ok .zlib ∧ formatOf 1 = .ok .gzip ∧ formatOf 2 = .ok .raw ∧ 8 ≤ (8 : BitVec 4).toNat ∧ (1 : Word) ≠ 0
    ∧ (7 : BitVec 4).toNat < 8 := ⟨rfl, rfl, rfl, by decide, by decide, by decide⟩

theorem witness_CPushCompletes :
    (zlibStreams.Sound ∧ zlibStreams.DrivenAlone ∧ zlibStreams.c.state = .opened
        ∧ zlibStreams.c.emitted + zlibStreams.c.termsBytes = zlibStreams.c.parsed ∧ zlibStreams.c.cfg.strategy = .greedy)
      ∧ (rawStreams.Sound ∧ rawStreams.DrivenAlone ∧ rawStreams.c.state = .opened
        ∧ rawStreams.c.emitted + rawStreams.c.termsBytes = rawStreams.c.parsed ∧ rawStreams.c.cfg.strategy = .full ∧ rawStreams.tv = []
        ∧ rawStreams.c.termsBytes = 0)
      ∧ (lastState zlibStreams []).c.state = .finished :=
  ⟨⟨zlibStreams_sound.1, zlibStreams_sound.2, by decide, by decide, by decide⟩,
    ⟨rawStreams_sound.1, rawStreams_sound.2, by decide, by decide, by decide, by decide, by decide⟩, by decide⟩

theorem witness_CompressorChunkingIndependence :
    ∃ t u v, Accepts (.cPush false [0x41]) zlibStreams t ∧ Accepts (.cPush true [0x42]) t u ∧ Accepts (.cPush true ([0x41] ++ [0x42])) zlibStreams v := by
  obtain ⟨t, h1, h2⟩ := of_after (o := exec (.cPush false [0x41]) zlibStreams)
    (p := fun t => t.status != .refused && after (exec (.cPush true [0x42]) t) (fun u => u.status != .refused) == some true) (by decide +kernel)
  simp only [Bool.and_eq_true, bne_iff_ne, beq_iff_eq] at h2
  obtain ⟨u, hu⟩ := accepts_of h2.2
  obtain ⟨v, hv⟩ := accepts_of (i := .cPush true ([0x41] ++ [0x42])) (s := zlibStreams) (by decide +kernel)
  exact ⟨t, u, v, ⟨h1, h2.1⟩, hu, hv⟩

theorem witness_DNew : formatOf 0 = .ok .zlib ∧ formatOf 1 = .ok .gzip ∧ formatOf 2 = .ok .raw ∧ (3 : BitVec 2) = 3 := ⟨rfl, rfl, rfl, rfl⟩

theorem witness_DPushCompletes : rawStreams.Sound ∧ rawStreams.d.isOpen = true ∧ rawStreams.d.disturbed = false ∧ rawStreams.d.state ≠ .error
    ∧ rawStreams.d.state ≠ .streamEnd
    ∧ refusal (exec (.dPush [0x1F, 0x8B, 8, 4, 0, 0, 0, 0, 0, 0xFF]) (streams .raw 15 0 4 .gzip)) = some (.refused, [8]) :=
  ⟨rawStreams_sound.1, by decide, by decide, by decide, by decide, by decide +kernel⟩

theorem witness_Draining : State.reset.d.state = .closed ∧ inError.d.isOpen = true ∧ inError.d.disturbed = false
    ∧ inError.d.out.length - inError.d.drained < (2 : Word).toNat ∧ (1 : Word).toNat ≤ inError.d.out.length - inError.d.drained := by decide

theorem witness_StoredRoundTrip : (1 : Word) ≠ 0 ∧ (List.replicate 65535 (0 : Byte)).length ≤ 65535 := by
  refine ⟨by decide, ?_⟩
  simp only [List.length_replicate]
  omega

theorem witness_UnitWriters : (∃ t, Accepts .bsPad zlibStreams t) ∧ zlibStreams.d.disturbed = false := ⟨accepts_of (by decide +kernel), by decide⟩

theorem witness_ContextsIndependent :
    compressorSide (.cPush true [0x41]) = true ∧ decompressorSide (.dPush []) = true ∧ (∃ t, Accepts (.cPush true [0x41]) zlibStreams t)
      ∧ (∃ t, Accepts (.dPush []) zlibStreams t) ∧ SameCompressor zlibStreams { zlibStreams with d := inError.d }
      ∧ SameDecompressor zlibStreams { zlibStreams with bs := Sink.init 1 } :=
  ⟨rfl, rfl, accepts_of (by decide +kernel), accepts_of (by decide +kernel), ⟨rfl, rfl, rfl, rfl, rfl, rfl, rfl⟩, ⟨rfl, rfl, rfl⟩⟩

theorem witness_MemoryFrame :
    (∃ t, Accepts (.wnUpdate 0x41) (withWindow window2) t) ∧ (∃ t, Accepts (.dPush [0x73, 0x04, 0x02, 0x00]) rawStreams t) :=
  ⟨accepts_of (by decide +kernel), accepts_of (by decide +kernel)⟩

end Sys2Proof.Tests
end

section
/-! PROOF. Illegal encodings, illegal operands and closed units are refused (spec/30_encoding.md R150): the layout of the opcode
table's rows, the checks a command makes before it does anything, and from them `Obligations.IllegalEncodingsRefused`. -/

namespace Sys2Proof.Machine

/-! ## The opcode table's rows and the decoder's fields -/

/-- The bits of the field of `len` bits whose lowest bit is bit `lo`. -/
def fieldMask (lo len : Nat) : Word := word ((2 ^ len - 1) * 2 ^ lo)

/-- The bits of a list of fields. -/
def fieldsMask : List (Nat × Nat) → Word
  | [] => 0
  | f :: fs => fieldMask f.1 f.2 ||| fieldsMask fs

/-- Masking a word with a field keeps the field's value in its place. -/
theorem and_fieldMask (w : Word) (lo len : Nat) : w &&& fieldMask lo len = word (field w lo len * 2 ^ lo) := by
  refine BitVec.eq_of_getLsbD_eq fun i hi => ?_
  simp only [fieldMask, field, word, BitVec.getLsbD_and, BitVec.getLsbD_ofNat, Nat.testBit_mul_two_pow,
    Nat.testBit_two_pow_sub_one, Nat.testBit_mod_two_pow, Nat.testBit_div_two_pow, hi, decide_true, Bool.true_and]
  by_cases hlo : lo ≤ i
  · simp [hlo, BitVec.getLsbD, Bool.and_comm]
  · simp [hlo]

/-- A word whose fields are all zero has none of their bits. -/
theorem and_fieldsMask_eq_zero {w : Word} {fs : List (Nat × Nat)} (h : fs.all (fun f => field w f.1 f.2 == 0) = true) :
    w &&& fieldsMask fs = 0 := by
  induction fs with
  | nil => simp [fieldsMask]
  | cons f fs ih =>
    simp only [List.all_cons, Bool.and_eq_true, beq_iff_eq] at h
    simp [fieldsMask, BitVec.and_or_distrib_left, and_fieldMask, h.1, ih h.2]

/-- Every row of the table is laid out as the decoder reads it: the opcode in `[31:24]`, and the mask is the opcode's bits and the
reserved ones (spec/30_encoding.md R141, R147). -/
theorem opcodeTable_layout : ∀ r ∈ opcodeTable,
    r.bits = word (r.op.code * 2 ^ 24) ∧ r.mask = fieldMask 24 8 ||| fieldsMask r.op.reserved
      ∧ (r.bits >>> 24).toNat = r.op.code := by decide

/-- Every opcode has its row. -/
theorem exists_row (o : Op) : ∃ r ∈ opcodeTable, r.op = o := by
  cases o <;> decide

/-- A word has the opcode of a row exactly when its `OPC` field says so. -/
theorem sameOpcode_iff {r : OpcodeRow} (hr : r ∈ opcodeTable) (w : Word) :
    r.sameOpcode w = true ↔ field w 24 8 = r.op.code := by
  have hw : (w >>> 24).toNat = field w 24 8 := by
    simp only [field, BitVec.toNat_ushiftRight, Nat.shiftRight_eq_div_pow]
    omega
  obtain ⟨-, -, hcode⟩ := opcodeTable_layout r hr
  rw [OpcodeRow.sameOpcode, beq_iff_eq, ← BitVec.toNat_inj, hw, hcode]

/-- A word with the opcode of a row and no reserved bit set is a word of the row. -/
theorem holds_of_reservedClear {r : OpcodeRow} (hr : r ∈ opcodeTable) {w : Word} (hop : r.sameOpcode w = true)
    (hclear : r.op.reservedClear w = true) : r.holds w = true := by
  obtain ⟨hbits, hmask, -⟩ := opcodeTable_layout r hr
  rw [OpcodeRow.holds, beq_iff_eq, hmask, hbits, BitVec.and_or_distrib_left, and_fieldMask, and_fieldsMask_eq_zero hclear,
    (sameOpcode_iff hr w).mp hop]
  exact BitVec.or_zero

@[simp] theorem ofCode_code (o : Op) : Op.ofCode o.code = some o := by
  cases o <;> rfl

/-- The decoder knows no opcode of a word that has the opcode of no row. -/
theorem ofCode_eq_none {w : Word} (h : ∀ r ∈ opcodeTable, r.sameOpcode w = false) : Op.ofCode (field w 24 8) = none := by
  refine List.find?_eq_none.mpr fun o _ hcode => ?_
  obtain ⟨r, hr, rfl⟩ := exists_row o
  exact absurd ((sameOpcode_iff hr w).mpr (beq_iff_eq.mp hcode).symm) (by simp [h r hr])

/-! ## Bad command words -/

theorem decode_illegalOpcode {w : Word} (rest : List Word) (bytes : List Byte) (h : Op.ofCode (field w 24 8) = none) :
    decode (w :: rest) bytes = .bad .illegalOpcode rest := by
  simp [decode, h]

theorem decode_reservedBit {w : Word} {o : Op} (rest : List Word) (bytes : List Byte) (ho : Op.ofCode (field w 24 8) = some o)
    (h : o.reservedClear w = false) : decode (w :: rest) bytes = .bad .reservedBit rest := by
  simp [decode, ho, h]

theorem refuses_refuse (s : State) (r : Reason) : Refuses (.next (s.refuse r)) r := ⟨_, rfl, rfl, rfl, rfl⟩

/-- A command word the decoder rejects is refused, for the reason it was rejected. -/
theorem step_refuses_of_bad {s : State} {why : BadEncoding} {words : List Word} (hs : s.refused = false)
    (h : decode s.cmdIn s.dataIn = .bad why words) : Refuses (step s) (reasonOf why) := by
  simpa [step, hs, h] using refuses_refuse _ _

/-- An opcode of no row is refused as `ILLEGAL`. -/
theorem step_refuses_unlisted {s : State} {w : Word} {rest : List Word} (hs : s.refused = false) (hc : s.cmdIn = w :: rest)
    (h : ∀ r ∈ opcodeTable, r.sameOpcode w = false) : Refuses (step s) .illegal :=
  step_refuses_of_bad (why := .illegalOpcode) hs (hc ▸ decode_illegalOpcode rest _ (ofCode_eq_none h))

/-- A listed opcode with a reserved bit set is refused as `OPERAND`. -/
theorem step_refuses_reserved {s : State} {w : Word} {rest : List Word} (hs : s.refused = false) (hc : s.cmdIn = w :: rest)
    {r : OpcodeRow} (hr : r ∈ opcodeTable) (hop : r.sameOpcode w = true) (hbad : r.holds w = false) :
    Refuses (step s) .operand := by
  have ho : Op.ofCode (field w 24 8) = some r.op := by rw [(sameOpcode_iff hr w).mp hop, ofCode_code]
  have hclear : r.op.reservedClear w = false := by
    by_contra hclear
    simp [holds_of_reservedClear hr hop (Bool.eq_true_of_not_eq_false hclear)] at hbad
  exact step_refuses_of_bad (why := .reservedBit) hs (hc ▸ decode_reservedBit rest _ ho hclear)

/-! ## The first check that fails decides -/

/-- A command whose first part is refused is refused for that part's reason. -/
theorem refuses_first {α : Type} {s : State} {x : Run α} {r : Reason} {f : α → Run State} (h : x = .error (.refuse r)) :
    Refuses (s.finish (x >>= f)) r := by
  subst h
  exact refuses_refuse s r

/-- A command whose first part passes is refused when the rest is. -/
theorem refuses_next {α : Type} {s : State} {x : Run α} {a : α} {r : Reason} {f : α → Run State} (h : x = .ok a)
    (hf : Refuses (s.finish (f a)) r) : Refuses (s.finish (x >>= f)) r := by
  subst h
  exact hf

theorem refuses_check {s : State} {c : Bool} {r : Reason} {f : Unit → Run State} (h : c = true) :
    Refuses (s.finish (refuseIf c r >>= f)) r :=
  refuses_first (by rw [h, refuseIf_true])

theorem refuses_afterCheck {s : State} {c : Bool} {q r : Reason} {f : Unit → Run State} (h : c = false)
    (hf : Refuses (s.finish (f ())) r) : Refuses (s.finish (refuseIf c q >>= f)) r :=
  refuses_next (refuseIf_eq_ok.mpr h) hf

/-- A command that first asks for an open unit is refused when the unit is closed. -/
theorem refuses_closed {s : State} {o : Bool} {f : Unit → Run State} (h : o = false) :
    Refuses (s.finish (refuseIf (!o) .noInstance >>= f)) .noInstance :=
  refuses_check (by rw [h, Bool.not_false])

/-! ## Selectors, formats and operands out of range -/

/-- The codes of the selectors and formats that name something. -/
theorem code_cases_of_ne_three : ∀ t : BitVec 2, t ≠ 3#2 → t = 0 ∨ t = 1 ∨ t = 2 := by decide

theorem tableOf_three : tableOf 3#2 = .error (.refuse .operand) := rfl

/-- A selector other than 3 names a table, of the size and the openness the statements give it. -/
theorem tableOf_of_ne_three {t : BitVec 2} (ht : t ≠ 3#2) : ∃ tbl, tableOf t = .ok tbl ∧ tbl.size = selectedSize t
    ∧ ∀ s : State, (s.enc.get tbl).isOpen = encOpen s t ∧ (s.dec.get tbl).isOpen = decOpen s t := by
  obtain rfl | rfl | rfl := code_cases_of_ne_three t ht
  · exact ⟨.runLit, rfl, rfl, fun _ => ⟨rfl, rfl⟩⟩
  · exact ⟨.dist, rfl, rfl, fun _ => ⟨rfl, rfl⟩⟩
  · exact ⟨.metasym, rfl, rfl, fun _ => ⟨rfl, rfl⟩⟩

/-- A command that first looks up its selector is refused as `OPERAND` when the selector names no table, or when the rest refuses
the table it names so. -/
theorem refuses_selected {s : State} {t : BitVec 2} {f : Table → Run State}
    (h : t ≠ 3#2 → ∀ tbl : Table, tbl.size = selectedSize t → Refuses (s.finish (f tbl)) .operand) :
    Refuses (s.finish (tableOf t >>= f)) .operand := by
  by_cases ht : t = 3#2
  · exact refuses_first (ht ▸ tableOf_three)
  · obtain ⟨tbl, htbl, hsize, -⟩ := tableOf_of_ne_three ht
    exact refuses_next htbl (h ht tbl hsize)

theorem formatOf_three : formatOf 3#2 = .error (.refuse .operand) := rfl

theorem formatOf_of_ne_three {f : BitVec 2} (hf : f ≠ 3#2) : ∃ fmt, formatOf f = .ok fmt := by
  obtain rfl | rfl | rfl := code_cases_of_ne_three f hf
  exacts [⟨.zlib, rfl⟩, ⟨.gzip, rfl⟩, ⟨.raw, rfl⟩]

/-- A term word outside its ranges stands for no term (spec/30_encoding.md R144). -/
theorem termOfWord_of_illegal {w : Word} (h : legalTermWord w = false) : termOfWord w = none := by
  simp only [legalTermWord, Bool.or_eq_false_iff, Bool.and_eq_false_iff, decide_eq_false_iff_not] at h
  obtain ⟨hlit, hcopy⟩ := h
  simp only [termOfWord]
  split <;> rw [if_neg (by omega)]

/-- Legal operands of `HF.BUILD` are those its check passes (spec/41_huffman.md R270). -/
theorem operandsLegal_hfBuild (maxlen : BitVec 4) (freqs : List Word) : operandsLegal (.hfBuild maxlen freqs) =
    !(maxlen == 0 || (freqs.map BitVec.toNat).isEmpty || decide (288 < (freqs.map BitVec.toNat).length)
      || decide (2 ^ maxlen.toNat < max (usedCount (freqs.map BitVec.toNat)) 2)) := by
  rw [operandsLegal, Bool.eq_iff_iff]
  generalize 2 ^ maxlen.toNat = bound, max (usedCount (freqs.map BitVec.toNat)) 2 = used
  simp [Nat.one_le_iff_ne_zero, and_assoc]

/-- Legal operands of `HF.LOAD` name a table, and pass the check made against it (spec/41_huffman.md R280). -/
theorem operandsLegal_hfLoad {t : BitVec 2} {tbl : Table} (ht : t ≠ 3#2) (hsize : tbl.size = selectedSize t)
    (lengths : List Byte) : operandsLegal (.hfLoad t lengths) =
      !(decide (tbl.size < lengths.length) || lengths.any (fun b => decide (15 < b.toNat))) := by
  rw [Bool.eq_iff_iff]
  simp [operandsLegal, ht, hsize]

/-! ## Illegal operands -/

/-- A command with an illegal operand is refused as `OPERAND`; `BW.STORED` and `TM.GRAPH` when their unit is open. -/
theorem exec_refuses_illegal_operand (i : Instr) (s : State) (h : operandsLegal i = false)
    (hopen : needsMet i s = true ∨ i.op ∉ [.bwStored, .tmGraph]) : Refuses (exec i s) .operand := by
  cases i with
  | bsInit hint => exact refuses_check (by simpa [operandsLegal] using h)
  | bsAppend count bits => exact refuses_check (by simpa [operandsLegal] using h)
  | bcRead width offset => exact refuses_check (by simpa [operandsLegal] using h)
  | hfBuild maxlen freqs => exact refuses_check (by rwa [operandsLegal_hfBuild, Bool.not_eq_false'] at h)
  | hfLoad t lengths =>
    refine refuses_selected fun ht tbl hsize => refuses_check ?_
    rwa [operandsLegal_hfLoad ht hsize, Bool.not_eq_false'] at h
  | hfEncode t sym =>
    exact refuses_selected fun ht tbl hsize => refuses_check (by simpa [operandsLegal, ht, hsize] using h)
  | hfDecode t avail peek =>
    exact refuses_selected fun ht tbl _ => refuses_check (by simpa [operandsLegal, ht] using h)
  | wnInit exp => exact refuses_check (by simpa [operandsLegal] using h)
  | tmMap term =>
    simpa [exec, execTmMap, termOfWord_of_illegal h, refuse] using refuses_refuse s .operand
  | tmGraph n =>
    have hn : n = 0 := by simpa [operandsLegal] using h
    have hc : s.c.isOpen = true := hopen.resolve_right (by simp [Instr.op])
    exact refuses_afterCheck (by simp [hc]) (refuses_first (by simp [hn, graphOver]))
  | bwStored last bytes =>
    have hbs : s.bs.isOpen = true := hopen.resolve_right (by simp [Instr.op])
    exact refuses_afterCheck (by simp [hbs]) (refuses_check (by simpa [operandsLegal] using h))
  | cNew format exp level hint =>
    by_cases hf : format = 3#2
    · exact refuses_first (hf ▸ formatOf_three)
    · obtain ⟨fmt, hfmt⟩ := formatOf_of_ne_three hf
      exact refuses_next hfmt (refuses_check (by simpa [operandsLegal, hf, imp_iff_not_or] using h))
  | dNew format =>
    have hf : format = 3#2 := by simpa [operandsLegal] using h
    exact refuses_first (hf ▸ formatOf_three)
  | _ => simp [operandsLegal] at h

/-! ## Closed units -/

/-- A command whose unit or context is closed is refused as `NO_INSTANCE` when its operands are legal, and in any case on
`BW.STORED` and `TM.GRAPH`, which look at the unit first (log entry 4). -/
theorem exec_refuses_closed_unit (i : Instr) (s : State) (hclosed : needsMet i s = false)
    (hlegal : operandsLegal i = true ∨ i.op ∈ [.bwStored, .tmGraph]) : Refuses (exec i s) .noInstance := by
  cases i with
  | bsAppend count bits =>
    exact refuses_afterCheck (by simpa [operandsLegal, Instr.op] using hlegal) (refuses_closed hclosed)
  | bcRead width offset =>
    exact refuses_afterCheck (by simpa [operandsLegal, Instr.op] using hlegal) (refuses_closed hclosed)
  | hfEncode t sym =>
    obtain ⟨ht, hsym⟩ : t ≠ 3#2 ∧ sym.toNat < selectedSize t := by simpa [operandsLegal, Instr.op] using hlegal
    obtain ⟨tbl, htbl, hsize, hopen⟩ := tableOf_of_ne_three ht
    exact refuses_next htbl (refuses_afterCheck (by simp [hsize, hsym]) (refuses_closed ((hopen s).1.trans hclosed)))
  | hfDecode t avail peek =>
    obtain ⟨ht, havail⟩ : t ≠ 3#2 ∧ avail.toNat ≤ 16 := by simpa [operandsLegal, Instr.op] using hlegal
    obtain ⟨tbl, htbl, -, hopen⟩ := tableOf_of_ne_three ht
    exact refuses_next htbl (refuses_afterCheck (by simp [havail]) (refuses_closed ((hopen s).2.trans hclosed)))
  | tmMinimize =>
    have hc : s.c.isOpen = false := hclosed
    exact refuses_check (by simp [hc])
  | bsPad | bsPull | bsPop | bwStored _ _ | bcRebase _ _ | wnUpdate _ | wnMatch _ _ _ | wnMatchd _ _ _ | wnFeed _ | tmStep
  | tmGraph _ | tmGeneralize | bwDynamic _ | cPush _ _ | cPop | cPull | brStep | dPush _ | dPulln _ | dPull =>
    exact refuses_closed hclosed
  | bsInit _ | bcNew _ | hfBuild _ _ | hfLoad _ _ | wnInit _ | tmMap _ | cNew _ _ _ _ | dNew _ | ckAdler _ _ | ckCrc32 _ _ =>
    simp [needsMet] at hclosed

/-- Settles O4: bad command words by the layout of the table's rows, commands by the first of their checks that fails. -/
theorem illegalEncodingsRefused : Obligations.IllegalEncodingsRefused :=
  ⟨fun _ _ _ hs hc h => step_refuses_unlisted hs hc h,
    fun _ _ _ hs hc ⟨_, hr, hop, hbad⟩ => step_refuses_reserved hs hc hr hop hbad,
    exec_refuses_illegal_operand,
    fun i s _ hclosed hop => exec_refuses_closed_unit i s hclosed (.inr hop),
    fun i s hlegal hclosed => exec_refuses_closed_unit i s hclosed (.inl hlegal)⟩

end Sys2Proof.Machine
end

section
/-! PROOF. The bit sink (spec/40_bit_io.md R230 to R235, spec/46_stream_interface.md R546, R547): what `BS.INIT`, `BS.APPEND`, `BS.PAD`,
`BS.PULL` and the pops answer, from the laws of the sink's stream, its padding and its queue. -/

namespace Sys2Proof.Machine

/-! ## Commands that pass their checks -/

/-- A command whose check passes answers what the rest answers. -/
theorem finish_afterCheck {s : State} {c : Bool} {r : Reason} {f : Unit → Run State} (h : c = false) :
    s.finish (refuseIf c r >>= f) = s.finish (f ()) := by
  rw [refuseIf_eq_ok.mpr h, ok_bind]

/-- A command that first asks for an open unit answers what the rest answers when the unit is open. -/
theorem finish_opened {s : State} {o : Bool} {f : Unit → Run State} (h : o = true) :
    s.finish (refuseIf (!o) .noInstance >>= f) = s.finish (f ()) :=
  finish_afterCheck (by rw [h, Bool.not_true])

/-- A command on an open unit is refused when the rest is. -/
theorem refuses_opened {s : State} {o : Bool} {r : Reason} {f : Unit → Run State} (h : o = true)
    (hf : Refuses (s.finish (f ())) r) : Refuses (s.finish (refuseIf (!o) .noInstance >>= f)) r :=
  refuses_afterCheck (by rw [h, Bool.not_true]) hf

/-! ## Command words -/

/-- A command with the opcode and the operand field of a number has the words of that number and its arguments
(spec/30_encoding.md R140). -/
theorem encode_eq {i : Instr} (opc field : Nat) {n : Nat} (ho : i.op.code = opc) (hf : i.operandField = field)
    (hn : opc * 2 ^ 24 + field = n) : encode i = word n :: i.args := by
  rw [encode, Instr.commandWord, ho, hf, hn]

/-! ## Padding -/

/-- The low bits of a number that fits in fewer: those, then zeros. -/
theorem lowBits_eq_append_replicate {m n v : Nat} (hv : v < 2 ^ m) (hmn : m ≤ n) :
    lowBits n v = lowBits m v ++ List.replicate (n - m) false := by
  induction n, hmn using Nat.le_induction with
  | base => simp
  | succ n hmn ih =>
    have hbit : v.testBit n = false := Nat.testBit_lt_two_pow (hv.trans_le (Nat.pow_le_pow_right (by decide) hmn))
    rw [lowBits_succ_last, ih, hbit, Nat.succ_sub hmn, List.replicate_succ', List.append_assoc]

/-- Appended zero bits. -/
theorem lowBits_of_zero (n : Nat) : lowBits n 0 = List.replicate n false :=
  lowBits_eq_append_replicate (m := 0) (by decide) n.zero_le

@[simp] theorem length_bitsOfBytes (bytes : List Byte) : (bitsOfBytes bytes).length = 8 * bytes.length := by
  simp [bitsOfBytes, List.length_flatMap, Nat.mul_comm]

/-- The bit cursor's offset in the partial byte is the stream's length modulo 8 (spec/10_state.md R43). -/
theorem Sink.length_stream_mod (k : Sink) : k.stream.length % 8 = k.nacc.toNat := by
  have := k.nacc.isLt
  simp only [Sink.stream, List.length_append, length_bitsOfBytes, length_lowBits]
  omega

/-- The padding a sink needs: none when it is aligned, else the rest of the partial byte. -/
theorem Sink.padding_stream (k : Sink) :
    padding k.stream.length = if k.nacc = 0 then [] else List.replicate (8 - k.nacc.toNat) false := by
  have hlt := k.nacc.isLt
  rw [padding, k.length_stream_mod]
  split
  · next h => simp [h]
  · next h =>
    have hne : k.nacc.toNat ≠ 0 := fun h0 => h (BitVec.eq_of_toNat_eq h0)
    rw [Nat.mod_eq_of_lt (by omega)]

/-- A padded stream is whole bytes. -/
theorem length_append_padding_mod (l : List Bool) : (l ++ padding l.length).length % 8 = 0 := by
  simp only [padding, List.length_append, List.length_replicate]
  omega

/-- `BS.PAD` pads the stream (spec/40_bit_io.md R233). -/
theorem Sink.stream_pad (k : Sink) : k.pad.stream = k.stream ++ padding k.stream.length := by
  rw [k.padding_stream, Sink.pad]
  split
  · rw [List.append_nil]
  · rw [Sink.stream_append, lowBits_of_zero]

/-- A padded sink is aligned. -/
theorem Sink.nacc_pad (k : Sink) : k.pad.nacc = 0 := by
  apply BitVec.eq_of_toNat_eq
  rw [← Sink.length_stream_mod, Sink.stream_pad, length_append_padding_mod]
  rfl

theorem Sink.pad_of_aligned {k : Sink} (h : k.nacc = 0) : k.pad = k := if_pos h

@[simp] theorem Sink.hint_pad (k : Sink) : k.pad.hint = k.hint := by
  unfold Sink.pad
  split
  · rfl
  · exact Sink.hint_append ..

/-! ## Chunks -/

/-- Nothing is released while fewer bytes than a chunk wait (spec/40_bit_io.md R232). -/
theorem Sink.release_of_lt {k : Sink} (h : k.done.length < k.hint) : k.release = k := by
  unfold Sink.release
  cases k.done.length with
  | zero => rfl
  | succ n => rw [Sink.releaseLoop, if_neg (by omega), if_neg (by omega)]

/-- Appending no bits to a sound sink changes nothing. -/
theorem Sink.Sound.append_zero {k : Sink} (h : k.Sound) (bits : Nat) : k.append bits 0 = k := Sink.release_of_lt h.done

/-- New chunks stand behind the old ones (spec/40_bit_io.md R232). -/
theorem Sink.queue_append {k : Sink} (h : 1 ≤ k.hint) (bits count : Nat) : ∃ new, (k.append bits count).queue = k.queue ++ new := by
  obtain ⟨-, new, hnew, -⟩ :=
    Sink.releaseLoop_spec _ (Sink.pushBits count bits k) (by rwa [Sink.hint_pushBits]) (Nat.le_refl _)
  exact ⟨new, by rwa [Sink.queue_pushBits] at hnew⟩

/-- The oldest chunk of a queue. -/
theorem Sink.pop_of_cons {k : Sink} {c : List Byte} {rest : List (List Byte)} (h : k.queue = c :: rest) :
    k.pop = some (c, { k with queue := rest }) := by
  rw [Sink.pop, h]

theorem Sink.pop_of_nil {k : Sink} (h : k.queue = []) : k.pop = none := by
  rw [Sink.pop, h]

theorem Sink.drain_of_cons {k : Sink} {c : List Byte} {rest : List (List Byte)} (h : k.queue = c :: rest) :
    k.drain = (c, { k with queue := rest }) := by
  rw [Sink.drain, h]

theorem Sink.drain_of_nil {k : Sink} (h : k.queue = []) : k.drain = (k.done, { k with done := [] }) := by
  rw [Sink.drain, h]

theorem State.popChunk_of_nil {s : State} (h : s.bs.queue = []) : s.popChunk = s.answer .noResult [] [] := by
  rw [State.popChunk, Sink.pop_of_nil h]

theorem State.popChunk_of_cons {s : State} {c : List Byte} {rest : List (List Byte)} (h : s.bs.queue = c :: rest) :
    s.popChunk = ({ s with bs := { s.bs with queue := rest } } : State).answer .ok [word c.length] c := by
  rw [State.popChunk, Sink.pop_of_cons h]

/-! ## Returning everything -/

/-- What `BS.PULL` returns is the stream and its padding (spec/40_bit_io.md R234). -/
theorem Sink.Sound.bitsOfBytes_pull {k : Sink} (h : k.Sound) :
    bitsOfBytes k.pull.1 = k.stream ++ padding k.stream.length := by
  have hacc : lowBits 8 k.acc.toNat = lowBits k.nacc.toNat k.acc.toNat ++ List.replicate (8 - k.nacc.toNat) false :=
    lowBits_eq_append_replicate h.acc k.nacc.isLt.le
  rw [k.padding_stream]
  unfold Sink.pull Sink.stream
  dsimp only
  split
  · next h0 => simp [h0]
  · rw [← List.append_assoc, bitsOfBytes_append _ [k.acc], bitsOfBytes_singleton, hacc, List.append_assoc]

/-- What `BS.PULL` leaves is an empty sink (spec/40_bit_io.md R234). -/
theorem Sink.Sound.pull_sink {k : Sink} (h : k.Sound) : k.pull.2 = { k with queue := [], done := [], acc := 0, nacc := 0 } := by
  have hacc : k.nacc = 0 → k.acc = 0 := fun h0 =>
    BitVec.eq_of_toNat_eq (Nat.lt_one_iff.mp (by simpa [h0] using h.acc))
  simpa [Sink.pull] using hacc

/-! ## The obligations -/

/-- `BS.APPEND` of a legal count on an open sink. -/
theorem exec_bsAppend {count : BitVec 5} {s : State} (bits : BitVec 16) (hcount : count.toNat ≤ 16) (hopen : s.bs.isOpen = true) :
    exec (.bsAppend count bits) s =
      .next (({ s with bs := s.bs.append bits.toNat count.toNat } : State).answer .ok [] []) :=
  (finish_afterCheck (by simpa using hcount)).trans (finish_opened hopen)

theorem exec_cPop {s : State} (h : s.c.state ≠ .closed) : exec .cPop s = .next s.popChunk :=
  finish_opened (by simpa [Compressor.isOpen] using h)

theorem exec_cPull {s : State} (h : s.c.state ≠ .closed) : exec .cPull s =
    .next (({ s with bs := s.bs.drain.2 } : State).answer .ok [word s.bs.drain.1.length] s.bs.drain.1) :=
  finish_opened (by simpa [Compressor.isOpen] using h)

/-- Settles O18: the one check of `BS.INIT` is on its hint. -/
theorem bsInit : Obligations.BsInit := by
  refine fun hint s => ⟨?_, fun h => ?_, fun h => ?_⟩
  · rw [encode_eq 0x10 0 rfl rfl rfl]
    rfl
  · exact refuses_check (by simpa using h)
  · exact finish_afterCheck (by simpa using h)

/-- Settles O19: `Append` adds its bits to the stream and keeps the sound form, which says what waits after the release. -/
theorem bsAppend : Obligations.BsAppend := by
  refine fun count bits s => ⟨?_, fun h => ?_, fun hcount hopen hs => ?_⟩
  · exact encode_eq 0x11 (count.toNat * 2 ^ 16 + bits.toNat) rfl rfl (by omega)
  · exact refuses_check (by simpa using h)
  · have hsound : (s.bs.append bits.toNat count.toNat).Sound := hs.append _ _
    refine ⟨_, exec_bsAppend bits hcount hopen, Sink.stream_append .., hsound.chunks, hsound.done, Sink.queue_append hs.hint ..,
      hsound, by rwa [Sink.isOpen_append], Sink.hint_append .., ?_⟩
    rintro rfl
    exact hs.append_zero _

/-- Settles O20: padding appends zero bits up to a whole byte, so the offset in the partial byte is 0. -/
theorem bsPad : Obligations.BsPad := fun s =>
  ⟨rfl, fun hopen hs => ⟨s.bs.pad, finish_opened hopen, s.bs.stream_pad, s.bs.nacc_pad, hs.pad, by rwa [Sink.isOpen_pad],
    s.bs.hint_pad, Sink.pad_of_aligned⟩⟩

/-- Settles O21: the unused bits of the partial byte are zero, so the byte returned for it is its bits and the padding. -/
theorem bsPull : Obligations.BsPull := fun s =>
  ⟨rfl, fun hopen hs => ⟨s.bs.pull.1, hs.pull_sink ▸ finish_opened hopen, hs.bitsOfBytes_pull⟩⟩

/-- Settles O22: the cases of the queue, under the check for a sink or a compressor. -/
theorem popAndPull : Obligations.PopAndPull := by
  refine fun s => ⟨rfl, rfl, rfl, fun hopen hq => ?_, fun c rest hopen hq => ?_, fun hc => ?_, fun hc hq => ?_,
    fun c rest hc hq => ⟨?_, ?_⟩, fun hc hq => ?_⟩
  · rw [← State.popChunk_of_nil hq]
    exact finish_opened hopen
  · rw [← State.popChunk_of_cons hq]
    exact finish_opened hopen
  · have hclosed : s.c.isOpen = false := by simp [Compressor.isOpen, hc]
    exact ⟨refuses_closed hclosed, refuses_closed hclosed⟩
  · rw [exec_cPop hc, State.popChunk_of_nil hq]
  · rw [exec_cPop hc, State.popChunk_of_cons hq]
  · rw [exec_cPull hc, Sink.drain_of_cons hq]
  · rw [exec_cPull hc, Sink.drain_of_nil hq]

end Sys2Proof.Machine
end

section
/-! PROOF. The bit cursor (spec/40_bit_io.md R240 to R244): what `BC.NEW`, `BC.REBASE` and `BC.READ` answer, from the laws of the
cursor's buffer under a rebase and of the bits it reads. -/

namespace Sys2Proof.Machine

/-! ## Rebasing -/

/-- Stream bit `i` is unchanged in a buffer that holds its byte `2 * u` places earlier. -/
theorem bitAt_drop_take {bytes : List Byte} {m u i : Nat} (rest : List Byte) (hlo : 16 * u ≤ i) (hhi : i / 8 < m)
    (hm : m ≤ bytes.length) : bitAt ((bytes.take m).drop (2 * u) ++ rest) (i - 16 * u) = bitAt bytes i := by
  have hdiv : (i - 16 * u) / 8 = i / 8 - 2 * u := by omega
  have hmod : (i - 16 * u) % 8 = i % 8 := by omega
  have hidx : 2 * u + (i / 8 - 2 * u) = i / 8 := by omega
  have hin : i / 8 - 2 * u < ((bytes.take m).drop (2 * u)).length := by simp; omega
  rw [bitAt, bitAt, hdiv, hmod, List.getD_append _ _ _ _ hin]
  simp [List.getD_eq_getElem?_getD, hidx, hhi]

/-- A sound cursor holds its valid bytes and the padding behind them. -/
theorem Cursor.Sound.length_buf {k : Cursor} (h : k.Sound) : k.buf.length = k.count / 8 + 6 := by
  have := congrArg List.length h.padded
  simp only [List.length_drop, cursorPadding, List.length_replicate] at this
  omega

theorem Cursor.Sound.holds {k : Cursor} (h : k.Sound) : k.holds = true := by
  simp [Cursor.holds, h.length_buf]

/-- A rebase at a pointer within the valid bits keeps the sound form (spec/40_bit_io.md R241, R244). -/
theorem Cursor.Sound.rebase {k : Cursor} (h : k.Sound) (data : List Byte) {pointer : Nat} (hp : pointer ≤ k.count) :
    (k.rebase data pointer).Sound := by
  have hwhole := h.whole
  have hlen := h.length_buf
  refine ⟨?_, ?_, ?_⟩
  · simp only [Cursor.rebase]
    omega
  · have hvalid : ((k.buf.take (k.count / 8)).drop (2 * (pointer / 16)) ++ data).length = (k.rebase data pointer).count / 8 := by
      simp [Cursor.rebase]
      omega
    exact hvalid ▸ List.drop_left
  · simp only [Cursor.rebase]
    omega

/-- The valid bits from the pointer on keep their places behind the new pointer (spec/40_bit_io.md R241). -/
theorem Cursor.Sound.bitAt_rebase {k : Cursor} (h : k.Sound) (data : List Byte) {pointer j : Nat} (hj : pointer + j < k.count) :
    bitAt (k.rebase data pointer).buf ((k.rebase data pointer).ptr + j) = bitAt k.buf (pointer + j) := by
  have hwhole := h.whole
  have hptr : (k.rebase data pointer).ptr + j = pointer + j - 16 * (pointer / 16) := by
    simp only [Cursor.rebase]
    omega
  rw [hptr, Cursor.rebase, List.append_assoc]
  exact bitAt_drop_take _ (by omega) (by omega) (by rw [h.length_buf]; omega)

/-! ## Reading -/

/-- A bit beyond the valid ones, or one whose byte is held, is read; beyond the valid ones it is zero (spec/40_bit_io.md R243). -/
theorem Cursor.readBit_ok {k : Cursor} {i : Nat} (h : i < k.count → i / 8 < k.buf.length) :
    k.readBit i = .ok (decide (i < k.count) && bitAt k.buf i) := by
  unfold Cursor.readBit
  split
  · next hi =>
    rw [List.getElem?_eq_getElem (h hi)]
    simp [hi, bitAt, List.getD_eq_getElem?_getD, List.getElem?_eq_getElem (h hi)]
  · next hi => simp [hi]

/-- A valid bit whose byte is not held is not read (spec/60_exceptions.md R608). -/
theorem Cursor.readBit_fault {k : Cursor} {i : Nat} (hi : i < k.count) (h : k.buf.length ≤ i / 8) :
    k.readBit i = .error (.fault (.unwrittenUnit .bcbuf)) := by
  rw [Cursor.readBit, if_pos hi, List.getElem?_eq_none h]
  rfl

/-- The bits of a number put together from its lowest and the others. -/
theorem testBit_bit_add (b : Bool) (n j : Nat) : (b.toNat + 2 * n).testBit j = if j = 0 then b else n.testBit (j - 1) := by
  rw [Nat.add_comm, ← Nat.bit_val]
  cases j with
  | zero => simp
  | succ j => simp [Nat.testBit_bit_succ]

/-- What `BC.READ` reads where every valid byte it needs is held: bit `j` is stream bit `off + j`, zero beyond the valid bits. -/
theorem Cursor.readBits_ok {k : Cursor} {off width : Nat}
    (h : ∀ j, j < width → off + j < k.count → (off + j) / 8 < k.buf.length) :
    ∃ v, k.readBits off width = .ok v ∧
      ∀ j, v.testBit j = (decide (j < width) && decide (off + j < k.count) && bitAt k.buf (off + j)) := by
  induction width generalizing off with
  | zero => exact ⟨0, rfl, by simp⟩
  | succ n ih =>
    have hshift : ∀ j, off + 1 + j = off + (j + 1) := by omega
    obtain ⟨v, hv, hbits⟩ := ih (off := off + 1) fun j hj => hshift j ▸ h (j + 1) (by omega)
    refine ⟨_, by rw [Cursor.readBits, Cursor.readBit_ok (i := off) (h 0 n.succ_pos), hv]; rfl, fun j => ?_⟩
    rw [testBit_bit_add]
    cases j with
    | zero => simp
    | succ j => simp [hbits, hshift]

/-- `BC.READ` faults where it needs a valid bit whose byte is not held. -/
theorem Cursor.readBits_fault {k : Cursor} {off width j : Nat} (hj : j < width) (hcount : off + j < k.count)
    (hbuf : k.buf.length ≤ (off + j) / 8) : k.readBits off width = .error (.fault (.unwrittenUnit .bcbuf)) := by
  induction width generalizing off j with
  | zero => omega
  | succ n ih =>
    rw [Cursor.readBits]
    by_cases hfirst : off < k.count ∧ k.buf.length ≤ off / 8
    · rw [Cursor.readBit_fault hfirst.1 hfirst.2, error_bind]
    · obtain ⟨i, rfl⟩ : ∃ i, j = i + 1 := Nat.exists_eq_succ_of_ne_zero fun h0 => by
        subst h0
        exact hfirst ⟨hcount, hbuf⟩
      have hrest : off + 1 + i = off + (i + 1) := by omega
      rw [Cursor.readBit_ok (by omega), ok_bind, ih (j := i) (by omega) (hrest ▸ hcount) (hrest ▸ hbuf), error_bind]

/-! ## The obligations -/

/-- `BC.REBASE` of a sound cursor at a pointer within its limits. -/
theorem exec_bcRebase {pointer : Word} {s : State} (data : List Byte) (hopen : s.bc.isOpen = true)
    (hlo : s.bc.ptr ≤ pointer.toNat) (hhi : pointer.toNat ≤ s.bc.count) (hs : s.bc.Sound) :
    exec (.bcRebase data pointer) s = .next (({ s with bc := s.bc.rebase data pointer.toNat, d := s.d.touched } : State).answer .ok
      [word (s.bc.rebase data pointer.toNat).ptr] []) := by
  refine (finish_opened hopen).trans ((finish_afterCheck (by simp; omega)).trans ?_)
  rw [hs.holds]
  rfl

/-- `BC.READ` within its limits answers what its loop reads. -/
theorem exec_bcRead {width : BitVec 5} {offset : Word} {s : State} (hwidth : width.toNat ≤ 16) (hopen : s.bc.isOpen = true)
    (hlo : s.bc.ptr ≤ offset.toNat) (hhi : offset.toNat + width.toNat ≤ s.bc.count + 48) : exec (.bcRead width offset) s =
      s.finish (s.bc.readBits offset.toNat width.toNat >>= fun v => pure (s.answer .ok [word v] [])) :=
  (finish_afterCheck (by simpa using hwidth)).trans <| (finish_opened hopen).trans <|
    (finish_afterCheck (by simpa using hlo)).trans (finish_afterCheck (by simpa using hhi))

/-- Settles O23: `BC.NEW` makes no check, and of the decompressor writes only the mark. -/
theorem bcNew : Obligations.BcNew := fun bytes _ => ⟨encode_eq 0x20 bytes.length rfl rfl (by omega), _, rfl, rfl, rfl⟩

/-- Settles O24: the buffer after a rebase is the old one from a unit boundary on, so every bit keeps its place in its byte. -/
theorem bcRebase : Obligations.BcRebase := by
  refine fun data pointer s hopen => ⟨encode_eq 0x21 data.length rfl rfl (by omega), fun h => ?_, fun hlo hhi hs => ?_⟩
  · exact refuses_opened hopen (refuses_check (by simpa using h))
  · have hptr : (s.bc.rebase data pointer.toNat).ptr = pointer.toNat % 16 := by
      simp only [Cursor.rebase]
      omega
    exact ⟨_, exec_bcRebase data hopen hlo hhi hs, rfl, hopen, hs.rebase data hhi, rfl, hptr, rfl, fun _ => hs.bitAt_rebase data⟩

/-- Settles O25: the loop of `BC.READ` by induction on its width, bit by bit and for its fault. -/
theorem bcRead : Obligations.BcRead := by
  refine fun width offset s => ⟨encode_eq 0x22 width.toNat rfl rfl (by omega), fun h => ?_, fun hw hopen h => ?_,
    fun hw hopen hlo h => ?_, fun hw hopen hlo hhi => ?_⟩
  · exact refuses_check (by simpa using h)
  · exact refuses_afterCheck (by simpa using hw) (refuses_opened hopen (refuses_check (by simpa using h)))
  · exact refuses_afterCheck (by simpa using hw) (refuses_opened hopen
      (refuses_afterCheck (by simpa using hlo) (refuses_check (by simpa using h))))
  · rw [exec_bcRead hw hopen hlo hhi]
    refine ⟨fun hheld => ?_, fun ⟨j, hj, hcount, hbuf⟩ => ?_⟩
    · obtain ⟨v, hv, hbits⟩ := Cursor.readBits_ok hheld
      refine ⟨word v, by rw [hv]; rfl, fun j => ?_⟩
      have hwide : j < width.toNat → j < 32 := by omega
      rw [word, BitVec.getLsbD_ofNat, hbits]
      by_cases hj : j < width.toNat <;> simp [hj, hwide]
    · rw [Cursor.readBits_fault hj hcount hbuf]
      rfl

end Sys2Proof.Machine
end

section
/-! PROOF. The encode entry of a symbol (spec/41_huffman.md R286): what `HF.ENCODE` answers once its checks pass, and from the checks
its refusals. -/

namespace Sys2Proof.Machine

/-- A command that first looks up its selector answers what the rest answers for the table the selector names. -/
theorem finish_selected {s : State} {t : BitVec 2} {tbl : Table} {f : Table → Run State} (h : tableOf t = .ok tbl) :
    s.finish (tableOf t >>= f) = s.finish (f tbl) := by
  rw [h, ok_bind]

/-- What `HF.ENCODE` answers for an entry: nothing for a symbol without a code, else its codeword reversed with the length and the
extra-bit count, and the codeword (spec/41_huffman.md R286). -/
def State.answerEntry (s : State) (e : EncEntry) : State :=
  if e.len = 0 then s.answer .noResult [] []
  else s.answer .ok [word (revBits e.len e.code + e.len * 2 ^ 16 + e.extra * 2 ^ 24), word e.code] []

/-- `HF.ENCODE` of a symbol of an open, usable table answers the symbol's entry. -/
theorem exec_hfEncode {t : BitVec 2} {tbl : Table} {sym : BitVec 9} {s : State} {e : EncEntry} (ht : tableOf t = .ok tbl)
    (hsym : sym.toNat < tbl.size) (hopen : (s.enc.get tbl).isOpen = true) (husable : (s.enc.get tbl).usable = true)
    (he : (s.enc.get tbl).entries[sym.toNat]? = some e) : exec (.hfEncode t sym) s = .next (s.answerEntry e) := by
  refine (finish_selected ht).trans <| (finish_afterCheck (by simpa using hsym)).trans <| (finish_opened hopen).trans <|
    (finish_afterCheck (by rw [husable, Bool.not_true])).trans ?_
  rw [he, written_some, ok_bind, State.answerEntry]
  split <;> rfl

/-- Settles O30: the checks in their order, selector, symbol, open and usable, then the cases of the entry's length. -/
theorem hfEncode : Obligations.HfEncode := by
  refine fun t sym s => ⟨encode_eq 0x32 (t.toNat * 2 ^ 16 + sym.toNat) rfl rfl (by omega), fun h => ?_, fun tbl ht =>
    ⟨fun h => ?_, fun hsym hopen h => ?_, fun e hsym hopen husable he => ?_⟩⟩
  · exact refuses_first (h ▸ tableOf_three)
  · exact refuses_next ht (refuses_check (by simpa using h))
  · exact refuses_next ht (refuses_afterCheck (by simpa using hsym)
      (refuses_opened hopen (refuses_check (by rw [h, Bool.not_false]))))
  · rw [exec_hfEncode ht hsym hopen husable he]
    exact ⟨fun hlen => by rw [State.answerEntry, if_pos hlen], fun hlen => by rw [State.answerEntry, if_neg hlen]⟩

end Sys2Proof.Machine
end

section
/-! PROOF. The map from a term to its symbols (spec/43_term_strategies.md R372): a term word stands for its term, the decades of a term in
range give its symbols and extra values, and from both what `TM.MAP` answers. -/

namespace Sys2Proof.Machine

/-! ## Term words -/

theorem toNat_word {n : Nat} (h : n < 2 ^ 32) : (word n).toNat = n := Nat.mod_eq_of_lt h

/-- The word of a term in range stands for that term (spec/30_encoding.md R144). -/
theorem termOfWord_word {t : Term} (h : t.Valid) : termOfWord t.word = some t := by
  cases t with
  | lit b =>
    have hb := b.isLt
    simp only [termOfWord, Term.word, toNat_word (n := b.toNat) (by omega)]
    rw [if_pos (by omega), if_pos (by omega), BitVec.ofNat_toNat, BitVec.setWidth_eq]
  | copy run dist =>
    obtain ⟨hrun, hrun', hdist, hdist'⟩ := h
    have hr : (2 ^ 31 + run * 2 ^ 16 + dist) / 2 ^ 16 % 2 ^ 9 = run := by omega
    have hd : (2 ^ 31 + run * 2 ^ 16 + dist) % 2 ^ 16 = dist := by omega
    simp only [termOfWord, Term.word, toNat_word (n := 2 ^ 31 + run * 2 ^ 16 + dist) (by omega), hr, hd]
    rw [if_neg (by omega), if_pos (by omega)]

/-! ## Decades -/

/-- What a run is over its decade's base fits in the decade's extra bits (spec/30_encoding.md R172). -/
theorem runDecades_extra : ∀ d ∈ runDecades, d.top - d.base < 2 ^ d.extra := by decide

/-- What a distance is over its decade's base fits in the decade's extra bits (spec/30_encoding.md R174). -/
theorem distDecades_extra : ∀ d ∈ distDecades, d.top - d.base < 2 ^ d.extra := by decide

/-- The run 258 has the last symbol, 285, for itself (spec/30_encoding.md R172). -/
theorem runSymbol_258 : runSymbol 258 = some (257 + 28, { extra := 0, base := 258, top := 258 }) := by decide

/-- The codes of a match are its decades' symbols, with what is left over their bases (spec/30_encoding.md R171). -/
theorem Term.codes_copy {run dist l k : Nat} {dl dk : Decade} (hl : runSymbol run = some (l, dl))
    (hk : distSymbol dist = some (k, dk)) : (Term.copy run dist).codes =
      some { sym := l, extra := dl.extra, value := run - dl.base, dist := some (k, dk.extra, dist - dk.base) } := by
  simp only [Term.codes, hl, hk]

/-! ## What `TM.MAP` answers -/

/-- The result words of `TM.MAP` (spec/43_term_strategies.md R372): the run-literal symbol with its extra bits, and the distance symbol
with its own, or `none` for a literal. -/
def TermCodes.words (c : TermCodes) : List Word :=
  word c.sym :: word (c.extra + c.value * 2 ^ 8) ::
    match c.dist with
    | none => [0xFFFFFFFF, 0]
    | some (k, extra, value) => [word k, word (extra + value * 2 ^ 8)]

/-- The result words of a literal: its byte, no extra bits, no distance. -/
theorem TermCodes.words_lit (b : Byte) :
    TermCodes.words { sym := b.toNat, extra := 0, value := 0, dist := none } = [word b.toNat, 0, 0xFFFFFFFF, 0] := by
  simp [TermCodes.words, word]

/-- `TM.MAP` of the word of a term in range answers the term's codes. -/
theorem exec_tmMap {t : Term} {c : TermCodes} (h : t.Valid) (hc : t.codes = some c) (s : State) :
    exec (.tmMap t.word) s = .next (s.answer .ok c.words []) := by
  have hbind : (termOfWord t.word).bind Term.codes = some c := by rw [termOfWord_word h, Option.bind_some, hc]
  obtain ⟨sym, extra, value, dist⟩ := c
  simp only [exec, execTmMap, hbind]
  cases dist <;> rfl

/-- Settles O37: the codes of a literal by definition, those of a match by the decades that hold its run and its distance. -/
theorem tmMap : Obligations.TmMap := by
  refine ⟨fun term s => ⟨encode_eq 0x50 0 rfl rfl rfl, fun h => ?_⟩, fun b s => ?_,
    fun run dist s hrun hrun' hdist hdist' => ?_⟩
  · exact exec_refuses_illegal_operand (.tmMap term) s h (.inr (by simp [Instr.op]))
  · exact TermCodes.words_lit b ▸ exec_tmMap (t := .lit b) trivial rfl s
  · obtain ⟨l, dl, hl, hdl, hbase, htop⟩ := runSymbol_spec hrun hrun'
    obtain ⟨k, dk, hk, hdk, hbase', htop'⟩ := distSymbol_spec hdist hdist'
    have hfit := runDecades_extra dl (List.mem_of_getElem? hdl)
    have hfit' := distDecades_extra dk (List.mem_of_getElem? hdk)
    have hlast : run = 258 → l = 28 := by
      rintro rfl
      simp only [runSymbol_258, Option.some.injEq, Prod.mk.injEq] at hl
      omega
    exact ⟨l, k, dl, dk, exec_tmMap (t := .copy run dist) ⟨hrun, hrun', hdist, hdist'⟩ (Term.codes_copy hl hk) s,
      hdl, hbase, htop, by omega, hlast, hdk, hbase', htop', by omega⟩

end Sys2Proof.Machine
end

section
/-! PROOF. `BR.STEP` by the end of its state step (spec/45_block_reader.md R480, R481, R486): what the command answers for a step that
commits, waits, raises or is refused, and what the fields of a step read where the input holds them. -/

namespace Sys2Proof.Machine

variable {s : State} {r : Reader} {d : Decompressor}

/-! ## `BR.STEP` by the end of its state step -/

/-- A state step is made only while a stream is in progress. -/
theorem streaming_of_stateStep {x : Txn Reader} (h : stateStep r = some x) : r.d.streaming = true := by
  unfold stateStep at h
  unfold Decompressor.streaming
  cases hs : r.d.state <;> simp [hs] at h ⊢

theorem isOpen_of_streaming (h : d.streaming = true) : d.isOpen = true := by
  unfold Decompressor.streaming at h
  cases hs : d.state <;> simp [hs, Decompressor.isOpen] at h ⊢

theorem state_ne_error_of_streaming (h : d.streaming = true) : d.state ≠ .error := by
  intro hs
  simp [Decompressor.streaming, hs] at h

/-- `BR.STEP` on an open, undisturbed decompressor answers what its turn does. -/
theorem exec_brStep (hopen : s.d.isOpen = true) (hd : s.d.disturbed = false) :
    exec .brStep s = s.finish (brStep s.reader >>= fun a =>
      pure ((s.withReader a.reader).answer a.status (if s.d.state = .error then [] else [a.reader.d.state.code]) [])) := by
  refine (finish_opened hopen).trans ?_
  rw [hd]
  rfl

/-- `BR.STEP` where there is a state step and its turn answers. -/
theorem exec_brStep_of_turn {x : Txn Reader} {a : StepAnswer} (hd : s.d.disturbed = false) (hx : stateStep s.reader = some x)
    (ha : brStep s.reader = .ok a) :
    exec .brStep s = .next ((s.withReader a.reader).answer a.status [a.reader.d.state.code] []) := by
  have hs := streaming_of_stateStep hx
  have hne : s.d.state ≠ .error := state_ne_error_of_streaming hs
  rw [exec_brStep (isOpen_of_streaming hs) hd, ha, ok_bind, if_neg hne, pure_eq_ok, finish_ok]

/-- A step that commits (spec/45_block_reader.md R486). -/
theorem exec_brStep_commits (hd : s.d.disturbed = false) (h : stateStep s.reader = some (.ok r)) :
    exec .brStep s = .next ((s.withReader r).answer (if r.d.state = .streamEnd then .finished else .ok) [r.d.state.code] []) :=
  exec_brStep_of_turn (a := ⟨r, _⟩) hd h (by rw [brStep, h]; rfl)

/-- A step that runs out of input changes nothing (spec/45_block_reader.md R481). -/
theorem exec_brStep_waits (hd : s.d.disturbed = false) (h : stateStep s.reader = some (.error .needInput)) :
    exec .brStep s = .next (s.answer .needInput [s.d.state.code] []) :=
  exec_brStep_of_turn (a := ⟨s.reader, _⟩) hd h (by rw [brStep, h])

/-- A step that raises enters the error state (spec/60_exceptions.md R603). -/
theorem exec_brStep_raises {e : DecodeError} (hd : s.d.disturbed = false) (h : stateStep s.reader = some (.error (.error e))) :
    exec .brStep s = .next (({ s with d := { s.d with state := .error, err := some e } } : State).answer (.error e) [8] []) :=
  exec_brStep_of_turn (a := ⟨{ s.reader with d := s.d.raise e }, _⟩) hd h (by rw [brStep, h]; rfl)

/-- A step that is refused refuses the command (spec/60_exceptions.md R606). -/
theorem exec_brStep_refuses {q : Reason} (hd : s.d.disturbed = false) (h : stateStep s.reader = some (.error (.refuse q))) :
    Refuses (exec .brStep s) q := by
  rw [exec_brStep (isOpen_of_streaming (streaming_of_stateStep h)) hd]
  exact refuses_first (by rw [brStep, h]; rfl)

/-! ## Fields and checks of a step -/

/-- Bits that are there are read (spec/45_block_reader.md R480). -/
theorem Decompressor.bits_ok {n : Nat} (h : d.cur + n ≤ d.valid) :
    d.bits n = .ok (bitsAt d.input d.cur n, { d with cur := d.cur + n }) := if_neg (by omega)

/-- Bits that are not all there end the step (spec/45_block_reader.md R481). -/
theorem Decompressor.bits_waits {n : Nat} (h : d.valid < d.cur + n) : d.bits n = .error .needInput := if_pos h

/-- Byte fields that are there are read in order. -/
theorem Decompressor.byteFields_ok {n : Nat} (h : d.cur + 8 * n ≤ d.valid) : d.byteFields n =
    .ok ((List.range n).map (fun k => bitsAt d.input (d.cur + 8 * k) 8), { d with cur := d.cur + 8 * n }) := by
  induction n generalizing d with
  | zero => rfl
  | succ n ih =>
    have hrest : d.cur + 8 + 8 * n ≤ d.valid := by omega
    have hshift : ∀ k, d.cur + 8 + 8 * k = d.cur + 8 * (k + 1) := by omega
    rw [Decompressor.byteFields, Decompressor.bits_ok (by omega), ok_bind]
    simp [ih (d := { d with cur := d.cur + 8 }) hrest, List.range_succ_eq_map, hshift]

/-- Byte fields that are not all there end the step. -/
theorem Decompressor.byteFields_waits {n : Nat} (h : d.valid < d.cur + 8 * n) (hcur : d.cur ≤ d.valid) :
    d.byteFields n = .error .needInput := by
  induction n generalizing d with
  | zero => omega
  | succ n ih =>
    rw [Decompressor.byteFields]
    by_cases hfirst : d.valid < d.cur + 8
    · rw [Decompressor.bits_waits hfirst, error_bind]
    · have hrest : d.valid < d.cur + 8 + 8 * n := by omega
      have hcur' : d.cur + 8 ≤ d.valid := by omega
      rw [Decompressor.bits_ok hcur', ok_bind]
      simp [ih (d := { d with cur := d.cur + 8 }) hrest hcur']

end Sys2Proof.Machine
end

section
/-! PROOF. The stream header (spec/45_block_reader.md R490 to R492): a header waits for its bytes or makes its checks in order, and from
both the `STREAM_START` step. -/

namespace Sys2Proof.Machine

variable {s : State} {d : Decompressor}

/-! ## The headers -/

/-- The `STREAM_START` step is the header of the stream's format. -/
theorem stateStep_streamStart (hs : s.d.state = .streamStart) :
    stateStep s.reader = some (streamHeader s.d >>= fun d => pure { s.reader with d := d }) := by
  rw [stateStep, State.reader_d, hs]
  rfl

/-- A zlib header waits for its two bytes (spec/45_block_reader.md R490). -/
theorem zlibHeader_waits (h : d.valid < d.cur + 16) : zlibHeader d = .error .needInput := by
  rw [zlibHeader]
  by_cases hfirst : d.valid < d.cur + 8
  · rw [Decompressor.bits_waits hfirst, error_bind]
  · have hsecond : d.valid < d.cur + 8 + 8 := by omega
    rw [Decompressor.bits_ok (by omega), ok_bind]
    dsimp only
    rw [Decompressor.bits_waits (d := { d with cur := d.cur + 8 }) hsecond, error_bind]

/-- The checks of a zlib header of the bytes `cmf` and `flg`, in order, and the step's end (spec/45_block_reader.md R490). -/
def zlibChecks (cmf flg : Nat) (d : Decompressor) : Txn Decompressor := do
  raiseIf (cmf % 16 != 8) .invalidCompressionMethod
  raiseIf (decide (7 < cmf / 16)) .invalidWindowExponent
  raiseIf ((cmf * 256 + flg) % 31 != 0) .invalidHeaderCheckBits
  raiseIf (flg / 32 % 2 == 1) .unexpectedPresetDictionary
  pure { d with state := .blockStart, cur := d.cur + 16 }

/-- A zlib header whose two bytes are there makes its checks. -/
theorem zlibHeader_present (h : d.cur + 16 ≤ d.valid) :
    zlibHeader d = zlibChecks (bitsAt d.input d.cur 8) (bitsAt d.input (d.cur + 8) 8) d := by
  have hsecond : d.cur + 8 + 8 ≤ d.valid := by omega
  rw [zlibHeader, Decompressor.bits_ok (by omega), ok_bind]
  dsimp only
  rw [Decompressor.bits_ok (d := { d with cur := d.cur + 8 }) hsecond, ok_bind]
  rfl

/-- A gzip header waits for its ten bytes (spec/45_block_reader.md R491). -/
theorem gzipHeader_waits (h : d.valid < d.cur + 80) (hcur : d.cur ≤ d.valid) : gzipHeader d = .error .needInput := by
  rw [gzipHeader, Decompressor.byteFields_waits h hcur, error_bind]

/-- The checks of a gzip header of the bytes `byte 0` to `byte 9`, in order, and the step's end (spec/45_block_reader.md R491). -/
def gzipChecks (byte : Nat → Nat) (d : Decompressor) : Txn Decompressor := do
  raiseIf (byte 0 != 0x1F || byte 1 != 0x8B) .invalidHeaderCheckBits
  raiseIf (byte 2 != 8) .invalidCompressionMethod
  raiseIf (byte 3 / 32 != 0) .invalidHeaderCheckBits
  if byte 3 / 2 % 16 ≠ 0 then .error (.refuse .gzipFields) else pure { d with state := .blockStart, cur := d.cur + 80 }

/-- A gzip header whose ten bytes are there makes its checks. -/
theorem gzipHeader_present (h : d.cur + 80 ≤ d.valid) :
    gzipHeader d = gzipChecks (fun k => bitsAt d.input (d.cur + 8 * k) 8) d := by
  rw [gzipHeader, Decompressor.byteFields_ok h, ok_bind]
  rfl

/-- A header that passes moves the cursor past itself and the state to `BLOCK_START`. -/
theorem exec_streamStart_passes {n : Nat} (hs : s.d.state = .streamStart) (hd : s.d.disturbed = false)
    (h : streamHeader s.d = .ok { s.d with state := .blockStart, cur := s.d.cur + n }) : exec .brStep s =
      .next (({ s with d := { s.d with state := .blockStart, cur := s.d.cur + n } } : State).answer .ok [2] []) :=
  exec_brStep_commits (r := { s.reader with d := { s.d with state := .blockStart, cur := s.d.cur + n } }) hd
    (by rw [stateStep_streamStart hs, h]; rfl)

/-- A header whose bytes are not all there changes nothing. -/
theorem exec_streamStart_waits (hs : s.d.state = .streamStart) (hd : s.d.disturbed = false)
    (h : streamHeader s.d = .error .needInput) : exec .brStep s = .next (s.answer .needInput [1] []) := by
  rw [exec_brStep_waits hd (by rw [stateStep_streamStart hs, h]; rfl), hs]
  rfl

/-- A header that fails a check enters the error state. -/
theorem exec_streamStart_raises {e : DecodeError} (hs : s.d.state = .streamStart) (hd : s.d.disturbed = false)
    (h : streamHeader s.d = .error (.error e)) : exec .brStep s =
      .next (({ s with d := { s.d with state := .error, err := some e } } : State).answer (.error e) [8] []) :=
  exec_brStep_raises hd (by rw [stateStep_streamStart hs, h]; rfl)

/-- A header that asks for what the core leaves out is refused (spec/60_exceptions.md R606). -/
theorem exec_streamStart_refuses {q : Reason} (hs : s.d.state = .streamStart) (hd : s.d.disturbed = false)
    (h : streamHeader s.d = .error (.refuse q)) : Refuses (exec .brStep s) q :=
  exec_brStep_refuses hd (by rw [stateStep_streamStart hs, h]; rfl)

/-- The header is the one of the format. -/
theorem streamHeader_zlib (h : d.format = .zlib) : streamHeader d = zlibHeader d := by rw [streamHeader, h]

theorem streamHeader_gzip (h : d.format = .gzip) : streamHeader d = gzipHeader d := by rw [streamHeader, h]

theorem streamHeader_raw (h : d.format = .raw) : streamHeader d = .ok { d with state := .blockStart } := by
  rw [streamHeader, h]
  rfl

end Sys2Proof.Machine

namespace Sys2Proof.BlockReader

open Sys2Proof.Machine

/-- Settles O44: a header that is there makes its checks in their order, and the first that fails decides. -/
theorem streamHeader : Obligations.StreamHeader := by
  intro s hs hd hcur byte fails passes
  have hzlib : 16 ≤ s.d.valid - s.d.cur → zlibHeader s.d = zlibChecks (byte 0) (byte 1) s.d :=
    fun h => zlibHeader_present (by omega)
  have hgzip : 80 ≤ s.d.valid - s.d.cur → gzipHeader s.d = gzipChecks byte s.d := fun h => gzipHeader_present (by omega)
  clear_value byte
  refine ⟨fun hf => ?_, fun hf h => ?_, fun hf h => ?_, fun hf h => ?_, fun hf h => ?_⟩
  · exact exec_streamStart_passes hs hd (streamHeader_raw hf)
  · exact exec_streamStart_waits hs hd ((streamHeader_zlib hf).trans (zlibHeader_waits (by omega)))
  · have hhead := (streamHeader_zlib hf).trans (hzlib h)
    refine ⟨fun h1 => ?_, fun h1 h2 => ?_, fun h1 h2 h3 => ?_, fun h1 h2 h3 h4 => ?_, fun h1 h2 h3 h4 => ?_⟩
    · exact exec_streamStart_raises hs hd (hhead.trans (by simp [zlibChecks, bne_iff_ne.mpr h1]))
    · exact exec_streamStart_raises hs hd (hhead.trans (by simp [zlibChecks, h1, h2]))
    · exact exec_streamStart_raises hs hd (hhead.trans (by simp [zlibChecks, h1, h2.not_gt, bne_iff_ne.mpr h3]))
    · exact exec_streamStart_raises hs hd (hhead.trans (by simp [zlibChecks, h1, h2.not_gt, h3, h4]))
    · exact exec_streamStart_passes hs hd (hhead.trans (by simp [zlibChecks, h1, h2.not_gt, h3, h4]))
  · exact exec_streamStart_waits hs hd ((streamHeader_gzip hf).trans (gzipHeader_waits (by omega) hcur))
  · have hhead := (streamHeader_gzip hf).trans (hgzip h)
    refine ⟨fun h0 => ?_, fun h0 h1 h2 => ?_, fun h0 h1 h2 h3 => ?_, fun h0 h1 h2 h3 h4 => ?_, fun h0 h1 h2 h3 => ?_⟩
    · exact exec_streamStart_raises hs hd (hhead.trans (by
        simp [gzipChecks, show (byte 0 != 0x1F || byte 1 != 0x8B) = true by simpa using h0]))
    · exact exec_streamStart_raises hs hd (hhead.trans (by simp [gzipChecks, h0, h1, bne_iff_ne.mpr h2]))
    · exact exec_streamStart_raises hs hd (hhead.trans (by simp [gzipChecks, h0, h1, h2, bne_iff_ne.mpr h3]))
    · have hfields : byte 3 / 2 % 16 ≠ 0 := by omega
      exact exec_streamStart_refuses hs hd (hhead.trans (by simp [gzipChecks, h0, h1, h2, h3, hfields]))
    · have hreserved : byte 3 / 32 = 0 := by omega
      exact exec_streamStart_passes hs hd (hhead.trans (by simp [gzipChecks, h0, h1, h2, h3, hreserved]))

end Sys2Proof.BlockReader
end

section
/-! PROOF. The stored block (spec/45_block_reader.md R520): the copy loop emits the whole bytes under the cursor, and from it the
`BLOCK_UNCOMPRESSED` step. -/

namespace Sys2Proof.Machine

variable {s : State} {d : Decompressor}

/-! ## Bytes under an aligned cursor -/

/-- Bit `j` of the `n` stream bits from `off` on (spec/00_scope.md R10, R11). -/
theorem testBit_bitsAt (bytes : List Byte) (off n j : Nat) :
    (bitsAt bytes off n).testBit j = (decide (j < n) && bitAt bytes (off + j)) := by
  induction n generalizing off j with
  | zero => simp [bitsAt]
  | succ n ih =>
    rw [bitsAt, testBit_bit_add]
    cases j with
    | zero => simp
    | succ j => simp [ih, Nat.add_assoc, Nat.add_comm 1]

/-- Eight bits from a byte boundary on are the byte there (spec/00_scope.md R10). -/
theorem bitsAt_byte (bytes : List Byte) {off : Nat} (h : off % 8 = 0) :
    BitVec.ofNat 8 (bitsAt bytes off 8) = bytes.getD (off / 8) 0 := by
  refine BitVec.eq_of_getLsbD_eq fun j hj => ?_
  have hdiv : (off + j) / 8 = off / 8 := by omega
  have hmod : (off + j) % 8 = j := by omega
  rw [BitVec.getLsbD_ofNat, testBit_bitsAt, bitAt, hdiv, hmod]
  simp [hj]

/-- Of the bytes from index `i` on, the first and then the others. -/
theorem take_succ_drop {bytes : List Byte} {i k : Nat} (h : i < bytes.length) :
    (bytes.drop i).take (k + 1) = bytes.getD i 0 :: (bytes.drop (i + 1)).take k := by
  rw [List.drop_eq_getElem_cons h, List.take_succ_cons, List.getD_eq_getElem _ _ h]

/-! ## The copy -/

/-- The copy loop over bytes that are there: it emits them in order, and writes no slot of `HIST` but those of the bytes it emits
(spec/45_block_reader.md R482, R520). -/
theorem storedLoop_ok {k : Nat} (halign : d.cur % 8 = 0) (h : d.cur + 8 * k ≤ d.valid) : ∃ hist, storedLoop k d = .ok { d with
      out := d.out ++ (d.input.drop (d.cur / 8)).take k, total := d.total + k, cur := d.cur + 8 * k
      check := checkOver d.format d.check ((d.input.drop (d.cur / 8)).take k), hist := hist }
    ∧ ∀ a, (∀ p, d.total ≤ p → p < d.total + k → p % 32768 ≠ a) → hist.read a = d.hist.read a := by
  induction k generalizing d with
  | zero => exact ⟨d.hist, by simp [storedLoop], fun _ _ => rfl⟩
  | succ k ih =>
    have hin : d.cur / 8 < d.input.length := by
      simp only [Decompressor.valid] at h
      omega
    have halign' : (d.cur + 8) % 8 = 0 := by omega
    have hrest : d.cur + 8 + 8 * k ≤ d.valid := by omega
    have hnext : (d.cur + 8) / 8 = d.cur / 8 + 1 := by omega
    obtain ⟨hist, hloop, hframe⟩ :=
      ih (d := ({ d with cur := d.cur + 8 } : Decompressor).emit (d.input.getD (d.cur / 8) 0)) halign' hrest
    simp only [Decompressor.emit_total] at hframe
    refine ⟨hist, ?_, fun a ha => ?_⟩
    · rw [storedLoop, Decompressor.bits_ok (by omega), ok_bind]
      dsimp only
      rw [bitsAt_byte _ halign, hloop, take_succ_drop hin]
      simp [hnext, Nat.add_assoc, Nat.add_comm 1, Nat.mul_add, Nat.add_comm 8, ← checkOver_append, Decompressor.emit]
    · rw [hframe a fun p hlo hhi => ha p (by omega) (by omega)]
      exact Memory.read_write_other _ (Ne.symm (ha d.total (by omega) (by omega))) _

/-! ## The step -/

/-- The bytes the step copies: the whole ones present, up to those left of the block (spec/45_block_reader.md R520). -/
def Decompressor.storedNow (d : Decompressor) : Nat := min d.storedLeft.toNat ((d.valid - d.cur) / 8)

/-- With bytes left and none present the step waits. -/
theorem stepUncompressed_waits {r : Reader} (hleft : 0 < r.d.storedLeft.toNat) (hk : r.d.storedNow = 0) :
    stepUncompressed r = .error .needInput := by
  have hne : r.d.storedLeft ≠ 0 := fun h => by simp [h] at hleft
  rw [stepUncompressed, if_neg hne]
  exact if_pos hk

/-- With bytes left and one present the step copies, then ends the block if nothing is left. -/
theorem stepUncompressed_copies {r : Reader} (hleft : r.d.storedLeft ≠ 0) (hk : r.d.storedNow ≠ 0) :
    stepUncompressed r = storedLoop r.d.storedNow r.d >>= fun d =>
      let d := { d with storedLeft := d.storedLeft - BitVec.ofNat 16 r.d.storedNow }
      pure { r with d := if d.storedLeft = 0 then d.endOfBlock else d } :=
  (if_neg hleft).trans (if_neg hk)

/-- The step on an empty remainder, or with a byte present: what it writes, and where it goes. -/
theorem stepUncompressed_ok {r : Reader} (hs : r.d.state = .blockUncompressed) (halign : r.d.cur % 8 = 0)
    (hcur : r.d.cur ≤ r.d.valid) (h : r.d.storedLeft = 0 ∨ 0 < r.d.storedNow) : ∃ hist, stepUncompressed r = .ok { r with d := { r.d with
      out := r.d.out ++ (r.d.input.drop (r.d.cur / 8)).take r.d.storedNow, total := r.d.total + r.d.storedNow
      cur := r.d.cur + 8 * r.d.storedNow, storedLeft := r.d.storedLeft - BitVec.ofNat 16 r.d.storedNow
      check := checkOver r.d.format r.d.check ((r.d.input.drop (r.d.cur / 8)).take r.d.storedNow), hist := hist
      state := if r.d.storedNow = r.d.storedLeft.toNat then afterBlock r.d else .blockUncompressed } }
    ∧ ∀ a, (∀ p, r.d.total ≤ p → p < r.d.total + r.d.storedNow → p % 32768 ≠ a) → hist.read a = r.d.hist.read a := by
  have hle : r.d.storedNow ≤ r.d.storedLeft.toNat := Nat.min_le_left _ _
  have hthere : r.d.cur + 8 * r.d.storedNow ≤ r.d.valid := by
    unfold Decompressor.storedNow
    omega
  by_cases hleft : r.d.storedLeft = 0
  · have hk : r.d.storedNow = 0 := by simpa [hleft] using hle
    refine ⟨r.d.hist, ?_, fun _ _ => rfl⟩
    rw [stepUncompressed, if_pos hleft]
    simp [hk, hleft, Decompressor.endOfBlock, afterBlock]
  · have hk : r.d.storedNow ≠ 0 := (h.resolve_left hleft).ne'
    obtain ⟨hist, hloop, hframe⟩ := storedLoop_ok halign hthere
    have hdone : r.d.storedLeft - BitVec.ofNat 16 r.d.storedNow = 0 ↔ r.d.storedNow = r.d.storedLeft.toNat := by
      rw [← BitVec.toNat_inj, storedLeft_sub hle]
      simp
      omega
    refine ⟨hist, ?_, hframe⟩
    rw [stepUncompressed_copies hleft hk, hloop, ok_bind]
    dsimp only
    by_cases hall : r.d.storedNow = r.d.storedLeft.toNat
    · rw [if_pos (hdone.mpr hall), if_pos hall]
      rfl
    · rw [if_neg (mt hdone.mp hall), if_neg hall, ← hs]
      rfl

/-- Settles O47: the copy loop by induction on the bytes present; the count left is zero after it exactly when all were. -/
theorem storedCopy : Obligations.StoredCopy := by
  intro s hs hd halign hcur k moved
  have hstep : stateStep s.reader = some (stepUncompressed s.reader) := by rw [stateStep, State.reader_d, hs]
  refine ⟨fun hleft hk => ?_, fun h => ?_⟩
  · have hwait := exec_brStep_waits hd (hstep.trans (congrArg some (stepUncompressed_waits hleft hk)))
    rwa [hs] at hwait
  · obtain ⟨hist, hok, hframe⟩ := stepUncompressed_ok (r := s.reader) hs halign hcur h
    refine ⟨_, exec_brStep_commits hd (hstep.trans (congrArg some hok)), ?_, hframe⟩
    have hstatus : (if (if k = s.d.storedLeft.toNat then afterBlock s.d else .blockUncompressed) = DState.streamEnd
        then Status.finished else .ok)
        = if k = s.d.storedLeft.toNat ∧ afterBlock s.d = .streamEnd then .finished else .ok := by
      by_cases hall : k = s.d.storedLeft.toNat <;> simp [hall]
    rw [← hstatus]
    rfl

end Sys2Proof.Machine
end

section
/-! PROOF. The transitions of `D_STATE` (spec/45_block_reader.md R485): what every answer of a computation meets, the frame of the
commands that run no state step, and where each state step goes. -/

namespace Sys2Proof.Machine

/-! ## What every answer meets -/

/-- Whatever the computation answers meets `Q`; it may also stop. -/
def Answers {ε α : Type} (x : Except ε α) (Q : α → Prop) : Prop := ∀ a, x = .ok a → Q a

section Answers

variable {ε α β : Type} {x : Except ε α} {f : α → Except ε β} {Q : β → Prop}

theorem Answers.ok {b : β} (h : Q b) : Answers (Except.ok b : Except ε β) Q := fun _ hb => by cases hb; exact h

theorem Answers.error {e : ε} : Answers (Except.error e : Except ε β) Q := fun _ hb => by cases hb

theorem Answers.bind {R : α → Prop} (h : Answers x R) (hf : ∀ a, R a → Answers (f a) Q) : Answers (x >>= f) Q := fun b hb => by
  obtain ⟨a, ha, hb⟩ := bind_eq_ok.mp hb
  exact hf a (h a ha) b hb

/-- A first part whose answer does not matter. -/
theorem Answers.after (hf : ∀ a, Answers (f a) Q) : Answers (x >>= f) Q :=
  Answers.bind (R := fun _ => True) (fun _ _ => trivial) fun a _ => hf a

theorem Answers.mono {y : Except ε β} {R : β → Prop} (h : Answers y R) (hq : ∀ b, R b → Q b) : Answers y Q :=
  fun b hb => hq b (h b hb)

end Answers

/-- What an accepted command leaves meets what every answer of its computation does. -/
theorem Accepts.answers {i : Instr} {s t : State} {x : Run State} {Q : State → Prop} (h : Accepts i s t) (hx : exec i s = s.finish x)
    (hq : Answers x Q) : Q t := by
  obtain ⟨hexec, hstatus⟩ := h
  rcases finish_eq_next.mp (hx.symm.trans hexec) with hok | ⟨q, -, rfl⟩
  · exact hq t hok
  · exact absurd (State.refuse_status s q) hstatus

/-! ## The decompressor's side under the compressor's work -/

theorem SameDecompressor.refl (s : State) : SameDecompressor s s := ⟨rfl, rfl, rfl⟩

theorem SameDecompressor.trans {a b c : State} (x : SameDecompressor a b) (y : SameDecompressor b c) : SameDecompressor a c :=
  ⟨x.d.trans y.d, x.bc.trans y.bc, x.dec.trans y.dec⟩

section Compressor

variable (P : Params)

theorem writeDynamic_sameDecompressor (final : Bool) (s : State) : Answers (writeDynamic P final s) (SameDecompressor s) :=
  .after fun _ => .after fun _ => .after fun _ => .after fun _ => .ok ⟨rfl, rfl, rfl⟩

theorem finalBlock_sameDecompressor (s : State) : Answers (finalBlock P s) (SameDecompressor s) := by
  unfold finalBlock
  split
  · exact .ok ⟨rfl, rfl, rfl⟩
  · exact writeDynamic_sameDecompressor P true s

theorem parseStep_sameDecompressor (s : State) : Answers (parseStep P s) (fun p => SameDecompressor s p.1) :=
  .after fun _ => .after fun _ => .ok ⟨rfl, rfl, rfl⟩

theorem endBlockIfFull_sameDecompressor (s : State) : Answers (endBlockIfFull P s) (SameDecompressor s) := by
  unfold endBlockIfFull
  split
  · exact writeDynamic_sameDecompressor P false s
  · exact .ok (.refl s)

theorem driveTerms_sameDecompressor (fuel : Nat) (s : State) : Answers (driveTerms P fuel s) (SameDecompressor s) := by
  induction fuel generalizing s with
  | zero => exact .error
  | succ fuel ih =>
    unfold driveTerms
    split
    · exact .ok (.refl s)
    · split
      · exact .ok (.refl s)
      · exact (endBlockIfFull_sameDecompressor P s).bind fun t ht => (parseStep_sameDecompressor P t).bind fun p hp =>
          (ih p.1).mono fun u hu => (ht.trans hp).trans hu

theorem graphOver_sameDecompressor (n : Nat) (s : State) : Answers (graphOver P n s) (SameDecompressor s) :=
  .after fun _ => .after fun _ => .ok ⟨rfl, rfl, rfl⟩

theorem minimizeOnce_sameDecompressor (s : State) : Answers (minimizeOnce P s) (fun p => SameDecompressor s p.1) :=
  .after fun _ => .after fun _ => .after fun _ => .after fun _ => .after fun _ => .ok ⟨rfl, rfl, rfl⟩

theorem minimizeTimes_sameDecompressor (k : Nat) (s : State) : Answers (minimizeTimes P k s) (SameDecompressor s) := by
  induction k generalizing s with
  | zero => exact .ok (.refl s)
  | succ k ih => exact .after fun _ => (minimizeOnce_sameDecompressor P s).bind fun p hp => (ih p.1).mono fun _ hu => hp.trans hu

theorem segment_sameDecompressor (n : Nat) (final : Bool) (s : State) : Answers (segment P n final s) (SameDecompressor s) :=
  (graphOver_sameDecompressor P n s).bind fun t ht => (minimizeTimes_sameDecompressor P _ t).bind fun u hu =>
    (writeDynamic_sameDecompressor P final u).bind fun _ hv => .ok ((ht.trans hu).trans (hv.trans ⟨rfl, rfl, rfl⟩))

theorem driveGraphs_sameDecompressor (fuel : Nat) (s : State) : Answers (driveGraphs P fuel s) (SameDecompressor s) := by
  induction fuel generalizing s with
  | zero => exact .error
  | succ fuel ih =>
    unfold driveGraphs
    dsimp only
    split
    · exact .ok (.refl s)
    · split
      · exact .ok (.refl s)
      · split
        · exact (finalBlock_sameDecompressor P _).mono fun _ ht => ⟨ht.d, ht.bc, ht.dec⟩
        · exact (segment_sameDecompressor P _ _ s).bind fun t ht => (ih t).mono fun _ hu => ht.trans hu

theorem drive_sameDecompressor (s : State) : Answers (drive P s) (SameDecompressor s) := by
  have hlast : ∀ (t : State) (c : Prop) [Decidable c], SameDecompressor s t →
      Answers (if c then finalBlock P t else pure t) (SameDecompressor s) := by
    intro t c _ ht
    split
    · exact (finalBlock_sameDecompressor P t).mono fun _ hu => ht.trans hu
    · exact .ok ht
  unfold drive
  dsimp only
  split
  · exact (driveGraphs_sameDecompressor P _ s).bind fun t ht => hlast t _ ht
  · exact (driveTerms_sameDecompressor P _ s).bind fun t ht => hlast t _ ht

theorem pushInput_sameDecompressor (last : Bool) (bytes : List Byte) (s : State) :
    Answers (pushInput P last bytes s) (SameDecompressor s) :=
  (drive_sameDecompressor P _).bind fun t ht => by
    cases last
    · exact .ok ⟨ht.d, ht.bc, ht.dec⟩
    · exact .ok ⟨ht.d, ht.bc, ht.dec⟩

end Compressor

theorem State.popChunk_sameDecompressor (s : State) : SameDecompressor s s.popChunk := by
  unfold State.popChunk
  split <;> exact ⟨rfl, rfl, rfl⟩

/-- An accepted command of the compressor's side leaves the decompressor's side as it was (spec/10_state.md R30). -/
theorem Accepts.sameDecompressor {i : Instr} {s t : State} (h : Accepts i s t) (hi : compressorSide i = true) :
    SameDecompressor s t := by
  cases i with
  | bsInit _ | bsPad | bsPull | wnInit _ | wnFeed _ | tmGeneralize | cPull =>
    exact h.answers rfl (.after fun _ => .ok ⟨rfl, rfl, rfl⟩)
  | bsPop | cPop => exact h.answers rfl (.after fun _ => .ok s.popChunk_sameDecompressor)
  | bsAppend _ _ | bwStored _ _ | cNew _ _ _ _ => exact h.answers rfl (.after fun _ => .after fun _ => .ok ⟨rfl, rfl, rfl⟩)
  | wnUpdate byte =>
    refine h.answers rfl (.after fun _ => .after fun w => ?_)
    dsimp only
    split
    · exact .ok ⟨rfl, rfl, rfl⟩
    · split <;> exact .ok ⟨rfl, rfl, rfl⟩
  | wnMatch _ _ _ | wnMatchd _ _ _ =>
    refine h.answers rfl (.after fun _ => .after fun m => ?_)
    cases m <;> exact .ok ⟨rfl, rfl, rfl⟩
  | tmMap term =>
    refine h.answers rfl ?_
    split
    · exact .error
    · split <;> exact .ok ⟨rfl, rfl, rfl⟩
  | tmStep =>
    refine h.answers rfl (.after fun _ => .after fun _ => ?_)
    split
    · exact .ok ⟨rfl, rfl, rfl⟩
    · split
      · exact .ok ⟨rfl, rfl, rfl⟩
      · exact (parseStep_sameDecompressor _ s).bind fun _ hp => .ok ⟨hp.d, hp.bc, hp.dec⟩
  | tmGraph n =>
    exact h.answers rfl (.after fun _ => (graphOver_sameDecompressor _ _ s).bind fun _ hu => .ok ⟨hu.d, hu.bc, hu.dec⟩)
  | tmMinimize =>
    exact h.answers rfl (.after fun _ => (minimizeOnce_sameDecompressor _ s).bind fun _ hp => .ok ⟨hp.d, hp.bc, hp.dec⟩)
  | bwDynamic final =>
    exact h.answers rfl (.after fun _ => (writeDynamic_sameDecompressor _ final s).bind fun _ hu => .ok ⟨hu.d, hu.bc, hu.dec⟩)
  | cPush last bytes =>
    exact h.answers rfl (.after fun _ => .after fun _ => (pushInput_sameDecompressor _ last bytes s).bind fun _ hu =>
      .ok ⟨hu.d, hu.bc, hu.dec⟩)
  | hfEncode _ _ =>
    refine h.answers rfl (.after fun _ => .after fun _ => .after fun _ => .after fun _ => .after fun e => ?_)
    split <;> exact .ok ⟨rfl, rfl, rfl⟩
  | bcNew _ | bcRebase _ _ | bcRead _ _ | hfBuild _ _ | hfLoad _ _ | hfDecode _ _ _ | brStep | dNew _ | dPush _ | dPulln _ | dPull
  | ckAdler _ _ | ckCrc32 _ _ => simp [compressorSide] at hi

/-- No accepted command but `D.NEW`, `D.PUSH` and `BR.STEP` moves the state of an undisturbed decompressor
(spec/45_block_reader.md R485). -/
theorem Accepts.keeps_dState {i : Instr} {s t : State} (h : Accepts i s t) (hd : s.d.disturbed = false)
    (hi : i.op ≠ .dNew ∧ i.op ≠ .dPush ∧ i.op ≠ .brStep) : t.d.state = s.d.state := by
  have hkeep : ∀ x, exec i s = s.finish x → Answers x (fun t => t.d.state = s.d.state) → t.d.state = s.d.state :=
    fun _ hx hq => h.answers hx hq
  by_cases hside : compressorSide i = true
  · rw [← (h.sameDecompressor hside).d]
  · cases i with
    | bcNew _ | ckAdler _ _ | ckCrc32 _ _ =>
      obtain ⟨hexec, -⟩ := h
      cases hexec
      rfl
    | hfBuild _ _ => exact hkeep _ rfl (.after fun _ => .ok rfl)
    | hfLoad _ _ => exact hkeep _ rfl (.after fun _ => .after fun _ => .ok rfl)
    | bcRebase _ _ => exact hkeep _ rfl (.after fun _ => .after fun _ => .after fun _ => .ok rfl)
    | bcRead _ _ =>
      exact hkeep _ rfl (.after fun _ => .after fun _ => .after fun _ => .after fun _ => .after fun _ => .ok rfl)
    | hfDecode _ _ _ =>
      refine hkeep _ rfl (.after fun _ => .after fun _ => .after fun _ => .after fun _ => .after fun _ => ?_)
      split <;> exact .ok rfl
    | dPulln _ =>
      refine hkeep _ rfl (.after fun _ => ?_)
      rw [hd, if_neg Bool.false_ne_true]
      split <;> exact .ok rfl
    | dPull =>
      refine hkeep _ rfl (.after fun _ => ?_)
      rw [hd, if_neg Bool.false_ne_true]
      exact .ok rfl
    | dNew _ | dPush _ | brStep => simp [Instr.op] at hi
    | _ => exact absurd rfl hside

/-! ## Where a state step goes -/

/-- The registers that say where a step goes (spec/45_block_reader.md R485, R516), carried along while it reads. -/
structure SameCourse (d e : Decompressor) : Prop where
  state  : e.state = d.state
  format : e.format = d.format
  final  : e.final = d.final
  btype  : e.btype = d.btype

theorem SameCourse.refl (d : Decompressor) : SameCourse d d := ⟨rfl, rfl, rfl, rfl⟩

theorem SameCourse.trans {a b c : Decompressor} (x : SameCourse a b) (y : SameCourse b c) : SameCourse a c :=
  ⟨y.state.trans x.state, y.format.trans x.format, y.final.trans x.final, y.btype.trans x.btype⟩

theorem Decompressor.bits_sameCourse (d : Decompressor) (n : Nat) : Answers (d.bits n) (fun p => SameCourse d p.2) := by
  unfold Decompressor.bits
  split
  · exact .error
  · exact .ok ⟨rfl, rfl, rfl, rfl⟩

theorem Decompressor.decode_sameCourse (t : Table) (x : DecTable) (e : DecodeError) (d : Decompressor) :
    Answers (d.decode t x e) (fun p => SameCourse d p.2) := by
  unfold Decompressor.decode
  split
  · exact .error
  · split
    · exact .ok ⟨rfl, rfl, rfl, rfl⟩
    · exact .error
    · exact .error

theorem Decompressor.copyLoop_sameCourse (dist n : Nat) (d : Decompressor) :
    Answers (Decompressor.copyLoop dist n d) (SameCourse d) := by
  induction n generalizing d with
  | zero => exact .ok (.refl d)
  | succ n ih =>
    unfold Decompressor.copyLoop
    split
    · exact (ih _).mono fun _ he => ⟨he.state, he.format, he.final, he.btype⟩
    · exact .error

theorem readMetaLens_sameCourse (order : List Nat) (d : Decompressor) :
    Answers (readMetaLens d order) (fun p => SameCourse d p.2) := by
  induction order generalizing d with
  | nil => exact .ok (.refl d)
  | cons m rest ih => exact (d.bits_sameCourse 3).bind fun p hp => (ih p.2).bind fun _ hq => .ok (hp.trans hq)

theorem storedLoop_sameCourse (k : Nat) (d : Decompressor) : Answers (storedLoop k d) (SameCourse d) := by
  induction k generalizing d with
  | zero => exact .ok (.refl d)
  | succ k ih =>
    exact (d.bits_sameCourse 8).bind fun p hp => (ih _).mono fun _ he => hp.trans ⟨he.state, he.format, he.final, he.btype⟩

theorem readMatch_sameCourse (r : Reader) (run : Decade) (d : Decompressor) : Answers (readMatch r run d) (SameCourse d) := by
  refine (d.bits_sameCourse _).bind fun p hp => (Decompressor.decode_sameCourse _ _ _ p.2).bind fun q hq => ?_
  dsimp only
  split
  · exact .error
  · exact (Decompressor.bits_sameCourse q.2 _).bind fun u hu => .after fun _ =>
      (Decompressor.copyLoop_sameCourse _ _ u.2).mono fun _ he => ((hp.trans hq).trans hu).trans he

/-- The end of a block goes where the course of the stream says (spec/45_block_reader.md R516). -/
theorem SameCourse.endOfBlock {d e : Decompressor} (h : SameCourse d e) : e.endOfBlock.state = afterBlock d := by
  rw [Decompressor.endOfBlock_state, h.final, h.format, afterBlock]

theorem stepStreamStart_goes (r : Reader) : Answers (stepStreamStart r) (fun r' => r'.d.state = .blockStart) := by
  have hhead : Answers (streamHeader r.d) (fun d => d.state = .blockStart) := by
    unfold streamHeader
    split
    · exact .after fun _ => .after fun _ => .after fun _ => .after fun _ => .after fun _ => .after fun _ => .ok rfl
    · refine .after fun _ => .after fun _ => .after fun _ => .after fun _ => ?_
      split
      · exact .error
      · exact .ok rfl
    · exact .ok rfl
  exact hhead.bind fun _ hd => .ok hd

theorem storedHeader_goes (d : Decompressor) :
    Answers (storedHeader d) (fun e => e.state = .blockUncompressed ∧ e.btype = d.btype) :=
  (d.align.bits_sameCourse 16).bind fun p hp => (p.2.bits_sameCourse 16).bind fun _ hq => .after fun _ =>
    .ok ⟨rfl, (hp.trans hq).btype⟩

theorem dynamicHeader_goes (r : Reader) :
    Answers (dynamicHeader r) (fun r' => r'.d.state = .blockTables ∧ r'.d.btype = r.d.btype) :=
  (r.d.bits_sameCourse 5).bind fun p hp => (p.2.bits_sameCourse 5).bind fun q hq => (q.2.bits_sameCourse 4).bind fun _ hu =>
    .after fun _ => .after fun _ => (readMetaLens_sameCourse _ _).bind fun _ hv => .after fun _ =>
      .ok ⟨rfl, hv.btype.trans ((hp.trans hq).trans hu).btype⟩

theorem stepBlockStart_goes (r : Reader) : Answers (stepBlockStart r) (fun r' =>
    (r'.d.state = .blockTables ∧ r'.d.btype = 2) ∨ (r'.d.state = .blockCompressed ∧ r'.d.btype = 1)
      ∨ (r'.d.state = .blockUncompressed ∧ r'.d.btype = 0)) := by
  refine .after fun ⟨fin, d⟩ => .after fun ⟨bt, e⟩ => ?_
  dsimp only
  split
  · exact (storedHeader_goes _).bind fun _ he => .ok (.inr (.inr he))
  · exact .ok (.inr (.inl ⟨rfl, rfl⟩))
  · exact (dynamicHeader_goes _).mono fun _ he => .inl he
  · exact .error

theorem stepBlockTables_goes (r : Reader) : Answers (stepBlockTables r) (fun r' => r'.d.state = .blockCompressed) :=
  .after fun _ => .after fun _ => .after fun _ => .after fun _ => .ok rfl

theorem stepCompressed_goes (r : Reader) :
    Answers (stepCompressed r) (fun r' => r'.d.state = r.d.state ∨ r'.d.state = afterBlock r.d) := by
  refine (Decompressor.decode_sameCourse _ _ _ r.d).bind fun p hp => ?_
  dsimp only
  split
  · exact .ok (.inl hp.state)
  · split
    · exact .ok (.inr hp.endOfBlock)
    · split
      · exact .error
      · exact (readMatch_sameCourse r _ p.2).bind fun _ he => .ok (.inl (hp.trans he).state)

theorem stepUncompressed_goes (r : Reader) :
    Answers (stepUncompressed r) (fun r' => r'.d.state = r.d.state ∨ r'.d.state = afterBlock r.d) := by
  unfold stepUncompressed
  split
  · exact .ok (.inr (SameCourse.refl r.d).endOfBlock)
  · dsimp only
    split
    · exact .error
    · refine (storedLoop_sameCourse _ r.d).bind fun e he => .ok ?_
      dsimp only
      split
      · exact .inr he.endOfBlock
      · exact .inl he.state

theorem stepChecksum_goes (r : Reader) : Answers (stepChecksum r) (fun r' => r'.d.state = .streamEnd) :=
  .after fun _ => .ok rfl

/-- The transitions of `D_STATE` by a step that commits (spec/45_block_reader.md R485). -/
def Transition (d e : Decompressor) : Prop :=
  (d.state = .streamStart ∧ e.state = .blockStart)
  ∨ (d.state = .blockStart ∧ e.state = .blockTables ∧ e.btype = 2)
  ∨ (d.state = .blockStart ∧ e.state = .blockCompressed ∧ e.btype = 1)
  ∨ (d.state = .blockStart ∧ e.state = .blockUncompressed ∧ e.btype = 0)
  ∨ (d.state = .blockTables ∧ e.state = .blockCompressed)
  ∨ (d.state = .blockCompressed ∧ (e.state = .blockCompressed ∨ e.state = afterBlock d))
  ∨ (d.state = .blockUncompressed ∧ (e.state = .blockUncompressed ∨ e.state = afterBlock d))
  ∨ (d.state = .streamChecksum ∧ e.state = .streamEnd)
  ∨ (d.state = .streamEnd ∧ e.state = .streamEnd)

/-- A state step that commits makes one of the transitions. -/
theorem transition_of_stateStep {r r' : Reader} (h : stateStep r = some (.ok r')) : Transition r.d r'.d := by
  unfold stateStep at h
  unfold Transition
  cases hs : r.d.state <;> simp only [hs, Option.some.injEq, reduceCtorEq] at h
  case streamStart => simp [stepStreamStart_goes r r' h]
  case blockStart => simpa using stepBlockStart_goes r r' h
  case blockTables => simp [stepBlockTables_goes r r' h]
  case blockCompressed => simpa [hs] using stepCompressed_goes r r' h
  case blockUncompressed => simpa [hs] using stepUncompressed_goes r r' h
  case streamChecksum => simp [stepChecksum_goes r r' h]

/-! ## The obligation -/

/-- What one turn of `BR.STEP` on an open decompressor can answer, sound or not (spec/45_block_reader.md R486). -/
inductive Turn (r : Reader) : StepAnswer → Prop where
  | commits (r' : Reader) : stateStep r = some (.ok r') →
      Turn r { reader := r', status := if r'.d.state = .streamEnd then .finished else .ok }
  | waits : r.d.streaming = true → Turn r { reader := r, status := .needInput }
  | raises (e : DecodeError) : Turn r { reader := { r with d := r.d.raise e }, status := .error e }
  | latched (e : DecodeError) : r.d.state = .error → Turn r { reader := r, status := .error e }
  | ended : r.d.state = .streamEnd → Turn r { reader := r, status := .finished }

/-- An open decompressor with no state step to make has failed or ended. -/
theorem state_eq_streamEnd {r : Reader} (h : stateStep r = none) (ho : r.d.isOpen = true) (hne : r.d.state ≠ .error) :
    r.d.state = .streamEnd := by
  unfold stateStep at h
  unfold Decompressor.isOpen at ho
  cases hs : r.d.state <;> simp [hs] at h ho hne ⊢

/-- What `BR.STEP` answers is such a turn. -/
theorem brStep_turn {r : Reader} (ho : r.d.isOpen = true) : Answers (brStep r) (Turn r) := by
  unfold brStep
  split
  · next h => exact .ok (.commits _ h)
  · next h => exact .ok (.waits (streaming_of_stateStep h))
  · exact .ok (.raises _)
  · exact .error
  · exact .error
  · next h =>
    split
    · next hs he => exact .ok (.latched _ hs)
    · exact .error
    · next hsome hnone =>
      have hne : r.d.state ≠ .error := fun hs => by
        cases he : r.d.err with
        | none => exact hnone hs he
        | some e => exact hsome e hs he
      exact .ok (.ended (state_eq_streamEnd h ho hne))

/-- An accepted `BR.STEP` on an undisturbed decompressor is one turn. -/
theorem Accepts.turn {s t : State} (h : Accepts .brStep s t) (hd : s.d.disturbed = false) :
    ∃ a, Turn s.reader a ∧ t.d = a.reader.d ∧ t.dec = a.reader.dec ∧ t.status = a.status := by
  refine h.answers (Q := fun t => ∃ a, Turn s.reader a ∧ t.d = a.reader.d ∧ t.dec = a.reader.dec ∧ t.status = a.status) rfl ?_
  refine Answers.bind (R := fun _ => s.d.isOpen = true) (fun _ hc => by simpa using hc) fun _ ho => ?_
  rw [hd, if_neg Bool.false_ne_true]
  exact (brStep_turn (r := s.reader) ho).bind fun a ha => .ok ⟨a, ha, rfl, rfl, rfl⟩

/-- Settles O12: an accepted `BR.STEP` is one turn, which commits a step along one of the transitions, waits,
raises, or meets the end or a latched error; the other commands write the decompressor's state nowhere. -/
theorem transitions : Obligations.Transitions := by
  refine ⟨fun s t hd h => ?_, fun i s t hd h hnew hpush hstep => h.keeps_dState hd ⟨hnew, hpush, hstep⟩⟩
  obtain ⟨a, hturn, htd, htdec, hstatus⟩ := h.turn hd
  rw [hstatus, htd, htdec]
  cases hturn with
  | commits r' hok =>
    have htrans : Transition s.d r'.d := transition_of_stateStep hok
    refine ⟨?_, ?_, fun _ => htrans, ?_, ?_⟩ <;> by_cases hend : r'.d.state = .streamEnd <;> simp [hend]
  | waits hstream =>
    have hne : s.d.state ≠ .streamEnd := fun hs => by simp [Decompressor.streaming, hs] at hstream
    simp [hne]
  | raises e => simp
  | latched e hs =>
    have hs : s.d.state = .error := hs
    simp [hs]
  | ended hs =>
    have hs : s.d.state = .streamEnd := hs
    simp [hs]

end Sys2Proof.Machine
end

section
/-! PROOF. Draining (spec/46_stream_interface.md R553, R554): what `D.PULLN` and `D.PULL` answer on an open decompressor the host has
not disturbed. -/

namespace Sys2Proof.Machine

/-- A command that asks for an open, undisturbed decompressor answers what the rest answers on one. -/
theorem finish_undisturbed {s : State} {x : Run State} (hopen : s.d.isOpen = true) (hd : s.d.disturbed = false) :
    s.finish (do refuseIf (!s.d.isOpen) .noInstance; if s.d.disturbed then s.disturbedAnswer else x) = s.finish x := by
  rw [finish_opened hopen, hd, if_neg Bool.false_ne_true]

section
variable {s : State} (hopen : s.d.isOpen = true) (hd : s.d.disturbed = false)
include hopen hd

/-- `D.PULL` returns every byte not yet returned. -/
theorem exec_dPull : exec .dPull s =
    .next (({ s with d := { s.d with drained := s.d.out.length } } : State).answer .ok
      [word (s.d.out.length - s.d.drained)] (s.d.out.drop s.d.drained)) :=
  finish_undisturbed hopen hd

/-- `D.PULLN` of more bytes than wait returns none of them. -/
theorem exec_dPulln_of_lt {count : Word} (h : s.d.out.length - s.d.drained < count.toNat) :
    exec (.dPulln count) s = .next (s.answer .noResult [] []) := by
  refine (finish_undisturbed hopen hd).trans ?_
  rw [if_pos h]
  rfl

/-- `D.PULLN` of no more bytes than wait returns the oldest of them. -/
theorem exec_dPulln_of_le {count : Word} (h : count.toNat ≤ s.d.out.length - s.d.drained) :
    exec (.dPulln count) s =
      .next (({ s with d := { s.d with drained := s.d.drained + count.toNat } } : State).answer .ok [count]
        ((s.d.out.drop s.d.drained).take count.toNat)) := by
  refine (finish_undisturbed hopen hd).trans ?_
  rw [if_neg h.not_gt]
  rfl

end

/-- Settles O55: the one check of both commands is for an open decompressor, and on an undisturbed one the number of bytes not yet
returned decides what `D.PULLN` answers. -/
theorem draining : Obligations.Draining := by
  refine fun s => ⟨rfl, fun _ => encode_eq 0x8A 0 rfl rfl rfl, fun hclosed => ?_, fun hopen hd =>
    ⟨exec_dPull hopen hd, fun _ => exec_dPulln_of_lt hopen hd, fun _ => exec_dPulln_of_le hopen hd⟩⟩
  have hnone : s.d.isOpen = false := by simp [Decompressor.isOpen, hclosed]
  exact ⟨refuses_closed hnone, fun _ => refuses_closed hnone⟩

end Sys2Proof.Machine
end

section
/-! PROOF. Error entry (spec/60_exceptions.md R603): `D.PUSH` is a run of turns that answer `OK` and one that does not
(spec/46_stream_interface.md R551), and a turn that answers an error in a stream in progress has raised it. -/

namespace Sys2Proof.Machine

/-- A command that first asks for an open unit found it open if it was accepted. -/
theorem opened_of_accepted {s t : State} {o : Bool} {f : Unit → Run State}
    (h : s.finish (refuseIf (!o) .noInstance >>= f) = .next t) (ht : t.status ≠ .refused) : o = true := by
  by_contra ho
  obtain ⟨u, hu, hstatus, -⟩ := refuses_closed (s := s) (f := f) (Bool.eq_false_of_not_eq_true ho)
  rw [hu] at h
  cases h
  exact ht hstatus

/-- An accepted command leaves the state its rule makes of what the rest of its computation answers. -/
theorem Accepts.exists_answer {i : Instr} {s t : State} {α : Type} {x : Run α} {f : α → State} (h : Accepts i s t)
    (hx : exec i s = s.finish (x >>= fun a => pure (f a))) : ∃ a, x = .ok a ∧ t = f a :=
  h.answers hx (Q := fun t => ∃ a, x = .ok a ∧ t = f a) (.bind (R := fun a => x = .ok a) (fun _ => id) fun a ha => .ok ⟨a, ha, rfl⟩)

/-! ## Turns that answer an error, and turns that answer `OK` -/

/-- A turn outside the error state that answers an error has raised it. -/
theorem Turn.eq_raise {r : Reader} {a : StepAnswer} {e : DecodeError} (h : Turn r a) (hr : r.d.state ≠ .error)
    (he : a.status = .error e) : a = { reader := { r with d := r.d.raise e }, status := .error e } := by
  cases h with
  | commits r' _ => split at he <;> cases he
  | waits _ | ended _ => cases he
  | raises _ => cases he; rfl
  | latched _ hs => exact absurd hs hr

/-- A stream that is open, not ended and not in error is in progress. -/
theorem Decompressor.streaming_of_ne {d : Decompressor} (hopen : d.isOpen = true) (hend : d.state ≠ .streamEnd)
    (herr : d.state ≠ .error) : d.streaming = true := by
  unfold Decompressor.isOpen at hopen
  unfold Decompressor.streaming
  cases hs : d.state <;> simp [hs] at hopen hend herr ⊢

/-- A transition leads to a stream in progress or to its end (spec/45_block_reader.md R485). -/
theorem Transition.streaming {d e : Decompressor} (h : Transition d e) (hend : e.state ≠ .streamEnd) : e.streaming = true := by
  have hafter : .closed ≠ afterBlock d ∧ .error ≠ afterBlock d := by
    unfold afterBlock
    split
    · split <;> simp
    · simp
  have hopen : e.state ≠ .closed := fun hs => by simp [Transition, hs, hafter] at h
  have herr : e.state ≠ .error := fun hs => by simp [Transition, hs, hafter] at h
  exact Decompressor.streaming_of_ne (by simpa [Decompressor.isOpen] using hopen) hend herr

/-- A turn that answers `OK` leaves the stream in progress. -/
theorem Turn.streaming_of_ok {r : Reader} {a : StepAnswer} (h : Turn r a) (hok : a.status = .ok) :
    a.reader.d.streaming = true := by
  cases h with
  | commits r' hstep =>
    refine (transition_of_stateStep hstep).streaming fun hend => ?_
    rw [if_pos hend] at hok
    cases hok
  | waits _ | raises _ | latched _ _ | ended _ => cases hok

/-- Steps that answered `OK` leave a stream in progress so. -/
theorem OkSteps.streaming {r r' : Reader} (h : OkSteps r r') (hr : r.d.streaming = true) : r'.d.streaming = true := by
  induction h with
  | here _ => exact hr
  | step r _ a ha hok _ ih => exact ih ((brStep_turn (isOpen_of_streaming hr) a ha).streaming_of_ok hok)

/-! ## The loop of `D.PUSH` -/

/-- The loop takes steps that answer `OK`, and answers what the first other one does (spec/46_stream_interface.md R551). -/
theorem readLoop_okSteps (fuel : Nat) (r : Reader) :
    Answers (readLoop fuel r) (fun a => ∃ r', OkSteps r r' ∧ brStep r' = .ok a ∧ a.status ≠ .ok) := by
  induction fuel generalizing r with
  | zero => exact .error
  | succ fuel ih =>
    refine Answers.bind (R := fun a => brStep r = .ok a) (fun _ => id) fun a ha => ?_
    split
    · next hok => exact (ih a.reader).mono fun b ⟨r', hsteps, hb⟩ => ⟨r', .step r r' a ha hok hsteps, hb⟩
    · next hne => exact .ok ⟨r, .here r, ha, hne⟩

/-- `D.PUSH` on a stream in progress that the host has not disturbed answers what its loop does. -/
theorem exec_dPush {s : State} (bytes : List Byte) (hs : s.d.streaming = true) (hd : s.d.disturbed = false) :
    exec (.dPush bytes) s = s.finish (readLoop (s.feedReader bytes).d.turns (s.feedReader bytes).reader >>= fun a =>
      pure (((s.feedReader bytes).withReader a.reader).answer a.status
        [word (a.reader.d.out.length - a.reader.d.drained)] [])) := by
  have hend : s.d.state ≠ .streamEnd := fun h => by simp [Decompressor.streaming, h] at hs
  refine (finish_undisturbed (isOpen_of_streaming hs) hd).trans ?_
  rw [if_neg (state_ne_error_of_streaming hs), if_neg hend]

/-- `D.PUSH` at the end of the stream (spec/45_block_reader.md R526). -/
theorem exec_dPush_of_streamEnd {s : State} (bytes : List Byte) (hs : s.d.state = .streamEnd) (hd : s.d.disturbed = false) :
    exec (.dPush bytes) s = .next (s.answer .finished [] []) := by
  refine (finish_undisturbed (by simp [Decompressor.isOpen, hs]) hd).trans ?_
  rw [if_neg (by simp [hs]), if_pos hs]
  rfl

/-! ## The obligation -/

/-- A `BR.STEP` that answers an error outside the error state has raised it. -/
theorem exec_brStep_raised {s t : State} {e : DecodeError} (hd : s.d.disturbed = false) (hne : s.d.state ≠ .error)
    (hexec : exec .brStep s = .next t) (hstatus : t.status = .error e) :
    t = ({ s with d := { s.d with state := .error, err := some e } } : State).answer (.error e) [8] [] := by
  have haccepted : t.status ≠ .refused := by simp [hstatus]
  have hopen : s.d.isOpen = true := opened_of_accepted hexec haccepted
  have hacc : Accepts .brStep s t := ⟨hexec, haccepted⟩
  obtain ⟨a, ha, rfl⟩ := hacc.exists_answer (exec_brStep hopen hd)
  rw [(brStep_turn (r := s.reader) hopen a ha).eq_raise hne hstatus, if_neg hne]
  rfl

/-- A `D.PUSH` that answers an error outside the error state took steps that answered `OK` and one that raised it. -/
theorem exec_dPush_raised {s t : State} {e : DecodeError} {bytes : List Byte} (hd : s.d.disturbed = false)
    (hne : s.d.state ≠ .error) (hexec : exec (.dPush bytes) s = .next t) (hstatus : t.status = .error e) :
    ∃ r : Reader, OkSteps (s.feedReader bytes).reader r ∧ r.d.state ≠ .error
      ∧ t = ((s.feedReader bytes).withReader { r with d := { r.d with state := .error, err := some e } }).answer (.error e)
          [word (r.d.out.length - r.d.drained)] [] := by
  have haccepted : t.status ≠ .refused := by simp [hstatus]
  have hopen : s.d.isOpen = true := opened_of_accepted hexec haccepted
  have hacc : Accepts (.dPush bytes) s t := ⟨hexec, haccepted⟩
  have hend : s.d.state ≠ .streamEnd := fun hs => by
    rw [exec_dPush_of_streamEnd bytes hs hd] at hexec
    cases hexec
    cases hstatus
  have hs : s.d.streaming = true := Decompressor.streaming_of_ne hopen hend hne
  obtain ⟨a, hloop, rfl⟩ := hacc.exists_answer (exec_dPush bytes hs hd)
  obtain ⟨r, hsteps, ha, -⟩ := readLoop_okSteps _ _ a hloop
  have hr : r.d.streaming = true := hsteps.streaming hs
  have hrne : r.d.state ≠ .error := state_ne_error_of_streaming hr
  rw [(brStep_turn (isOpen_of_streaming hr) a ha).eq_raise hrne hstatus]
  exact ⟨r, hsteps, hrne, rfl⟩

/-- Settles O10: an error outside the error state is one a turn has raised, and the turns of `D.PUSH` before it answered `OK`. -/
theorem errorEntryPrecise : Obligations.ErrorEntryPrecise :=
  ⟨fun _ _ _ => exec_brStep_raised, fun _ _ _ _ => exec_dPush_raised⟩

end Sys2Proof.Machine
end

section
/-! PROOF. The stuck states (spec/60_exceptions.md R604, spec/45_block_reader.md R526): what `BR.STEP` and `D.PUSH` answer in them, and
what every other command leaves of the decompressor. -/

namespace Sys2Proof.Machine

/-! ## The commands of the reader in a stuck state -/

/-- A turn in the error state answers the latched error and reads nothing (spec/60_exceptions.md R604). -/
theorem brStep_of_error {r : Reader} {e : DecodeError} (hs : r.d.state = .error) (he : r.d.err = some e) :
    brStep r = .ok { reader := r, status := .error e } := by
  simp [brStep, stateStep, hs, he]

/-- A turn in the error state whose error was never latched faults. -/
theorem brStep_of_error_none {r : Reader} (hs : r.d.state = .error) (he : r.d.err = none) :
    brStep r = .error (.fault .missingError) := by
  simp [brStep, stateStep, hs, he]

/-- A turn at the end of the stream answers `FINISHED` (spec/45_block_reader.md R526). -/
theorem brStep_of_streamEnd {r : Reader} (hs : r.d.state = .streamEnd) : brStep r = .ok { reader := r, status := .finished } := by
  simp [brStep, stateStep, hs]

theorem Decompressor.isOpen_of_error {d : Decompressor} (hs : d.state = .error) : d.isOpen = true := by
  simp [Decompressor.isOpen, hs]

theorem Decompressor.isOpen_of_streamEnd {d : Decompressor} (hs : d.state = .streamEnd) : d.isOpen = true := by
  simp [Decompressor.isOpen, hs]

section
variable {s : State} (hd : s.d.disturbed = false)
include hd

/-- `BR.STEP` at the end of the stream (spec/45_block_reader.md R526). -/
theorem exec_brStep_of_streamEnd (hs : s.d.state = .streamEnd) : exec .brStep s = .next (s.answer .finished [7] []) := by
  have hne : s.d.state ≠ .error := by simp [hs]
  rw [exec_brStep (Decompressor.isOpen_of_streamEnd hs) hd, brStep_of_streamEnd hs, ok_bind, if_neg hne, State.reader_d, hs]
  rfl

/-- `BR.STEP` in the error state (spec/60_exceptions.md R604). -/
theorem exec_brStep_of_error {e : DecodeError} (hs : s.d.state = .error) (he : s.d.err = some e) :
    exec .brStep s = .next (s.answer (.error e) [] []) := by
  rw [exec_brStep (Decompressor.isOpen_of_error hs) hd, brStep_of_error hs he, ok_bind, if_pos hs]
  rfl

/-- `D.PUSH` in the error state answers the latched error, if there is one. -/
theorem exec_dPush_of_error (bytes : List Byte) (hs : s.d.state = .error) :
    exec (.dPush bytes) s = s.finish (s.d.latched >>= fun e => pure (s.answer e [] [])) := by
  refine (finish_undisturbed (Decompressor.isOpen_of_error hs) hd).trans ?_
  rw [if_pos hs]

end

/-! ## What the other commands leave -/

/-- The same stream: all that a decompressor holds, but for what the host has drained of it and whether the host has disturbed it. -/
def SameStream (d e : Decompressor) : Prop := e = { d with drained := e.drained, disturbed := e.disturbed }

theorem SameStream.of_eq {d e : Decompressor} (h : d = e) : SameStream d e := by
  subst h
  rfl

/-- No accepted command but `D.NEW`, `D.PUSH` and `BR.STEP` writes the stream of an undisturbed decompressor. -/
theorem Accepts.sameStream {i : Instr} {s t : State} (h : Accepts i s t) (hd : s.d.disturbed = false)
    (hi : i.op ≠ .dNew ∧ i.op ≠ .dPush ∧ i.op ≠ .brStep) : SameStream s.d t.d := by
  by_cases hside : compressorSide i = true
  · exact .of_eq (h.sameDecompressor hside).d
  · have hkeep : ∀ x, exec i s = s.finish x → Answers x (fun t => SameStream s.d t.d) → SameStream s.d t.d :=
      fun _ hx hq => h.answers hx hq
    cases i with
    | bcNew _ | ckAdler _ _ | ckCrc32 _ _ =>
      obtain ⟨hexec, -⟩ := h
      cases hexec
      rfl
    | hfBuild _ _ => exact hkeep _ rfl (.after fun _ => .ok rfl)
    | hfLoad _ _ => exact hkeep _ rfl (.after fun _ => .after fun _ => .ok rfl)
    | bcRebase _ _ => exact hkeep _ rfl (.after fun _ => .after fun _ => .after fun _ => .ok rfl)
    | bcRead _ _ =>
      exact hkeep _ rfl (.after fun _ => .after fun _ => .after fun _ => .after fun _ => .after fun _ => .ok rfl)
    | hfDecode _ _ _ =>
      refine hkeep _ rfl (.after fun _ => .after fun _ => .after fun _ => .after fun _ => .after fun _ => ?_)
      split <;> exact .ok rfl
    | dPulln _ =>
      refine hkeep _ rfl (.after fun _ => ?_)
      rw [hd, if_neg Bool.false_ne_true]
      split <;> exact .ok rfl
    | dPull =>
      refine hkeep _ rfl (.after fun _ => ?_)
      rw [hd, if_neg Bool.false_ne_true]
      exact .ok rfl
    | dNew _ | dPush _ | brStep => simp [Instr.op] at hi
    | _ => exact absurd rfl hside

/-- `BR.STEP` and `D.PUSH` in the error state leave the decompressor as it was: either the error was latched, or they fault. -/
theorem Accepts.d_eq_of_error {i : Instr} {s t : State} (h : Accepts i s t) (hd : s.d.disturbed = false) (hs : s.d.state = .error)
    (hi : i.op = .brStep ∨ i.op = .dPush) : t.d = s.d := by
  cases i with
  | brStep =>
    obtain ⟨a, ha, rfl⟩ := h.exists_answer (exec_brStep (Decompressor.isOpen_of_error hs) hd)
    cases he : s.d.err with
    | some e =>
      rw [brStep_of_error hs he] at ha
      cases ha
      rfl
    | none =>
      rw [brStep_of_error_none hs he] at ha
      cases ha
  | dPush bytes => exact h.answers (Q := fun t => t.d = s.d) (exec_dPush_of_error hd bytes hs) (.after fun _ => .ok rfl)
  | _ => simp [Instr.op] at hi

/-! ## The obligation -/

/-- An accepted command other than `D.NEW` leaves an undisturbed decompressor in error with its error and its output. -/
theorem Accepts.keeps_error {i : Instr} {s t : State} (h : Accepts i s t) (hd : s.d.disturbed = false) (hs : s.d.state = .error)
    (hi : i.op ≠ .dNew) : t.d.state = .error ∧ t.d.err = s.d.err ∧ t.d.out = s.d.out := by
  have hsame : SameStream s.d t.d := by
    by_cases hread : i.op = .brStep ∨ i.op = .dPush
    · exact .of_eq (h.d_eq_of_error hd hs hread).symm
    · rw [not_or] at hread
      exact h.sameStream hd ⟨hi, hread.2, hread.1⟩
  rw [hsame]
  exact ⟨hs, rfl, rfl⟩

/-- Settles O11: in the error state the reader's commands answer the latched error, the drains what was emitted, and no command but
`D.NEW` writes the stream; at the end of the stream the reader's commands answer `FINISHED`. -/
theorem stuckStates : Obligations.StuckStates := by
  refine ⟨fun s e bytes hd hs he => ?_, fun i s t hd hs h hi => h.keeps_error hd hs hi, fun s bytes hd hs =>
    ⟨exec_brStep_of_streamEnd hd hs, exec_dPush_of_streamEnd bytes hs hd⟩⟩
  have hopen : s.d.isOpen = true := Decompressor.isOpen_of_error hs
  have hpush : exec (.dPush bytes) s = .next (s.answer (.error e) [] []) := by
    rw [exec_dPush_of_error hd bytes hs, Decompressor.latched, he]
    rfl
  exact ⟨exec_brStep_of_error hd hs he, hpush, exec_dPull hopen hd, fun _ => exec_dPulln_of_le hopen hd⟩

end Sys2Proof.Machine
end

section
/-! PROOF. Only the decompressor raises errors (spec/60_exceptions.md R600, R609): the statuses every command can answer. -/

namespace Sys2Proof.Machine

/-- A status that is neither an error code nor `NEED_OUTPUT`. -/
def Status.quiet : Status → Bool
  | .ok | .needInput | .finished | .noResult | .refused => true
  | .needOutput | .error _ => false

/-- The commands that may answer an error: those of the reader, and the drains of a disturbed decompressor. -/
def MayRaise (i : Instr) (s : State) : Prop :=
  i.op = .brStep ∨ i.op = .dPush ∨ ((i.op = .dPulln ∨ i.op = .dPull) ∧ s.d.disturbed = true)

/-- A drain that may not raise is one of an undisturbed decompressor. -/
theorem undisturbed_of_not_mayRaise {i : Instr} {s : State} (h : ¬ MayRaise i s) (hi : i.op = .dPulln ∨ i.op = .dPull) :
    s.d.disturbed = false := by
  by_contra hd
  exact h (.inr (.inr ⟨hi, by simpa using hd⟩))

/-- What every answer of its computation says of the status, and what a refusal meets, holds of a command. -/
theorem status_of_finish {Q : Status → Prop} {s t : State} {x : Run State} (h : s.finish x = .next t) (hrefused : Q .refused)
    (hx : Answers x (fun t => Q t.status)) : Q t.status := by
  rcases finish_eq_next.mp h with hok | ⟨q, -, rfl⟩
  · exact hx t hok
  · exact hrefused

theorem State.popChunk_quiet (s : State) : s.popChunk.status.quiet = true := by
  unfold State.popChunk
  split <;> rfl

/-- A command that may not raise answers a quiet status. -/
theorem exec_quiet {i : Instr} {s t : State} (h : exec i s = .next t) (hi : ¬ MayRaise i s) : t.status.quiet = true := by
  have hof : ∀ x, exec i s = s.finish x → Answers x (fun t => t.status.quiet = true) → t.status.quiet = true :=
    fun x hx hq => status_of_finish (Q := fun st => st.quiet = true) (hx ▸ h) rfl hq
  cases i with
  | bcNew _ | ckAdler _ _ | ckCrc32 _ _ => exact hof _ rfl (.ok rfl)
  | bsInit _ | bsPad | bsPull | hfBuild _ _ | wnInit _ | wnFeed _ | tmGeneralize | cPull | dNew _ =>
    exact hof _ rfl (.after fun _ => .ok rfl)
  | bsAppend _ _ | bwStored _ _ | cNew _ _ _ _ | hfLoad _ _ | tmGraph _ | tmMinimize | bwDynamic _ =>
    exact hof _ rfl (.after fun _ => .after fun _ => .ok rfl)
  | bcRebase _ _ | cPush _ _ => exact hof _ rfl (.after fun _ => .after fun _ => .after fun _ => .ok rfl)
  | bcRead _ _ => exact hof _ rfl (.after fun _ => .after fun _ => .after fun _ => .after fun _ => .after fun _ => .ok rfl)
  | bsPop | cPop => exact hof _ rfl (.after fun _ => .ok s.popChunk_quiet)
  | hfEncode _ _ | hfDecode _ _ _ =>
    refine hof _ rfl (.after fun _ => .after fun _ => .after fun _ => .after fun _ => .after fun _ => ?_)
    split <;> exact .ok rfl
  | wnUpdate _ =>
    refine hof _ rfl (.after fun _ => .after fun _ => ?_)
    dsimp only
    split
    · exact .ok rfl
    · split <;> exact .ok rfl
  | wnMatch _ _ _ | wnMatchd _ _ _ =>
    refine hof _ rfl (.after fun _ => .after fun m => ?_)
    cases m <;> exact .ok rfl
  | tmMap _ =>
    refine hof _ rfl ?_
    split
    · exact .error
    · split <;> exact .ok rfl
  | tmStep =>
    refine hof _ rfl (.after fun _ => .after fun _ => ?_)
    split
    · exact .ok rfl
    · split
      · exact .ok rfl
      · exact .after fun _ => .ok rfl
  | dPulln _ =>
    refine hof _ rfl (.after fun _ => ?_)
    rw [undisturbed_of_not_mayRaise hi (by simp [Instr.op]), if_neg Bool.false_ne_true]
    split <;> exact .ok rfl
  | dPull =>
    refine hof _ rfl (.after fun _ => ?_)
    rw [undisturbed_of_not_mayRaise hi (by simp [Instr.op]), if_neg Bool.false_ne_true]
    exact .ok rfl
  | brStep => exact absurd (.inl rfl) hi
  | dPush _ => exact absurd (.inr (.inl rfl)) hi

/-! ## The commands that may raise -/

/-- A disturbed decompressor answers no `NEED_OUTPUT` (spec/60_exceptions.md R609). -/
theorem State.disturbedAnswer_status_ne_needOutput (s : State) : Answers s.disturbedAnswer (fun t => t.status ≠ .needOutput) := by
  unfold State.disturbedAnswer
  dsimp only
  split
  · exact .error
  · refine .ok ?_
    dsimp only
    split
    · exact nofun
    · assumption

/-- No turn answers `NEED_OUTPUT`. -/
theorem brStep_status_ne_needOutput (r : Reader) : Answers (brStep r) (fun a => a.status ≠ .needOutput) := by
  unfold brStep
  split
  · refine .ok ?_
    dsimp only
    split <;> exact nofun
  · exact .ok nofun
  · exact .ok nofun
  · exact .error
  · exact .error
  · split
    · exact .ok nofun
    · exact .error
    · exact .ok nofun

theorem readLoop_status_ne_needOutput (fuel : Nat) (r : Reader) : Answers (readLoop fuel r) (fun a => a.status ≠ .needOutput) :=
  (readLoop_okSteps fuel r).mono fun a ⟨r', _, ha, _⟩ => brStep_status_ne_needOutput r' a ha

/-- A command of an open decompressor answers `NEED_OUTPUT` only if the rest does on an undisturbed one. -/
theorem ne_needOutput_of_undisturbed {s t : State} {x : Run State}
    (h : s.finish (do refuseIf (!s.d.isOpen) .noInstance; if s.d.disturbed then s.disturbedAnswer else x) = .next t)
    (hx : Answers x (fun t => t.status ≠ .needOutput)) : t.status ≠ .needOutput := by
  refine status_of_finish (Q := (· ≠ .needOutput)) h nofun (.after fun _ => ?_)
  split
  · exact s.disturbedAnswer_status_ne_needOutput
  · exact hx

/-- The commands that may raise answer no `NEED_OUTPUT` either. -/
theorem exec_ne_needOutput {i : Instr} {s t : State} (h : exec i s = .next t) (hi : MayRaise i s) : t.status ≠ .needOutput := by
  cases i with
  | brStep => exact ne_needOutput_of_undisturbed h ((brStep_status_ne_needOutput s.reader).bind fun _ ha => .ok ha)
  | dPush bytes =>
    refine ne_needOutput_of_undisturbed h ?_
    split
    · refine .bind (R := (· ≠ .needOutput)) ?_ fun _ he => .ok he
      unfold Decompressor.latched
      split
      · exact .ok nofun
      · exact .error
    · split
      · exact .ok nofun
      · exact (readLoop_status_ne_needOutput _ _).bind fun _ ha => .ok ha
  | dPulln _ =>
    refine ne_needOutput_of_undisturbed h ?_
    split <;> exact .ok nofun
  | dPull => exact ne_needOutput_of_undisturbed h (.ok nofun)
  | _ => simp [MayRaise, Instr.op] at hi

/-- Settles O13: a command that may not raise answers a quiet status, and those that may answer the status of a turn, or a free one
that is not `NEED_OUTPUT`. -/
theorem onlyTheReaderRaises : Obligations.OnlyTheReaderRaises := by
  refine ⟨fun i s t e h he => ?_, fun i s t h hout => ?_⟩
  · by_contra hi
    have hquiet := exec_quiet h hi
    rw [he] at hquiet
    cases hquiet
  · by_cases hi : MayRaise i s
    · exact exec_ne_needOutput h hi hout
    · have hquiet := exec_quiet h hi
      rw [hout] at hquiet
      cases hquiet

end Sys2Proof.Machine
end

section
/-! PROOF. What is open (spec/70_reset_and_hazards.md R641): the units, tables and contexts a command finds open are those it leaves
open, but for the six commands that open some; and from it `Obligations.Opening`. -/

namespace Sys2Proof.Machine

/-! ## What is open in a state -/

/-- The contexts, units and tables, and whether each is open; the tables in the order of their selectors. -/
structure OpenUnits where
  c   : Bool
  d   : Bool
  bs  : Bool
  bc  : Bool
  wn  : Bool
  enc : Bool × Bool × Bool
  dec : Bool × Bool × Bool

/-- What is open in a state. -/
def State.openUnits (s : State) : OpenUnits where
  c := s.c.isOpen
  d := s.d.isOpen
  bs := s.bs.isOpen
  bc := s.bc.isOpen
  wn := s.wn.isOpen
  enc := (s.enc.runLit.isOpen, s.enc.dist.isOpen, s.enc.metasym.isOpen)
  dec := (s.dec.runLit.isOpen, s.dec.dist.isOpen, s.dec.metasym.isOpen)

theorem encOpen_congr {s t : State} (h : t.openUnits.enc = s.openUnits.enc) (k : BitVec 2) : encOpen t k = encOpen s k := by
  obtain ⟨h0, h1, h2⟩ : _ ∧ _ ∧ _ := by simpa [State.openUnits] using h
  simp [encOpen, h0, h1, h2]

theorem decOpen_congr {s t : State} (h : t.openUnits.dec = s.openUnits.dec) (k : BitVec 2) : decOpen t k = decOpen s k := by
  obtain ⟨h0, h1, h2⟩ : _ ∧ _ ∧ _ := by simpa [State.openUnits] using h
  simp [decOpen, h0, h1, h2]

/-- The encode tables of an open compressor are open. -/
theorem State.UnitsOpen.enc {s : State} (h : s.UnitsOpen) (hc : s.c.isOpen = true) : s.openUnits.enc = (true, true, true) := by
  obtain ⟨-, -, hrunLit, hdist, hmetasym⟩ := h.compressor hc
  simp [State.openUnits, hrunLit, hdist, hmetasym]

/-- What is open is no part of the answer. -/
@[simp] theorem State.answer_openUnits (s : State) (status : Status) (res : List Word) (out : List Byte) :
    (s.answer status res out).openUnits = s.openUnits := rfl

/-- A change of the sink that leaves it as open as it was. -/
theorem openUnits_withSink {s : State} {k : Sink} (h : k.isOpen = s.bs.isOpen) :
    ({ s with bs := k } : State).openUnits = s.openUnits := by
  simp [State.openUnits, h]

/-- A change of the window that leaves it as open as it was. -/
theorem openUnits_withWindow {s : State} {w : Window} (h : w.isOpen = s.wn.isOpen) :
    ({ s with wn := w } : State).openUnits = s.openUnits := by
  simp [State.openUnits, h]

/-! ## The units under their own operations -/

theorem Sink.isOpen_drain (k : Sink) : k.drain.2.isOpen = k.isOpen := by
  unfold Sink.drain
  split <;> rfl

theorem State.popChunk_openUnits (s : State) : s.popChunk.openUnits = s.openUnits := by
  cases hq : s.bs.queue with
  | nil => rw [State.popChunk_of_nil hq]; rfl
  | cons chunk rest => rw [State.popChunk_of_cons hq]; rfl

theorem Sink.code_isOpen (t : EncTable) (sym : Nat) (k : Sink) : Answers (k.code t sym) (fun k' => k'.isOpen = k.isOpen) :=
  .after fun _ => .ok (Sink.isOpen_append ..)

theorem Sink.metaStream_isOpen (t : EncTable) (rle : List (Nat × Nat)) (k : Sink) :
    Answers (k.metaStream t rle) (fun k' => k'.isOpen = k.isOpen) := by
  induction rle generalizing k with
  | nil => exact .ok rfl
  | cons p rest ih =>
    refine (Sink.code_isOpen t p.1 k).bind fun k' hk => (ih _).mono fun _ hrest => (hrest.trans ?_).trans hk
    split
    · exact Sink.isOpen_append ..
    · rfl

theorem Sink.token_isOpen (e : EncTables) (x : TermCodes) (k : Sink) : Answers (k.token e x) (fun k' => k'.isOpen = k.isOpen) := by
  refine (Sink.code_isOpen e.runLit x.sym k).bind fun k' hk => ?_
  split
  · exact .ok hk
  · exact (Sink.code_isOpen e.dist _ _).bind fun _ hd =>
      .ok ((Sink.isOpen_append ..).trans (hd.trans ((Sink.isOpen_append ..).trans hk)))

theorem Sink.tokens_isOpen (e : EncTables) (codes : List TermCodes) (k : Sink) :
    Answers (k.tokens e codes) (fun k' => k'.isOpen = k.isOpen) := by
  induction codes generalizing k with
  | nil => exact .ok rfl
  | cons x rest ih => exact (Sink.token_isOpen e x k).bind fun k' hk => (ih k').mono fun _ hrest => hrest.trans hk

theorem Sink.isOpen_dynamicHeader (k : Sink) (final : Bool) (p : BlockPlan) : (k.dynamicHeader final p).isOpen = k.isOpen := by
  simp [Sink.dynamicHeader, Sink.isOpen_foldl]

section Window

variable (P : Params)

theorem Window.update_isOpen (w : Window) (b : Byte) : Answers (w.update P b) (fun v => v.isOpen = w.isOpen) := fun _ hv => by
  obtain ⟨-, -, hopen, -⟩ := Window.update_frame hv
  exact hopen

theorem insertTo_isOpen (input : List Byte) (p : Nat) (w : Window) :
    Answers (insertTo P input p w) (fun v => v.isOpen = w.isOpen) := by
  unfold insertTo
  generalize min input.length (p + 4) - w.inserted = n
  induction n generalizing w with
  | zero => exact .ok rfl
  | succ n ih => exact .after fun b => (w.update_isOpen P b).bind fun v hv => (ih v).mono fun _ hu => hu.trans hv

theorem findAt_isOpen (c : Compressor) (p : Nat) (w : Window) : Answers (findAt P c p w) (fun r => r.2.isOpen = w.isOpen) := by
  unfold findAt
  split
  · exact .ok rfl
  · exact (insertTo_isOpen P c.input p w).bind fun _ hv => .after fun _ => .ok hv

theorem parseAt_isOpen (c : Compressor) (p : Nat) (b : Byte) (w : Window) :
    Answers (parseAt P c p b w) (fun r => r.2.isOpen = w.isOpen) := by
  refine (findAt_isOpen P c p w).bind fun ⟨m, v⟩ hv => ?_
  dsimp only
  split
  · exact .ok hv
  · split
    · refine (findAt_isOpen P c (p + 1) v).bind fun ⟨m', u⟩ hu => ?_
      dsimp only
      split
      · exact .ok (hu.trans hv)
      · split <;> exact .ok (hu.trans hv)
    · exact .ok hv

theorem edgesAt_isOpen (c : Compressor) (p room : Nat) (w : Window) :
    Answers (edgesAt P c p room w) (fun r => r.2.isOpen = w.isOpen) := by
  unfold edgesAt
  split
  · exact .ok rfl
  · refine (insertTo_isOpen P c.input p w).bind fun _ hv => .after fun _ => ?_
    split <;> exact .ok hv

theorem graphLoop_isOpen (c : Compressor) (k p : Nat) (w : Window) :
    Answers (graphLoop P c k p w) (fun r => r.2.isOpen = w.isOpen) := by
  induction k generalizing p w with
  | zero => exact .ok rfl
  | succ k ih =>
    exact .after fun _ => (edgesAt_isOpen P c p (k + 1) w).bind fun r hr => (ih (p + 1) r.2).bind fun _ hu => .ok (hu.trans hr)

end Window

/-! ## The driver, for whatever its parts keep (spec/46_stream_interface.md R543) -/

/-- What the parts of the compressor's driver keep. -/
structure KeptByParts (P : Params) (I : State → Prop) : Prop where
  parse      : ∀ s, I s → Answers (parseStep P s) (fun p => I p.1)
  graph      : ∀ n s, I s → Answers (graphOver P n s) I
  minimize   : ∀ s, I s → Answers (minimizeOnce P s) (fun p => I p.1)
  generalize : ∀ s, I s → I (s.generalize P)
  write      : ∀ final s, I s → Answers (writeDynamic P final s) I
  final      : ∀ s, I s → Answers (finalBlock P s) I
  skip       : ∀ n s, I s → I { s with c := { s.c with parsed := s.c.parsed + n } }

section Driver

variable {P : Params} {I : State → Prop} (hI : KeptByParts P I)

include hI

theorem KeptByParts.driveTerms (fuel : Nat) {s : State} (h : I s) : Answers (driveTerms P fuel s) I := by
  induction fuel generalizing s with
  | zero => exact .error
  | succ fuel ih =>
    have hblock : Answers (endBlockIfFull P s) I := by
      unfold endBlockIfFull
      split
      · exact hI.write false s h
      · exact .ok h
    unfold Machine.driveTerms
    split
    · exact .ok h
    · split
      · exact .ok h
      · exact hblock.bind fun t ht => (hI.parse t ht).bind fun _ hp => ih hp

theorem KeptByParts.minimizeTimes (k : Nat) {s : State} (h : I s) : Answers (minimizeTimes P k s) I := by
  induction k generalizing s with
  | zero => exact .ok h
  | succ k ih => exact .after fun _ => (hI.minimize s h).bind fun _ hp => ih hp

theorem KeptByParts.segment (n : Nat) (final : Bool) {s : State} (h : I s) : Answers (segment P n final s) I :=
  (hI.graph n s h).bind fun _ ht => (hI.minimizeTimes _ ht).bind fun u hu => (hI.write final u hu).bind fun v hv =>
    .ok (hI.generalize v hv)

theorem KeptByParts.driveGraphs (fuel : Nat) {s : State} (h : I s) : Answers (driveGraphs P fuel s) I := by
  induction fuel generalizing s with
  | zero => exact .error
  | succ fuel ih =>
    unfold Machine.driveGraphs
    dsimp only
    split
    · exact .ok h
    · split
      · exact .ok h
      · split
        · exact hI.final _ (hI.skip _ s h)
        · exact (hI.segment _ _ h).bind fun _ ht => ih ht

theorem KeptByParts.drive {s : State} (h : I s) : Answers (drive P s) I := by
  have hlast : ∀ (t : State) (c : Prop) [Decidable c], I t → Answers (if c then finalBlock P t else pure t) I := by
    intro t c _ ht
    split
    · exact hI.final t ht
    · exact .ok ht
  unfold Machine.drive
  dsimp only
  split
  · exact (hI.driveGraphs _ h).bind fun t ht => hlast t _ ht
  · exact (hI.driveTerms _ h).bind fun t ht => hlast t _ ht

end Driver

/-! ## The compressor's work -/

section Compressor

variable (P : Params)

theorem parseStep_openUnits (s : State) : Answers (parseStep P s) (fun p => p.1.openUnits = s.openUnits) :=
  .after fun _ => (parseAt_isOpen P _ _ _ _).bind fun _ hw => .ok (openUnits_withWindow hw)

theorem graphOver_openUnits (n : Nat) (s : State) : Answers (graphOver P n s) (fun t => t.openUnits = s.openUnits) :=
  .after fun _ => (graphLoop_isOpen P _ _ _ _).bind fun _ hw => .ok (openUnits_withWindow hw)

theorem minimizeOnce_openUnits (s : State) : Answers (minimizeOnce P s) (fun p => p.1.openUnits = s.openUnits) :=
  .after fun _ => .after fun _ => .after fun _ => .after fun _ => .after fun _ => .ok rfl

theorem BlockPlan.isOpen_tables (p : BlockPlan) :
    p.tables.runLit.isOpen = true ∧ p.tables.dist.isOpen = true ∧ p.tables.metasym.isOpen = true :=
  ⟨isOpen_encLoad .., isOpen_encLoad .., isOpen_encLoad ..⟩

/-- A dynamic block loads, and so opens, every encode table; where they are open already, nothing else is opened. -/
theorem writeDynamic_openUnits (final : Bool) {s : State} (h : s.openUnits.enc = (true, true, true)) :
    Answers (writeDynamic P final s) (fun t => t.openUnits = s.openUnits) := by
  refine .after fun codes => (Sink.metaStream_isOpen _ _ _).bind fun k hk => (Sink.tokens_isOpen _ _ k).bind fun k' hk' =>
    (Sink.code_isOpen _ _ k').bind fun k'' hk'' => .ok ?_
  have hsink : k''.isOpen = s.bs.isOpen := (hk''.trans (hk'.trans hk)).trans (Sink.isOpen_dynamicHeader ..)
  obtain ⟨hrunLit, hdist, hmetasym⟩ := (planBlock P codes).isOpen_tables
  have henc : (s.enc.runLit.isOpen, s.enc.dist.isOpen, s.enc.metasym.isOpen) = (true, true, true) := h
  simp only [State.openUnits, hsink, hrunLit, hdist, hmetasym, henc]
  rfl

theorem finalBlock_openUnits {s : State} (h : s.openUnits.enc = (true, true, true)) :
    Answers (finalBlock P s) (fun t => t.openUnits = s.openUnits) := by
  unfold finalBlock
  split
  · exact .ok (openUnits_withSink (Sink.isOpen_stored ..))
  · exact writeDynamic_openUnits P true h

/-- With every encode table open, the parts of the driver keep what is open. -/
theorem keptByParts_openUnits {s : State} (h : s.openUnits.enc = (true, true, true)) :
    KeptByParts P (fun t => t.openUnits = s.openUnits) where
  parse t ht := (parseStep_openUnits P t).mono fun _ hp => hp.trans ht
  graph n t ht := (graphOver_openUnits P n t).mono fun _ hu => hu.trans ht
  minimize t ht := (minimizeOnce_openUnits P t).mono fun _ hp => hp.trans ht
  generalize _ ht := ht
  write final _ ht := (writeDynamic_openUnits P final (ht ▸ h)).mono fun _ hu => hu.trans ht
  final _ ht := (finalBlock_openUnits P (ht ▸ h)).mono fun _ hu => hu.trans ht
  skip _ _ ht := ht

/-- A finished compressor is as open as an open one. -/
theorem State.closeStream_openUnits {s : State} (h : s.c.isOpen = true) : s.closeStream.openUnits = s.openUnits := by
  have hc : ({ s.c with state := .finished } : Compressor).isOpen = s.c.isOpen := h.symm
  simp [State.openUnits, hc]

theorem pushInput_openUnits (last : Bool) (bytes : List Byte) {s : State} (hc : s.c.isOpen = true)
    (h : s.openUnits.enc = (true, true, true)) : Answers (pushInput P last bytes s) (fun t => t.openUnits = s.openUnits) := by
  refine Answers.bind (R := fun t => t.openUnits = s.openUnits) ((keptByParts_openUnits P h).drive rfl) fun t ht => ?_
  have htc : t.c.isOpen = true := (congrArg OpenUnits.c ht).trans hc
  cases last
  · exact .ok ht
  · exact .ok ((t.closeStream_openUnits htc).trans ht)

end Compressor

/-! ## The decompressor's work -/

/-- Every decode table is open. -/
structure DecTables.AllOpen (x : DecTables) : Prop where
  runLit  : x.runLit.isOpen = true
  dist    : x.dist.isOpen = true
  metasym : x.metasym.isOpen = true

theorem stepStreamStart_dec (r : Reader) : Answers (stepStreamStart r) (fun r' => r'.dec = r.dec) := .after fun _ => .ok rfl

theorem dynamicHeader_allOpen {r : Reader} (h : r.dec.AllOpen) : Answers (dynamicHeader r) (fun r' => r'.dec.AllOpen) :=
  .after fun _ => .after fun _ => .after fun _ => .after fun _ => .after fun _ => .after fun _ => .after fun _ =>
    .ok ⟨h.runLit, h.dist, rfl⟩

theorem stepBlockStart_allOpen {r : Reader} (h : r.dec.AllOpen) : Answers (stepBlockStart r) (fun r' => r'.dec.AllOpen) := by
  refine .after fun _ => .after fun _ => ?_
  dsimp only
  split
  · exact .after fun _ => .ok h
  · exact .ok ⟨rfl, rfl, h.metasym⟩
  · exact dynamicHeader_allOpen h
  · exact .error

theorem stepBlockTables_allOpen {r : Reader} (h : r.dec.AllOpen) : Answers (stepBlockTables r) (fun r' => r'.dec.AllOpen) :=
  .after fun _ => .after fun _ => .after fun _ => .after fun _ => .ok ⟨rfl, rfl, h.metasym⟩

theorem stepCompressed_dec (r : Reader) : Answers (stepCompressed r) (fun r' => r'.dec = r.dec) := by
  refine .after fun _ => ?_
  dsimp only
  split
  · exact .ok rfl
  · split
    · exact .ok rfl
    · split
      · exact .error
      · exact .after fun _ => .ok rfl

theorem stepUncompressed_dec (r : Reader) : Answers (stepUncompressed r) (fun r' => r'.dec = r.dec) := by
  unfold stepUncompressed
  split
  · exact .ok rfl
  · dsimp only
    split
    · exact .error
    · exact .after fun _ => .ok rfl

theorem stepChecksum_dec (r : Reader) : Answers (stepChecksum r) (fun r' => r'.dec = r.dec) := .after fun _ => .ok rfl

/-- A committed state step leaves the decode tables open: it writes one only by loading it (spec/45_block_reader.md R496, R497,
R501). -/
theorem stateStep_allOpen {r r' : Reader} (h : stateStep r = some (.ok r')) (ho : r.dec.AllOpen) : r'.dec.AllOpen := by
  unfold stateStep at h
  cases hs : r.d.state <;> simp only [hs, Option.some.injEq, reduceCtorEq] at h
  case streamStart => rwa [stepStreamStart_dec r r' h]
  case blockStart => exact stepBlockStart_allOpen ho r' h
  case blockTables => exact stepBlockTables_allOpen ho r' h
  case blockCompressed => rwa [stepCompressed_dec r r' h]
  case blockUncompressed => rwa [stepUncompressed_dec r r' h]
  case streamChecksum => rwa [stepChecksum_dec r r' h]

/-- A reader of an open decompressor whose decode tables are open. -/
structure Reader.Opened (r : Reader) : Prop where
  d   : r.d.isOpen = true
  dec : r.dec.AllOpen

theorem State.UnitsOpen.reader {s : State} (h : s.UnitsOpen) (hd : s.d.isOpen = true) : s.reader.Opened := by
  obtain ⟨-, hrunLit, hdist, hmetasym⟩ := h.decompressor hd
  exact ⟨hd, ⟨hrunLit, hdist, hmetasym⟩⟩

/-- A transition leads to an open decompressor (spec/45_block_reader.md R485). -/
theorem Transition.isOpen {d e : Decompressor} (h : Transition d e) : e.isOpen = true := by
  by_cases hend : e.state = .streamEnd
  · exact Decompressor.isOpen_of_streamEnd hend
  · exact isOpen_of_streaming (h.streaming hend)

theorem brStep_opened {r : Reader} (h : r.Opened) : Answers (brStep r) (fun a => a.reader.Opened) :=
  (brStep_turn h.d).mono fun _ hturn => by
    cases hturn with
    | commits r' hstep => exact ⟨(transition_of_stateStep hstep).isOpen, stateStep_allOpen hstep h.dec⟩
    | raises e => exact ⟨rfl, h.dec⟩
    | waits _ | latched _ _ | ended _ => exact h

theorem readLoop_opened (fuel : Nat) {r : Reader} (h : r.Opened) : Answers (readLoop fuel r) (fun a => a.reader.Opened) := by
  induction fuel generalizing r with
  | zero => exact .error
  | succ fuel ih =>
    refine (brStep_opened h).bind fun a ha => ?_
    split
    · exact ih ha
    · exact .ok ha

/-- An open reader in place of an open one. -/
theorem openUnits_withReader {s : State} {r : Reader} (hs : s.reader.Opened) (hr : r.Opened) :
    (s.withReader r).openUnits = s.openUnits := by
  obtain ⟨hd, ⟨hrunLit, hdist, hmetasym⟩⟩ := hs
  obtain ⟨hd', ⟨hrunLit', hdist', hmetasym'⟩⟩ := hr
  simp_all [State.openUnits]

/-- Whatever a disturbed decompressor answers, what is open stays open. -/
theorem State.disturbedAnswer_openUnits {s : State} (h : s.d.isOpen = true) :
    Answers s.disturbedAnswer (fun t => t.openUnits = s.openUnits) := by
  unfold State.disturbedAnswer
  dsimp only
  split
  · exact .error
  · refine .ok ?_
    have hopen : ((if (Config.disturbedReader s.free).d.state = .closed then s.d.state
        else (Config.disturbedReader s.free).d.state) != .closed) = s.d.isOpen := by
      split
      · rfl
      · next hne => simpa [h] using hne
    exact congrArg (fun d => { s.openUnits with d := d }) hopen

/-! ## Commands that open nothing -/

/-- The commands that open something (spec/70_reset_and_hazards.md R641). -/
def openers : List Op := [.bsInit, .bcNew, .wnInit, .hfLoad, .cNew, .dNew]

/-- A command of an open decompressor keeps what is open if the rest does on an undisturbed one. -/
theorem Accepts.openUnits_of_reader {i : Instr} {s t : State} {x : Run State} (h : Accepts i s t)
    (hx : exec i s = s.finish (do refuseIf (!s.d.isOpen) .noInstance; if s.d.disturbed then s.disturbedAnswer else x))
    (hq : s.d.isOpen = true → Answers x (fun t => t.openUnits = s.openUnits)) : t.openUnits = s.openUnits := by
  refine h.answers (Q := fun t => t.openUnits = s.openUnits) hx ?_
  refine Answers.bind (R := fun _ => s.d.isOpen = true) (fun _ hc => by simpa using hc) fun _ ho => ?_
  split
  · exact s.disturbedAnswer_openUnits ho
  · exact hq ho

/-- A command that first asks for the compressor keeps what is open if the rest does on an open one. -/
theorem Accepts.openUnits_of_compressor {i : Instr} {s t : State} {f : Unit → Run State} (h : Accepts i s t)
    (hx : exec i s = s.finish (refuseIf (!s.c.isOpen) .noInstance >>= f))
    (hq : s.c.isOpen = true → Answers (f ()) (fun t => t.openUnits = s.openUnits)) : t.openUnits = s.openUnits :=
  h.answers (Q := fun t => t.openUnits = s.openUnits) hx
    (Answers.bind (R := fun _ => s.c.isOpen = true) (fun _ hc => by simpa using hc) fun _ ho => hq ho)

/-- An accepted command that opens nothing leaves open what was open, and nothing else. -/
theorem Accepts.openUnits_eq {i : Instr} {s t : State} (h : Accepts i s t) (hs : s.UnitsOpen) (hi : i.op ∉ openers) :
    t.openUnits = s.openUnits := by
  have hof : ∀ x, exec i s = s.finish x → Answers x (fun t => t.openUnits = s.openUnits) → t.openUnits = s.openUnits :=
    fun _ hx hq => h.answers hx hq
  have hsink : ∀ (k : Sink) {status : Status} {res : List Word} {out : List Byte}, k.isOpen = s.bs.isOpen →
      Answers (pure (({ s with bs := k } : State).answer status res out) : Run State) (fun t => t.openUnits = s.openUnits) :=
    fun _ _ _ _ hk => .ok ((State.answer_openUnits ..).trans (openUnits_withSink hk))
  cases i with
  | ckAdler _ _ | ckCrc32 _ _ =>
    obtain ⟨hexec, -⟩ := h
    cases hexec
    rfl
  | bsPull | hfBuild _ _ | wnFeed _ | tmGeneralize => exact hof _ rfl (.after fun _ => .ok rfl)
  | bsPop | cPop => exact hof _ rfl (.after fun _ => .ok s.popChunk_openUnits)
  | bsPad => exact hof _ rfl (.after fun _ => hsink _ (Sink.isOpen_pad _))
  | cPull => exact hof _ rfl (.after fun _ => hsink _ (Sink.isOpen_drain _))
  | bsAppend _ _ => exact hof _ rfl (.after fun _ => .after fun _ => hsink _ (Sink.isOpen_append ..))
  | bwStored _ _ => exact hof _ rfl (.after fun _ => .after fun _ => hsink _ (Sink.isOpen_stored ..))
  | bcRebase _ _ => exact hof _ rfl (.after fun _ => .after fun _ => .after fun _ => .ok rfl)
  | bcRead _ _ => exact hof _ rfl (.after fun _ => .after fun _ => .after fun _ => .after fun _ => .after fun _ => .ok rfl)
  | hfEncode _ _ | hfDecode _ _ _ =>
    refine hof _ rfl (.after fun _ => .after fun _ => .after fun _ => .after fun _ => .after fun _ => ?_)
    split <;> exact .ok rfl
  | wnUpdate byte =>
    refine hof _ rfl (.after fun _ => (s.wn.update_isOpen _ byte).bind fun w hw => ?_)
    dsimp only
    split
    · exact .ok (openUnits_withWindow hw)
    · split <;> exact .ok (openUnits_withWindow hw)
  | wnMatch _ _ _ | wnMatchd _ _ _ =>
    refine hof _ rfl (.after fun _ => .after fun m => ?_)
    cases m <;> exact .ok rfl
  | tmMap _ =>
    refine hof _ rfl ?_
    split
    · exact .error
    · split <;> exact .ok rfl
  | tmStep =>
    refine hof _ rfl (.after fun _ => .after fun _ => ?_)
    split
    · exact .ok rfl
    · split
      · exact .ok rfl
      · exact (parseStep_openUnits _ s).bind fun _ hp => .ok hp
  | tmGraph n => exact hof _ rfl (.after fun _ => (graphOver_openUnits _ _ s).bind fun _ ht => .ok ht)
  | tmMinimize => exact hof _ rfl (.after fun _ => (minimizeOnce_openUnits _ s).bind fun _ hp => .ok hp)
  | bwDynamic final =>
    exact h.openUnits_of_compressor rfl fun hc => (writeDynamic_openUnits _ final (hs.enc hc)).bind fun _ ht => .ok ht
  | cPush last bytes =>
    exact h.openUnits_of_compressor rfl fun hc => .after fun _ =>
      (pushInput_openUnits _ last bytes hc (hs.enc hc)).bind fun _ ht => .ok ht
  | brStep =>
    exact h.openUnits_of_reader rfl fun ho => (brStep_opened (hs.reader ho)).bind fun _ ha =>
      .ok (openUnits_withReader (hs.reader ho) ha)
  | dPush bytes =>
    refine h.openUnits_of_reader rfl fun ho => ?_
    split
    · exact .after fun _ => .ok rfl
    · split
      · exact .ok rfl
      · have hfed : (s.feedReader bytes).reader.Opened := ⟨(hs.reader ho).d, (hs.reader ho).dec⟩
        exact (readLoop_opened _ hfed).bind fun _ ha => .ok (openUnits_withReader hfed ha)
  | dPulln _ =>
    refine h.openUnits_of_reader rfl fun _ => ?_
    split <;> exact .ok rfl
  | dPull => exact h.openUnits_of_reader rfl fun _ => .ok rfl
  | bsInit _ | bcNew _ | wnInit _ | hfLoad _ _ | cNew _ _ _ _ | dNew _ => simp [openers, Instr.op] at hi

/-! ## Commands that open something -/

/-- What is open after a command is what was open before it and what the command opens (spec/70_reset_and_hazards.md R641). -/
structure Opens (i : Instr) (s t : State) : Prop where
  c   : t.c.isOpen = (s.c.isOpen || i.op == .cNew)
  d   : t.d.isOpen = (s.d.isOpen || i.op == .dNew)
  bs  : t.bs.isOpen = (s.bs.isOpen || i.op == .bsInit || i.op == .cNew)
  bc  : t.bc.isOpen = (s.bc.isOpen || i.op == .bcNew || i.op == .dNew)
  wn  : t.wn.isOpen = (s.wn.isOpen || i.op == .wnInit || i.op == .cNew)
  enc : ∀ k : BitVec 2, k ≠ 3 → encOpen t k = (encOpen s k || i.op == .cNew || loadsTable i k)
  dec : ∀ k : BitVec 2, k ≠ 3 → decOpen t k = (decOpen s k || i.op == .dNew || loadsTable i k)

/-- A command that opens nothing and leaves what is open. -/
theorem Opens.of_openUnits_eq {i : Instr} {s t : State} (hi : i.op ∉ openers) (h : t.openUnits = s.openUnits) : Opens i s t := by
  have hload : ∀ k, loadsTable i k = false := by
    cases i with
    | hfLoad _ _ => simp [openers, Instr.op] at hi
    | _ => intro _; rfl
  simp only [openers, List.mem_cons, List.not_mem_nil, or_false, not_or] at hi
  obtain ⟨hbsInit, hbcNew, hwnInit, -, hcNew, hdNew⟩ := hi
  have hc : t.c.isOpen = s.c.isOpen := congrArg OpenUnits.c h
  have hd : t.d.isOpen = s.d.isOpen := congrArg OpenUnits.d h
  have hbs : t.bs.isOpen = s.bs.isOpen := congrArg OpenUnits.bs h
  have hbc : t.bc.isOpen = s.bc.isOpen := congrArg OpenUnits.bc h
  have hwn : t.wn.isOpen = s.wn.isOpen := congrArg OpenUnits.wn h
  constructor <;>
    simp [hc, hd, hbs, hbc, hwn, encOpen_congr (congrArg OpenUnits.enc h), decOpen_congr (congrArg OpenUnits.dec h), hload,
      beq_eq_decide, hbsInit, hbcNew, hwnInit, hcNew, hdNew]

@[simp] theorem isOpen_decLoad (lens : List Nat) : (DecTable.load lens).isOpen = true := rfl

/-- Loading the table of a selector opens its encode table. -/
theorem encOpen_put {t k : BitVec 2} {tbl : Table} {s u : State} {x : EncTable} (ht : tableOf t = .ok tbl) (hk : k ≠ 3)
    (hu : u.enc = s.enc.put tbl x) (hx : x.isOpen = true) : encOpen u k = (encOpen s k || t == k) := by
  have ht3 : t ≠ 3#2 := fun h => by rw [h, tableOf_three] at ht; cases ht
  obtain rfl | rfl | rfl := code_cases_of_ne_three t ht3 <;> cases ht <;>
    obtain rfl | rfl | rfl := code_cases_of_ne_three k hk <;> simp [encOpen, hu, EncTables.put, hx]

/-- Loading the table of a selector opens its decode table. -/
theorem decOpen_put {t k : BitVec 2} {tbl : Table} {s u : State} {x : DecTable} (ht : tableOf t = .ok tbl) (hk : k ≠ 3)
    (hu : u.dec = s.dec.put tbl x) (hx : x.isOpen = true) : decOpen u k = (decOpen s k || t == k) := by
  have ht3 : t ≠ 3#2 := fun h => by rw [h, tableOf_three] at ht; cases ht
  obtain rfl | rfl | rfl := code_cases_of_ne_three t ht3 <;> cases ht <;>
    obtain rfl | rfl | rfl := code_cases_of_ne_three k hk <;> simp [decOpen, hu, DecTables.put, hx]

/-- The encode tables `C.NEW` leaves are open. -/
theorem encOpen_of_cleared {s : State} (h : s.enc = EncTables.cleared) (k : BitVec 2) : encOpen s k = true := by
  simp [encOpen, h, EncTables.cleared, EncTable.cleared]

/-- The decode tables `D.NEW` leaves are open. -/
theorem decOpen_of_cleared {s : State} (h : s.dec = DecTables.cleared) (k : BitVec 2) : decOpen s k = true := by
  simp [decOpen, h, DecTables.cleared, DecTable.cleared]

/-- An accepted command that opens something. -/
theorem Accepts.opens_of_opener {i : Instr} {s t : State} (h : Accepts i s t) (hi : i.op ∈ openers) : Opens i s t := by
  have hof : ∀ x, exec i s = s.finish x → Answers x (Opens i s) → Opens i s t := fun _ hx hq => h.answers hx hq
  cases i with
  | bsInit _ =>
    refine hof _ rfl (.after fun _ => .ok ?_)
    constructor <;> simp [Instr.op, beq_eq_decide, loadsTable, Sink.init, encOpen, decOpen]
  | bcNew _ =>
    obtain ⟨hexec, -⟩ := h
    cases hexec
    constructor <;> simp [Instr.op, beq_eq_decide, loadsTable, Cursor.init, encOpen, decOpen, Decompressor.isOpen]
  | wnInit _ =>
    refine hof _ rfl (.after fun _ => .ok ?_)
    constructor <;> simp [Instr.op, beq_eq_decide, loadsTable, Window.init, encOpen, decOpen]
  | hfLoad sel lengths =>
    refine hof _ rfl (.bind (R := fun tbl => tableOf sel = .ok tbl) (fun _ => id) fun tbl htbl => .after fun _ => .ok ?_)
    constructor
    case enc =>
      exact fun k hk => (encOpen_put (s := s) htbl hk rfl (isOpen_encLoad ..)).trans (by simp [Instr.op, beq_eq_decide, loadsTable])
    case dec =>
      exact fun k hk => (decOpen_put (s := s) htbl hk rfl (isOpen_decLoad _)).trans (by simp [Instr.op, beq_eq_decide, loadsTable])
    all_goals simp [Instr.op, beq_eq_decide, Decompressor.isOpen]
  | cNew _ _ _ _ =>
    refine hof _ rfl (.after fun _ => .after fun _ => .ok ?_)
    constructor
    case enc => exact fun k _ => (encOpen_of_cleared (by simp) k).trans (by simp [Instr.op])
    all_goals simp [Instr.op, beq_eq_decide, loadsTable, Compressor.fresh, Compressor.isOpen, Sink.init, Window.init, decOpen]
  | dNew _ =>
    refine hof _ rfl (.after fun _ => .ok ?_)
    constructor
    case dec => exact fun k _ => (decOpen_of_cleared (by simp) k).trans (by simp [Instr.op])
    all_goals simp [Instr.op, beq_eq_decide, loadsTable, Decompressor.fresh, Decompressor.isOpen, Cursor.init, encOpen]
  | _ => simp [openers, Instr.op] at hi

/-- What is open after an accepted command. -/
theorem Accepts.opens {i : Instr} {s t : State} (h : Accepts i s t) (hs : s.UnitsOpen) : Opens i s t := by
  by_cases hi : i.op ∈ openers
  · exact h.opens_of_opener hi
  · exact .of_openUnits_eq hi (h.openUnits_eq hs hi)

/-! ## Commands that need nothing open -/

/-- The computation answers what meets `Q`, or is refused for an operand. -/
def AnswersOrOperand {α : Type} (x : Run α) (Q : α → Prop) : Prop := (∃ a, x = .ok a ∧ Q a) ∨ x = .error (.refuse .operand)

theorem AnswersOrOperand.ok {α : Type} {a : α} {Q : α → Prop} (h : Q a) : AnswersOrOperand (.ok a) Q := .inl ⟨a, rfl, h⟩

theorem AnswersOrOperand.after {α β : Type} {x : Run α} {f : α → Run β} {Q : β → Prop}
    (h : AnswersOrOperand x (fun _ => True)) (hf : ∀ a, AnswersOrOperand (f a) Q) : AnswersOrOperand (x >>= f) Q := by
  obtain ⟨a, rfl, -⟩ | rfl := h
  · exact hf a
  · exact .inr rfl

theorem refuseIf_answersOrOperand (c : Bool) : AnswersOrOperand (refuseIf c .operand) (fun _ => True) := by
  cases c
  · exact .ok trivial
  · exact .inr rfl

theorem tableOf_answersOrOperand (t : BitVec 2) : AnswersOrOperand (tableOf t) (fun _ => True) := by
  by_cases ht : t = 3#2
  · exact .inr (ht ▸ tableOf_three)
  · obtain ⟨tbl, htbl, -⟩ := tableOf_of_ne_three ht
    exact .inl ⟨tbl, htbl, trivial⟩

theorem formatOf_answersOrOperand (f : BitVec 2) : AnswersOrOperand (formatOf f) (fun _ => True) := by
  by_cases hf : f = 3#2
  · exact .inr (hf ▸ formatOf_three)
  · obtain ⟨fmt, hfmt⟩ := formatOf_of_ne_three hf
    exact .inl ⟨fmt, hfmt, trivial⟩

/-- A command that answers `OK` or is refused for an operand is not refused for a closed unit. -/
theorem not_refuses_noInstance {s : State} {x : Run State} (h : AnswersOrOperand x (fun t => t.status = .ok)) :
    ¬ Refuses (s.finish x) .noInstance := by
  rintro ⟨u, hu, hstatus, hres, -⟩
  obtain ⟨t, rfl, ht⟩ | rfl := h
  · cases hu
    rw [ht] at hstatus
    cases hstatus
  · cases hu
    simp [Reason.code] at hres

/-- The commands that need nothing open are not refused for a closed unit (spec/70_reset_and_hazards.md R641). -/
theorem exec_not_refuses_noInstance {i : Instr} (s : State)
    (hi : i.op ∈ [.hfBuild, .tmMap, .ckAdler, .ckCrc32, .cNew, .dNew, .bsInit, .bcNew, .wnInit, .hfLoad]) :
    ¬ Refuses (exec i s) .noInstance := by
  have hof : ∀ x, exec i s = s.finish x → AnswersOrOperand x (fun t => t.status = .ok) → ¬ Refuses (exec i s) .noInstance :=
    fun _ hx hq => hx ▸ not_refuses_noInstance hq
  have hcheck : ∀ {c : Bool} {f : Unit → Run State}, AnswersOrOperand (f ()) (fun t => t.status = .ok) →
      AnswersOrOperand (refuseIf c .operand >>= f) (fun t => t.status = .ok) :=
    fun hf => (refuseIf_answersOrOperand _).after fun _ => hf
  cases i with
  | ckAdler _ _ | ckCrc32 _ _ | bcNew _ => exact hof (pure _) rfl (.ok rfl)
  | hfBuild _ _ | bsInit _ | wnInit _ => exact hof _ rfl (hcheck (.ok rfl))
  | hfLoad t _ => exact hof _ rfl ((tableOf_answersOrOperand t).after fun _ => hcheck (.ok rfl))
  | cNew f _ _ _ => exact hof _ rfl ((formatOf_answersOrOperand f).after fun _ => hcheck (.ok rfl))
  | dNew f => exact hof _ rfl ((formatOf_answersOrOperand f).after fun _ => .ok rfl)
  | tmMap _ =>
    refine hof _ rfl ?_
    split
    · exact .inr rfl
    · split <;> exact .ok rfl
  | _ => simp [Instr.op] at hi

/-- Settles O8: the commands that open something open what the rule names, the others leave what is open; a closed unit refuses the
command that needs it, and the commands that need none answer `OK` or refuse an operand. -/
theorem opening : Obligations.Opening := by
  refine ⟨fun i s t hs h => ?_, fun i s hlegal hclosed => exec_refuses_closed_unit i s hclosed (.inl hlegal),
    fun i s hi => exec_not_refuses_noInstance s hi⟩
  obtain ⟨hc, hd, hbs, hbc, hwn, henc, hdec⟩ := h.opens hs
  exact ⟨hc, hd, hbs, hbc, hwn, henc, hdec⟩

end Sys2Proof.Machine
end

section
/-! PROOF. The encoding both ways (spec/30_encoding.md R140, R141, R148, R149): assembling a well-formed command's word, arguments and
payload gives the command back, and what the decoder assembles is well formed and has the word it was read from. From them
`Obligations.DecodeWords`, `Obligations.DecodeEncode`, `Obligations.EncodeDecode`. -/

namespace Sys2Proof.Machine

/-! ## Decoding an encoding -/

/-- The operands of a well-formed command fit the 24 bits below its opcode (spec/30_encoding.md R140). -/
theorem operandField_lt {i : Instr} (hi : i.wellFormed = true) : i.operandField < 2 ^ 24 := by
  cases i with
  | bwDynamic b => cases b <;> decide
  | bwStored b _ | cPush b _ =>
    simp only [Instr.wellFormed, decide_eq_true_eq, Instr.operandField] at hi ⊢
    cases b <;> simp only [Bool.toNat_true, Bool.toNat_false] <;> omega
  | _ => simp only [Instr.wellFormed, decide_eq_true_eq, Instr.operandField] at hi ⊢; omega

theorem code_lt (o : Op) : o.code < 2 ^ 8 := by cases o <;> decide

/-- The number a well-formed command's word stands for (spec/30_encoding.md R140). -/
theorem toNat_commandWord {i : Instr} (hi : i.wellFormed = true) : i.commandWord.toNat = i.op.code * 2 ^ 24 + i.operandField := by
  have hcode := code_lt i.op
  have hfield := operandField_lt hi
  exact Laws.Encoded.toNat_commandWord i (by omega)

theorem ofNat_eq {n v : Nat} {x : BitVec n} (h : v = x.toNat) : BitVec.ofNat n v = x := by simp [h]

/-- The operand fields of a well-formed command are read back from its word (spec/30_encoding.md R148, R149). -/
theorem assemble_commandWord {i : Instr} (hi : i.wellFormed = true) : i.op.assemble i.commandWord i.args i.payload = i := by
  have hword := toNat_commandWord hi
  cases i with
  | bwDynamic b => cases b <;> rfl
  | bwStored b _ | cPush b _ =>
    simp only [Instr.wellFormed, decide_eq_true_eq, Instr.operandField, Instr.op, Op.code] at hi hword
    cases b <;> simp only [Bool.toNat_true, Bool.toNat_false] at hword <;>
      simp [Instr.op, Op.assemble, Instr.payload, field, hword] <;> omega
  | bsAppend _ _ | bcRead _ _ | hfBuild _ _ | hfLoad _ _ | hfEncode _ _ | hfDecode _ _ _ | wnInit _ | wnUpdate _ | tmGraph _
  | cNew _ _ _ _ | dNew _ =>
    simp only [Instr.wellFormed, decide_eq_true_eq, Instr.operandField, Instr.op, Op.code] at hi hword
    simp only [Instr.op, Op.assemble, Instr.args, Instr.payload, field, hword]
    congr 1 <;> exact ofNat_eq (by omega)
  | _ => rfl

/-- A whole command is taken: its word, the arguments and the payload the word announces (spec/30_encoding.md R140, R148). -/
theorem decode_whole {w : Word} {o : Op} {args : List Word} {payload : List Byte} (hcode : field w 24 8 = o.code)
    (hclear : o.reservedClear w = true) (hargs : o.argCount w = args.length) (hpayload : o.payloadLen w = payload.length)
    (words : List Word) (bytes : List Byte) :
    decode (w :: (args ++ words)) (payload ++ bytes) = .command (o.assemble w args payload) words bytes := by
  simp [decode, hcode, hclear, hargs, hpayload]

/-- Settles O2: the word announces its arguments and payload, so the decoder takes exactly them, and assembling them gives the command
back. -/
theorem decodeEncode : Obligations.DecodeEncode := by
  intro i words bytes hi
  obtain ⟨hcode, hclear, hargs, hpayload⟩ := Laws.Encoded.ofWellFormed i hi
  rw [encode, List.cons_append, decode_whole hcode hclear hargs hpayload, assemble_commandWord hi]

/-! ## Encoding what was decoded -/

theorem ofCode_eq_some {c : Nat} {o : Op} (h : Op.ofCode c = some o) : o.code = c := by
  simpa using List.find?_some h

/-- The decoder's fields of a word, put together, are the word (spec/30_encoding.md R140). -/
theorem word_of_fields {w : Word} {opc : Nat} (h : field w 24 8 = opc) {n : Nat} (hn : n = w.toNat % 2 ^ 24) :
    word (opc * 2 ^ 24 + n) = w := by
  refine ofNat_eq ?_
  have := w.isLt
  simp only [field] at h
  omega

/-- A command word that clears the reserved bits is that of the command assembled from it (spec/30_encoding.md R141). -/
theorem operandField_assemble {o : Op} {w : Word} {args : List Word} {payload : List Byte} (hclear : o.reservedClear w = true)
    (hargs : args.length = o.argCount w) (hpayload : payload.length = o.payloadLen w) :
    (o.assemble w args payload).operandField = w.toNat % 2 ^ 24 := by
  have hbool : ∀ n : Nat, n < 2 → (n == 1).toNat = n := by decide
  cases o <;>
    simp only [Op.reservedClear, Op.reserved, List.all_cons, List.all_nil, Bool.and_true, Bool.and_eq_true, beq_iff_eq, field,
      Op.argCount, Op.payloadLen] at hclear hargs hpayload <;>
    simp only [Op.assemble, Instr.operandField, BitVec.toNat_ofNat, field] <;>
    (try rw [hbool _ (by omega)]) <;> omega

theorem assemble_op (o : Op) (w : Word) (args : List Word) (payload : List Byte) : (o.assemble w args payload).op = o := by
  cases o <;> rfl

theorem assemble_args {o : Op} {w : Word} {args : List Word} (payload : List Byte) (hargs : args.length = o.argCount w) :
    (o.assemble w args payload).args = args := by
  cases o with
  | bsInit | bcRebase | bcRead | hfDecode | tmMap | cNew | dPulln | ckAdler | ckCrc32 =>
    obtain ⟨a, rfl⟩ := List.length_eq_one_iff.mp hargs
    rfl
  | wnMatch | wnMatchd =>
    obtain ⟨a, b, c, rfl⟩ := List.length_eq_three.mp hargs
    rfl
  | hfBuild => rfl
  | _ => exact (List.length_eq_zero_iff.mp hargs).symm

theorem assemble_payload {o : Op} {w : Word} (args : List Word) {payload : List Byte}
    (hpayload : payload.length = o.payloadLen w) : (o.assemble w args payload).payload = payload := by
  cases o with
  | bcNew | bcRebase | hfLoad | wnFeed | bwStored | cPush | dPush | ckAdler | ckCrc32 => rfl
  | _ => exact (List.length_eq_zero_iff.mp hpayload).symm

/-- What is assembled fits its format: a length field bounds the list it announces (spec/30_encoding.md R149). -/
theorem assemble_wellFormed {o : Op} {w : Word} {args : List Word} {payload : List Byte} (hargs : args.length = o.argCount w)
    (hpayload : payload.length = o.payloadLen w) : (o.assemble w args payload).wellFormed = true := by
  have hfield : ∀ lo len, field w lo len < 2 ^ len := fun _ _ => Nat.mod_lt _ (Nat.two_pow_pos _)
  cases o with
  | bcNew | bcRebase | hfLoad | wnFeed | bwStored | cPush | dPush | ckAdler | ckCrc32 =>
    exact decide_eq_true (hpayload ▸ hfield ..)
  | hfBuild => exact decide_eq_true (hargs ▸ hfield ..)
  | _ => rfl

/-- Settles O3: the decoder takes the word, the arguments and the payload the word announces, and what it assembles of them has that
word, those arguments and that payload. -/
theorem encodeDecode : Obligations.EncodeDecode := by
  intro words bytes i words' bytes' h
  cases words with
  | nil => simp [decode] at h
  | cons w rest =>
    cases ho : Op.ofCode (field w 24 8) with
    | none => simp [decode, ho] at h
    | some o =>
      by_cases hclear : o.reservedClear w = true
      · by_cases hlen : o.argCount w ≤ rest.length ∧ o.payloadLen w ≤ bytes.length
        · have hargs : (rest.take (o.argCount w)).length = o.argCount w := by simp [hlen.1]
          have hpayload : (bytes.take (o.payloadLen w)).length = o.payloadLen w := by simp [hlen.2]
          simp only [decode, ho, hclear, hlen, and_self, if_true, Fetched.command.injEq] at h
          obtain ⟨rfl, rfl, rfl⟩ := h
          have hword : (o.assemble w (rest.take (o.argCount w)) (bytes.take (o.payloadLen w))).commandWord = w := by
            rw [Instr.commandWord, assemble_op]
            exact word_of_fields (ofCode_eq_some ho).symm (operandField_assemble hclear hargs hpayload)
          refine ⟨assemble_wellFormed hargs hpayload, ?_, ?_⟩
          · rw [encode, hword, assemble_args _ hargs, List.cons_append, List.take_append_drop]
          · rw [assemble_payload _ hpayload, List.take_append_drop]
        · simp only [decode, ho, hclear, hlen, if_true, if_false] at h
          cases h
      · simp [decode, ho, hclear] at h

/-! ## Words of the spec, and the step -/

/-- Settles O1, by evaluation of the decoder. -/
theorem decodeWords : Obligations.DecodeWords := by
  unfold Obligations.DecodeWords
  decide

/-- Settles O5: the step is the decoder's answer carried out. -/
theorem stepRunsCommand : Obligations.StepRunsCommand := by
  refine ⟨fun s i words bytes hs _ h => ?_, fun s hs h => ?_, fun s why words hs h => ?_, fun s hs => ?_⟩
  · simp [step, hs, h]
  · simp [step, hs, h]
  · exact ⟨({ s with cmdIn := words } : State).refuse (reasonOf why), by rw [step, h, if_neg (by simp [hs])], rfl, rfl, rfl, rfl⟩
  · simp [step, hs]

end Sys2Proof.Machine
end

section
/-! PROOF. What a command leaves as it was: how far a part of a state step moves a decompressor, what the compressor's driver leaves
alone, and from them, once for every command, the units it may write. From these `Obligations.RefusalRecorded` and
`Obligations.UnitWriters`. -/

namespace Sys2Proof.Machine

/-! ## How far a state step moves a decompressor, from whatever state -/

/-- A part of a state step moves a decompressor on: it reads its input and emits bytes, each into its own slot of `HIST`
(spec/45_block_reader.md R480, R482). -/
structure Advances (d e : Decompressor) : Prop where
  input     : e.input = d.input
  format    : e.format = d.format
  drained   : e.drained = d.drained
  disturbed : e.disturbed = d.disturbed
  out       : ∃ more, e.out = d.out ++ more
  total     : d.total ≤ e.total
  hist      : ∀ a, (∀ p, d.total ≤ p → p < e.total → p % 32768 ≠ a) → e.hist.read a = d.hist.read a

theorem Advances.refl (d : Decompressor) : Advances d d :=
  ⟨rfl, rfl, rfl, rfl, ⟨[], (List.append_nil _).symm⟩, le_rfl, fun _ _ => rfl⟩

theorem Advances.trans {a b c : Decompressor} (x : Advances a b) (y : Advances b c) : Advances a c := by
  obtain ⟨more, hmore⟩ := x.out
  obtain ⟨more', hmore'⟩ := y.out
  refine ⟨y.input.trans x.input, y.format.trans x.format, y.drained.trans x.drained, y.disturbed.trans x.disturbed,
    ⟨more ++ more', by rw [hmore', hmore, List.append_assoc]⟩, x.total.trans y.total, fun s hs => ?_⟩
  rw [y.hist s fun p h1 h2 => hs p (x.total.trans h1) h2, x.hist s fun p h1 h2 => hs p h1 (h2.trans_le y.total)]

/-- Registers of the block and of the cursor do not matter. -/
theorem Advances.regs {d e f : Decompressor} (h : Advances d e) (hinput : f.input = e.input := by rfl)
    (hformat : f.format = e.format := by rfl) (hdrained : f.drained = e.drained := by rfl)
    (hdisturbed : f.disturbed = e.disturbed := by rfl) (hout : f.out = e.out := by rfl) (htotal : f.total = e.total := by rfl)
    (hhist : f.hist = e.hist := by rfl) : Advances d f :=
  h.trans ⟨hinput, hformat, hdrained, hdisturbed, ⟨[], by simp [hout]⟩, htotal.ge, fun _ _ => by rw [hhist]⟩

theorem Advances.emit (d : Decompressor) (b : Byte) : Advances d (d.emit b) := by
  refine ⟨rfl, rfl, rfl, rfl, ⟨[b], rfl⟩, Nat.le_succ _, fun a ha => ?_⟩
  exact Memory.read_write_other _ (Ne.symm (ha d.total le_rfl (Nat.lt_succ_self _))) b

theorem Decompressor.bits_advances (d : Decompressor) (n : Nat) : Answers (d.bits n) (fun p => Advances d p.2) := by
  unfold Decompressor.bits
  split
  · exact .error
  · exact .ok (Advances.refl _).regs

theorem Decompressor.byteFields_advances (d : Decompressor) (n : Nat) : Answers (d.byteFields n) (fun p => Advances d p.2) := by
  induction n generalizing d with
  | zero => exact .ok (.refl d)
  | succ n ih => exact (d.bits_advances 8).bind fun p hp => (ih p.2).bind fun _ hq => .ok (hp.trans hq)

theorem Decompressor.decode_advances (t : Table) (x : DecTable) (e : DecodeError) (d : Decompressor) :
    Answers (d.decode t x e) (fun p => Advances d p.2) := by
  unfold Decompressor.decode
  split
  · exact .error
  · split
    · exact .ok (Advances.refl _).regs
    · exact .error
    · exact .error

theorem Decompressor.copyLoop_advances (dist n : Nat) (d : Decompressor) :
    Answers (Decompressor.copyLoop dist n d) (Advances d) := by
  induction n generalizing d with
  | zero => exact .ok (.refl d)
  | succ n ih =>
    unfold Decompressor.copyLoop
    split
    · exact (ih _).mono fun _ h => (Advances.emit d _).trans h
    · exact .error

theorem storedLoop_advances (k : Nat) (d : Decompressor) : Answers (storedLoop k d) (Advances d) := by
  induction k generalizing d with
  | zero => exact .ok (.refl d)
  | succ k ih =>
    exact (d.bits_advances 8).bind fun p hp => (ih _).mono fun _ h => (hp.trans (.emit p.2 _)).trans h

theorem readMetaLens_advances (order : List Nat) (d : Decompressor) :
    Answers (readMetaLens d order) (fun p => Advances d p.2) := by
  induction order generalizing d with
  | nil => exact .ok (.refl d)
  | cons m rest ih => exact (d.bits_advances 3).bind fun p hp => (ih p.2).bind fun _ hq => .ok (hp.trans hq)

theorem readMatch_advances (r : Reader) (run : Decade) (d : Decompressor) : Answers (readMatch r run d) (Advances d) := by
  refine (d.bits_advances _).bind fun p hp => (p.2.decode_advances _ _ _).bind fun q hq => ?_
  dsimp only
  cases distDecades[q.1]? with
  | none => exact .error
  | some dd =>
    exact (q.2.bits_advances _).bind fun u hu => .after fun _ =>
      (Decompressor.copyLoop_advances _ _ u.2).mono fun _ h => (hp.trans (hq.trans hu)).trans h

theorem readLens_advances (t : DecTable) (seq : List Nat) (d : Decompressor) :
    Answers (readLens t seq d) (fun p => Advances d p.2) := by
  refine (d.decode_advances _ _ _).bind fun p hp => ?_
  dsimp only
  split
  · exact .ok hp
  · split
    · cases seq.getLast? with
      | none => exact .error
      | some l => exact (p.2.bits_advances 2).bind fun _ hu => .ok (hp.trans hu)
    · split
      · exact (p.2.bits_advances 3).bind fun _ hu => .ok (hp.trans hu)
      · exact (p.2.bits_advances 7).bind fun _ hu => .ok (hp.trans hu)

theorem lensLoop_advances (t : DecTable) (total fuel : Nat) (seq : List Nat) (d : Decompressor) :
    Answers (lensLoop t total fuel seq d) (fun p => Advances d p.2) := by
  induction fuel generalizing seq d with
  | zero =>
    unfold lensLoop
    split
    · exact .ok (.refl d)
    · exact .error
  | succ fuel ih =>
    unfold lensLoop
    split
    · exact .ok (.refl d)
    · exact (readLens_advances t seq d).bind fun p hp => .after fun _ => (ih _ p.2).mono fun _ h => hp.trans h

theorem streamHeader_advances (d : Decompressor) : Answers (streamHeader d) (Advances d) := by
  unfold streamHeader
  split
  · exact (d.bits_advances 8).bind fun p hp => (p.2.bits_advances 8).bind fun q hq =>
      .after fun _ => .after fun _ => .after fun _ => .after fun _ => .ok (hp.trans hq).regs
  · refine (d.byteFields_advances 10).bind fun p hp => .after fun _ => .after fun _ => .after fun _ => ?_
    split
    · exact .error
    · exact .ok hp.regs
  · exact .ok (Advances.refl _).regs

theorem storedHeader_advances (d : Decompressor) : Answers (storedHeader d) (Advances d) :=
  (d.align.bits_advances 16).bind fun p hp => (p.2.bits_advances 16).bind fun q hq => .after fun _ =>
    .ok ((Advances.refl d).regs.trans (hp.trans hq)).regs

theorem dynamicHeader_advances (r : Reader) : Answers (dynamicHeader r) (fun r' => Advances r.d r'.d) :=
  (r.d.bits_advances 5).bind fun p hp => (p.2.bits_advances 5).bind fun q hq => (q.2.bits_advances 4).bind fun u hu =>
    .after fun _ => .after fun _ => (readMetaLens_advances _ _).bind fun v hv => .after fun _ =>
      .ok (((hp.trans hq).trans hu).regs.trans hv).regs

theorem stepBlockStart_advances (r : Reader) : Answers (stepBlockStart r) (fun r' => Advances r.d r'.d) := by
  refine (r.d.bits_advances 1).bind fun p hp => (p.2.bits_advances 2).bind fun q hq => ?_
  have hbits : Advances r.d { q.2 with final := p.1 == 1, btype := BitVec.ofNat 2 q.1 } := (hp.trans hq).regs
  dsimp only
  split
  · exact (storedHeader_advances _).bind fun _ h => .ok (hbits.trans h)
  · exact .ok hbits.regs
  · exact (dynamicHeader_advances _).mono fun _ h => hbits.trans h
  · exact .error

theorem stepCompressed_advances (r : Reader) : Answers (stepCompressed r) (fun r' => Advances r.d r'.d) := by
  refine (r.d.decode_advances _ _ _).bind fun p hp => ?_
  dsimp only
  split
  · exact .ok (hp.trans (.emit p.2 _))
  · split
    · exact .ok hp.regs
    · split
      · exact .error
      · exact (readMatch_advances r _ p.2).bind fun _ h => .ok (hp.trans h)

theorem stepUncompressed_advances (r : Reader) : Answers (stepUncompressed r) (fun r' => Advances r.d r'.d) := by
  unfold stepUncompressed
  split
  · exact .ok (Advances.refl _).regs
  · dsimp only
    split
    · exact .error
    · refine (storedLoop_advances _ r.d).bind fun d hd => .ok ?_
      dsimp only
      split <;> exact hd.regs

theorem streamTrailer_advances (d : Decompressor) : Answers (streamTrailer d) (Advances d) := by
  have halign : Advances d d.align := (Advances.refl d).regs
  unfold streamTrailer
  split
  · exact (d.align.byteFields_advances 4).bind fun p hp => .after fun _ => .ok (halign.trans hp)
  · exact (d.align.byteFields_advances 8).bind fun p hp => .after fun _ => .after fun _ => .ok (halign.trans hp)
  · exact .ok halign

/-- A state step that commits moves the decompressor on (spec/45_block_reader.md R480 to R525). -/
theorem advances_of_stateStep {r r' : Reader} (h : stateStep r = some (.ok r')) : Advances r.d r'.d := by
  have hof : ∀ {x : Txn Reader}, Answers x (fun r' => Advances r.d r'.d) → some x = some (.ok r') → Advances r.d r'.d :=
    fun hx he => hx r' (Option.some.inj he)
  unfold stateStep at h
  split at h
  · exact hof ((streamHeader_advances r.d).bind fun _ hd => .ok hd) h
  · exact hof (stepBlockStart_advances r) h
  · refine hof ((lensLoop_advances _ _ _ _ r.d).bind fun p hp => .after fun _ => .after fun _ => .after fun _ => .ok ?_) h
    exact hp.regs
  · exact hof (stepCompressed_advances r) h
  · exact hof (stepUncompressed_advances r) h
  · refine hof ((streamTrailer_advances r.d).bind fun d hd => .ok ?_) h
    exact hd.regs
  all_goals cases h

/-- A turn of `BR.STEP` moves the decompressor on, but for the state and the error code that an error writes. -/
theorem Turn.advances {r : Reader} {a : StepAnswer} (h : Turn r a) : Advances r.d a.reader.d := by
  cases h with
  | commits r' h => exact advances_of_stateStep h
  | raises e => exact (Advances.refl r.d).regs
  | waits _ | latched _ _ | ended _ => exact .refl r.d

theorem Turn.status_ne_refused {r : Reader} {a : StepAnswer} (h : Turn r a) : a.status ≠ .refused := by
  cases h with
  | commits r' _ =>
    dsimp only
    split <;> exact nofun
  | _ => exact nofun

theorem Turn.isOpen_of_ok {r : Reader} {a : StepAnswer} (h : Turn r a) (ha : a.status = .ok) : a.reader.d.isOpen = true :=
  isOpen_of_streaming (h.streaming_of_ok ha)

theorem readLoop_advances (fuel : Nat) {r : Reader} (ho : r.d.isOpen = true) :
    Answers (readLoop fuel r) (fun a => Advances r.d a.reader.d ∧ a.status ≠ .refused) := by
  induction fuel generalizing r with
  | zero => exact .error
  | succ fuel ih =>
    refine (brStep_turn ho).bind fun a ha => ?_
    split
    · next hok => exact (ih (ha.isOpen_of_ok hok)).mono fun _ hb => ⟨ha.advances.trans hb.1, hb.2⟩
    · exact .ok ⟨ha.advances, ha.status_ne_refused⟩

/-! ## What the compressor's driver leaves alone -/

/-- The parts of the core that no work of the compressor writes: the ports, the result interface, the decompressor's side, the
configuration (spec/10_state.md R30, R34). -/
structure SameOutside (s t : State) : Prop where
  cmdIn   : t.cmdIn = s.cmdIn
  dataIn  : t.dataIn = s.dataIn
  status  : t.status = s.status
  res     : t.res = s.res
  dataOut : t.dataOut = s.dataOut
  refused : t.refused = s.refused
  cfg     : t.c.cfg = s.c.cfg
  d       : t.d = s.d
  bc      : t.bc = s.bc
  dec     : t.dec = s.dec
  free    : t.free = s.free

theorem SameOutside.refl (s : State) : SameOutside s s := ⟨rfl, rfl, rfl, rfl, rfl, rfl, rfl, rfl, rfl, rfl, rfl⟩

theorem SameOutside.trans {s t u : State} (x : SameOutside s t) (y : SameOutside t u) : SameOutside s u :=
  ⟨y.cmdIn.trans x.cmdIn, y.dataIn.trans x.dataIn, y.status.trans x.status, y.res.trans x.res, y.dataOut.trans x.dataOut,
    y.refused.trans x.refused, y.cfg.trans x.cfg, y.d.trans x.d, y.bc.trans x.bc, y.dec.trans x.dec, y.free.trans x.free⟩

theorem writeDynamic_sameOutside (P : Params) (final : Bool) (s : State) : Answers (writeDynamic P final s) (SameOutside s) :=
  .after fun _ => .after fun _ => .after fun _ => .after fun _ => .ok ⟨rfl, rfl, rfl, rfl, rfl, rfl, rfl, rfl, rfl, rfl, rfl⟩

/-- The parts of the driver write the compressor's units only. -/
theorem keptByParts_sameOutside (P : Params) (s : State) : KeptByParts P (SameOutside s) where
  parse t ht := .after fun _ => .after fun _ => .ok (ht.trans ⟨rfl, rfl, rfl, rfl, rfl, rfl, rfl, rfl, rfl, rfl, rfl⟩)
  graph n t ht := .after fun _ => .after fun _ => .ok (ht.trans ⟨rfl, rfl, rfl, rfl, rfl, rfl, rfl, rfl, rfl, rfl, rfl⟩)
  minimize t ht := .after fun _ => .after fun _ => .after fun _ => .after fun _ => .after fun _ =>
    .ok (ht.trans ⟨rfl, rfl, rfl, rfl, rfl, rfl, rfl, rfl, rfl, rfl, rfl⟩)
  generalize t ht := ht.trans ⟨rfl, rfl, rfl, rfl, rfl, rfl, rfl, rfl, rfl, rfl, rfl⟩
  write final t ht := (writeDynamic_sameOutside P final t).mono fun _ hu => ht.trans hu
  final t ht := by
    unfold finalBlock
    split
    · exact .ok (ht.trans ⟨rfl, rfl, rfl, rfl, rfl, rfl, rfl, rfl, rfl, rfl, rfl⟩)
    · exact (writeDynamic_sameOutside P true t).mono fun _ hu => ht.trans hu
  skip n t ht := ht.trans ⟨rfl, rfl, rfl, rfl, rfl, rfl, rfl, rfl, rfl, rfl, rfl⟩

theorem pushInput_sameOutside (P : Params) (last : Bool) (bytes : List Byte) (s : State) :
    Answers (pushInput P last bytes s) (SameOutside s) := by
  refine Answers.bind (R := SameOutside s)
    ((keptByParts_sameOutside P s).drive ⟨rfl, rfl, rfl, rfl, rfl, rfl, rfl, rfl, rfl, rfl, rfl⟩) fun t ht => ?_
  cases last
  · exact .ok ht
  · exact .ok (ht.trans ⟨rfl, rfl, rfl, rfl, rfl, rfl, rfl, rfl, rfl, rfl, rfl⟩)

theorem SameOutside.eq {s t : State} (h : SameOutside s t) : t = { s with
    c := { t.c with cfg := s.c.cfg }, bs := t.bs, wn := t.wn, tv := t.tv, mg := t.mg, dt := t.dt, enc := t.enc } := by
  obtain ⟨h1, h2, h3, h4, h5, h6, h7, h8, h9, h10, h11⟩ := h
  rw [← h1, ← h2, ← h3, ← h4, ← h5, ← h6, ← h7, ← h8, ← h9, ← h10, ← h11]

/-! ## What every command leaves alone -/

/-- The units an accepted command may write, all else being as it was but the result interface: for each command those of its rule
(spec/10_state.md R30 to R35, spec/20_memory.md R100). -/
def Leaves (i : Instr) (s t : State) : Prop :=
  let answered := fun u : State => t = u.answer t.status t.res t.dataOut
  match i with
  | .bcRead _ _ | .hfBuild _ _ | .hfEncode _ _ | .hfDecode _ _ _ | .wnMatch _ _ _ | .wnMatchd _ _ _ | .tmMap _ | .ckAdler _ _
  | .ckCrc32 _ _ => answered s
  | .bsInit _ | .bsAppend _ _ | .bsPad | .bsPull | .bsPop | .bwStored _ _ | .cPop | .cPull => answered { s with bs := t.bs }
  | .bcNew _ | .bcRebase _ _ => answered { s with bc := t.bc, d := { s.d with disturbed := t.d.disturbed } }
  | .hfLoad _ _ => answered { s with dec := t.dec, enc := t.enc, d := { s.d with disturbed := t.d.disturbed } }
  | .wnInit _ | .wnUpdate _ | .wnFeed _ => answered { s with wn := t.wn }
  | .tmStep => answered { s with wn := t.wn, tv := t.tv, c := { s.c with parsed := t.c.parsed, termsBytes := t.c.termsBytes } }
  | .tmGraph _ => answered { s with
      wn := t.wn, mg := t.mg, c := { s.c with parsed := t.c.parsed, graphs := t.c.graphs, limit := t.c.limit } }
  | .tmMinimize => answered { s with mg := t.mg, tv := t.tv, dt := t.dt, c := { s.c with termsBytes := t.c.termsBytes } }
  | .tmGeneralize => answered { s with dt := t.dt }
  | .bwDynamic _ => answered { s with
      enc := t.enc, bs := t.bs, tv := t.tv, c := { s.c with emitted := t.c.emitted, termsBytes := t.c.termsBytes } }
  | .cNew _ _ _ _ => answered { s with c := t.c, bs := t.bs, wn := t.wn, tv := t.tv, mg := t.mg, dt := t.dt, enc := t.enc }
  | .cPush _ _ => answered { s with
      c := { t.c with cfg := s.c.cfg }, bs := t.bs, wn := t.wn, tv := t.tv, mg := t.mg, dt := t.dt, enc := t.enc }
  | .dNew _ => answered { s with d := t.d, bc := t.bc, dec := t.dec }
  | .brStep | .dPush _ | .dPulln _ | .dPull => answered { s with
      d := { t.d with format := s.d.format }, bc := t.bc, dec := t.dec, free := t.free }

/-- What a disturbed decompressor answers stays on its side, and is no refusal (spec/70_reset_and_hazards.md R652). -/
theorem State.disturbedAnswer_leaves (s : State) : Answers s.disturbedAnswer (fun t => t.status ≠ .refused
    ∧ t = ({ s with d := { t.d with format := s.d.format }, bc := t.bc, dec := t.dec, free := t.free } : State).answer
        t.status t.res t.dataOut) := by
  unfold State.disturbedAnswer
  dsimp only
  split
  · exact .error
  · next hne =>
    refine .ok ⟨?_, rfl⟩
    dsimp only
    split
    · exact nofun
    · exact hne

theorem withReader_leaves {s : State} {r : Reader} (h : r.d.format = s.d.format) (status : Status) (res : List Word) :
    (s.withReader r).answer status res [] = ({ s with
      d := { r.d with format := s.d.format }, dec := r.dec } : State).answer status res [] := by
  rw [← h]
  rfl

/-- A command of an open decompressor: what the rest answers on an undisturbed one, or a free answer of its own side. -/
theorem reader_answers {s : State} {x : Run State} {Q : State → Prop} (hdisturbed : Answers s.disturbedAnswer Q)
    (hx : s.d.isOpen = true → Answers x Q) :
    Answers (do refuseIf (!s.d.isOpen) .noInstance; if s.d.disturbed then s.disturbedAnswer else x) Q := by
  refine Answers.bind (R := fun _ => s.d.isOpen = true) (fun _ hc => by simpa using hc) fun _ ho => ?_
  split
  · exact hdisturbed
  · exact hx ho

theorem latched_status (d : Decompressor) : Answers d.latched (fun e => e ≠ .refused) := by
  unfold Decompressor.latched
  split
  · exact .ok nofun
  · exact .error

/-- What the answers of a command's computation have in common: the units it leaves, and that none of them is a refusal. -/
theorem exec_answers (i : Instr) (s : State) :
    ∃ x, exec i s = s.finish x ∧ Answers x (fun t => t.status ≠ .refused ∧ Leaves i s t) := by
  cases i with
  | ckAdler _ _ | ckCrc32 _ _ | bcNew _ => exact ⟨pure _, rfl, .ok ⟨nofun, rfl⟩⟩
  | bsInit _ | bsPad | bsPull | wnInit _ | wnFeed _ | tmGeneralize | cPull | hfBuild _ _ | dNew _ =>
    exact ⟨_, rfl, .after fun _ => .ok ⟨nofun, rfl⟩⟩
  | bsAppend _ _ | bwStored _ _ | cNew _ _ _ _ | hfLoad _ _ => exact ⟨_, rfl, .after fun _ => .after fun _ => .ok ⟨nofun, rfl⟩⟩
  | bcRebase _ _ => exact ⟨_, rfl, .after fun _ => .after fun _ => .after fun _ => .ok ⟨nofun, rfl⟩⟩
  | bcRead _ _ => exact ⟨_, rfl, .after fun _ => .after fun _ => .after fun _ => .after fun _ => .after fun _ => .ok ⟨nofun, rfl⟩⟩
  | bsPop | cPop =>
    refine ⟨_, rfl, .after fun _ => .ok ?_⟩
    unfold State.popChunk
    split <;> exact ⟨nofun, rfl⟩
  | wnUpdate byte =>
    refine ⟨_, rfl, .after fun _ => .after fun w => ?_⟩
    dsimp only
    split
    · exact .ok ⟨nofun, rfl⟩
    · split <;> exact .ok ⟨nofun, rfl⟩
  | wnMatch _ _ _ | wnMatchd _ _ _ =>
    refine ⟨_, rfl, .after fun _ => .after fun m => ?_⟩
    cases m <;> exact .ok ⟨nofun, rfl⟩
  | tmMap term =>
    refine ⟨_, rfl, ?_⟩
    split
    · exact .error
    · split <;> exact .ok ⟨nofun, rfl⟩
  | hfEncode _ _ =>
    refine ⟨_, rfl, .after fun _ => .after fun _ => .after fun _ => .after fun _ => .after fun e => ?_⟩
    split <;> exact .ok ⟨nofun, rfl⟩
  | hfDecode _ _ _ =>
    refine ⟨_, rfl, .after fun _ => .after fun _ => .after fun _ => .after fun _ => .after fun _ => ?_⟩
    split <;> exact .ok ⟨nofun, rfl⟩
  | tmStep =>
    refine ⟨_, rfl, .after fun _ => .after fun _ => ?_⟩
    split
    · exact .ok ⟨nofun, rfl⟩
    · split
      · exact .ok ⟨nofun, rfl⟩
      · refine Answers.bind (R := fun p => p.1 = s.commitTerms p.2 p.1.wn) ?_ fun p hp => .ok ⟨nofun, ?_⟩
        · exact .after fun _ => .after fun _ => .ok rfl
        · rw [hp]
          rfl
  | tmGraph n =>
    refine ⟨_, rfl, .after fun _ => Answers.bind (R := fun u => u = { s with
      wn := u.wn, mg := u.mg, c := { s.c with parsed := u.c.parsed, graphs := u.c.graphs, limit := u.c.limit } }) ?_ fun u hu => ?_⟩
    · exact .after fun _ => .after fun _ => .ok rfl
    · exact .ok ⟨nofun, congrArg (State.answer · .ok [] []) hu⟩
  | tmMinimize =>
    refine ⟨_, rfl, .after fun _ => Answers.bind (R := fun p => p.1 = { s with
      mg := p.1.mg, tv := p.1.tv, dt := p.1.dt, c := { s.c with termsBytes := p.1.c.termsBytes } }) ?_ fun p hp => ?_⟩
    · exact .after fun _ => .after fun _ => .after fun _ => .after fun _ => .after fun _ => .ok rfl
    · exact .ok ⟨nofun, congrArg (State.answer · .ok _ []) hp⟩
  | bwDynamic final =>
    refine ⟨_, rfl, .after fun _ => Answers.bind (R := fun u => u = { s with
      enc := u.enc, bs := u.bs, tv := u.tv, c := { s.c with emitted := u.c.emitted, termsBytes := u.c.termsBytes } }) ?_
        fun u hu => ?_⟩
    · exact .after fun _ => .after fun _ => .after fun _ => .after fun _ => .ok rfl
    · exact .ok ⟨nofun, congrArg (State.answer · .ok [] []) hu⟩
  | cPush last bytes =>
    exact ⟨_, rfl, .after fun _ => .after fun _ => (pushInput_sameOutside _ last bytes s).bind fun u hu =>
      .ok ⟨nofun, congrArg (State.answer · .ok _ []) hu.eq⟩⟩
  | brStep =>
    refine ⟨_, rfl, reader_answers s.disturbedAnswer_leaves fun ho => (brStep_turn (r := s.reader) ho).bind fun a ha => .ok ?_⟩
    exact ⟨ha.status_ne_refused, withReader_leaves ha.advances.format _ _⟩
  | dPush bytes =>
    refine ⟨_, rfl, reader_answers s.disturbedAnswer_leaves fun ho => ?_⟩
    split
    · exact (latched_status s.d).bind fun e he => .ok ⟨he, rfl⟩
    · split
      · exact .ok ⟨nofun, rfl⟩
      · refine (readLoop_advances _ (r := (s.feedReader bytes).reader) ho).bind fun a ⟨ha, hstatus⟩ => .ok ⟨hstatus, ?_⟩
        exact withReader_leaves (s := s.feedReader bytes) ha.format _ _
  | dPulln count =>
    refine ⟨_, rfl, reader_answers s.disturbedAnswer_leaves fun _ => ?_⟩
    split <;> exact .ok ⟨nofun, rfl⟩
  | dPull => exact ⟨_, rfl, reader_answers s.disturbedAnswer_leaves fun _ => .ok ⟨nofun, rfl⟩⟩

/-- What is read of a state that is known to be another one. -/
theorem read_eq {α : Type} (f : State → α) {t u : State} {a : α} (h : t = u) (ha : f u = a) : f t = a := h ▸ ha

/-- An accepted command leaves every unit that is not its own. -/
theorem Accepts.leaves {i : Instr} {s t : State} (h : Accepts i s t) : Leaves i s t := by
  obtain ⟨x, hx, hq⟩ := exec_answers i s
  exact (h.answers hx hq).2

/-- The reader's commands on an undisturbed decompressor draw no free value and leave the mark; only `D.PUSH` moves the cursor, only
`D.PUSH` and `BR.STEP` load tables (spec/45_block_reader.md R486, spec/46_stream_interface.md R551 to R554). -/
structure ReaderFrame (i : Instr) (s t : State) : Prop where
  free      : t.free = s.free
  disturbed : t.d.disturbed = s.d.disturbed
  bc        : i.op ≠ .dPush → t.bc = s.bc
  dec       : i.op ≠ .dPush → i.op ≠ .brStep → t.dec = s.dec
  moves     : Advances { s.d with drained := t.d.drained, input := t.d.input } t.d

theorem Accepts.readerFrame {i : Instr} {s t : State} (h : Accepts i s t) (hd : s.d.disturbed = false)
    (hi : i.op ∈ [.brStep, .dPush, .dPulln, .dPull]) : ReaderFrame i s t := by
  have hof : ∀ {x : Run State}, exec i s = s.finish (do
      refuseIf (!s.d.isOpen) .noInstance; if s.d.disturbed then s.disturbedAnswer else x) →
      (s.d.isOpen = true → Answers x (ReaderFrame i s)) → ReaderFrame i s t := fun hx hq =>
    h.answers hx (Answers.bind (R := fun _ => s.d.isOpen = true) (fun _ hc => by simpa using hc) fun _ ho => by
      rw [hd, if_neg Bool.false_ne_true]
      exact hq ho)
  have hsame : ∀ {status : Status} {res : List Word} {out : List Byte}, ReaderFrame i s (s.answer status res out) :=
    ⟨rfl, rfl, fun _ => rfl, fun _ _ => rfl, .refl _⟩
  cases i with
  | brStep =>
    refine hof rfl fun ho => (brStep_turn (r := s.reader) ho).bind fun a ha => .ok ?_
    obtain ⟨hinput, hformat, hdrained, hdisturbed, hout, htotal, hhist⟩ := ha.advances
    exact ⟨rfl, hdisturbed, fun _ => rfl, fun _ hne => absurd rfl hne, rfl, hformat, rfl, hdisturbed, hout, htotal, hhist⟩
  | dPush bytes =>
    refine hof rfl fun ho => ?_
    split
    · exact .after fun e => .ok hsame
    · split
      · exact .ok hsame
      · refine (readLoop_advances _ (r := (s.feedReader bytes).reader) ho).bind fun a ⟨ha, _⟩ => .ok ?_
        obtain ⟨hinput, hformat, hdrained, hdisturbed, hout, htotal, hhist⟩ := ha
        exact ⟨rfl, hdisturbed, fun hne => absurd rfl hne, fun hne => absurd rfl hne, rfl, hformat, rfl, hdisturbed, hout, htotal, hhist⟩
  | dPulln count =>
    refine hof rfl fun _ => ?_
    split
    · exact .ok hsame
    · exact .ok ⟨rfl, rfl, fun _ => rfl, fun _ _ => rfl, .refl _⟩
  | dPull => exact hof rfl fun _ => .ok ⟨rfl, rfl, fun _ => rfl, fun _ _ => rfl, .refl _⟩
  | _ => simp [Instr.op] at hi

/-! ## The obligations -/

/-- Settles O9: a command either answers, with a status that is no refusal and the ports and the flag as they were, or is refused, and
then leaves the three things the rule names. -/
theorem refusalRecorded : Obligations.RefusalRecorded := by
  refine ⟨fun i s t h => ?_, fun i s r h => ?_, fun r => by cases r <;> decide⟩
  · obtain ⟨x, hx, hq⟩ := exec_answers i s
    rcases finish_eq_next.mp (hx.symm.trans h) with hok | ⟨q, -, rfl⟩
    · obtain ⟨hstatus, hleaves⟩ := hq t hok
      refine ⟨fun hr => absurd hr hstatus, fun _ => ?_, ?_, ?_⟩
      · cases i <;> exact read_eq State.refused hleaves rfl
      · cases i <;> exact read_eq State.cmdIn hleaves rfl
      · cases i <;> exact read_eq State.dataIn hleaves rfl
    · exact ⟨fun _ => ⟨rfl, q, rfl⟩, fun hne => absurd rfl hne, rfl, rfl⟩
  · obtain ⟨x, hx, -⟩ := exec_answers i s
    exact finish_ne_refused s x r (hx.symm.trans h)

section Frame

variable {i : Instr} {s t : State} (h : Accepts i s t)

include h

theorem Accepts.bs_eq (hi : i.op ∉ [.bsInit, .bsAppend, .bsPad, .bsPull, .bsPop, .bwDynamic, .bwStored, .cNew, .cPush, .cPop, .cPull]) :
    t.bs = s.bs := by
  cases i with
  | bsInit _ | bsAppend _ _ | bsPad | bsPull | bsPop | bwDynamic _ | bwStored _ _ | cNew _ _ _ _ | cPush _ _ | cPop | cPull =>
    simp [Instr.op] at hi
  | _ => exact read_eq State.bs h.leaves rfl

theorem Accepts.wn_eq (hi : i.op ∉ [.wnInit, .wnUpdate, .wnFeed, .tmStep, .tmGraph, .cNew, .cPush]) : t.wn = s.wn := by
  cases i with
  | wnInit _ | wnUpdate _ | wnFeed _ | tmStep | tmGraph _ | cNew _ _ _ _ | cPush _ _ => simp [Instr.op] at hi
  | _ => exact read_eq State.wn h.leaves rfl

theorem Accepts.tv_eq (hi : i.op ∉ [.tmStep, .tmMinimize, .bwDynamic, .cNew, .cPush]) : t.tv = s.tv := by
  cases i with
  | tmStep | tmMinimize | bwDynamic _ | cNew _ _ _ _ | cPush _ _ => simp [Instr.op] at hi
  | _ => exact read_eq State.tv h.leaves rfl

theorem Accepts.mg_eq (hi : i.op ∉ [.tmGraph, .tmMinimize, .cNew, .cPush]) : t.mg = s.mg := by
  cases i with
  | tmGraph _ | tmMinimize | cNew _ _ _ _ | cPush _ _ => simp [Instr.op] at hi
  | _ => exact read_eq State.mg h.leaves rfl

theorem Accepts.dt_eq (hi : i.op ∉ [.tmMinimize, .tmGeneralize, .cNew, .cPush]) : t.dt = s.dt := by
  cases i with
  | tmMinimize | tmGeneralize | cNew _ _ _ _ | cPush _ _ => simp [Instr.op] at hi
  | _ => exact read_eq State.dt h.leaves rfl

theorem Accepts.enc_eq (hi : i.op ∉ [.hfLoad, .bwDynamic, .cNew, .cPush]) : t.enc = s.enc := by
  cases i with
  | hfLoad _ _ | bwDynamic _ | cNew _ _ _ _ | cPush _ _ => simp [Instr.op] at hi
  | _ => exact read_eq State.enc h.leaves rfl

theorem Accepts.c_eq (hi : i.op ∉ [.tmStep, .tmGraph, .tmMinimize, .bwDynamic, .cNew, .cPush]) : t.c = s.c := by
  cases i with
  | tmStep | tmGraph _ | tmMinimize | bwDynamic _ | cNew _ _ _ _ | cPush _ _ => simp [Instr.op] at hi
  | _ => exact read_eq State.c h.leaves rfl

theorem Accepts.cfg_eq (hi : i.op ≠ .cNew) : t.c.cfg = s.c.cfg := by
  cases i with
  | cNew _ _ _ _ => exact absurd rfl hi
  | _ => exact read_eq (fun u : State => u.c.cfg) h.leaves rfl

theorem Accepts.format_eq (hi : i.op ≠ .dNew) : t.d.format = s.d.format := by
  cases i with
  | dNew _ => exact absurd rfl hi
  | _ => exact read_eq (fun u : State => u.d.format) h.leaves rfl

theorem Accepts.d_eq (hi : i.op ∉ [.dNew, .dPush, .brStep, .dPulln, .dPull]) :
    t.d = { s.d with disturbed := t.d.disturbed } := by
  cases i with
  | dNew _ | dPush _ | brStep | dPulln _ | dPull => simp [Instr.op] at hi
  | bcNew _ | bcRebase _ _ | hfLoad _ _ => exact read_eq State.d h.leaves rfl
  | _ =>
    have hsame : t.d = s.d := read_eq State.d h.leaves rfl
    rw [hsame]

variable (hd : s.d.disturbed = false)

include hd

theorem Accepts.bc_eq (hi : i.op ∉ [.bcNew, .bcRebase, .dNew, .dPush]) : t.bc = s.bc := by
  cases i with
  | bcNew _ | bcRebase _ _ | dNew _ | dPush _ => simp [Instr.op] at hi
  | brStep | dPulln _ | dPull => exact (h.readerFrame hd (by simp [Instr.op])).bc (by simp [Instr.op])
  | _ => exact read_eq State.bc h.leaves rfl

theorem Accepts.dec_eq (hi : i.op ∉ [.hfLoad, .dNew, .dPush, .brStep]) : t.dec = s.dec := by
  cases i with
  | hfLoad _ _ | dNew _ | dPush _ | brStep => simp [Instr.op] at hi
  | dPulln _ | dPull => exact (h.readerFrame hd (by simp [Instr.op])).dec (by simp [Instr.op]) (by simp [Instr.op])
  | _ => exact read_eq State.dec h.leaves rfl

theorem Accepts.disturbed_eq (hi : i.op ∉ [.dNew, .dPush, .brStep, .bcNew, .bcRebase, .hfLoad]) :
    t.d.disturbed = s.d.disturbed := by
  cases i with
  | dNew _ | dPush _ | brStep | bcNew _ | bcRebase _ _ | hfLoad _ _ => simp [Instr.op] at hi
  | dPulln _ | dPull => exact (h.readerFrame hd (by simp [Instr.op])).disturbed
  | _ => exact read_eq (fun u : State => u.d.disturbed) h.leaves rfl

theorem Accepts.free_eq : t.free = s.free := by
  cases i with
  | brStep | dPush _ | dPulln _ | dPull => exact (h.readerFrame hd (by simp [Instr.op])).free
  | _ => exact read_eq State.free h.leaves rfl

end Frame

/-- Settles O58: for each unit, the commands that leave it. -/
theorem unitWriters : Obligations.UnitWriters :=
  ⟨fun _ _ _ h => ⟨h.bs_eq, h.wn_eq, h.tv_eq, h.mg_eq, h.dt_eq, h.enc_eq, h.c_eq, h.cfg_eq, h.format_eq⟩,
    fun _ _ _ hd h => ⟨h.bc_eq hd, h.dec_eq hd, h.d_eq, h.disturbed_eq hd, h.free_eq hd⟩⟩

end Sys2Proof.Machine
end

section
/-! PROOF. The invariant of the core (spec/60_exceptions.md R608): a sound state is a sound compressor's side and a sound decompressor's
side, each said of its units alone; every command, run on a sound state, stops at no fault and leaves each side sound. From these
`Obligations.StepKeepsInv`, `Obligations.NeverFaults` and `Obligations.PowerOn`. -/

namespace Sys2Proof.Machine

/-! ## The two sides of a sound state -/

/-- The units of a sound compressor's side. -/
structure CompressorParts (c : Compressor) (bs : Sink) (wn : Window) (tv : List Term) (mg : Graph) (dt : DepthTable)
    (enc : EncTables) : Prop where
  sink       : bs.isOpen = true → bs.Sound
  window     : wn.Sound
  terms      : ∀ t ∈ tv, t.Valid
  graph      : mg.Sound
  depth      : dt.sized = true
  sized      : enc.Sized
  compressor : c.isOpen = true → c.Sound
  opened     : c.isOpen = true → bs.isOpen = true ∧ wn.isOpen = true ∧ enc.runLit.isOpen = true ∧ enc.dist.isOpen = true
    ∧ enc.metasym.isOpen = true

/-- The units of a sound decompressor's side. -/
structure DecompressorParts (d : Decompressor) (bc : Cursor) (dec : DecTables) : Prop where
  cursor  : bc.isOpen = true → bc.Sound
  runLit  : dec.runLit.Sound .runLit
  dist    : dec.dist.Sound .dist
  metasym : dec.metasym.Sound .metasym
  reader  : d.disturbed = true ∨
    (d.Sound ∧ ({ d := d, dec := dec } : Reader).Ready ∧ (d.streaming = true → CursorAgrees d bc))
  opened  : d.isOpen = true → bc.isOpen = true ∧ dec.AllOpen

def State.SoundCompressor (s : State) : Prop := CompressorParts s.c s.bs s.wn s.tv s.mg s.dt s.enc

def State.SoundDecompressor (s : State) : Prop := DecompressorParts s.d s.bc s.dec

theorem State.sound_iff (s : State) : s.Sound ↔ s.SoundCompressor ∧ s.SoundDecompressor := by
  constructor
  · rintro ⟨hsink, hwindow, ⟨hterms, hgraph, hdepth, henc⟩, hc, hcursor, ⟨hl, hd, hm⟩, hreader, hopenC, hopenD⟩
    refine ⟨⟨hsink, hwindow, hterms, hgraph, hdepth, henc, hc, hopenC⟩, ⟨hcursor, hl, hd, hm, hreader, fun ho => ?_⟩⟩
    obtain ⟨h1, h2, h3, h4⟩ := hopenD ho
    exact ⟨h1, h2, h3, h4⟩
  · rintro ⟨⟨hsink, hwindow, hterms, hgraph, hdepth, henc, hc, hopenC⟩, ⟨hcursor, hl, hd, hm, hreader, hopenD⟩⟩
    refine ⟨hsink, hwindow, ⟨hterms, hgraph, hdepth, henc⟩, hc, hcursor, ⟨hl, hd, hm⟩, hreader, hopenC, fun ho => ?_⟩
    obtain ⟨h1, h2, h3, h4⟩ := hopenD ho
    exact ⟨h1, h2, h3, h4⟩

theorem State.SoundCompressor.congr {s t : State} (h : s.SoundCompressor) (e : SameCompressor s t) : t.SoundCompressor := by
  obtain ⟨hc, hbs, hwn, htv, hmg, hdt, henc⟩ := e
  rw [State.SoundCompressor, ← hc, ← hbs, ← hwn, ← htv, ← hmg, ← hdt, ← henc]
  exact h

theorem State.SoundDecompressor.congr {s t : State} (h : s.SoundDecompressor) (e : SameDecompressor s t) : t.SoundDecompressor := by
  obtain ⟨hd, hbc, hdec⟩ := e
  rw [State.SoundDecompressor, ← hd, ← hbc, ← hdec]
  exact h

/-- A command of the decompressor's side leaves the compressor's side (spec/10_state.md R30). -/
theorem Accepts.sameCompressor {i : Instr} {s t : State} (h : Accepts i s t) (hi : decompressorSide i = true) :
    SameCompressor s t := by
  cases i with
  | bcNew _ | bcRebase _ _ | bcRead _ _ | hfDecode _ _ _ | brStep | dNew _ | dPush _ | dPulln _ | dPull =>
    exact read_eq (SameCompressor s) h.leaves (eq_true ⟨rfl, rfl, rfl, rfl, rfl, rfl, rfl⟩) |>.mpr trivial
  | _ => cases hi

/-! ## The compressor's side under its work -/

theorem CompressorParts.withSink {c : Compressor} {bs k : Sink} {wn : Window} {tv : List Term} {mg : Graph} {dt : DepthTable}
    {enc : EncTables} (h : CompressorParts c bs wn tv mg dt enc) (ho : bs.isOpen = true) (hk : bs.Sound → k.Sound)
    (hopen : k.isOpen = bs.isOpen) : CompressorParts c k wn tv mg dt enc :=
  { h with sink := fun _ => hk (h.sink ho), opened := fun hc => hopen ▸ h.opened hc }

theorem CompressorParts.withWindow {c : Compressor} {bs : Sink} {wn w : Window} {tv : List Term} {mg : Graph} {dt : DepthTable}
    {enc : EncTables} (h : CompressorParts c bs wn tv mg dt enc) (hw : w.Sound) (hopen : w.isOpen = wn.isOpen) :
    CompressorParts c bs w tv mg dt enc :=
  { h with window := hw, opened := fun hc => hopen ▸ h.opened hc }

theorem CompressorParts.withTable {c : Compressor} {bs : Sink} {wn : Window} {tv : List Term} {mg : Graph} {dt : DepthTable}
    {enc : EncTables} (h : CompressorParts c bs wn tv mg dt enc) {tbl : Table} (x : EncTable) (hx : x.entries.length = tbl.size)
    (hopen : x.isOpen = true) : CompressorParts c bs wn tv mg dt (enc.put tbl x) := by
  obtain ⟨h1, h2, h3⟩ := h.sized
  refine { h with sized := ?_, opened := fun hc => ?_ }
  · cases tbl
    · exact ⟨hx, h2, h3⟩
    · exact ⟨h1, hx, h3⟩
    · exact ⟨h1, h2, hx⟩
  · obtain ⟨hbs, hwn, hl, hd, hm⟩ := h.opened hc
    cases tbl
    · exact ⟨hbs, hwn, hopen, hd, hm⟩
    · exact ⟨hbs, hwn, hl, hopen, hm⟩
    · exact ⟨hbs, hwn, hl, hd, hopen⟩

/-- Registers that a stretch of work leaves sound: the configuration, the input and what is computed of it as before, the positions
within the input. -/
theorem Compressor.Sound.of_same {c e : Compressor} (h : c.Sound) (hcfg : e.cfg = c.cfg) (hinput : e.input = c.input)
    (hcheck : e.check = c.check) (hisize : e.isize = c.isize) (hparsed : e.parsed ≤ e.input.length)
    (hlast : e.last = true ↔ e.state = .finished) (hlimit : e.limit = limitAfter referenceParams e.graphs) : e.Sound :=
  ⟨hcfg ▸ h.exp, hcfg ▸ h.goal, hcfg ▸ h.sweeps, hcfg ▸ h.hint, hparsed, by rw [hcheck, hcfg, hinput, h.check],
    by rw [hisize, hinput, h.isize], hlast, hlimit⟩

theorem State.SoundCompressor.workable {s : State} (h : s.SoundCompressor) (ho : s.c.isOpen = true) : Workable s :=
  ⟨h.window, ⟨h.terms, h.graph, h.depth, h.sized⟩, (h.compressor ho).parsed⟩

/-- The units of an open compressor after a stretch of its work. -/
theorem State.SoundCompressor.work {s t : State} (h : s.SoundCompressor) (ho : s.c.isOpen = true) (hw : Work referenceParams s t)
    (ht : Workable t) : t.SoundCompressor := by
  obtain ⟨hbs, hwn, hl, hd, hm⟩ := h.opened ho
  have hc := h.compressor ho
  exact
    { sink := hw.sink h.sink, window := ht.window, terms := ht.terms.terms, graph := ht.terms.graph, depth := ht.terms.depth
      sized := ht.terms.enc
      compressor := fun _ => hc.of_same hw.cfg hw.input hw.check hw.isize ht.parsed (by rw [hw.last, hw.cstate, hc.last])
        (hw.limit hc.limit)
      opened := fun _ => ⟨hw.bsOpen ▸ hbs, hw.wnOpen ▸ hwn, hw.encL hl, hw.encD hd, hw.encM hm⟩ }

/-- The registers after the bytes of a push, the stream closed when it is the last one (spec/46_stream_interface.md R542). -/
theorem Compressor.Sound.take {c : Compressor} (h : c.Sound) (ho : c.state = .opened) (last : Bool) (bytes : List Byte) :
    ({ c.take last bytes with state := if last then .finished else .opened } : Compressor).Sound := by
  have hlast : c.last = false := by
    have := h.last
    rw [ho] at this
    simpa using this
  refine ⟨h.exp, h.goal, h.sweeps, h.hint, ?_, ?_, rfl, ?_, h.limit⟩
  · have := h.parsed
    simp only [Compressor.take, List.length_append]
    omega
  · have hcheck := h.check
    cases hf : c.cfg.format <;> simp_all [Compressor.take, inputCheck, checkOver, checkInit]
  · cases last <;> simp [Compressor.take, lastFlag, hlast]

theorem BitVec.toNat_pos_of_ne_zero {n : Nat} {x : BitVec n} (h : x ≠ 0) : 1 ≤ x.toNat :=
  Nat.one_le_iff_ne_zero.mpr fun h0 => h (BitVec.eq_of_toNat_eq h0)

theorem Graph.sound_blank : Graph.blank.Sound :=
  ⟨rfl, nofun, fun _ _ _ _ h => by simp [Graph.blank] at h⟩

theorem referenceLevel_ranges (n : Nat) : 1 ≤ (referenceLevel n).goal.toNat ∧ (referenceLevel n).goal.toNat ≤ 258
    ∧ 1 ≤ (referenceLevel n).iterations.toNat ∧ (referenceLevel n).iterations.toNat ≤ 6 := by
  unfold referenceLevel
  split <;> decide

theorem limitAfter_zero : limitAfter referenceParams 0 = graphLimit0 := by decide

theorem EncTables.sized_cleared : EncTables.cleared.Sized :=
  have h : ∀ t : Table, (EncTable.cleared t).entries.length = t.size := fun t => by
    rw [EncTable.cleared, length_encLoad, List.length_replicate]
  ⟨h .runLit, h .dist, h .metasym⟩

theorem EncTable.isOpen_cleared (t : Table) : (EncTable.cleared t).isOpen = true := isOpen_encLoad _ _

/-- The compressor's units after `C.NEW` (spec/46_stream_interface.md R540). -/
theorem openCompressor_sound (f : Format) {exp : BitVec 4} (level : Byte) {hint : Word} (s : State) (hexp : 8 ≤ exp.toNat)
    (hhint : hint ≠ 0) : (s.openCompressor referenceParams (configFor referenceParams f exp level hint)).SoundCompressor := by
  obtain ⟨hgoal, hgoal', hsweeps, hsweeps'⟩ := referenceLevel_ranges level.toNat
  refine
    { sink := fun _ => (Sink.sound_init _ (BitVec.toNat_pos_of_ne_zero hhint)).appendBytes _, window := Window.sound_init _
      terms := nofun, graph := Graph.sound_blank, depth := referenceParams_bounded.depth
      sized := EncTables.sized_cleared
      compressor := fun _ => ⟨?_, ⟨hgoal, hgoal'⟩, ⟨hsweeps, hsweeps'⟩, hhint, Nat.zero_le _, ?_, rfl,
        by simp [State.openCompressor, Compressor.fresh], limitAfter_zero.symm⟩
      opened := fun _ => ⟨Sink.isOpen_appendBytes _ _, rfl, EncTable.isOpen_cleared .runLit,
        EncTable.isOpen_cleared .dist, EncTable.isOpen_cleared .metasym⟩ }
  · cases f <;> simp [State.openCompressor, Compressor.fresh, configFor, hexp]
  · exact (checkOver_nil _ _).symm

/-- A command of the compressor's side: no fault, and a sound compressor's side. -/
theorem exec_meets_soundCompressor {i : Instr} {s : State} (h : s.SoundCompressor) (hi : compressorSide i = true) :
    ∃ x, exec i s = s.finish x ∧ Meets x State.SoundCompressor := by
  have hopened : ∀ {o : Bool} {f : Unit → Run State}, (o = true → Meets (f ()) State.SoundCompressor) →
      Meets (refuseIf (!o) .noInstance >>= f) State.SoundCompressor := fun hf =>
    (Meets.check (Q := fun _ => _ = true) fun hc => by simpa using hc).bind fun _ ho => hf ho
  have hchecked : ∀ {c : Bool} {r : Reason} {f : Unit → Run State}, (c = false → Meets (f ()) State.SoundCompressor) →
      Meets (refuseIf c r >>= f) State.SoundCompressor := fun hf =>
    (Meets.check (Q := fun _ => _ = false) id).bind fun _ ho => hf ho
  have hpop : s.bs.isOpen = true → s.popChunk.SoundCompressor := fun ho => by
    unfold State.popChunk
    rcases hq : s.bs.queue with _ | ⟨chunk, rest⟩
    · rw [Sink.pop_of_nil hq]
      exact h
    · rw [Sink.pop_of_cons hq]
      exact h.withSink ho (fun hs => ⟨hs.hint, fun c hc => hs.chunks c (hq ▸ List.mem_cons_of_mem _ hc), hs.done, hs.acc⟩) rfl
  cases i with
  | bsInit hint =>
    refine ⟨_, rfl, hchecked fun hc => Meets.pure ?_⟩
    exact { h with
      sink := fun _ => Sink.sound_init _ (BitVec.toNat_pos_of_ne_zero (by simpa using hc))
      opened := fun ho => ⟨rfl, (h.opened ho).2⟩ }
  | bsAppend count bits =>
    exact ⟨_, rfl, hchecked fun _ => hopened fun ho => Meets.pure (h.withSink ho (fun hs => hs.append _ _) (Sink.isOpen_append _ _ _))⟩
  | bsPad => exact ⟨_, rfl, hopened fun ho => Meets.pure (h.withSink ho Sink.Sound.pad (Sink.isOpen_pad _))⟩
  | bsPull => exact ⟨_, rfl, hopened fun ho => Meets.pure (h.withSink ho Sink.Sound.pull rfl)⟩
  | bsPop => exact ⟨_, rfl, hopened fun ho => Meets.pure (hpop ho)⟩
  | wnInit exp =>
    refine ⟨_, rfl, hchecked fun _ => Meets.pure ?_⟩
    exact { h with
      window := Window.sound_init exp
      opened := fun ho => ⟨(h.opened ho).1, rfl, (h.opened ho).2.2⟩ }
  | wnFeed bytes => exact ⟨_, rfl, hopened fun _ => Meets.pure (h.withWindow (h.window.feed bytes) rfl)⟩
  | wnUpdate byte =>
    refine ⟨_, rfl, hopened fun _ => ?_⟩
    have hupdate : Meets (s.wn.update referenceParams byte) (fun w => w.Sound ∧ w.isOpen = s.wn.isOpen) :=
      ⟨fun w hw => ⟨h.window.update hw, (Window.update_frame hw).2.2.1⟩, Window.update_ne_fault _ _ _⟩
    refine hupdate.bind fun w ⟨hw, ho⟩ => ?_
    dsimp only
    split
    · exact Meets.pure (h.withWindow hw ho)
    · split <;> exact Meets.pure (h.withWindow hw ho)
  | wnMatch lookahead attempts goal =>
    refine ⟨_, rfl, hopened fun _ => ?_⟩
    have hfind : Meets (s.wn.findMatch lookahead.toNat attempts.toNat goal.toNat) (fun _ => True) := by
      rcases Window.findMatch_spec h.window lookahead.toNat attempts.toNat goal.toNat with ⟨hr, -⟩ | ⟨m, hm, -⟩
      · exact hr ▸ Meets.refused
      · exact Meets.of_ok hm trivial
    refine hfind.bind fun m _ => ?_
    cases m <;> exact Meets.pure h
  | wnMatchd lookahead attempts goal =>
    refine ⟨_, rfl, hopened fun _ => ?_⟩
    have hfind : Meets (s.wn.findPerDecade lookahead.toNat attempts.toNat goal.toNat) (fun _ => True) := by
      rcases Window.findPerDecade_spec h.window lookahead.toNat attempts.toNat goal.toNat with ⟨hr, -⟩ | ⟨m, hm, -⟩
      · exact hr ▸ Meets.refused
      · exact Meets.of_ok hm trivial
    refine hfind.bind fun m _ => ?_
    cases m <;> exact Meets.pure h
  | tmMap term =>
    refine ⟨_, rfl, ?_⟩
    split
    · exact Meets.refused
    · split <;> exact Meets.pure h
  | tmStep =>
    refine ⟨_, rfl, hopened fun ho => hchecked fun _ => ?_⟩
    split
    · exact Meets.pure h
    · split
      · exact Meets.pure h
      · next hlt _ =>
        exact (meets_parseStep (h.workable ho) (not_le.mp hlt)).bind fun r ⟨hw, ht, _⟩ =>
          Meets.pure (h.work ho hw ht : r.1.SoundCompressor)
  | tmGraph n =>
    refine ⟨_, rfl, hopened fun ho => (Meets.mono (R := State.SoundCompressor) ?_ fun _ => id).bind fun t ht => Meets.pure ht⟩
    refine hchecked fun hc => ?_
    simp only [Bool.or_eq_false_iff, decide_eq_false_iff_not, not_lt] at hc
    exact (meets_buildGraph (h.workable ho) _ hc.2).mono fun t ⟨hw, ht, _⟩ => h.work ho hw ht
  | tmMinimize =>
    refine ⟨_, rfl, hchecked fun hc => ?_⟩
    have ho : s.c.isOpen = true := by simpa using (Bool.or_eq_false_iff.mp hc).1
    obtain ⟨t, terms, total, hok, hw, ht, -⟩ := minimizeOnce_ok (P := referenceParams) (h.workable ho)
    exact (Meets.of_ok (Q := fun p => p.1.SoundCompressor) hok (h.work ho hw ht)).bind fun p hp => Meets.pure hp
  | tmGeneralize =>
    refine ⟨_, rfl, hopened fun _ => Meets.pure { h with depth := ?_ }⟩
    have hdt := (sized_iff _).mp h.depth
    have hdef := (sized_iff _).mp referenceParams_bounded.depth
    refine (sized_iff _).mpr ?_
    simp [State.answer, State.generalize, blendDepths, hdt, hdef]
  | bwDynamic final =>
    refine ⟨_, rfl, hopened fun ho => ?_⟩
    obtain ⟨t, hok, hw, ht, -⟩ := writeDynamic_ok referenceParams_bounded final (h.workable ho)
    exact (Meets.of_ok (Q := State.SoundCompressor) hok (h.work ho hw ht)).bind fun p hp => Meets.pure hp
  | bwStored last bytes =>
    exact ⟨_, rfl, hopened fun ho => hchecked fun _ =>
      Meets.pure (h.withSink ho (fun hs => hs.stored _ _) (Sink.isOpen_stored _ _ _))⟩
  | cNew format exp level hint =>
    refine ⟨_, rfl, Meets.bind (R := fun _ => True) ⟨fun _ _ => trivial, fun f => ?_⟩ fun f _ => hchecked fun hc => Meets.pure ?_⟩
    · unfold formatOf
      split <;> exact nofun
    · simp only [Bool.or_eq_false_iff, decide_eq_false_iff_not, not_lt, beq_eq_false_iff_ne] at hc
      exact openCompressor_sound f level s hc.1 hc.2
  | cPush last bytes =>
    refine ⟨_, rfl, hopened fun ho => hchecked fun hfin => ?_⟩
    have hstate : s.c.state = .opened := by
      cases hs : s.c.state <;> simp_all [Compressor.isOpen]
    obtain ⟨hbs, hwn, hl, hd, hm⟩ := h.opened ho
    have htake := (h.compressor ho).take hstate last bytes
    have hlast : lastFlag s.c.last last = last := by
      have := (h.compressor ho).last
      rw [hstate] at this
      cases last <;> simp_all [lastFlag]
    refine Meets.bind (R := State.SoundCompressor) ?_ fun t ht => Meets.pure ht
    refine Meets.bind (meets_drive referenceParams_bounded ⟨h.window.feed bytes, ⟨h.terms, h.graph, h.depth, h.sized⟩, htake.parsed⟩)
      fun t ⟨hw, ht⟩ => ?_
    have hopen : t.bs.isOpen = true := hw.bsOpen ▸ hbs
    have hparts : CompressorParts { t.c with state := if last then .finished else .opened } t.bs t.wn t.tv t.mg t.dt t.enc :=
      { sink := hw.sink h.sink, window := ht.window, terms := ht.terms.terms, graph := ht.terms.graph, depth := ht.terms.depth
        sized := ht.terms.enc
        compressor := fun _ => htake.of_same hw.cfg hw.input hw.check hw.isize ht.parsed
          (by rw [show t.c.last = last from hw.last.trans hlast]; cases last <;> simp) (hw.limit htake.limit)
        opened := fun _ => ⟨hopen, hw.wnOpen ▸ hwn, hw.encL hl, hw.encD hd, hw.encM hm⟩ }
    cases last with
    | false =>
      have hsame : t.c = { t.c with state := .opened } := by
        rw [← hw.cstate.trans hstate]
      refine Meets.pure (?_ : CompressorParts t.c t.bs t.wn t.tv t.mg t.dt t.enc)
      rw [hsame]
      exact hparts
    | true =>
      exact Meets.pure (hparts.withSink hopen (fun hs => hs.pad.appendBytes _)
        ((Sink.isOpen_appendBytes _ _).trans (Sink.isOpen_pad _)))
  | cPop =>
    refine ⟨_, rfl, hopened fun ho => Meets.pure (hpop (h.opened ho).1)⟩
  | cPull =>
    exact ⟨_, rfl, hopened fun ho => Meets.pure (h.withSink (h.opened ho).1 Sink.Sound.drain (Sink.isOpen_drain _))⟩
  | hfEncode t sym =>
    refine ⟨_, rfl, Meets.bind (R := fun tbl => (s.enc.get tbl).entries.length = tbl.size) ⟨fun tbl _ => ?_, fun f => ?_⟩
      fun tbl htbl => hchecked fun hc => hopened fun _ => hchecked fun _ => ?_⟩
    · cases tbl
      · exact h.sized.1
      · exact h.sized.2.1
      · exact h.sized.2.2
    · unfold tableOf
      split <;> exact nofun
    · simp only [decide_eq_false_iff_not, not_le] at hc
      refine (Meets.read (Q := fun _ => True) (List.getElem?_eq_getElem (htbl ▸ hc)) trivial).bind fun e _ => ?_
      split <;> exact Meets.pure h
  | _ => cases hi

/-! ## The decompressor's side under its commands -/

theorem State.SoundDecompressor.whole {s : State} (h : s.SoundDecompressor) (hd : s.d.disturbed = false) : s.reader.Whole := by
  rcases h.reader with hdist | ⟨hsound, hready, -⟩
  · rw [hd] at hdist
    cases hdist
  · exact ⟨hsound, hready, h.runLit, h.dist, h.metasym⟩

theorem State.SoundDecompressor.agrees {s : State} (h : s.SoundDecompressor) (hd : s.d.disturbed = false)
    (hs : s.d.streaming = true) : CursorAgrees s.d s.bc := by
  rcases h.reader with hdist | ⟨-, -, hagrees⟩
  · rw [hd] at hdist
    cases hdist
  · exact hagrees hs

theorem Reader.ready_of_not_streaming {r : Reader} (h : r.d.streaming = false) : r.Ready := by
  refine Reader.ready_of_state ⟨?_, ?_, ?_⟩ <;> intro hs <;> rw [Decompressor.streaming, hs] at h <;> cases h

/-- The host changes the cursor or the tables: a stream in progress is disturbed, and no other relies on them
(spec/70_reset_and_hazards.md R652). -/
theorem DecompressorParts.touched {d : Decompressor} {bc bc' : Cursor} {dec dec' : DecTables} (h : DecompressorParts d bc dec)
    (hcursor : bc'.isOpen = true → bc'.Sound)
    (htables : dec'.runLit.Sound .runLit ∧ dec'.dist.Sound .dist ∧ dec'.metasym.Sound .metasym)
    (hopened : d.isOpen = true → bc'.isOpen = true ∧ dec'.AllOpen) : DecompressorParts d.touched bc' dec' := by
  refine ⟨hcursor, htables.1, htables.2.1, htables.2.2, ?_, hopened⟩
  rw [Decompressor.touched_disturbed]
  rcases h.reader with hdist | ⟨hsound, -, -⟩
  · exact .inl (by rw [hdist, Bool.true_or])
  · cases hs : d.streaming
    · refine .inr ⟨⟨hsound.total, hsound.drained, hsound.cursor, hsound.histWf, hsound.hist, hsound.check, hsound.err⟩,
        Reader.ready_of_not_streaming hs, fun hs' => ?_⟩
      exact absurd (hs.symm.trans hs') (by decide)
    · exact .inl (Bool.or_true _)

theorem Cursor.sound_init (bytes : List Byte) : (Cursor.init bytes).Sound :=
  ⟨Nat.mul_mod_right 8 _, by simp [Cursor.init], Nat.zero_le _⟩

theorem DecTable.sound_shaped (t : Table) (lens : List Nat) (o : Bool) : (DecTable.shaped t lens o).Sound t := by
  refine ⟨?_, fun l hl => ?_, rfl⟩
  · simp [DecTable.shaped, DecTable.load]
  · obtain ⟨x, -, rfl⟩ := List.mem_map.mp hl
    exact Nat.min_le_left _ _

/-- A disturbed decompressor leaves its units in the form their rules give them (spec/70_reset_and_hazards.md R652). -/
theorem State.SoundDecompressor.meets_disturbedAnswer {s : State} (h : s.SoundDecompressor) (ho : s.d.isOpen = true) :
    Meets s.disturbedAnswer State.SoundDecompressor := by
  obtain ⟨hbc, hl, hd, hm⟩ := h.opened ho
  unfold State.disturbedAnswer
  dsimp only
  split
  · exact Meets.refused
  · exact Meets.pure
      { cursor := fun _ => ⟨Nat.mul_mod_right 8 _, (Cursor.sound_init _).padded, Nat.min_le_right _ _⟩
        runLit := DecTable.sound_shaped _ _ _, dist := DecTable.sound_shaped _ _ _, metasym := DecTable.sound_shaped _ _ _
        reader := .inl rfl, opened := fun _ => ⟨hbc, hl, hd, hm⟩ }

/-- The cursor fed with the bytes of a push agrees with the longer input (spec/40_bit_io.md R242, spec/10_state.md R51). -/
theorem CursorAgrees.feed {d : Decompressor} {k : Cursor} (h : CursorAgrees d k) (hk : k.Sound) (hd : d.Sound) (bytes : List Byte) :
    (k.rebase bytes (d.cur - (d.valid - k.count))).Sound
      ∧ CursorAgrees { d with input := d.input ++ bytes } (k.rebase bytes (d.cur - (d.valid - k.count))) := by
  have hretained := h.retained
  have hpointer := h.pointer
  have hcur := hd.cursor
  have hwhole := hk.whole
  have hvalid : d.valid = 8 * d.input.length := rfl
  have hvalid' : ({ d with input := d.input ++ bytes } : Decompressor).valid = d.valid + 8 * bytes.length := by
    simp [Decompressor.valid, Nat.mul_add]
  refine ⟨hk.rebase bytes (by omega), ?_, ?_, ?_⟩
  · rw [hvalid']
    simp only [Cursor.rebase]
    omega
  · have hlen : ((k.buf.take (k.count / 8)).drop (2 * ((d.cur - (d.valid - k.count)) / 16)) ++ bytes).length
        = (k.rebase bytes (d.cur - (d.valid - k.count))).count / 8 := by
      have := hk.length_buf
      simp [Cursor.rebase]
      omega
    have hbuf : (k.rebase bytes (d.cur - (d.valid - k.count))).buf
        = ((k.buf.take (k.count / 8)).drop (2 * ((d.cur - (d.valid - k.count)) / 16)) ++ bytes) ++ cursorPadding := rfl
    rw [← hlen, hbuf, List.take_left, h.suffix, List.drop_drop,
      hvalid', ← List.drop_append_of_le_length (by omega)]
    congr 1
    simp only [Cursor.rebase]
    omega
  · rw [hvalid']
    simp only [Cursor.rebase]
    omega

theorem Decompressor.Sound.feed {d : Decompressor} (h : d.Sound) (bytes : List Byte) :
    ({ d with input := d.input ++ bytes } : Decompressor).Sound := by
  refine ⟨h.total, h.drained, ?_, h.histWf, h.hist, h.check, h.err⟩
  have := h.cursor
  simp only [Decompressor.valid, List.length_append] at this ⊢
  omega

/-- The core fed with the bytes of a push, its stream in progress. -/
theorem State.SoundDecompressor.feed {s : State} (h : s.SoundDecompressor) (hd : s.d.disturbed = false) (hs : s.d.streaming = true)
    (bytes : List Byte) : (s.feedReader bytes).SoundDecompressor := by
  have ho := h.opened (isOpen_of_streaming hs)
  have hw := h.whole hd
  obtain ⟨hk, hagrees⟩ := (h.agrees hd hs).feed (h.cursor ho.1) hw.d bytes
  exact ⟨fun _ => hk, h.runLit, h.dist, h.metasym,
    .inr ⟨hw.d.feed bytes, ⟨hw.ready.tables, hw.ready.compressed, hw.ready.stored⟩, fun _ => hagrees⟩, fun _ => ho⟩

theorem CursorAgrees.readOn {r r' : Reader} {k : Cursor} (h : CursorAgrees r.d k) (hr : ReadOn r r') : CursorAgrees r'.d k := by
  have hvalid : r'.d.valid = r.d.valid := by rw [Decompressor.valid, hr.input]; rfl
  refine ⟨hvalid ▸ h.retained, ?_, ?_⟩
  · rw [hvalid, hr.input]
    exact h.suffix
  · rw [hvalid]
    exact h.pointer.trans hr.cur

/-- The core after its reader has read on. -/
theorem State.SoundDecompressor.withReader {s : State} (h : s.SoundDecompressor) (hd : s.d.disturbed = false)
    (ho : s.d.isOpen = true) {r : Reader} (hr : ReadOn s.reader r) (hs : r.d.streaming = true → s.d.streaming = true) :
    (s.withReader r).SoundDecompressor := by
  obtain ⟨hbc, hl, hdist, hm⟩ := h.opened ho
  exact ⟨h.cursor, hr.whole.runLit, hr.whole.dist, hr.whole.metasym,
    .inr ⟨hr.whole.d, hr.whole.ready, fun hs' => (h.agrees hd (hs hs')).readOn hr⟩,
    fun _ => ⟨hbc, hr.opened.1 hl, hr.opened.2.1 hdist, hr.opened.2.2 hm⟩⟩

theorem Turn.streaming_of_streaming {r : Reader} {a : StepAnswer} (h : Turn r a) (hs : a.reader.d.streaming = true) :
    r.d.streaming = true := by
  cases h with
  | commits r' hc => exact streaming_of_stateStep hc
  | raises _ => cases hs
  | waits _ | latched _ _ | ended _ => exact hs

theorem CursorAgrees.fresh (f : Format) : CursorAgrees (Decompressor.fresh f) (Cursor.init []) :=
  ⟨le_rfl, by simp [Decompressor.fresh, Cursor.init], le_rfl⟩

/-- A command of the decompressor's side: no fault, and a sound decompressor's side. -/
theorem exec_meets_soundDecompressor {i : Instr} {s : State} (h : s.SoundDecompressor) (hi : decompressorSide i = true) :
    ∃ x, exec i s = s.finish x ∧ Meets x State.SoundDecompressor := by
  have hchecked : ∀ {c : Bool} {r : Reason} {f : Unit → Run State}, (c = false → Meets (f ()) State.SoundDecompressor) →
      Meets (refuseIf c r >>= f) State.SoundDecompressor := fun hf =>
    (Meets.check (Q := fun _ => _ = false) id).bind fun _ ho => hf ho
  have hopened : ∀ {o : Bool} {f : Unit → Run State}, (o = true → Meets (f ()) State.SoundDecompressor) →
      Meets (refuseIf (!o) .noInstance >>= f) State.SoundDecompressor := fun hf =>
    hchecked fun hc => hf (by simpa using hc)
  have hundisturbed : ∀ {x : Run State}, (s.d.isOpen = true → s.d.disturbed = false → Meets x State.SoundDecompressor) →
      Meets (do refuseIf (!s.d.isOpen) .noInstance; if s.d.disturbed then s.disturbedAnswer else x) State.SoundDecompressor :=
    fun hx => hopened fun ho => by
      split
      · exact h.meets_disturbedAnswer ho
      · next hd => exact hx ho (by simpa using hd)
  have hdrained : s.d.disturbed = false → ∀ n, n ≤ s.d.out.length →
      ({ s with d := { s.d with drained := n } } : State).SoundDecompressor := fun hd n hn => by
    have hw := h.whole hd
    exact { h with
      reader := .inr ⟨⟨hw.d.total, hn, hw.d.cursor, hw.d.histWf, hw.d.hist, hw.d.check, hw.d.err⟩,
        ⟨hw.ready.tables, hw.ready.compressed, hw.ready.stored⟩, fun hs =>
          ⟨(h.agrees hd hs).retained, (h.agrees hd hs).suffix, (h.agrees hd hs).pointer⟩⟩ }
  cases i with
  | bcNew bytes =>
    exact ⟨pure _, rfl, Meets.pure (DecompressorParts.touched h (fun _ => Cursor.sound_init bytes) ⟨h.runLit, h.dist, h.metasym⟩
      fun ho => ⟨rfl, (h.opened ho).2⟩)⟩
  | bcRebase data pointer =>
    refine ⟨_, rfl, hopened fun ho => hchecked fun hc => ?_⟩
    simp only [Bool.or_eq_false_iff, decide_eq_false_iff_not, not_lt] at hc
    rw [(h.cursor ho).holds]
    exact Meets.pure (DecompressorParts.touched h (fun _ => (h.cursor ho).rebase data hc.2) ⟨h.runLit, h.dist, h.metasym⟩
      fun hd => ⟨ho, (h.opened hd).2⟩)
  | bcRead width offset =>
    refine ⟨_, rfl, hchecked fun _ => hopened fun ho => hchecked fun _ => hchecked fun _ => ?_⟩
    have hlen := (h.cursor ho).length_buf
    obtain ⟨v, hv, -⟩ := Cursor.readBits_ok (k := s.bc) (off := offset.toNat) (width := width.toNat) (fun j _ hj => by omega)
    exact (Meets.of_ok (Q := fun _ => True) hv trivial).bind fun _ _ => Meets.pure h
  | hfDecode t avail peek =>
    refine ⟨_, rfl, Meets.bind (R := fun tbl => (s.dec.get tbl).Sound tbl) ⟨fun tbl _ => ?_, fun f => ?_⟩
      fun tbl htbl => hchecked fun _ => hopened fun _ => hchecked fun _ => ?_⟩
    · cases tbl
      · exact h.runLit
      · exact h.dist
      · exact h.metasym
    · unfold tableOf
      split <;> exact nofun
    · rw [htbl.holds]
      refine Meets.bind (R := fun _ => True) (Meets.of_ok rfl trivial) fun _ _ => ?_
      split <;> exact Meets.pure h
  | brStep =>
    refine ⟨_, rfl, hundisturbed fun ho hd => ?_⟩
    have hstep := meets_brStep (h.whole hd) ho
    have hturn : Meets (brStep s.reader) (fun a => StepOf s.reader a ∧ Turn s.reader a) :=
      ⟨fun a ha => ⟨hstep.answer a ha, brStep_turn ho a ha⟩, hstep.noFault⟩
    exact hturn.bind fun a ⟨ha, ht⟩ =>
      Meets.pure (h.withReader hd ho (ha.readOn (h.whole hd) ho) ht.streaming_of_streaming)
  | dNew format =>
    refine ⟨_, rfl, Meets.bind (R := fun _ => True) ⟨fun _ _ => trivial, fun f => ?_⟩ fun f _ => Meets.pure ?_⟩
    · unfold formatOf
      split <;> exact nofun
    · have hcleared : ∀ t : Table, (DecTable.cleared t).Sound t := fun t =>
        DecTable.sound_load List.length_replicate fun l hl => by rw [List.eq_of_mem_replicate hl]; exact Nat.zero_le _
      refine
        { cursor := fun _ => Cursor.sound_init [], runLit := hcleared .runLit, dist := hcleared .dist, metasym := hcleared .metasym
          reader := .inr ⟨⟨rfl, le_rfl, le_rfl, rfl, nofun, fun _ => (checkOver_nil _ _).symm, ?_⟩, ⟨nofun, nofun, nofun⟩,
            fun _ => CursorAgrees.fresh f⟩
          opened := fun _ => ⟨rfl, rfl, rfl, rfl⟩ }
      exact ⟨nofun, nofun⟩
  | dPush bytes =>
    refine ⟨_, rfl, hundisturbed fun ho hd => ?_⟩
    split
    · next hs =>
      obtain ⟨e, he⟩ := Option.isSome_iff_exists.mp ((h.whole hd).d.err.mp hs)
      refine Meets.bind (Meets.of_ok (Q := fun _ => True) (by rw [Decompressor.latched, show s.d.err = some e from he]; rfl) trivial) fun _ _ => Meets.pure h
    · split
      · exact Meets.pure h
      · next herr hend =>
        have hs := Decompressor.streaming_of_ne ho hend herr
        have hfeed := h.feed hd hs bytes
        have hw := hfeed.whole hd
        exact (meets_readLoop _ hw ho (Reader.left_lt_turns _)).bind fun a ⟨ha, _⟩ =>
          Meets.pure (hfeed.withReader hd ho ha fun _ => hs)
  | dPulln count =>
    refine ⟨_, rfl, hundisturbed fun ho hd => ?_⟩
    have hle : s.d.drained ≤ s.d.out.length := (h.whole hd).d.drained
    split
    · exact Meets.pure h
    · next hcount => exact Meets.pure (hdrained hd (s.d.drained + count.toNat) (by omega))
  | dPull => exact ⟨_, rfl, hundisturbed fun ho hd => Meets.pure (hdrained hd _ le_rfl)⟩
  | _ => cases hi

/-! ## Every command -/

/-- The commands of neither side: no fault, and a sound state. -/
theorem exec_meets_sound_of_neither {i : Instr} {s : State} (h : s.Sound) (hc : compressorSide i = false)
    (hd : decompressorSide i = false) : ∃ x, exec i s = s.finish x ∧ Meets x State.Sound := by
  obtain ⟨hcomp, hdecomp⟩ := s.sound_iff.mp h
  have hof : ∀ {t : State}, t.SoundCompressor → t.SoundDecompressor → t.Sound := fun h1 h2 => (State.sound_iff _).mpr ⟨h1, h2⟩
  cases i with
  | ckAdler _ _ | ckCrc32 _ _ => exact ⟨pure _, rfl, Meets.pure (hof hcomp hdecomp)⟩
  | hfBuild maxlen freqs =>
    exact ⟨_, rfl, (Meets.check (Q := fun _ => True) fun _ => trivial).bind fun _ _ => Meets.pure (hof hcomp hdecomp)⟩
  | hfLoad t lengths =>
    refine ⟨_, rfl, Meets.bind (R := fun _ => True) ⟨fun _ _ => trivial, fun f => ?_⟩ fun tbl _ =>
      (Meets.check (Q := fun _ => _ = false) id).bind fun _ hc => Meets.pure ?_⟩
    · unfold tableOf
      split <;> exact nofun
    · simp only [Bool.or_eq_false_iff, decide_eq_false_iff_not, not_lt, List.any_eq_false, decide_eq_true_eq] at hc
      have hload : (DecTable.load (padTo tbl.size (lengths.map BitVec.toNat))).Sound tbl := by
        refine DecTable.sound_load (length_padTo _ _) fun l hl => ?_
        rcases mem_padTo hl with hmem | rfl
        · obtain ⟨b, hb, rfl⟩ := List.mem_map.mp hmem
          exact hc.2 b hb
        · exact Nat.zero_le _
      refine hof (hcomp.withTable (EncTable.load tbl (padTo tbl.size (lengths.map BitVec.toNat))) ?_ (isOpen_encLoad _ _))
        (DecompressorParts.touched hdecomp hdecomp.cursor ?_ fun ho => ⟨(hdecomp.opened ho).1, ?_⟩)
      · rw [length_encLoad, length_padTo]
      · have hparts := And.intro hdecomp.runLit (And.intro hdecomp.dist hdecomp.metasym)
        cases tbl
        · exact ⟨hload, hparts.2⟩
        · exact ⟨hparts.1, hload, hparts.2.2⟩
        · exact ⟨hparts.1, hparts.2.1, hload⟩
      · obtain ⟨-, hl, hdist, hm⟩ := hdecomp.opened ho
        cases tbl
        · exact ⟨rfl, hdist, hm⟩
        · exact ⟨hl, rfl, hm⟩
        · exact ⟨hl, hdist, rfl⟩
  | bcNew _ | bcRebase _ _ | bcRead _ _ | hfDecode _ _ _ | brStep | dNew _ | dPush _ | dPulln _ | dPull => cases hd
  | _ => cases hc

/-- Every command on a sound state: no fault, and what it leaves is sound or a refusal. -/
theorem exec_sound {i : Instr} {s : State} (h : s.Sound) :
    (∀ f, exec i s ≠ .fault f) ∧ ∀ t, exec i s = .next t → t.refused = true ∨ t.Sound := by
  obtain ⟨hcomp, hdecomp⟩ := s.sound_iff.mp h
  have hof : ∀ {Q : State → Prop}, (∃ x, exec i s = s.finish x ∧ Meets x Q) → (∀ t, Accepts i s t → Q t → t.Sound) →
      (∀ f, exec i s ≠ .fault f) ∧ ∀ t, exec i s = .next t → t.refused = true ∨ t.Sound := by
    rintro Q ⟨x, hx, hq⟩ hsound
    refine ⟨fun f hf => hq.noFault f (finish_eq_fault.mp (hx.symm.trans hf)), fun t ht => ?_⟩
    rcases finish_eq_next.mp (hx.symm.trans ht) with hok | ⟨r, -, rfl⟩
    · by_cases hs : t.status = .refused
      · exact .inl ((refusalRecorded.1 i s t ht).1 hs).1
      · exact .inr (hsound t ⟨ht, hs⟩ (hq.answer t hok))
    · exact .inl rfl
  cases hc : compressorSide i
  · cases hd : decompressorSide i
    · exact hof (exec_meets_sound_of_neither h hc hd) fun _ _ => id
    · exact hof (exec_meets_soundDecompressor hdecomp hd) fun t ht hq =>
        t.sound_iff.mpr ⟨hcomp.congr (ht.sameCompressor hd), hq⟩
  · exact hof (exec_meets_soundCompressor hcomp hc) fun t ht hq =>
      t.sound_iff.mpr ⟨hq, hdecomp.congr (ht.sameDecompressor hc)⟩

/-- What the ports hold does not matter to a sound state. -/
theorem State.Sound.withPorts {s : State} (h : s.Sound) (words : List Word) (bytes : List Byte) :
    ({ s with cmdIn := words, dataIn := bytes } : State).Sound :=
  (State.sound_iff _).mpr (s.sound_iff.mp h)

/-! ## The obligations -/

/-- Settles O15, by the cases of a step: a command on a sound state leaves a sound one or a refusal, and so does a bad word. -/
theorem stepKeepsInv : Obligations.StepKeepsInv := by
  intro s t hs ht
  unfold step at ht
  split at ht
  · cases ht
  · next hrefused =>
    have hsound : s.Sound := hs.resolve_left hrefused
    split at ht
    · cases ht
      exact .inr hsound
    · cases ht
      exact .inl rfl
    · exact (exec_sound (hsound.withPorts _ _)).2 t ht

/-- Settles O16: the only part of a step that could fault is a command, and on a sound state none does. -/
theorem neverFaults : Obligations.NeverFaults := by
  intro s f hs ht
  unfold step at ht
  split at ht
  · cases ht
  · next hrefused =>
    split at ht
    · cases ht
    · cases ht
    · exact (exec_sound ((hs.resolve_left hrefused).withPorts _ _)).1 f ht

theorem DecTable.sound_powerOn (t : Table) : (DecTable.powerOn t.size).Sound t := by
  refine ⟨List.length_replicate, fun l hl => ?_, ?_⟩
  · rw [List.eq_of_mem_replicate hl]
    exact Nat.zero_le _
  · simp [DecTable.powerOn, verdictOf]

theorem State.sound_reset : State.reset.Sound := by
  have hwindow := Window.sound_init 0
  have henc : ∀ n, (EncTable.powerOn n).entries.length = n := fun n => List.length_replicate
  refine (State.sound_iff _).mpr ⟨?_, ?_⟩
  · exact { sink := nofun, terms := nofun, graph := Graph.sound_blank
            window := ⟨hwindow.bytesWf, hwindow.headWf, hwindow.nextWf, hwindow.fed, hwindow.slots, hwindow.rolling, hwindow.heads,
              hwindow.links, hwindow.last, hwindow.lastHead⟩
            depth := (sized_iff _).mpr ⟨List.length_replicate, List.length_replicate, List.length_replicate⟩
            sized := ⟨henc _, henc _, henc _⟩, compressor := nofun, opened := nofun }
  · exact { cursor := nofun, runLit := DecTable.sound_powerOn .runLit, dist := DecTable.sound_powerOn .dist
            metasym := DecTable.sound_powerOn .metasym
            reader := .inr ⟨⟨rfl, le_rfl, le_rfl, rfl, nofun, nofun, nofun, nofun⟩, ⟨nofun, nofun, nofun⟩, nofun⟩
            opened := nofun }

/-- Settles O6: the fields as they stand, no command on the ports, and the reset state sound. -/
theorem powerOn : Obligations.PowerOn :=
  ⟨rfl, rfl, rfl, rfl, rfl, rfl, rfl, rfl, rfl, rfl, rfl, rfl, rfl, rfl, rfl, .inr State.sound_reset⟩

end Sys2Proof.Machine
end

section
/-! PROOF. The commands that open or fill one unit, and the checksums: `WN.INIT` and `WN.FEED`, `HF.BUILD`, `C.NEW`, `D.NEW`, `BW.STORED`,
`CK.ADLER` and `CK.CRC32`. From what each answers, the obligations about them. -/

namespace Sys2Proof.Machine

/-! ## Bytes on the stream -/

theorem lowBits_mod (n v : Nat) : lowBits n (v % 2 ^ n) = lowBits n v :=
  lowBits_congr fun j hj => by rw [Nat.testBit_mod_two_pow, decide_eq_true hj, Bool.true_and]

theorem lowBits_toNat_ofNat (n v : Nat) : lowBits n (BitVec.ofNat n v).toNat = lowBits n v := by
  rw [BitVec.toNat_ofNat, lowBits_mod]

theorem bitsOfBytes_ofNat (bytes : List Nat) : bitsOfBytes (bytes.map (BitVec.ofNat 8)) = bytes.flatMap (lowBits 8) := by
  rw [bitsOfBytes, List.flatMap_map]
  exact List.flatMap_congr fun v _ => lowBits_toNat_ofNat 8 v

theorem flatMap_lowBits_toNat (bytes : List Byte) : (bytes.map BitVec.toNat).flatMap (lowBits 8) = bitsOfBytes bytes := by
  rw [bitsOfBytes, List.flatMap_map]

@[simp] theorem lowBits_one (b : Bool) : lowBits 1 b.toNat = [b] := by
  cases b <;> rfl

@[simp] theorem Sink.hint_appendBytes (k : Sink) (bytes : List Nat) : (k.appendBytes bytes).hint = k.hint := by
  induction bytes generalizing k with
  | nil => rfl
  | cons b rest ih => rw [Sink.appendBytes_cons, ih, Sink.hint_append]

/-- A sink whose stream is whole bytes has no partial byte. -/
theorem Sink.nacc_of_whole {k : Sink} (h : k.stream.length % 8 = 0) : k.nacc = 0 :=
  BitVec.eq_of_toNat_eq ((k.length_stream_mod.symm).trans h)

/-! ## Stored blocks (spec/44_block_writer.md R448) -/

theorem Sink.stream_stored (k : Sink) (last : Bool) (bytes : List Byte) : (k.stored last bytes).stream =
    k.stream ++ [last, false, false] ++ padding (k.stream.length + 3) ++ lowBits 16 bytes.length
      ++ lowBits 16 (65535 - bytes.length) ++ bitsOfBytes bytes := by
  have hhead : ((k.append last.toNat 1).append 0 2).stream = k.stream ++ [last, false, false] := by
    rw [Sink.stream_append, Sink.stream_append, lowBits_one, List.append_assoc]
    rfl
  rw [Sink.stored, Sink.stream_appendBytes, flatMap_lowBits_toNat, Sink.stream_append, Sink.stream_append, Sink.stream_pad, hhead,
    List.length_append]
  rfl

theorem Sink.hint_stored (k : Sink) (last : Bool) (bytes : List Byte) : (k.stored last bytes).hint = k.hint := by
  simp [Sink.stored]

/-- Settles O43: the stream is what each `Append` and the padding add to it. -/
theorem bwStored : Obligations.BwStored := by
  refine fun last bytes s => ⟨?_, fun hlong hopen => ?_, fun hclosed => refuses_closed hclosed, fun hopen hlen hs => ?_⟩
  · exact encode_eq 0x61 (last.toNat * 2 ^ 23 + bytes.length) rfl rfl (by omega)
  · exact refuses_opened hopen (refuses_check (decide_eq_true hlong))
  · exact ⟨_, (finish_opened hopen).trans (finish_afterCheck (by simpa using hlen)), s.bs.stream_stored last bytes, hs.stored _ _,
      (Sink.isOpen_stored _ _ _).trans hopen, Sink.hint_stored _ _ _⟩

/-! ## The window opened and fed -/

/-- Settles O33: the one check of `WN.INIT` is on its exponent, the one of `WN.FEED` asks for the window. -/
theorem wnInitAndFeed : Obligations.WnInitAndFeed := by
  refine ⟨fun exp s => ⟨encode_eq 0x40 exp.toNat rfl rfl rfl, fun h => ?_, fun h => ?_⟩,
    fun bytes s => ⟨encode_eq 0x44 bytes.length rfl rfl rfl, fun hopen => finish_opened hopen⟩⟩
  · exact refuses_check (decide_eq_true h)
  · exact finish_afterCheck (by simpa using h)

/-! ## Streams opened -/

theorem verdictOf_replicate_zero (n : Nat) : verdictOf (List.replicate n 0) = .empty := by
  simp [verdictOf]

theorem mem_encEntries {t : Table} {lens codes : List Nat} {e : EncEntry} (h : e ∈ encEntries t lens codes) : e.len ∈ lens := by
  obtain ⟨p, hp, rfl⟩ := List.mem_map.mp h
  exact (List.of_mem_zip (List.mem_of_getElem? (List.mem_zipIdx_iff_getElem?.mp hp))).1

/-- A table after `C.NEW`: open, no symbol with a code. -/
theorem EncTable.cleared_spec (t : Table) : (EncTable.cleared t).isOpen = true ∧ (EncTable.cleared t).usable = false
    ∧ ∀ e ∈ (EncTable.cleared t).entries, e.len = 0 := by
  have hunsound : ¬ (verdictOf (List.replicate t.size 0)).sound = true := by
    rw [verdictOf_replicate_zero]
    decide
  rw [EncTable.cleared, EncTable.load, if_neg hunsound]
  exact ⟨rfl, rfl, fun e he => List.eq_of_mem_replicate (mem_encEntries he)⟩

theorem EncTables.get_cleared (t : Table) : EncTables.cleared.get t = EncTable.cleared t := by
  cases t <;> simp only [EncTables.get, EncTables.cleared]

theorem DecTable.cleared_eq (t : Table) : DecTable.cleared t = { isOpen := true, lens := List.replicate t.size 0, verdict := .empty } := by
  rw [DecTable.cleared, DecTable.load, verdictOf_replicate_zero]

theorem checkInit_eq (f : Format) : checkInit f = if f = .zlib then 1 else 0 := by
  cases f <;> rfl

theorem formatOf_eq_ok_ne {format : BitVec 2} {f : Format} (h : formatOf format = .ok f) : format ≠ 3 := by
  rintro rfl
  cases h

/-- Settles O53: the fresh decompressor's fields, and the cleared tables. -/
theorem dNew : Obligations.DNew := by
  refine fun format s => ⟨encode_eq 0x88 (format.toNat * 2 ^ 22) rfl rfl (by omega), fun h => refuses_first (h ▸ formatOf_three),
    fun f hf => ⟨(s.openDecompressor f).answer .ok [] [], ?_, ?_, fun tbl => ?_⟩⟩
  · exact congrArg (fun x => s.finish (x >>= fun f => pure ((s.openDecompressor f).answer .ok [] []))) hf
  · rw [← checkInit_eq]
    rfl
  · cases tbl
    · exact DecTable.cleared_eq .runLit
    · exact DecTable.cleared_eq .dist
    · exact DecTable.cleared_eq .metasym

theorem exec_cNew {format : BitVec 2} {f : Format} {exp : BitVec 4} {hint : Word} (level : Byte) (s : State)
    (hf : formatOf format = .ok f) (hexp : 8 ≤ exp.toNat) (hhint : hint ≠ 0) : exec (.cNew format exp level hint) s =
      .next ((s.openCompressor referenceParams (configFor referenceParams f exp level hint)).answer .ok [] []) := by
  have hcheck : (decide (exp.toNat < 8) || hint == 0) = false := by
    rw [beq_false_of_ne hhint, Bool.or_false]
    exact decide_eq_false (Nat.not_lt.mpr hexp)
  change s.finish (formatOf format >>= _) = _
  rw [hf, ok_bind]
  exact finish_afterCheck hcheck

theorem stream_init_appendBytes (hint : Nat) (bytes : List Nat) :
    ((Sink.init hint).appendBytes bytes).stream = bitsOfBytes (bytes.map (BitVec.ofNat 8)) := by
  rw [Sink.stream_appendBytes, bitsOfBytes_ofNat]
  rfl

end Sys2Proof.Machine

namespace Sys2Proof.StreamInterface

open Sys2Proof.Machine

/-- Settles O50: the registers as `C.NEW` sets them, and the header the fresh sink then holds. -/
theorem cNew : Obligations.CNew := by
  refine fun format exp level hint s => ⟨fun h => ?_, fun f hf hexp hhint => ?_⟩
  · refine exec_refuses_illegal_operand _ _ ?_ (.inl rfl)
    rcases h with rfl | h | rfl
    · rfl
    · simp [operandsLegal, Nat.not_le.mpr h]
    · simp [operandsLegal]
  · have hsound := (Sink.sound_init _ (BitVec.toNat_pos_of_ne_zero hhint)).appendBytes
      (headerBytes f (if f = .raw then 15 else exp : BitVec 4).toNat)
    refine ⟨_, _, (headerBytes f (if f = .raw then 15 else exp : BitVec 4).toNat).map (BitVec.ofNat 8), exec_cNew level s hf hexp hhint,
      rfl, ?_, Sink.isOpen_appendBytes _ _, hsound, Sink.hint_appendBytes _ _, Sink.nacc_of_whole ?_, stream_init_appendBytes _ _,
      ?_, ?_, ?_, EncTables.sized_cleared, fun tbl => ?_⟩
    · rw [← checkInit_eq]
      rfl
    · change (((Sink.init hint.toNat).appendBytes (headerBytes f _)).stream.length) % 8 = 0
      rw [stream_init_appendBytes, length_bitsOfBytes, Nat.mul_mod_right]
    · rintro rfl
      refine ⟨_, _, rfl, rfl, Nat.mod_lt _ (by decide), ?_⟩
      simp only [reduceCtorEq, if_false]
      omega
    · rintro rfl
      rfl
    · rintro rfl
      rfl
    · have hspec := EncTable.cleared_spec tbl
      rw [← EncTables.get_cleared] at hspec
      exact hspec

end Sys2Proof.StreamInterface

namespace Sys2Proof.HuffmanCodes

open Sys2Proof.Machine

/-- Settles O26: the checks of `HF.BUILD` are those of its legal operands. -/
theorem hfBuild : Obligations.HfBuild := by
  intro maxlen freqs s h
  rw [operandsLegal_hfBuild, Bool.not_eq_true'] at h
  exact finish_afterCheck h

end Sys2Proof.HuffmanCodes

namespace Sys2Proof.Machine

/-! ## The sums of an Adler-32 (spec/46_stream_interface.md R590) -/

/-- The bytes, each weighted by how many stand from it to the end. -/
def weightedSum : List Byte → Nat
  | [] => 0
  | x :: rest => (rest.length + 1) * x.toNat + weightedSum rest

theorem sum_zipIdx_eq_weightedSum (bytes : List Byte) (n i : Nat) (h : n = bytes.length + i) :
    ((bytes.zipIdx i).map (fun p => (n - p.2) * p.1.toNat)).sum = weightedSum bytes := by
  induction bytes generalizing i with
  | nil => rfl
  | cons x rest ih =>
    rw [List.length_cons] at h
    rw [List.zipIdx_cons, List.map_cons, List.sum_cons, ih (i + 1) (by omega), weightedSum, show n - i = rest.length + 1 by omega]

/-- The loop of `CK.ADLER` by its sums: each byte counts once in the first half, and once for every byte from it on in the second. -/
theorem foldl_adlerByte_cons (x : Byte) (rest : List Byte) (a b : Nat) : (x :: rest).foldl adlerByte (a, b) =
    ((a + ((x :: rest).map BitVec.toNat).sum) % 65521,
      (b + (x :: rest).length * a + weightedSum (x :: rest)) % 65521) := by
  induction rest generalizing x a b with
  | nil =>
    simp only [List.foldl_cons, List.foldl_nil, adlerByte, List.map_cons, List.map_nil, List.sum_cons, List.sum_nil, List.length_cons,
      List.length_nil, weightedSum, Prod.mk.injEq]
    omega
  | cons y rest ih =>
    rw [List.foldl_cons, adlerByte, ih]
    have ha : (a + x.toNat) % 65521 ≡ a + x.toNat [MOD 65521] := Nat.mod_modEq _ _
    have hb : (b + (a + x.toNat) % 65521) % 65521 ≡ b + (a + x.toNat) [MOD 65521] :=
      (Nat.mod_modEq _ _).trans (ha.add_left b)
    refine Prod.ext ?_ ?_
    · refine (ha.add_right _).trans ?_
      simp [Nat.add_assoc, Nat.ModEq]
    · refine ((hb.add (ha.mul_left _)).add_right _).trans ?_
      simp only [List.length_cons, weightedSum]
      rw [show b + (a + x.toNat) + (rest.length + 1) * (a + x.toNat) + ((rest.length + 1) * y.toNat + weightedSum rest)
        = b + (rest.length + 1 + 1) * a + ((rest.length + 1 + 1) * x.toNat + ((rest.length + 1) * y.toNat + weightedSum rest)) by ring]

theorem crc32_singleton (x : Byte) (value : Word) :
    crc32 value [x] = crcBits 8 (~~~value ^^^ x.setWidth 32) ^^^ 0xFFFFFFFF := by
  have hnot : value ^^^ 0xFFFFFFFF = ~~~value := by
    rw [show (0xFFFFFFFF : Word) = BitVec.allOnes 32 from rfl, BitVec.xor_allOnes]
  rw [crc32, hnot]
  rfl

/-- Settles O57: the sums of an Adler-32 by induction on the bytes, and the laws of both checksums over no byte and over pieces. -/
theorem checksums : Obligations.Checksums := by
  refine ⟨fun bytes value s hne => ?_, fun value s => ⟨?_, ?_⟩, fun x value s => ?_, ?_, by decide +kernel, by decide +kernel, by decide +kernel⟩
  · obtain ⟨x, rest, rfl⟩ := List.exists_cons_of_ne_nil hne
    refine ⟨_, _, ?_, rfl, rfl⟩
    rw [sum_zipIdx_eq_weightedSum (x :: rest) (x :: rest).length 0 rfl]
    change Host.Outcome.next (s.answer .ok [adler32 value (x :: rest)] []) = _
    rw [adler32, foldl_adlerByte_cons]
  · exact congrArg (fun w => Host.Outcome.next (s.answer .ok [w] [])) (adler32_nil value)
  · exact congrArg (fun w => Host.Outcome.next (s.answer .ok [w] [])) (crc32_nil value)
  · exact congrArg (fun w => Host.Outcome.next (s.answer .ok [w] [])) (crc32_singleton x value)
  · rintro f (rfl | rfl) a b value s
    · exact ⟨_, _, rfl, rfl, congrArg (fun w => Host.Outcome.next (s.answer .ok [w] [])) (adler32_append value a b)⟩
    · exact ⟨_, _, rfl, rfl, congrArg (fun w => Host.Outcome.next (s.answer .ok [w] [])) (crc32_append value a b)⟩

end Sys2Proof.Machine
end

section
/-! PROOF. Canonical codes (spec/41_huffman.md R277, R284): the codewords in closed form, no codeword the beginning of another, every codeword
of a sound table within its length; and from these what `HF.LOAD`, `HF.DECODE` and the two in a row answer. -/

namespace Sys2Proof.Machine

/-! ## The codewords in closed form -/

/-- The first codeword of length `l`: every codeword of a shorter length `j` rules out `2^(l-j)` codewords. -/
def firstCode (lens : List Nat) (l : Nat) : Nat :=
  ((List.range l).map (fun j => if j = 0 then 0 else lens.count j * 2 ^ (l - j))).sum

/-- The recurrence of R277. -/
theorem firstCode_succ (lens : List Nat) (l : Nat) : firstCode lens (l + 1) = (firstCode lens l + blCount lens l) * 2 := by
  have hdouble : (List.range l).map (fun j => if j = 0 then 0 else lens.count j * 2 ^ (l + 1 - j))
      = (List.range l).map (fun j => (if j = 0 then 0 else lens.count j * 2 ^ (l - j)) * 2) := by
    refine List.map_congr_left fun j hj => ?_
    have hlt := List.mem_range.mp hj
    split
    · rfl
    · rw [show l + 1 - j = l - j + 1 by omega, pow_succ, Nat.mul_assoc]
  rw [firstCode, List.range_succ, List.map_append, List.sum_append, hdouble, List.sum_map_mul_right, firstCode, Nat.add_mul, blCount]
  congr 1
  by_cases hl : l = 0
  · simp [hl]
  · simp [hl]

theorem getElem?_nextFrom (lens : List Nat) (k l i : Nat) (hi : i < k) :
    (nextFrom lens k l (firstCode lens l))[i]? = some (firstCode lens (l + i)) := by
  induction k generalizing l i with
  | zero => omega
  | succ k ih =>
    rw [nextFrom, ← firstCode_succ]
    cases i with
    | zero => rfl
    | succ i => rw [List.getElem?_cons_succ, ih (l + 1) i (by omega), Nat.add_assoc, Nat.add_comm 1]

theorem length_nextFrom (lens : List Nat) (k l code : Nat) : (nextFrom lens k l code).length = k := by
  induction k generalizing l code with
  | zero => rfl
  | succ k ih => rw [nextFrom, List.length_cons, ih]

theorem getD_nextCodes (lens : List Nat) {l : Nat} (h1 : 0 < l) (h2 : l ≤ 15) : (nextCodes lens).getD l 0 = firstCode lens l := by
  obtain ⟨i, rfl⟩ := Nat.exists_eq_succ_of_ne_zero h1.ne'
  have hfirst := getElem?_nextFrom lens 15 1 i (by omega)
  rw [Nat.add_comm 1] at hfirst
  rw [List.getD_eq_getElem?_getD, nextCodes, List.getElem?_cons_succ, show (0 : Nat) = firstCode lens 1 from rfl, hfirst,
    Option.getD_some]

/-- The numbering loop gives a symbol the next codeword of its length, moved on by the earlier symbols of that length. -/
theorem getElem?_numberCodes (lens next : List Nat) {s l : Nat} (hlens : ∀ x ∈ lens, x < next.length) (hs : lens[s]? = some l)
    (hl : 0 < l) : (numberCodes lens next)[s]? = some (next.getD l 0 + (lens.take s).count l) := by
  induction lens generalizing next s with
  | nil => cases hs
  | cons x rest ih =>
    have hrest : ∀ y ∈ rest, y < next.length := fun y hy => hlens y (List.mem_cons_of_mem _ hy)
    cases s with
    | zero =>
      obtain rfl : x = l := Option.some.inj hs
      rw [numberCodes, if_neg hl.ne']
      rfl
    | succ s =>
      rw [List.getElem?_cons_succ] at hs
      rw [numberCodes, List.take_succ_cons, List.count_cons]
      by_cases hx : x = 0
      · rw [if_pos hx, List.getElem?_cons_succ, ih next hrest hs, if_neg (by simp [hx]; omega), Nat.add_zero]
      · rw [if_neg hx, List.getElem?_cons_succ, ih _ (by simpa using hrest) hs, List.getD_eq_getElem?_getD, List.getElem?_set]
        have hlt := hlens x List.mem_cons_self
        by_cases hxl : x = l
        · subst hxl
          simp [hlt]
          omega
        · simp [hxl]

/-- The codeword of a symbol: the first of its length, moved on by the earlier symbols of that length. -/
theorem getElem?_canonicalCodes {lens : List Nat} {s l : Nat} (hlens : ∀ x ∈ lens, x ≤ 15) (hs : lens[s]? = some l) (hl : 0 < l) :
    (canonicalCodes lens)[s]? = some (firstCode lens l + (lens.take s).count l) := by
  have hlen : (nextCodes lens).length = 16 := by rw [nextCodes, List.length_cons, length_nextFrom]
  rw [canonicalCodes, getElem?_numberCodes lens _ (fun x hx => by rw [hlen]; have := hlens x hx; omega) hs hl,
    getD_nextCodes lens hl (hlens l (List.mem_of_getElem? hs))]

/-! ## No codeword is the beginning of another (spec/41_huffman.md R284) -/

theorem revBits_succ (n v : Nat) : revBits (n + 1) v = v % 2 * 2 ^ n + revBits n (v / 2) := rfl

theorem revBits_lt (n v : Nat) : revBits n v < 2 ^ n := by
  induction n generalizing v with
  | zero => exact Nat.one_pos
  | succ n ih =>
    have := ih (v / 2)
    have hbit : v % 2 * 2 ^ n ≤ 1 * 2 ^ n := Nat.mul_le_mul_right _ (by omega)
    rw [revBits, pow_succ]
    omega

theorem revBits_add (m n v : Nat) : revBits (m + n) v = revBits m v * 2 ^ n + revBits n (v / 2 ^ m) := by
  induction m generalizing v with
  | zero => simp [revBits]
  | succ m ih =>
    rw [Nat.succ_add, revBits, ih, revBits, Nat.div_div_eq_div_mul, ← pow_succ', Nat.add_mul, pow_add]
    ring

theorem count_take_lt {lens : List Nat} {s l : Nat} (hs : lens[s]? = some l) : (lens.take s).count l < lens.count l := by
  obtain ⟨hlt, rfl⟩ := List.getElem?_eq_some_iff.mp hs
  calc (lens.take s).count lens[s] < (lens.take (s + 1)).count lens[s] := by
        rw [List.take_add_one, hs, List.count_append]
        simp
    _ ≤ lens.count lens[s] := (List.take_sublist _ _).count_le _

theorem count_take_lt_take {lens : List Nat} {s s' l : Nat} (hs : lens[s]? = some l) (h : s < s') :
    (lens.take s).count l < (lens.take s').count l := by
  have := count_take_lt (lens := lens.take s') (s := s) (l := l) (by rw [List.getElem?_take_of_lt h, hs])
  rwa [List.take_take, Nat.min_eq_left h.le] at this

/-- What the codewords of the shorter lengths rule out. -/
theorem firstCode_add_ge (lens : List Nat) {l : Nat} (hl : 0 < l) (n : Nat) :
    (firstCode lens l + lens.count l) * 2 ^ (n + 1) ≤ firstCode lens (l + n + 1) := by
  induction n with
  | zero => rw [Nat.add_zero, firstCode_succ, blCount, if_neg hl.ne', pow_one]
  | succ n ih =>
    rw [← Nat.add_assoc, firstCode_succ, pow_succ, ← Nat.mul_assoc]
    exact Nat.mul_le_mul_right 2 (ih.trans (Nat.le_add_right _ _))

/-- A symbol whose codeword the next bits of `peek` are, first bit most significant. -/
structure CodeAt (lens : List Nat) (peek s l : Nat) : Prop where
  len  : lens[s]? = some l
  pos  : 0 < l
  code : (canonicalCodes lens)[s]? = some (revBits l peek)

theorem CodeAt.code_eq {lens : List Nat} {peek s l : Nat} (h : CodeAt lens peek s l) (hlens : ∀ x ∈ lens, x ≤ 15) :
    revBits l peek = firstCode lens l + (lens.take s).count l :=
  Option.some.inj (h.code.symm.trans (getElem?_canonicalCodes hlens h.len h.pos))

theorem CodeAt.not_shorter {lens : List Nat} {peek s l s' l' : Nat} (hlens : ∀ x ∈ lens, x ≤ 15) (h : CodeAt lens peek s l)
    (h' : CodeAt lens peek s' l') : ¬ l < l' := by
  intro hlt
  obtain ⟨n, rfl⟩ : ∃ n, l' = l + (n + 1) := ⟨l' - l - 1, by omega⟩
  have hlong := h'.code_eq hlens
  have hshort := h.code_eq hlens
  have hroom := firstCode_add_ge lens h.pos n
  have hidx := count_take_lt h.len
  have hbits := revBits_lt (n + 1) (peek / 2 ^ l)
  rw [revBits_add] at hlong
  rw [Nat.add_assoc] at hroom
  have hnext : (revBits l peek + 1) * 2 ^ (n + 1) ≤ (firstCode lens l + lens.count l) * 2 ^ (n + 1) :=
    Nat.mul_le_mul_right _ (by omega)
  rw [Nat.add_mul, Nat.one_mul] at hnext
  omega

/-- No codeword is the beginning of another: the same bits begin with one codeword at most. -/
theorem CodeAt.unique {lens : List Nat} {peek s l s' l' : Nat} (hlens : ∀ x ∈ lens, x ≤ 15) (h : CodeAt lens peek s l)
    (h' : CodeAt lens peek s' l') : s = s' ∧ l = l' := by
  obtain rfl : l = l' := Nat.le_antisymm (not_lt.mp (h'.not_shorter hlens h)) (not_lt.mp (h.not_shorter hlens h'))
  have hidx := (h.code_eq hlens).symm.trans (h'.code_eq hlens)
  rcases Nat.lt_trichotomy s s' with hlt | heq | hlt
  · have := count_take_lt_take h.len hlt
    omega
  · exact ⟨heq, rfl⟩
  · have := count_take_lt_take h'.len hlt
    omega

/-! ## The search for a codeword (spec/41_huffman.md R287) -/

theorem findCode_eq_some {l c s r : Nat} {lens codes : List Nat} (h : findCode l c s lens codes = some r) :
    ∃ i, r = s + i ∧ lens[i]? = some l ∧ codes[i]? = some c := by
  induction lens generalizing s codes with
  | nil => cases h
  | cons len lens ih =>
    cases codes with
    | nil => cases h
    | cons code codes =>
      rw [findCode] at h
      split at h
      · next heq =>
        cases h
        exact ⟨0, rfl, by simp [heq.1], by simp [heq.2]⟩
      · obtain ⟨i, rfl, h1, h2⟩ := ih h
        exact ⟨i + 1, by omega, h1, h2⟩

theorem findCode_eq_none {l c s : Nat} {lens codes : List Nat} (h : findCode l c s lens codes = none) (i : Nat)
    (hi : lens[i]? = some l) : codes[i]? ≠ some c := by
  induction lens generalizing s codes i with
  | nil => cases hi
  | cons len lens ih =>
    cases codes with
    | nil => exact nofun
    | cons code codes =>
      rw [findCode] at h
      split at h
      · cases h
      · next hne =>
        cases i with
        | zero => exact fun hc => hne ⟨Option.some.inj hi, Option.some.inj hc⟩
        | succ i => exact ih h i hi

theorem searchCode_eq_some {lens codes : List Nat} {k l c peek s n : Nat} (h : searchCode lens codes k l c peek = some (s, n)) :
    ∃ j, j < k ∧ n = l + j ∧ lens[s]? = some n ∧ codes[s]? = some (c * 2 ^ (j + 1) + revBits (j + 1) peek) := by
  induction k generalizing l c peek with
  | zero => cases h
  | succ k ih =>
    rw [searchCode] at h
    split at h
    · next s' hs =>
      cases h
      obtain ⟨i, rfl, h1, h2⟩ := findCode_eq_some hs
      rw [Nat.zero_add] at *
      exact ⟨0, by omega, rfl, h1, by rw [h2]; simp [revBits, Nat.mul_comm]⟩
    · obtain ⟨j, hj, rfl, h1, h2⟩ := ih h
      refine ⟨j + 1, by omega, by omega, h1, h2.trans (congrArg some ?_)⟩
      rw [revBits_succ (j + 1), pow_succ 2 (j + 1)]
      ring

theorem searchCode_eq_none {lens codes : List Nat} {k l c peek : Nat} (h : searchCode lens codes k l c peek = none) (j s : Nat)
    (hj : j < k) (hs : lens[s]? = some (l + j)) : codes[s]? ≠ some (c * 2 ^ (j + 1) + revBits (j + 1) peek) := by
  induction k generalizing l c peek j with
  | zero => omega
  | succ k ih =>
    rw [searchCode] at h
    split at h
    · cases h
    · next hf =>
      cases j with
      | zero =>
        have := findCode_eq_none hf s hs
        simpa [revBits, Nat.mul_comm] using this
      | succ j =>
        have := ih h j (by omega) (by rw [hs]; congr 1; omega)
        rw [revBits_succ (j + 1), pow_succ 2 (j + 1)]
        intro hc
        refine this (hc.trans (congrArg some ?_))
        ring

theorem le_foldl_max (l : List Nat) (m : Nat) : m ≤ l.foldl max m ∧ ∀ x ∈ l, x ≤ l.foldl max m := by
  induction l generalizing m with
  | nil => exact ⟨le_rfl, nofun⟩
  | cons y rest ih =>
    obtain ⟨h1, h2⟩ := ih (max m y)
    refine ⟨(Nat.le_max_left _ _).trans h1, fun x hx => ?_⟩
    rcases List.mem_cons.mp hx with rfl | hx
    · exact (Nat.le_max_right _ _).trans h1
    · exact h2 x hx

/-- What decoding by a table with codes answers: the symbol whose codeword the next valid bits are, or that there is none, or not
enough of them. -/
theorem decodeSymbol_of_codeAt {t : DecTable} {avail peek s l : Nat} (hlens : ∀ x ∈ t.lens, x ≤ 15) (hne : t.verdict ≠ .empty)
    (h : CodeAt t.lens peek s l) (hl : l ≤ avail) : decodeSymbol t avail peek = .symbol s l := by
  have hmax : l ≤ maxLen t.lens := (le_foldl_max t.lens 0).2 l (List.mem_of_getElem? h.len)
  have hpos := h.pos
  rw [decodeSymbol, if_neg hne]
  dsimp only
  cases hsearch : searchCode t.lens (canonicalCodes t.lens) (min avail (maxLen t.lens)) 1 0 peek with
  | none =>
    refine absurd h.code ?_
    have := searchCode_eq_none hsearch (l - 1) s (by omega) (by rw [h.len]; congr 1; omega)
    rwa [Nat.zero_mul, Nat.zero_add, Nat.sub_add_cancel hpos] at this
  | some r =>
    obtain ⟨j, hj, hn, h1, h2⟩ := searchCode_eq_some (s := r.1) (n := r.2) hsearch
    rw [Nat.zero_mul, Nat.zero_add, Nat.add_comm j, ← hn] at h2
    obtain ⟨rfl, rfl⟩ := h.unique hlens ⟨h1, by omega, h2⟩
    rfl

theorem decodeSymbol_of_none {t : DecTable} {avail peek : Nat} (hne : t.verdict ≠ .empty)
    (h : ∀ s l, l ≤ avail → ¬ CodeAt t.lens peek s l) :
    decodeSymbol t avail peek = if maxLen t.lens ≤ avail then .noCode else .needInput := by
  rw [decodeSymbol, if_neg hne]
  dsimp only
  cases hsearch : searchCode t.lens (canonicalCodes t.lens) (min avail (maxLen t.lens)) 1 0 peek with
  | none => rfl
  | some r =>
    obtain ⟨j, hj, hn, h1, h2⟩ := searchCode_eq_some (s := r.1) (n := r.2) hsearch
    rw [Nat.zero_mul, Nat.zero_add, Nat.add_comm j, ← hn] at h2
    exact absurd ⟨h1, by omega, h2⟩ (h r.1 r.2 (by omega))

/-! ## `HF.DECODE` -/

/-- What `HF.DECODE` makes of what decoding answers. -/
def State.answerDecoded (s : State) : Decoded → State
  | .symbol sym l => s.answer .ok [word (sym + l * 2 ^ 16)] []
  | .noCode => s.answer .noResult [] []
  | .needInput => s.answer .needInput [] []

theorem Verdict.ne_empty_of_sound {v : Verdict} (h : v.sound = true) : v ≠ .empty := by
  rintro rfl
  cases h

theorem exec_hfDecode {t : BitVec 2} {tbl : Table} {avail : BitVec 5} {s : State} (peek : Word) (ht : tableOf t = .ok tbl)
    (havail : avail.toNat ≤ 16) (hopen : (s.dec.get tbl).isOpen = true) (hs : (s.dec.get tbl).Sound tbl)
    (hv : (s.dec.get tbl).verdict.sound = true ∨ (s.dec.get tbl).verdict = .empty) :
    exec (.hfDecode t avail peek) s = .next (s.answerDecoded (decodeSymbol (s.dec.get tbl) avail.toNat peek.toNat)) := by
  have htable : ((s.dec.get tbl).verdict != .empty && !usableFor tbl (s.dec.get tbl).verdict) = false := by
    rcases hv with hv | hv
    · rw [usableFor, hv, Bool.true_or, Bool.not_true, Bool.and_false]
    · rw [hv]
      rfl
  refine (finish_selected ht).trans <| (finish_afterCheck (by simpa using havail)).trans <| (finish_opened hopen).trans <|
    (finish_afterCheck htable).trans ?_
  rw [hs.holds, Bool.not_true, faultIf_false, ok_bind]
  cases decodeSymbol (s.dec.get tbl) avail.toNat peek.toNat <;> rfl

end Sys2Proof.Machine

namespace Sys2Proof.HuffmanCodes

open Sys2Proof.Machine

/-- Settles O29: the numbering loop on the first codewords, which solve the recurrence. -/
theorem canonicalCodes : Obligations.CanonicalCodes := fun _ _ _ hlens hs hl => getElem?_canonicalCodes hlens hs hl

/-- Settles O31: the search finds a codeword exactly where the next bits begin with one, and no two codewords begin the same bits. -/
theorem hfDecode : Obligations.HfDecode := by
  refine fun t avail peek s => ⟨encode_eq 0x33 (t.toNat * 2 ^ 16 + avail.toNat) rfl rfl (by omega), fun h => ?_,
    fun tbl ht havail hopen hs => ⟨fun hv => ?_, fun hv => ?_, fun sym l hv hlen hpos hl hcode => ?_, fun hv hnone => ?_⟩⟩
  · refine exec_refuses_illegal_operand _ _ ?_ (.inr (by simp [Instr.op]))
    rcases h with rfl | h
    · rfl
    · simp [operandsLegal, Nat.not_le.mpr h]
  · rw [exec_hfDecode peek ht havail hopen hs (.inr hv), decodeSymbol, if_pos hv]
    rfl
  · refine refuses_next ht (refuses_afterCheck (by simpa using havail) (refuses_opened hopen (refuses_check ?_)))
    rcases hv with hv | hv <;> rw [hv] <;> cases tbl <;> rfl
  · rw [exec_hfDecode peek ht havail hopen hs (.inl hv),
      decodeSymbol_of_codeAt hs.lengths (Verdict.ne_empty_of_sound hv) ⟨hlen, hpos, hcode⟩ hl]
    rfl
  · rw [exec_hfDecode peek ht havail hopen hs (.inl hv), decodeSymbol_of_none (Verdict.ne_empty_of_sound hv)
      fun sym l hl hc => hnone sym l hc.len hc.pos hl hc.code]
    split <;> rfl

end Sys2Proof.HuffmanCodes

namespace Sys2Proof.Machine

/-! ## Verdicts (spec/41_huffman.md R282, R283) -/

theorem kraft_eq_kraft_filter (lens : List Nat) : kraft lens = kraft (lens.filter (fun l => l != 0)) := by
  induction lens with
  | nil => rfl
  | cons x rest ih =>
    have hcons : ∀ l : List Nat, kraft (x :: l) = (if x = 0 then 0 else 2 ^ (15 - x)) + kraft l := fun _ => rfl
    rw [hcons, ih]
    by_cases hx : x = 0
    · subst hx
      exact Nat.zero_add _
    · rw [List.filter_cons_of_pos (by simpa using hx), hcons]

theorem kraft_of_filter {lens l : List Nat} (h : lens.filter (fun l => l != 0) = l) : kraft lens = kraft l := by
  rw [kraft_eq_kraft_filter, h]

theorem all_zero_iff (lens : List Nat) : (∀ l ∈ lens, l = 0) ↔ lens.filter (fun l => l != 0) = [] := by
  simp [List.filter_eq_nil_iff]

/-- The verdict by the Kraft sum. -/
theorem verdictOf_spec (lens : List Nat) : (verdictOf lens = .empty ↔ ∀ l ∈ lens, l = 0)
    ∧ (verdictOf lens = .oversubscribed ↔ 2 ^ 15 < kraft lens) ∧ (verdictOf lens = .complete ↔ kraft lens = 2 ^ 15)
    ∧ (verdictOf lens = .degenerate ↔ lens.filter (fun l => l != 0) = [1]) := by
  have hall : lens.all (fun l => l == 0) = true ↔ ∀ l ∈ lens, l = 0 := by simp
  have hempty : kraft [] = 0 := rfl
  have hone : kraft [1] = 2 ^ 14 := rfl
  have hz := all_zero_iff lens
  unfold verdictOf
  split
  · next h =>
    have hnil := hz.mp (hall.mp h)
    have hk := kraft_of_filter hnil
    rw [hempty] at hk
    exact ⟨iff_of_true rfl (hall.mp h), iff_of_false nofun (by omega), iff_of_false nofun (by omega),
      iff_of_false nofun (by rw [hnil]; exact nofun)⟩
  · next h =>
    have hz' := fun h' => h (hall.mpr h')
    split
    · next hover =>
      have hdeg : lens.filter (fun l => l != 0) ≠ [1] := fun hf => by
        rw [kraft_of_filter hf, hone] at hover
        omega
      exact ⟨iff_of_false nofun hz', iff_of_true rfl hover, iff_of_false nofun hover.ne', iff_of_false nofun hdeg⟩
    · next hover =>
      split
      · next hfull =>
        have hdeg : lens.filter (fun l => l != 0) ≠ [1] := fun hf => by
          rw [kraft_of_filter hf, hone] at hfull
          omega
        exact ⟨iff_of_false nofun hz', iff_of_false nofun hover, iff_of_true rfl hfull, iff_of_false nofun hdeg⟩
      · next hfull =>
        split
        · next hdeg => exact ⟨iff_of_false nofun hz', iff_of_false nofun hover, iff_of_false nofun hfull, iff_of_true rfl hdeg⟩
        · next hdeg => exact ⟨iff_of_false nofun hz', iff_of_false nofun hover, iff_of_false nofun hfull, iff_of_false nofun hdeg⟩

theorem kraft_le_of_sound {lens : List Nat} (h : (verdictOf lens).sound = true) : kraft lens ≤ 2 ^ 15 := by
  by_contra hover
  rw [(verdictOf_spec lens).2.1.mpr (not_le.mp hover)] at h
  cases h

/-! ## Loaded tables (spec/41_huffman.md R278, R280) -/

theorem getElem?_padTo {n k : Nat} (l : List Nat) (h : k < n) : (padTo n l)[k]? = some (l.getD k 0) := by
  rw [padTo, List.getD_eq_getElem?_getD]
  by_cases hk : k < l.length
  · rw [List.getElem?_append_left (by simp; omega), List.getElem?_take_of_lt h, List.getElem?_eq_getElem hk, Option.getD_some]
  · rw [List.getElem?_append_right (by simp; omega), List.getElem?_eq_none (not_lt.mp hk), Option.getD_none,
      List.getElem?_replicate_of_lt (by simp; omega)]

theorem getElem?_encEntries (t : Table) {lens codes : List Nat} {k l c : Nat} (hl : lens[k]? = some l) (hc : codes[k]? = some c) :
    (encEntries t lens codes)[k]? = some { code := c, len := l, extra := extraBits t k } := by
  have hz : (lens.zip codes)[k]? = some (l, c) := List.getElem?_zip_eq_some.mpr ⟨hl, hc⟩
  simp [encEntries, hz, List.getElem?_zipIdx]

theorem EncTable.load_eq (t : Table) (lens : List Nat) : EncTable.load t lens =
    { isOpen := true, usable := (verdictOf lens).sound, entries := (EncTable.load t lens).entries } := by
  unfold EncTable.load
  cases (verdictOf lens).sound <;> rfl

/-- The entry of a symbol in a loaded table: its length, its extra bits, its codeword where the lengths are sound, else 0. -/
theorem EncTable.getElem?_load (t : Table) {lens : List Nat} {k l : Nat} (hl : lens[k]? = some l) :
    ∃ e, (EncTable.load t lens).entries[k]? = some e ∧ e.len = l ∧ e.extra = extraBits t k
      ∧ ((verdictOf lens).sound = true → (canonicalCodes lens)[k]? = some e.code)
      ∧ ((verdictOf lens).sound = false → e.code = 0) := by
  unfold EncTable.load
  cases hv : (verdictOf lens).sound
  · exact ⟨_, getElem?_encEntries t hl (by rw [List.getElem?_map, hl]; rfl), rfl, rfl, nofun, fun _ => rfl⟩
  · have hk : k < (canonicalCodes lens).length := by
      rw [length_canonicalCodes]
      exact (List.getElem?_eq_some_iff.mp hl).1
    have hc := List.getElem?_eq_getElem hk
    exact ⟨_, getElem?_encEntries t hl hc, rfl, rfl, fun _ => hc, nofun⟩

/-- The lengths that `HF.LOAD` loads. -/
def loadedLens (tbl : Table) (lengths : List Byte) : List Nat := padTo tbl.size (lengths.map BitVec.toNat)

/-- The core with both tables of a selector loaded (spec/41_huffman.md R280). -/
def State.loadTables (s : State) (tbl : Table) (lens : List Nat) : State :=
  ({ s with dec := s.dec.put tbl (DecTable.load lens), enc := s.enc.put tbl (EncTable.load tbl lens), d := s.d.touched } : State).answer
    .ok [(verdictOf lens).code] []

theorem exec_hfLoad {t : BitVec 2} {tbl : Table} {lengths : List Byte} (s : State) (ht : tableOf t = .ok tbl)
    (hlegal : operandsLegal (.hfLoad t lengths) = true) : exec (.hfLoad t lengths) s = .next (s.loadTables tbl (loadedLens tbl lengths)) := by
  have hne : t ≠ 3#2 := by
    rintro rfl
    cases ht
  obtain ⟨tbl', ht', hsize, -⟩ := tableOf_of_ne_three hne
  obtain rfl : tbl = tbl' := Except.ok.inj (ht.symm.trans ht')
  rw [operandsLegal_hfLoad hne hsize, Bool.not_eq_true'] at hlegal
  exact (finish_selected ht).trans (finish_afterCheck hlegal)

theorem operandsLegal_hfLoad_le {t : BitVec 2} {lengths : List Byte} (h : operandsLegal (.hfLoad t lengths) = true) :
    ∀ b ∈ lengths, b.toNat ≤ 15 := by
  simp only [operandsLegal, Bool.and_eq_true, List.all_eq_true, decide_eq_true_eq] at h
  exact h.2

theorem DecTables.get_put (e : DecTables) (t : Table) (x : DecTable) : (e.put t x).get t = x := by
  cases t <;> rfl

theorem EncTables.get_put (e : EncTables) (t : Table) (x : EncTable) : (e.put t x).get t = x := by
  cases t <;> rfl

/-! ## A codeword and its length (spec/41_huffman.md R282) -/

/-- The part of the Kraft sum that the lengths up to `l` make. -/
def kraftUpTo (lens : List Nat) (l : Nat) : Nat := (lens.map (fun x => if x = 0 ∨ l < x then 0 else 2 ^ (15 - x))).sum

theorem kraftUpTo_succ (lens : List Nat) (l : Nat) :
    kraftUpTo lens (l + 1) = kraftUpTo lens l + lens.count (l + 1) * 2 ^ (15 - (l + 1)) := by
  induction lens with
  | nil => simp [kraftUpTo]
  | cons x rest ih =>
    have hcons : ∀ m, kraftUpTo (x :: rest) m = (if x = 0 ∨ m < x then 0 else 2 ^ (15 - x)) + kraftUpTo rest m := fun _ => rfl
    rw [hcons, hcons, ih, List.count_cons, Nat.add_mul]
    rcases Nat.lt_trichotomy x (l + 1) with h | rfl | h
    · have h1 : ¬ l + 1 < x := by omega
      have h2 : ¬ l < x := by omega
      simp [h1, h2, h.ne]
      omega
    · simp
      omega
    · have h2 : l < x := by omega
      simp [h, h2, h.ne']

theorem kraftUpTo_le (lens : List Nat) (l : Nat) : kraftUpTo lens l ≤ kraft lens := by
  refine List.sum_le_sum fun x _ => ?_
  by_cases hx : x = 0
  · simp [hx]
  · by_cases hl : l < x <;> simp [hx, hl]

/-- The codewords of the lengths up to `l`, as parts of the whole, are that part of the Kraft sum. -/
theorem firstCode_mul_eq_kraftUpTo (lens : List Nat) {l : Nat} (hl : l ≤ 15) :
    (firstCode lens l + blCount lens l) * 2 ^ (15 - l) = kraftUpTo lens l := by
  induction l with
  | zero =>
    have : kraftUpTo lens 0 = 0 := by
      refine List.sum_eq_zero fun y hy => ?_
      obtain ⟨x, -, rfl⟩ := List.mem_map.mp hy
      exact if_pos (Nat.eq_zero_or_pos x)
    simp [this, firstCode, blCount]
  | succ l ih =>
    rw [kraftUpTo_succ, ← ih (by omega), firstCode_succ, Nat.add_mul, blCount.eq_def lens (l + 1), if_neg (Nat.succ_ne_zero l),
      Nat.mul_assoc, ← pow_succ', show 15 - (l + 1) + 1 = 15 - l by omega]

/-- A codeword of a table that is not over-subscribed fits its length. -/
theorem code_lt_two_pow {lens : List Nat} {s l c : Nat} (hlens : ∀ x ∈ lens, x ≤ 15) (hk : kraft lens ≤ 2 ^ 15)
    (hs : lens[s]? = some l) (hl : 0 < l) (hc : (canonicalCodes lens)[s]? = some c) : c < 2 ^ l := by
  have hl15 := hlens l (List.mem_of_getElem? hs)
  obtain rfl := Option.some.inj (hc.symm.trans (getElem?_canonicalCodes hlens hs hl))
  have hsum := (firstCode_mul_eq_kraftUpTo lens hl15).le.trans ((kraftUpTo_le lens l).trans hk)
  rw [blCount, if_neg hl.ne', show (2 : Nat) ^ 15 = 2 ^ l * 2 ^ (15 - l) by rw [← pow_add]; congr 1; omega] at hsum
  have := Nat.le_of_mul_le_mul_right hsum (Nat.two_pow_pos _)
  have := count_take_lt hs
  omega

/-- Reversing the bits of a number twice gives its low bits. -/
theorem revBits_mul_two (n v b : Nat) (hb : b < 2) : revBits (n + 1) (v % 2 ^ n + b * 2 ^ n) = 2 * revBits n v + b := by
  induction n generalizing v with
  | zero => simp [revBits, Nat.mod_one, Nat.mod_eq_of_lt hb]
  | succ n ih =>
    have hmod : v % 2 ^ (n + 1) = v % 2 + 2 * (v / 2 % 2 ^ n) := by rw [pow_succ', Nat.mod_mul]
    have hsplit : v % 2 ^ (n + 1) + b * 2 ^ (n + 1) = v % 2 + 2 * (v / 2 % 2 ^ n + b * 2 ^ n) := by
      rw [hmod, pow_succ]
      ring
    rw [hsplit, revBits, Nat.add_mul_mod_self_left, Nat.mod_mod, Nat.add_mul_div_left _ _ (by decide : 0 < 2),
      Nat.div_eq_of_lt (Nat.mod_lt v (by decide)), Nat.zero_add, ih, revBits_succ n v, pow_succ]
    ring

theorem revBits_mod (n v : Nat) : revBits n (v % 2 ^ n) = revBits n v := by
  induction n generalizing v with
  | zero => rfl
  | succ n ih =>
    rw [revBits, revBits, pow_succ', Nat.mod_mul_right_mod, Nat.mod_mul_right_div_self, ih]

theorem revBits_revBits (n v : Nat) (h : v < 2 ^ n) : revBits n (revBits n v) = v := by
  induction n generalizing v with
  | zero => simp at h; simp [h, revBits]
  | succ n ih =>
    have hhalf : v / 2 < 2 ^ n := by
      rw [pow_succ] at h
      omega
    have hrev := revBits_mul_two n (revBits n (v / 2)) (v % 2) (Nat.mod_lt v (by decide))
    rw [Nat.mod_eq_of_lt (revBits_lt n _), ih _ hhalf] at hrev
    rw [revBits_succ n v, Nat.add_comm (v % 2 * 2 ^ n), hrev]
    omega

end Sys2Proof.Machine

namespace Sys2Proof.HuffmanCodes

open Sys2Proof.Machine

/-- Settles O28: the tables loaded, the verdict by the Kraft sum, the entries symbol by symbol. -/
theorem hfLoad : Obligations.HfLoad := by
  refine fun t lengths s => ⟨encode_eq 0x31 (t.toNat * 2 ^ 16 + lengths.length) rfl rfl (by omega), fun h => ?_, fun tbl hlegal ht =>
    ⟨_, loadedLens tbl lengths, verdictOf (loadedLens tbl lengths), (EncTable.load tbl (loadedLens tbl lengths)).entries,
      exec_hfLoad s ht hlegal, ?_, length_padTo _ _, fun k hk => ?_, ?_⟩⟩
  · exact exec_refuses_illegal_operand _ _ h (.inl rfl)
  · rw [← EncTable.load_eq]
    rfl
  · rw [loadedLens, getElem?_padTo _ hk, List.getD_eq_getElem?_getD, List.getElem?_map]
    cases lengths[k]? <;> rfl
  · obtain ⟨hempty, hover, hcomplete, hdegenerate⟩ := verdictOf_spec (loadedLens tbl lengths)
    exact ⟨hempty, hover, hcomplete, hdegenerate, by rw [length_encLoad, loadedLens, length_padTo],
      fun k l hl => EncTable.getElem?_load tbl hl⟩

end Sys2Proof.HuffmanCodes

namespace Sys2Proof.Machine

/-! ## A symbol encoded and decoded -/

theorem extraBits_le (t : Table) (k : Nat) : extraBits t k ≤ 13 := by
  have hof : ∀ {l : List Decade}, (∀ d ∈ l, d.extra ≤ 13) → ∀ n : Nat, ((l[n]?).map Decade.extra).getD 0 ≤ 13 := fun {l} hl n => by
    cases h : l[n]? with
    | none => exact Nat.zero_le _
    | some d => exact hl d (List.mem_of_getElem? h)
  cases t
  · unfold extraBits
    dsimp only
    split
    · exact Nat.zero_le _
    · exact hof (by decide) _
  · exact hof (by decide) k
  · unfold extraBits metaExtra
    dsimp only
    repeat' split
    all_goals decide

/-- What an `OK` of `HF.ENCODE` says: the table is usable, the symbol has an entry with a code, and the words are the entry's. -/
theorem exec_hfEncode_ok {t : BitVec 2} {tbl : Table} {sym : BitVec 9} {u v : State} (ht : tableOf t = .ok tbl)
    (h : exec (.hfEncode t sym) u = .next v) (hv : v.status = .ok) : ∃ e, (u.enc.get tbl).usable = true
      ∧ (u.enc.get tbl).entries[sym.toNat]? = some e ∧ e.len ≠ 0
      ∧ v = u.answer .ok [word (revBits e.len e.code + e.len * 2 ^ 16 + e.extra * 2 ^ 24), word e.code] [] := by
  have hx : exec (.hfEncode t sym) u = u.finish (do
      refuseIf (decide (tbl.size ≤ sym.toNat)) .operand
      refuseIf (!(u.enc.get tbl).isOpen) .noInstance
      refuseIf (!(u.enc.get tbl).usable) .table
      let e ← written .enc (u.enc.get tbl).entries[sym.toNat]?
      if e.len = 0 then pure (u.answer .noResult [] [])
      else pure (u.answer .ok [word (revBits e.len e.code + e.len * 2 ^ 16 + e.extra * 2 ^ 24), word e.code] [])) :=
    (finish_selected ht).trans rfl
  rcases finish_eq_next.mp (hx.symm.trans h) with hok | ⟨r, -, rfl⟩
  · obtain ⟨_, -, hok⟩ := bind_eq_ok.mp hok
    obtain ⟨_, -, hok⟩ := bind_eq_ok.mp hok
    obtain ⟨_, husable, hok⟩ := bind_eq_ok.mp hok
    obtain ⟨e, he, hok⟩ := bind_eq_ok.mp hok
    rw [written_eq_ok] at he
    rw [refuseIf_eq_ok] at husable
    split at hok
    · cases hok
      cases hv
    · next hlen => exact ⟨e, by simpa using husable, he, hlen, (Except.ok.inj hok).symm⟩
  · cases hv

end Sys2Proof.Machine

namespace Sys2Proof.HuffmanCodes

open Sys2Proof.Machine

/-- Settles O32: the first result word carries the codeword reversed and its length, so bits that begin with it are a codeword of the
table again. -/
theorem codeRoundTrip : Obligations.CodeRoundTrip := by
  intro t lengths sym s u v r0 r1 avail peek hload hencode hv hres hlen havail hpeek
  have hlegal : operandsLegal (.hfLoad t lengths) = true := by
    by_contra hillegal
    obtain ⟨w, hw, hstatus, -⟩ := exec_refuses_illegal_operand _ s (Bool.not_eq_true _ ▸ hillegal) (.inl rfl)
    exact hload.2 ((congrArg State.status (Host.Outcome.next.inj (hload.1.symm.trans hw))).trans hstatus)
  have hne : t ≠ 3#2 := by
    rintro rfl
    cases hlegal
  obtain ⟨tbl, ht, -⟩ := tableOf_of_ne_three hne
  obtain rfl : u = s.loadTables tbl (loadedLens tbl lengths) :=
    Host.Outcome.next.inj (hload.1.symm.trans (exec_hfLoad s ht hlegal))
  obtain ⟨e, husable, he, hpos, rfl⟩ := exec_hfEncode_ok ht hencode hv
  have hget : (s.loadTables tbl (loadedLens tbl lengths)).enc.get tbl = EncTable.load tbl (loadedLens tbl lengths) :=
    EncTables.get_put _ _ _
  have hdec : (s.loadTables tbl (loadedLens tbl lengths)).dec.get tbl = DecTable.load (loadedLens tbl lengths) :=
    DecTables.get_put _ _ _
  have hlens : ∀ x ∈ loadedLens tbl lengths, x ≤ 15 := fun x hx => by
    rcases mem_padTo hx with hmem | rfl
    · obtain ⟨b, hb, rfl⟩ := List.mem_map.mp hmem
      exact operandsLegal_hfLoad_le hlegal b hb
    · exact Nat.zero_le _
  rw [hget] at husable he
  have hsound : (verdictOf (loadedLens tbl lengths)).sound = true := by
    rw [EncTable.load_eq] at husable
    exact husable
  obtain ⟨l, hl⟩ : ∃ l, (loadedLens tbl lengths)[sym.toNat]? = some l := by
    have := (List.getElem?_eq_some_iff.mp he).1
    rw [length_encLoad] at this
    exact ⟨_, List.getElem?_eq_getElem this⟩
  obtain ⟨e', he', rfl, hextra, hcode, -⟩ := EncTable.getElem?_load tbl hl
  obtain rfl := Option.some.inj (he.symm.trans he')
  have hcode := hcode hsound
  have hlen15 := hlens e.len (List.mem_of_getElem? hl)
  have hfits := code_lt_two_pow hlens (kraft_le_of_sound hsound) hl (Nat.pos_of_ne_zero hpos) hcode
  have hrev := revBits_lt e.len e.code
  have hrev16 : revBits e.len e.code < 2 ^ 16 := hrev.trans_le (Nat.pow_le_pow_right (by decide) (by omega))
  have hextra13 : e.extra ≤ 13 := hextra ▸ extraBits_le tbl sym.toNat
  obtain ⟨rfl, -⟩ := List.cons.inj hres.symm
  rw [toNat_word (by omega)] at hlen hpeek ⊢
  have hfield : (revBits e.len e.code + e.len * 2 ^ 16 + e.extra * 2 ^ 24) / 2 ^ 16 % 2 ^ 8 = e.len := by omega
  have hlow : (revBits e.len e.code + e.len * 2 ^ 16 + e.extra * 2 ^ 24) % 2 ^ 16 = revBits e.len e.code := by omega
  rw [hfield] at hlen hpeek ⊢
  rw [hlow] at hpeek
  have hback : revBits e.len peek.toNat = e.code := by rw [← revBits_mod, hpeek, revBits_revBits _ _ hfits]
  have hat : CodeAt (DecTable.load (loadedLens tbl lengths)).lens peek.toNat sym.toNat e.len :=
    ⟨hl, Nat.pos_of_ne_zero hpos, hcode.trans (congrArg some hback.symm)⟩
  rw [exec_hfDecode peek ht havail (by rw [State.answer_dec, hdec]; rfl)
    (by rw [State.answer_dec, hdec]; exact DecTable.sound_load (length_padTo _ _) hlens)
    (.inl (by rw [State.answer_dec, hdec]; exact hsound)), State.answer_dec, hdec,
    decodeSymbol_of_codeAt hlens (Verdict.ne_empty_of_sound hsound) hat hlen]
  rfl

end Sys2Proof.HuffmanCodes

end

section
/-! PROOF. The match finder and the parse (spec/42_match_finder.md R324 to R332, spec/43_term_strategies.md R375 to R393): what an insertion
leaves, what the candidates of a walk are and which of them a search answers, the terms of a step and the edges of a graph. -/

namespace Sys2Proof.Machine

/-! ## An insertion -/

theorem reachable_eq_filter (m s : Nat) (o : Option Nat) : reachable m s o = o.filter (fun p => decide (s - p ≤ m)) := by
  cases o with
  | none => rfl
  | some p => by_cases h : m < s - p <;> simp [reachable, Option.filter, h] <;> omega

theorem slotWord_eq_elim (w : Nat) (o : Option Nat) : slotWord w o = o.elim 0xFFFFFFFF (fun p => word (p % w)) := by
  cases o <;> rfl

theorem Memory.read_write (m : Memory) (a c : Nat) (b : Byte) : (m.write a b).read c = if c = a then some b else m.read c := by
  by_cases h : c = a
  · rw [if_pos h, h, Memory.read_write_same]
  · rw [if_neg h, Memory.read_write_other m h]

theorem Links.get_set (m : Links) (a c : Nat) (p : Option Nat) : (m.set a p).get c = if c = a then p else m.get c := by
  by_cases h : c = a
  · rw [if_pos h, h, Links.get_set_same]
  · rw [if_neg h, Links.get_set_other m h]

/-- The window after the next byte, which the lookahead does not contradict (spec/42_match_finder.md R324). -/
def Window.inserting (w : Window) (b : Byte) : Window :=
  if w.inserted + 1 < 4 then w.shiftIn b else (w.shiftIn b).link referenceParams (w.inserted + 1 - 4)

theorem Window.update_inserting {w : Window} {b : Byte} (h : w.inserted < w.input.length → w.input[w.inserted]? = some b) :
    w.update referenceParams b = .ok (w.inserting b) :=
  Window.update_eq_ok.mpr ⟨h, rfl⟩

theorem Window.update_refuses {P : Params} {w : Window} {b : Byte} (hlt : w.inserted < w.input.length)
    (hne : w.input[w.inserted]? ≠ some b) : w.update P b = .error (.refuse .operand) := by
  rw [Window.update, decide_eq_true hlt, bne_iff_ne.mpr hne]
  rfl

theorem Window.q_inserting (w : Window) (b : Byte) : (w.inserting b).q = w.q + 1 := by
  rw [← Window.q_shiftIn w b, Window.inserting]
  split <;> rfl

end Sys2Proof.Machine

namespace Sys2Proof.MatchFinder

open Sys2Proof.Machine

/-- Settles O34: the byte is shifted in, and from the fourth on its key is linked. -/
theorem wnUpdate : Obligations.WnUpdate := by
  refine fun byte s hopen => ⟨fun hlt hne => refuses_opened hopen (refuses_first (Window.update_refuses hlt hne)), fun hbyte => ?_⟩
  have hupdate := Window.update_inserting hbyte
  obtain ⟨hinserted, hexp, ho, hinput, hbytes, hr⟩ := Window.update_frame hupdate
  have hread : ∀ a, (s.wn.inserting byte).bytes.read a = if a = s.wn.inserted % 2 ^ s.wn.exp.toNat then some byte else s.wn.bytes.read a :=
    fun a => by rw [hbytes, Memory.read_write, Window.size]
  have hexec : exec (.wnUpdate byte) s = s.finish (if (s.wn.inserting byte).inserted < 4 then
      pure (({ s with wn := s.wn.inserting byte } : State).answer .noResult [] [])
      else match (s.wn.inserting byte).last with
        | none => pure (({ s with wn := s.wn.inserting byte } : State).answer .noResult [] [])
        | some (p, prev) => pure (({ s with wn := s.wn.inserting byte } : State).answer .ok [slotWord (s.wn.inserting byte).size (some p),
            slotWord (s.wn.inserting byte).size prev, word p] [])) := by
    refine (finish_opened hopen).trans ?_
    rw [hupdate, ok_bind] <;> rfl
  by_cases hfew : s.wn.inserted + 1 < 4
  · have hw : s.wn.inserting byte = s.wn.shiftIn byte := if_pos hfew
    rw [if_pos (hinserted ▸ hfew)] at hexec
    exact ⟨_, hexec, rfl, ho.trans hopen, hexp, hinserted, Window.q_inserting _ _, hinput, hr, hread,
      fun _ => ⟨rfl, rfl, by rw [State.answer_wn, hw]; rfl, by rw [State.answer_wn, hw]; rfl, by rw [State.answer_wn, hw]; rfl⟩,
      fun h => absurd h (not_le.mpr (hinserted ▸ hfew))⟩
  · have hw : s.wn.inserting byte = (s.wn.shiftIn byte).link referenceParams (s.wn.inserted + 1 - 4) := if_neg hfew
    have hlast : (s.wn.inserting byte).last = some (s.wn.inserted + 1 - 4,
        reachable s.wn.maxDistance (s.wn.inserted + 1 - 4) (s.wn.head.get (s.wn.inserting byte).r.toNat)) := by
      rw [hw]
      rfl
    rw [if_neg (hinserted ▸ hfew), hlast] at hexec
    refine ⟨_, hexec, rfl, ho.trans hopen, hexp, hinserted, Window.q_inserting _ _, hinput, hr, hread,
      fun h => absurd h (hinserted ▸ hfew), fun _ => ⟨_, rfl, ?_⟩⟩
    have hfilter : ∀ o : Option Nat, o.filter (fun p => decide (s.wn.inserted + 1 - 4 - p ≤ 2 ^ s.wn.exp.toNat))
        = reachable s.wn.maxDistance (s.wn.inserted + 1 - 4) o := fun o => (reachable_eq_filter _ _ _).symm
    have hlinks : (∀ a, (s.wn.inserting byte).next.get a = if a = s.wn.inserted + 1 - 4 then
          reachable s.wn.maxDistance (s.wn.inserted + 1 - 4) (s.wn.head.get (s.wn.inserting byte).r.toNat) else s.wn.next.get a)
        ∧ ∀ k, (s.wn.inserting byte).head.get k = if k = (s.wn.inserting byte).r.toNat then some (s.wn.inserted + 1 - 4)
          else s.wn.head.get k := by
      rw [hw]
      exact ⟨fun a => Links.get_set s.wn.next _ a _, fun k => Links.get_set s.wn.head (s.wn.shiftIn byte).r.toNat k (some _)⟩
    simp only [State.answer_wn, State.answer_status, State.answer_res, hinserted, hfilter]
    refine ⟨hlast, hlinks.1, hlinks.2, trivial, ?_⟩
    rw [← slotWord_eq_elim, Window.size, hexp]
    rfl

end Sys2Proof.MatchFinder

namespace Sys2Proof.Machine

/-! ## The candidates of a walk -/

/-- A candidate of a walk repeats earlier input, within the window. -/
theorem Walks.candidate {w : Window} (h : w.Sound) {s limit goal tries : Nat} {head : Option Nat} {found : List (Nat × Nat)}
    (hw : Walks w s limit goal tries head found) (hhead : ∀ p, head = some p → p < s) : ∀ x ∈ found, Candidate w s limit x := by
  have hof : ∀ {c r : Nat}, c < s → s - c ≤ 2 ^ w.exp.toNat → RunAt w s c limit r → Candidate w s limit (r, s - c) := by
    intro c r hc hnear hr
    refine ⟨⟨by dsimp only; omega, by dsimp only; omega, hnear⟩, hr.short, fun j hj => ?_⟩
    rw [hr.agree j hj]
    congr 1
    dsimp only
    omega
  induction hw with
  | chainEnd | spent | outOfReach => exact nofun
  | goalReached tries c r hnear hr _ =>
    intro x hx
    obtain rfl := List.mem_singleton.mp hx
    exact hof (hhead c rfl) hnear hr
  | further tries c r rest hnear hr _ _ ih =>
    intro x hx
    have hc := hhead c rfl
    rcases List.mem_cons.mp hx with rfl | hx
    · exact hof hc hnear hr
    · exact ih (fun p hp => (h.links c p hp).trans hc) x hx

/-- The head of the chain, within reach, is a candidate, and its run is the longest there. -/
theorem Walks.first {w : Window} {s limit goal tries c : Nat} {found : List (Nat × Nat)}
    (hw : Walks w s limit goal tries (some c) found) (htries : 0 < tries) (hnear : s - c ≤ 2 ^ w.exp.toNat) :
    ∃ r, (r, s - c) ∈ found ∧ RunAt w s c limit r := by
  cases hw with
  | spent => exact absurd htries (lt_irrefl 0)
  | outOfReach tries c hfar => exact absurd hfar (not_lt.mpr hnear)
  | goalReached tries c r _ hr _ => exact ⟨r, List.mem_singleton_self _, hr⟩
  | further tries c r rest _ hr _ _ => exact ⟨r, List.mem_cons_self, hr⟩

theorem RunAt.longest {w : Window} {s c limit r n : Nat} (h : RunAt w s c limit r) (hn : n ≤ limit)
    (hagree : ∀ j, j < n → w.input[s + j]? = w.input[c + j]?) : n ≤ r :=
  not_lt.mp fun hlt => h.ends (by omega) (hagree r hlt)

theorem Longest.mem {found : List (Nat × Nat)} {best : Nat × Nat} (h : Longest found best) : best ∈ found := by
  obtain ⟨before, after, rfl, -⟩ := h
  simp

theorem Longest.ge {found : List (Nat × Nat)} {best : Nat × Nat} (h : Longest found best) : ∀ x ∈ found, x.1 ≤ best.1 := by
  obtain ⟨before, after, rfl, hbefore, hafter⟩ := h
  intro x hx
  rcases List.mem_append.mp hx with hx | hx
  · exact (hbefore x hx).le
  · rcases List.mem_cons.mp hx with rfl | hx
    · exact le_rfl
    · exact hafter x hx

theorem mem_inDecade {k : Nat} {found : List (Nat × Nat)} {x : Nat × Nat} : x ∈ inDecade k found ↔
    x ∈ found ∧ ∃ d, distDecades[k]? = some d ∧ d.base ≤ x.2 ∧ x.2 ≤ d.top := by
  rw [inDecade, List.mem_filter]
  cases distDecades[k]? <;> simp

/-! ## The searches as commands -/

theorem Window.candidates_refuses {w : Window} {s lookahead : Nat} {head : Option Nat} (hl : w.last = some (s, head))
    (hshort : w.input.length - s < lookahead) (attempts goal : Nat) :
    w.candidates lookahead attempts goal = .error (.refuse .operand) := by
  rw [Window.candidates, hl]
  dsimp only
  rw [decide_eq_true hshort]
  rfl

theorem Window.candidates_of_none {w : Window} (hl : w.last = none) (lookahead attempts goal : Nat) :
    w.candidates lookahead attempts goal = .ok none := by
  rw [Window.candidates, hl]
  rfl

/-- What `WN.MATCH` makes of the match found. -/
def State.answerMatch (s : State) : Option (Nat × Nat) → State
  | none => s.answer .noResult [] []
  | some (run, dist) => s.answer .ok [word run, word dist] []

theorem exec_wnMatch {s : State} {lookahead attempts goal : Word} {m : Option (Nat × Nat)} (hopen : s.wn.isOpen = true)
    (hm : s.wn.findMatch lookahead.toNat attempts.toNat goal.toNat = .ok m) :
    exec (.wnMatch lookahead attempts goal) s = .next (s.answerMatch m) := by
  refine (finish_opened hopen).trans ?_
  rw [hm, ok_bind]
  cases m <;> rfl

theorem exec_wnMatchd {s : State} {lookahead attempts goal : Word} {best : List (Nat × Nat)} (hopen : s.wn.isOpen = true)
    (hm : s.wn.findPerDecade lookahead.toNat attempts.toNat goal.toNat = .ok (some best)) :
    exec (.wnMatchd lookahead attempts goal) s =
      .next (s.answer .ok (best.map (fun b => word (b.1 + b.2 * 2 ^ 16))) []) := by
  refine (finish_opened hopen).trans ?_
  rw [hm, ok_bind]
  rfl

end Sys2Proof.Machine

namespace Sys2Proof.MatchFinder

open Sys2Proof.Machine

/-- Settles O35: the search answers what its walk reports, and a candidate of the walk repeats earlier input. -/
theorem wnMatch : Obligations.WnMatch := by
  refine fun lookahead attempts goal s hopen hs => ⟨fun hl => ?_, fun p head hl => ⟨fun hshort => ?_, fun hla => ?_⟩⟩
  · refine exec_wnMatch (m := none) hopen ?_
    rw [Window.findMatch, Window.candidates_of_none hl]
    rfl
  · refine refuses_opened hopen (refuses_first ?_)
    rw [Window.findMatch, Window.candidates_refuses hl hshort]
    rfl
  · obtain ⟨-, -, hhead⟩ := hs.last_key hl
    obtain ⟨m, found, hm, hwalks, hreports⟩ := Window.findMatch_reports hs hl hla attempts.toNat goal.toNat
    refine ⟨found, hwalks, ?_, fun c r hc hnear htries hr hr' hagree => ?_⟩
    · cases m with
      | none => exact .inl ⟨hreports, exec_wnMatch hopen hm⟩
      | some best =>
        obtain ⟨hlongest, hfive⟩ := hreports
        obtain ⟨⟨hpos, hback, hnear⟩, hshort, hagree⟩ := hwalks.candidate hs hhead best hlongest.mem
        exact .inr ⟨best.1, best.2, hlongest, exec_wnMatch hopen hm, hfive, by omega, by omega, hpos, hnear, hback, hagree⟩
    · subst hc
      obtain ⟨run, hmem, hrun⟩ := hwalks.first htries hnear
      exact ⟨_, hmem, hrun.longest (by omega) hagree⟩

/-- Settles O36: per decade the longest of the walk's candidates there, the head of the chain among them. -/
theorem wnMatchd : Obligations.WnMatchd := by
  refine fun lookahead attempts goal s hopen hs => ⟨fun hl => ?_, fun p head hl => ⟨fun hshort => ?_, fun hla => ?_⟩⟩
  · refine (finish_opened hopen).trans ?_
    rw [Window.findPerDecade, Window.candidates_of_none hl]
    rfl
  · refine refuses_opened hopen (refuses_first ?_)
    rw [Window.findPerDecade, Window.candidates_refuses hl hshort]
    rfl
  · obtain ⟨-, -, hhead⟩ := hs.last_key hl
    obtain ⟨best, found, hm, hwalks, hlen, hbest⟩ := Window.findPerDecade_longest hs hl hla attempts.toNat goal.toNat
    have hcand := hwalks.candidate hs hhead
    refine ⟨_, found, exec_wnMatchd hopen hm, by rw [List.length_map, hlen], hwalks, fun k hk => ?_, fun c hc hnear htries => ?_⟩
    · rcases hbest k hk with ⟨hb, hall⟩ | ⟨b, hb, hlongest, hpos⟩
      · exact .inl ⟨by rw [List.getElem?_map, hb]; rfl, hall⟩
      · obtain ⟨hmem, hdecade⟩ := mem_inDecade.mp hlongest.mem
        obtain ⟨⟨-, hback, hnear⟩, hshort, hagree⟩ := hcand b hmem
        exact .inr ⟨b.1, b.2, by rw [List.getElem?_map, hb]; rfl, hlongest, hpos, by omega, by omega, hnear, hback, hdecade, hagree⟩
    · subst hc
      obtain ⟨run, hmem, hrun⟩ := hwalks.first htries hnear
      have hcp := hhead c rfl
      have hsize := Window.maxDistance_le s.wn
      obtain ⟨k, d, hsym, hd, hlo, hhi⟩ := distSymbol_spec (d := p - c) (by omega) (hnear.trans hsize)
      have hin : (run, p - c) ∈ inDecade k found := mem_inDecade.mpr ⟨hmem, d, hd, hlo, hhi⟩
      rcases hbest k (distSymbol_range hsym).1 with ⟨hb, hall⟩ | ⟨b, hb, hlongest, -⟩
      · refine ⟨k, d, 0, 0, hd, hlo, hhi, by rw [List.getElem?_map, hb]; rfl, by omega, Nat.zero_le _, fun r hr hr' hagree => ?_⟩
        exact (hrun.longest (by omega) hagree).trans (hall _ hin).le
      · obtain ⟨⟨-, -, hnear'⟩, hshort, -⟩ := hcand b (mem_inDecade.mp hlongest.mem).1
        exact ⟨k, d, b.1, b.2, hd, hlo, hhi, by rw [List.getElem?_map, hb]; rfl, by omega, hnear', fun r hr hr' hagree =>
          (hrun.longest (by omega) hagree).trans (hlongest.ge _ hin)⟩

end Sys2Proof.MatchFinder

namespace Sys2Proof.Machine

/-! ## Windows before a position -/

/-- Bytes inserted from the input the window is fed with leave the input, the exponent and the sound form. -/
theorem Inserts.frame {input : List Byte} {w v : Window} (h : Inserts input w v) (hw : w.Sound) (hfed : w.input = input) :
    v.Sound ∧ v.input = input ∧ v.exp = w.exp := by
  induction h with
  | here w => exact ⟨hw, hfed, rfl⟩
  | byte w v u b hb hu _ ih =>
    obtain ⟨-, hexp, -, hinput, -⟩ := Window.update_frame hu
    have hlt : w.inserted < w.input.length := hfed ▸ (List.getElem?_eq_some_iff.mp hb).1
    rw [if_neg hlt.ne, hfed] at hinput
    obtain ⟨h1, h2, h3⟩ := ih (hw.update hu) hinput
    exact ⟨h1, h2, h3.trans hexp⟩

theorem Finds.before {c : Compressor} {w v : Window} {s : Nat} {m : Option (Nat × Nat)} (h : Finds c w s m v)
    (hw : Before c.input s w) : Before c.input s v ∧ v.exp = w.exp := by
  by_cases hs : c.input.length < s + 4
  · obtain ⟨-, rfl⟩ := h.1 hs
    exact ⟨hw, rfl⟩
  · obtain ⟨hins, hat, -⟩ := h.2 (not_lt.mp hs)
    obtain ⟨h1, h2, h3⟩ := hins.frame hw.sound hw.fed
    exact ⟨⟨h1, h2, hat.le⟩, h3⟩

/-- A match found repeats earlier input, of 5 to 258 bytes, within the input and the window (spec/43_term_strategies.md R375). -/
structure MatchFound (c : Compressor) (w : Window) (s run dist : Nat) : Prop where
  long   : 5 ≤ run
  short  : run ≤ 258
  within : s + run ≤ c.input.length
  pos    : 1 ≤ dist
  back   : dist ≤ s
  near   : dist ≤ 2 ^ w.exp.toNat
  agree  : ∀ j, j < run → c.input[s + j]? = c.input[s + j - dist]?

theorem Finds.found {c : Compressor} {w v : Window} {s run dist : Nat} (h : Finds c w s (some (run, dist)) v)
    (hw : Before c.input s w) : MatchFound c w s run dist := by
  have hs : s + 4 ≤ c.input.length := by
    by_contra hs
    cases (h.1 (not_le.mp hs)).1
  obtain ⟨hins, hat, head, found, hlast, hwalks, hlongest, hfive⟩ := h.2 hs
  obtain ⟨hsound, hfed, hexp⟩ := hins.frame hw.sound hw.fed
  obtain ⟨-, -, hhead⟩ := hsound.last_key hlast
  obtain ⟨⟨hpos, hback, hnear⟩, hshort, hagree⟩ := hwalks.candidate hsound hhead _ hlongest.mem
  dsimp only at hpos hback hnear hshort hagree hfive
  rw [hfed] at hagree
  exact ⟨hfive, by omega, by omega, hpos, hback, hexp ▸ hnear, hagree⟩

/-! ## The terms of a step -/

/-- What the terms of a step are: one or two that reproduce the input, the window behind them. -/
structure ParsedTerms (c : Compressor) (w : Window) (s : Nat) (new : List Term) (v : Window) : Prop where
  few        : new.length = 1 ∨ (new.length = 2 ∧ c.cfg.strategy = .lazy)
  reproduces : Reproduces c.input s new
  matched    : ∀ run dist, Term.copy run dist ∈ new → 5 ≤ run ∧ run ≤ 258 ∧ dist ≤ 2 ^ w.exp.toNat
  before     : Before c.input (s + coversAll new) v

/-- A match on its own, the window at the key of its position or of the next. -/
theorem MatchFound.parsed {c : Compressor} {w v : Window} {s run dist : Nat} (h : MatchFound c w s run dist)
    (hv : Before c.input (s + 1) v) : ParsedTerms c w s [.copy run dist] v := by
  refine ⟨.inl rfl, ⟨h.pos, h.back, h.within, h.agree, trivial⟩, fun r d hmem => ?_, hv.later ?_⟩
  · obtain ⟨rfl, rfl⟩ := Term.copy.inj (List.mem_singleton.mp hmem)
    exact ⟨h.long, h.short, h.near⟩
  · have := h.long
    change s + 1 ≤ s + run
    omega

theorem Parses.parsed {c : Compressor} {w v : Window} {s : Nat} {new : List Term} (h : Parses c w s new v)
    (hw : Before c.input s w) : ParsedTerms c w s new v := by
  cases h with
  | literal b v hb hf =>
    refine ⟨.inl rfl, ⟨hb, trivial⟩, fun r d hmem => ?_, (hf.before hw).1.later (Nat.le_succ s)⟩
    cases List.mem_singleton.mp hmem
  | take run dist v _ hf => exact (hf.found hw).parsed ((hf.before hw).1.later (Nat.le_succ s))
  | keep run dist later v u _ _ hf hf' _ =>
    exact (hf.found hw).parsed (hf'.before ((hf.before hw).1.later (Nat.le_succ s))).1
  | defer b run dist run' dist' v u hlazy _ hb hf hf' _ =>
    obtain ⟨hv, hexp⟩ := hf.before hw
    have hv' := hv.later (Nat.le_succ s)
    have hm := hf'.found hv'
    refine ⟨.inr ⟨rfl, hlazy⟩, ⟨hb, hm.pos, hm.back, hm.within, hm.agree, trivial⟩, fun r d hmem => ?_, (hf'.before hv').1.later ?_⟩
    · rcases List.mem_cons.mp hmem with hmem | hmem
      · cases hmem
      · obtain ⟨rfl, rfl⟩ := Term.copy.inj (List.mem_singleton.mp hmem)
        exact ⟨hm.long, hm.short, hexp ▸ hm.near⟩
    · change s + 1 ≤ s + (1 + (run' + 0))
      omega

theorem State.DrivenAlone.before {s : State} (h : s.DrivenAlone) (hs : s.Sound) : Before s.c.input s.c.parsed s.wn :=
  ⟨hs.window, h.fed, h.near⟩

theorem State.DrivenAlone.notClosed {s : State} (h : s.DrivenAlone) {f : Unit → Run State} :
    s.finish (refuseIf (!s.c.isOpen) .noInstance >>= f) = s.finish (f ()) := finish_opened h.isOpen

/-- The parse of one step on a driven stream (spec/43_term_strategies.md R380). -/
theorem parseStep_driven {s : State} (hs : s.Sound) (hd : s.DrivenAlone) (hfull : s.c.cfg.strategy ≠ .full)
    (hlt : s.c.parsed < s.c.input.length) : ∃ new v, parseStep referenceParams s = .ok (s.commitTerms new v, new)
      ∧ Parses s.c s.wn s.c.parsed new v ∧ ParsedTerms s.c s.wn s.c.parsed new v := by
  have hb := List.getElem?_eq_getElem hlt
  obtain ⟨new, v, hok, hparses⟩ := (hd.before hs).parseAt hb hfull
  refine ⟨new, v, ?_, hparses, hparses.parsed (hd.before hs)⟩
  rw [parseStep, hb, written_some, ok_bind, hok]
  rfl

/-! ## The edges of a graph -/

theorem Before.graphLoop_before {c : Compressor} (k p : Nat) {w v : Window} {vs : List Vertex} (h : Before c.input p w)
    (hp : p + k ≤ c.input.length) (hloop : Machine.graphLoop referenceParams c k p w = .ok (vs, v)) : Before c.input (p + k) v := by
  induction k generalizing p w vs with
  | zero =>
    cases hloop
    exact h
  | succ k ih =>
    obtain ⟨edges, u, hedges, -, hu, -⟩ := h.edgesAt (room := k + 1) hp
    rw [Machine.graphLoop] at hloop
    obtain ⟨b, -, hloop⟩ := bind_eq_ok.mp hloop
    rw [hedges, ok_bind] at hloop
    obtain ⟨⟨rest, x⟩, hrest, hloop⟩ := bind_eq_ok.mp hloop
    cases hloop
    rw [show p + (k + 1) = p + 1 + k by omega]
    exact ih (p + 1) (hu.later (Nat.le_succ p)) (by omega) hrest

/-- An edge repeats earlier input at its distance, within the window (spec/43_term_strategies.md R390, R393). -/
theorem EdgesAt.edge {c : Compressor} {w : Window} {p room : Nat} {edges : List (Option Edge)} (h : EdgesAt c w p room edges)
    (hw : w.Sound) (hfed : w.input = c.input) {k : Nat} {e : Edge} (he : edges[k]? = some (some e)) :
    e.dist ≤ p ∧ e.dist ≤ 2 ^ w.exp.toNat ∧ ∀ j, j < e.run → c.input[p + j]? = c.input[p + j - e.dist]? := by
  by_cases hp : c.input.length < p + 4
  · rw [h.1 hp] at he
    cases List.eq_of_mem_replicate (List.mem_of_getElem? he)
  · obtain ⟨hlen, v, head, found, hins, hat, hlast, hwalks, hdecades⟩ := h.2 (not_lt.mp hp)
    have hk : k < 30 := hlen ▸ (List.getElem?_eq_some_iff.mp he).1
    obtain ⟨hsound, hinput, hexp⟩ := hins.frame hw hfed
    obtain ⟨-, -, hhead⟩ := hsound.last_key hlast
    rcases hdecades k hk with ⟨run, dist, hlongest, -, hedge⟩ | ⟨-, hedge⟩
    · obtain rfl := Option.some.inj (Option.some.inj (he.symm.trans hedge))
      obtain ⟨⟨-, hback, hnear⟩, -, hagree⟩ := hwalks.candidate hsound hhead _ (mem_inDecade.mp hlongest.mem).1
      rw [hinput] at hagree
      exact ⟨hback, hexp ▸ hnear, hagree⟩
    · cases he.symm.trans hedge

/-- The state after the graph of the next `n` bytes was built. -/
def State.graphed (n : Nat) (vertices : List Vertex) (w : Window) (s : State) : State :=
  { s with
    wn := w
    mg := { n := n, vertices := vertices, cost := costStart n, back := backStart n }
    c := { s.c with
      parsed := s.c.parsed + n, graphs := s.c.graphs + 1, limit := limitAfter referenceParams (s.c.graphs + 1) } }

theorem buildGraph_ok {n : Nat} {vertices : List Vertex} {w : Window} {s : State}
    (h : graphLoop referenceParams s.c n s.c.parsed s.wn = .ok (vertices, w)) :
    buildGraph referenceParams n s = .ok (s.graphed n vertices w) := by
  rw [buildGraph, h]
  rfl

theorem refuses_graphOver {P : Params} {n : Nat} {s : State} (h : n = 0 ∨ s.c.limit < n ∨ s.c.input.length < s.c.parsed + n) :
    graphOver P n s = .error (.refuse .operand) := by
  have hcheck : (decide (n = 0) || decide (s.c.limit < n) || decide (s.c.input.length < s.c.parsed + n)) = true := by
    simpa [or_assoc] using h
  rw [graphOver, hcheck]
  rfl

end Sys2Proof.Machine

namespace Sys2Proof.TermStrategies

open Sys2Proof.Machine

/-- Settles O38: the decision is the one of `Parses`, and every match of it repeats earlier input. -/
theorem tmStep : Obligations.TmStep := by
  refine fun s hs hd => ⟨fun hfull => ?_, fun hfull hend => ?_, fun hfull hlt hshort hlast => ?_, fun hfull hlt hready => ?_⟩
  · exact refuses_opened hd.isOpen (refuses_check (by rw [hfull]; rfl))
  all_goals
    have hnotFull : (s.c.cfg.strategy == .full) = false := beq_false_of_ne hfull
    have hexec : exec .tmStep s = s.finish _ := hd.notClosed.trans (finish_afterCheck hnotFull)
    rw [hexec]
  · rw [if_pos hend.ge]
    rfl
  · have hwait : (!lookaheadReady s.c s.c.parsed) = true := by
      rw [lookaheadReady, hlast, Bool.or_false, Bool.not_eq_true', decide_eq_false_iff_not, lookaheadMin]
      omega
    rw [if_neg (not_le.mpr hlt), if_pos hwait]
    rfl
  · have hgo : ¬ (!lookaheadReady s.c s.c.parsed) = true := by
      rw [lookaheadReady, lookaheadMin, Bool.not_eq_true', Bool.not_eq_false, Bool.or_eq_true, decide_eq_true_eq]
      exact hready
    obtain ⟨new, v, hok, hparses, hparsed⟩ := parseStep_driven hs hd hfull hlt
    rw [if_neg (not_le.mpr hlt), if_neg hgo, hok]
    exact ⟨_, new, rfl, rfl, hparses, hparsed.few, hparsed.reproduces, hparsed.matched,
      ⟨hd.isOpen, hparsed.before.fed, hparsed.before.near⟩⟩

/-- Settles O39: the vertices are those of the graph loop, and an edge is a candidate of the search at its vertex. -/
theorem tmGraph : Obligations.TmGraph := by
  refine fun n s hs hd => ⟨fun hbad => ?_, fun hpos hlimit hinput => ?_⟩
  · refine refuses_opened hd.isOpen (refuses_first (refuses_graphOver ?_))
    rcases hbad with rfl | h | h
    · exact .inl rfl
    · exact .inr (.inl h)
    · exact .inr (.inr h)
  · obtain ⟨vs, v, hloop, hlen, hins, hvs⟩ := (hd.before hs).graphLoop n.toNat s.c.parsed hinput
    have hbefore := (hd.before hs).graphLoop_before n.toNat s.c.parsed hinput hloop
    have hwork : Workable s := ⟨hs.window, hs.terms, (hs.compressor hd.isOpen).parsed⟩
    have hbuild := buildGraph_ok hloop
    have hcheck : (decide (n.toNat = 0) || decide (s.c.limit < n.toNat) || decide (s.c.input.length < s.c.parsed + n.toNat)) = false := by
      simp only [Bool.or_eq_false_iff, decide_eq_false_iff_not]
      omega
    have hgraph := ((meets_buildGraph hwork n.toNat hinput).answer _ hbuild).2.1.terms.graph
    have hover : graphOver referenceParams n.toNat s = .ok (s.graphed n.toNat vs v) := by
      rw [graphOver, hcheck, refuseIf_false, ok_bind, hbuild]
    refine ⟨(s.graphed n.toNat vs v).answer .ok [] [],
      hd.notClosed.trans (congrArg (fun x => s.finish (x >>= fun t => pure (t.answer .ok [] []))) hover), rfl, rfl, hgraph,
      rfl, rfl, hins, fun i x hx => ?_, ⟨hd.isOpen, hbefore.fed, hbefore.near⟩⟩
    obtain ⟨hlit, hedges⟩ := hvs i x hx
    exact ⟨hlit, hedges, fun k e he => hedges.edge hs.window hd.fed he⟩

end Sys2Proof.TermStrategies

end

section
/-! PROOF. The sweep over the match graph finds a cheapest walk, and the depth tables after it. -/

namespace Sys2Proof.Machine

/-! ## Walks, one term at a time -/

/-- The terms of the edges of a vertex. -/
def Vertex.Offers (v : Vertex) (t : Term) : Prop :=
  t = .lit v.lit ∨ ∃ (k : Nat) (e : Edge) (r : Nat), v.edges[k]? = some (some e) ∧ 3 ≤ r ∧ r ≤ e.run ∧ t = .copy r e.dist

/-- The edges of the graph: the vertex an edge leaves, and its term. -/
def Graph.Arc (g : Graph) (i : Nat) (t : Term) : Prop := ∃ v, g.vertices[i]? = some v ∧ v.Offers t

theorem Graph.walk_nil {g : Graph} {i j : Nat} (h : g.Walk i [] j) : i = j := by
  cases h
  rfl

theorem Graph.walk_cons {g : Graph} {i j : Nat} {t : Term} {ts : List Term} :
    g.Walk i (t :: ts) j ↔ g.Arc i t ∧ g.Walk (i + t.covers) ts j := by
  constructor
  · intro h
    cases h with
    | lit _ _ v _ hv hw => exact ⟨⟨v, hv, .inl rfl⟩, hw⟩
    | run _ _ k r v e _ hv he hr hr' hw => exact ⟨⟨v, hv, .inr ⟨k, e, r, he, hr, hr', rfl⟩⟩, hw⟩
  · rintro ⟨⟨v, hv, rfl | ⟨k, e, r, he, hr, hr', rfl⟩⟩, hw⟩
    · exact .lit i j v ts hv hw
    · exact .run i j k r v e ts hv he hr hr' hw

theorem Graph.walk_snoc {g : Graph} {i j : Nat} {t : Term} {ts : List Term} (h : g.Walk i ts j) (ht : g.Arc j t) :
    g.Walk i (ts ++ [t]) (j + t.covers) := by
  induction ts generalizing i with
  | nil =>
    obtain rfl := walk_nil h
    exact walk_cons.mpr ⟨ht, .here _⟩
  | cons u us ih =>
    obtain ⟨hu, hw⟩ := walk_cons.mp h
    exact walk_cons.mpr ⟨hu, ih hw⟩

theorem termCosts_cons (dt : DepthTable) (t : Term) (ts : List Term) : termCosts dt (t :: ts) = termCost dt t + termCosts dt ts := by
  simp [termCosts]

theorem termCosts_append (dt : DepthTable) (ts us : List Term) : termCosts dt (ts ++ us) = termCosts dt ts + termCosts dt us := by
  simp [termCosts]

/-! ## What the sweep keeps -/

/-- The cost of a vertex so far; `none` is infinity. -/
def Sweep.costAt (w : Sweep) (j : Nat) : Option Nat := (w.cost[j]?).join

/-- The term by which a vertex was reached, and the vertex it leaves. -/
def Sweep.backAt (w : Sweep) (j : Nat) : Option (Nat × Term) := (w.back[j]?).join

/-- A sweep in which the edges of `A` are relaxed and no other: no edge of `A` leads on more cheaply than the costs say, and every cost is
that of the vertex behind it and of the edge of `A` between. -/
structure Relaxed (dt : DepthTable) (A : Nat → Term → Prop) (w : Sweep) : Prop where
  length : w.cost.length = w.back.length
  source : w.costAt 0 = some 0
  least  : ∀ i t c, A i t → w.costAt i = some c → ∃ d, w.costAt (i + t.covers) = some d ∧ d ≤ c + termCost dt t
  back   : ∀ j c, w.costAt j = some c → 0 < j → ∃ i t d, w.backAt j = some (i, t) ∧ A i t ∧ i < j ∧ i + t.covers = j
    ∧ w.costAt i = some d ∧ c = d + termCost dt t

theorem Relaxed.congr {dt : DepthTable} {A B : Nat → Term → Prop} {w : Sweep} (h : Relaxed dt A w) (hab : ∀ i t, A i t ↔ B i t) :
    Relaxed dt B w := by
  obtain rfl : A = B := funext fun i => funext fun t => propext (hab i t)
  exact h

theorem Sweep.relax_cases {w v : Sweep} {i j c : Nat} {t : Term} (h : w.relax i j c t = .ok v) (hlen : w.cost.length = w.back.length) :
    (v = w ∧ ∃ d, w.costAt j = some d ∧ d ≤ c)
    ∨ ((∀ d, w.costAt j = some d → c < d) ∧ v.cost.length = v.back.length
      ∧ (∀ m, v.costAt m = if m = j then some c else w.costAt m) ∧ ∀ m, v.backAt m = if m = j then some (i, t) else w.backAt m) := by
  simp only [Sweep.relax, bind_eq_ok, written_eq_ok] at h
  obtain ⟨old, hold, h⟩ := h
  have hj : w.costAt j = old := by rw [Sweep.costAt, hold, Option.join_some]
  have hlt : j < w.cost.length := (List.getElem?_eq_some_iff.mp hold).1
  split at h
  case isTrue hc =>
    cases h
    refine .inr ⟨fun d hd => ?_, by simpa using hlen, fun m => ?_, fun m => ?_⟩
    · rw [hj] at hd
      simpa [hd, cheaper] using hc
    · rw [Sweep.costAt, List.getElem?_set]
      split
      case isTrue hm => rw [Option.join_some, if_pos hm.symm]
      case isFalse hm => rw [if_neg (Ne.symm hm), Sweep.costAt]
    · rw [Sweep.backAt, List.getElem?_set]
      split
      case isTrue hm => rw [if_pos (hlen ▸ hlt), Option.join_some, if_pos hm.symm]
      case isFalse hm => rw [if_neg (Ne.symm hm), Sweep.backAt]
  case isFalse hc =>
    cases h
    cases old with
    | none => exact absurd rfl hc
    | some d => exact .inl ⟨rfl, d, hj, by simpa [cheaper] using hc⟩

/-- One relaxation, from a vertex at or after every vertex relaxed before. -/
theorem Relaxed.relax {dt : DepthTable} {A : Nat → Term → Prop} {w v : Sweep} {i base : Nat} {t : Term} (h : Relaxed dt A w)
    (hA : ∀ m u, A m u → m ≤ i) (hbase : w.costAt i = some base) (ht : 0 < t.covers)
    (hv : w.relax i (i + t.covers) (base + termCost dt t) t = .ok v) :
    Relaxed dt (fun m u => A m u ∨ m = i ∧ u = t) v ∧ v.costAt i = some base := by
  rcases Sweep.relax_cases hv h.length with ⟨rfl, d, hd, hle⟩ | ⟨hless, hlen, hcost, hback⟩
  · refine ⟨⟨h.length, h.source, fun m u c hu hc => ?_, fun j c hc hj => ?_⟩, hbase⟩
    · rcases hu with hu | ⟨rfl, rfl⟩
      · exact h.least m u c hu hc
      · cases hbase.symm.trans hc
        exact ⟨d, hd, hle⟩
    · obtain ⟨m, u, d, hb, hu, hlt⟩ := h.back j c hc hj
      exact ⟨m, u, d, hb, .inl hu, hlt⟩
  · have hkeep : ∀ m, m ≤ i → v.costAt m = w.costAt m := fun m hm => by rw [hcost, if_neg (by omega)]
    refine ⟨⟨hlen, (hkeep 0 (Nat.zero_le i)).trans h.source, fun m u c hu hc => ?_, fun j c hc hj => ?_⟩, (hkeep i le_rfl).trans hbase⟩
    · rcases hu with hu | ⟨rfl, rfl⟩
      · obtain ⟨d, hd, hle⟩ := h.least m u c hu (hkeep m (hA m u hu) ▸ hc)
        rw [hcost]
        split
        case isTrue hm => exact ⟨_, rfl, (hless d (hm ▸ hd)).le.trans hle⟩
        case isFalse => exact ⟨d, hd, hle⟩
      · cases hbase.symm.trans (hkeep m le_rfl ▸ hc)
        exact ⟨_, by rw [hcost, if_pos rfl], le_rfl⟩
    · rw [hcost] at hc
      rw [hback]
      split at hc
      case isTrue hm =>
        cases hc
        exact ⟨i, t, base, if_pos hm, .inr ⟨rfl, rfl⟩, by omega, hm.symm, (hkeep i le_rfl).trans hbase, rfl⟩
      case isFalse hm =>
        obtain ⟨m, u, d, hb, hu, hlt, hcov, hd, hsum⟩ := h.back j c hc hj
        exact ⟨m, u, d, (if_neg hm).trans hb, .inl hu, hlt, hcov, (hkeep m (hA m u hu)).trans hd, hsum⟩

/-- The runs of one edge. -/
theorem Relaxed.runs {dt : DepthTable} {i base dec dist : Nat} (hdec : decadeOf dist = dec) (n k : Nat) {A : Nat → Term → Prop}
    {w v : Sweep} (h : Relaxed dt A w) (hA : ∀ m u, A m u → m ≤ i) (hbase : w.costAt i = some base) (hk : 3 ≤ k)
    (hv : relaxRuns dt i base dec dist n k w = .ok v) :
    Relaxed dt (fun m u => A m u ∨ m = i ∧ ∃ r, k ≤ r ∧ r < k + n ∧ u = .copy r dist) v ∧ v.costAt i = some base := by
  induction n generalizing k A w with
  | zero =>
    cases hv
    refine ⟨h.congr fun m u => ⟨.inl, ?_⟩, hbase⟩
    rintro (hu | ⟨-, r, hr, hr', -⟩)
    · exact hu
    · omega
  | succ n ih =>
    simp only [relaxRuns, matchCost, bind_eq_ok, written_eq_ok, pure_eq_ok, Except.ok.injEq] at hv
    obtain ⟨c, ⟨x, hx, y, hy, rfl⟩, w', hw', hv⟩ := hv
    have hcost : x + y = termCost dt (.copy k dist) := by
      rw [termCost, hdec, List.getD_eq_getElem?_getD, hx, List.getD_eq_getElem?_getD, hy]
      rfl
    rw [hcost] at hw'
    obtain ⟨h', hbase'⟩ := h.relax (t := .copy k dist) hA hbase (Nat.lt_of_lt_of_le (by decide) hk) hw'
    obtain ⟨hr, hb⟩ := ih (k + 1) h' (fun m u hu => hu.elim (hA m u) fun he => he.1.le) hbase' (by omega) hv
    refine ⟨hr.congr fun m u => ?_, hb⟩
    constructor
    · rintro ((hu | ⟨hm, rfl⟩) | ⟨hm, r, h1, h2, rfl⟩)
      · exact .inl hu
      · exact .inr ⟨hm, k, le_rfl, by omega, rfl⟩
      · exact .inr ⟨hm, r, by omega, by omega, rfl⟩
    · rintro (hu | ⟨hm, r, h1, h2, rfl⟩)
      · exact .inl (.inl hu)
      · rcases h1.eq_or_lt with rfl | hlt
        · exact .inl (.inr ⟨hm, rfl⟩)
        · exact .inr ⟨hm, r, hlt, by omega, rfl⟩

/-- The edges of one vertex, decade by decade. -/
theorem Relaxed.decades {dt : DepthTable} {i base : Nat} (edges : List (Option Edge)) (dec : Nat)
    (hdec : ∀ k e, edges[k]? = some (some e) → decadeOf e.dist = dec + k ∧ 3 ≤ e.run) {A : Nat → Term → Prop}
    {w v : Sweep} (h : Relaxed dt A w) (hA : ∀ m u, A m u → m ≤ i) (hbase : w.costAt i = some base)
    (hv : relaxDecades dt i base dec edges w = .ok v) :
    Relaxed dt (fun m u => A m u ∨ m = i ∧ ∃ (k : Nat) (e : Edge) (r : Nat), edges[k]? = some (some e) ∧ 3 ≤ r ∧ r ≤ e.run ∧ u = .copy r e.dist) v
      ∧ v.costAt i = some base := by
  induction edges generalizing dec A w with
  | nil =>
    cases hv
    exact ⟨h.congr fun m u => ⟨.inl, fun hu => hu.elim id fun he => by simp at he⟩, hbase⟩
  | cons o rest ih =>
    have hrest : ∀ k e, rest[k]? = some (some e) → decadeOf e.dist = dec + 1 + k ∧ 3 ≤ e.run := fun k e hk => by
      obtain ⟨h1, h2⟩ := hdec (k + 1) e hk
      exact ⟨by omega, h2⟩
    have hsplit : ∀ u : Term, (∃ (k : Nat) (e : Edge) (r : Nat), (o :: rest)[k]? = some (some e) ∧ 3 ≤ r ∧ r ≤ e.run ∧ u = .copy r e.dist)
        ↔ (∃ (e : Edge) (r : Nat), o = some e ∧ 3 ≤ r ∧ r ≤ e.run ∧ u = .copy r e.dist)
          ∨ ∃ (k : Nat) (e : Edge) (r : Nat), rest[k]? = some (some e) ∧ 3 ≤ r ∧ r ≤ e.run ∧ u = .copy r e.dist := fun u => by
      constructor
      · rintro ⟨k, e, r, hk, hu⟩
        cases k with
        | zero => exact .inl ⟨e, r, Option.some.inj hk, hu⟩
        | succ k => exact .inr ⟨k, e, r, hk, hu⟩
      · rintro (⟨e, r, rfl, hu⟩ | ⟨k, e, r, hk, hu⟩)
        · exact ⟨0, e, r, rfl, hu⟩
        · exact ⟨k + 1, e, r, hk, hu⟩
    cases o with
    | none =>
      obtain ⟨hr, hb⟩ := ih (dec + 1) hrest h hA hbase hv
      refine ⟨hr.congr fun m u => ?_, hb⟩
      rw [hsplit]
      simp
    | some e =>
      simp only [relaxDecades, bind_eq_ok] at hv
      obtain ⟨w', hw', hv⟩ := hv
      obtain ⟨hd, hrun⟩ := hdec 0 e rfl
      obtain ⟨h', hbase'⟩ := h.runs hd (e.run - 2) 3 hA hbase le_rfl hw'
      obtain ⟨hr, hb⟩ := ih (dec + 1) hrest h' (fun m u hu => hu.elim (hA m u) fun he => he.1.le) hbase' hv
      refine ⟨hr.congr fun m u => ?_, hb⟩
      have hone : (∃ r, 3 ≤ r ∧ r < 3 + (e.run - 2) ∧ u = .copy r e.dist)
          ↔ ∃ (e' : Edge) (r : Nat), some e = some e' ∧ 3 ≤ r ∧ r ≤ e'.run ∧ u = .copy r e'.dist := by
        constructor
        · rintro ⟨r, h1, h2, hu⟩
          exact ⟨e, r, rfl, h1, by omega, hu⟩
        · rintro ⟨e', r, he, h1, h2, hu⟩
          cases he
          exact ⟨r, h1, by omega, hu⟩
      rw [hsplit, hone, or_assoc, ← and_or_left]

theorem Graph.Sound.decadeOf_edge {g : Graph} (hg : g.Sound) {i k : Nat} {x : Vertex} {e : Edge} (hx : g.vertices[i]? = some x)
    (he : x.edges[k]? = some (some e)) : decadeOf e.dist = k ∧ 3 ≤ e.run := by
  obtain ⟨h3, -, -, hk⟩ := hg.edges i x k e hx he
  exact ⟨by rw [decadeOf, hk, Option.getD_some], h3⟩

/-- The sweep from vertex `i` on relaxes every edge that leaves a vertex at or after it. -/
theorem Relaxed.explore {dt : DepthTable} {g : Graph} (hg : g.Sound) (vs : List Vertex) (i : Nat) {w v : Sweep}
    (h : Relaxed dt (fun m u => m < i ∧ g.Arc m u) w) (hvs : g.vertices.drop i = vs) (hv : exploreFrom dt i vs w = .ok v) :
    Relaxed dt g.Arc v := by
  induction vs generalizing i w with
  | nil =>
    cases hv
    refine h.congr fun m u => ⟨And.right, fun hu => ⟨?_, hu⟩⟩
    obtain ⟨x, hx, -⟩ := hu
    exact (List.getElem?_eq_some_iff.mp hx).1.trans_le (List.drop_eq_nil_iff.mp hvs)
  | cons x rest ih =>
    have hx : g.vertices[i]? = some x := by rw [← List.head?_drop, hvs, List.head?_cons]
    have hrest : g.vertices.drop (i + 1) = rest := by rw [← List.tail_drop, hvs, List.tail_cons]
    have hA : ∀ m u, m < i ∧ g.Arc m u → m ≤ i := fun m u hu => hu.1.le
    have hnext : ∀ m u, (m < i ∧ g.Arc m u) ∨ m = i ∧ x.Offers u ↔ m < i + 1 ∧ g.Arc m u := fun m u => by
      have : x.Offers u ↔ g.Arc i u := ⟨fun hu => ⟨x, hx, hu⟩, fun ⟨y, hy, hu⟩ => Option.some.inj (hx.symm.trans hy) ▸ hu⟩
      rw [Nat.lt_succ_iff_lt_or_eq, or_and_right, this]
      exact or_congr_right (and_congr_right fun hm => hm ▸ Iff.rfl)
    simp only [exploreFrom, bind_eq_ok, written_eq_ok] at hv
    obtain ⟨here, hhere, hv⟩ := hv
    have hat : w.costAt i = here := by rw [Sweep.costAt, hhere, Option.join_some]
    cases here with
    | none =>
      refine ih (i + 1) (Relaxed.congr (A := fun m u => (m < i ∧ g.Arc m u) ∨ m = i ∧ x.Offers u)
        ⟨h.length, h.source, fun m u c hu hc => ?_, fun j c hc hj => ?_⟩ hnext) hrest hv
      · rcases hu with hu | ⟨rfl, -⟩
        · exact h.least m u c hu hc
        · cases hat.symm.trans hc
      · obtain ⟨m, u, d, hb, hu, hlt⟩ := h.back j c hc hj
        exact ⟨m, u, d, hb, .inl hu, hlt⟩
    | some base =>
      simp only [bind_eq_ok, written_eq_ok] at hv
      obtain ⟨l, hl, w1, hw1, w2, hw2, hv⟩ := hv
      have hcost : l = termCost dt (.lit x.lit) := by rw [termCost, List.getD_eq_getElem?_getD, hl, Option.getD_some]
      rw [hcost] at hw1
      obtain ⟨h1, hb1⟩ := h.relax hA hat (t := .lit x.lit) Nat.one_pos hw1
      obtain ⟨h2, -⟩ := h1.decades x.edges 0 (fun k e he => by simpa using hg.decadeOf_edge hx he)
        (fun m u hu => hu.elim (hA m u) fun he => he.1.le) hb1 hw2
      refine ih (i + 1) (h2.congr fun m u => ?_) hrest hv
      rw [← hnext m u, or_assoc, ← and_or_left]
      rfl

theorem relaxed_start (dt : DepthTable) (n : Nat) (A : Nat → Term → Prop) (hA : ∀ m u, ¬ A m u) :
    Relaxed dt A { cost := costStart n, back := backStart n } := by
  refine ⟨by simp [costStart, backStart], rfl, fun i t c h => absurd h (hA i t), fun j c hc hj => ?_⟩
  obtain ⟨j, rfl⟩ := Nat.exists_eq_succ_of_ne_zero hj.ne'
  have : (costStart n)[j + 1]? = some (some c) := Option.join_eq_some_iff.mp hc
  cases List.eq_of_mem_replicate (List.mem_of_getElem? this)

/-! ## The path back, and that no walk is cheaper -/

/-- The path back to the source is a walk, and it costs what the sweep says. -/
theorem Relaxed.path {dt : DepthTable} {g : Graph} {w : Sweep} (h : Relaxed dt g.Arc w) (fuel j : Nat) (rest ts : List Term) {c : Nat}
    (hc : w.costAt j = some c) (hts : pathLoop w.back fuel j rest = .ok ts) :
    ∃ path, ts = path ++ rest ∧ g.Walk 0 path j ∧ termCosts dt path = c := by
  induction fuel generalizing j rest c with
  | zero =>
    cases j with
    | zero =>
      cases hts
      exact ⟨[], rfl, .here 0, Option.some.inj (h.source.symm.trans hc)⟩
    | succ j => cases hts
  | succ fuel ih =>
    cases j with
    | zero =>
      cases hts
      exact ⟨[], rfl, .here 0, Option.some.inj (h.source.symm.trans hc)⟩
    | succ j =>
      obtain ⟨i, t, d, hb, ht, -, hcov, hd, rfl⟩ := h.back (j + 1) c hc j.succ_pos
      have hback : w.back[j + 1]? = some (some (i, t)) := Option.join_eq_some_iff.mp hb
      simp only [pathLoop, hback, written_some, ok_bind] at hts
      obtain ⟨path, rfl, hwalk, rfl⟩ := ih i (t :: rest) hd hts
      refine ⟨path ++ [t], by simp, hcov ▸ Graph.walk_snoc hwalk ht, ?_⟩
      simp [termCosts]

/-- No walk leads on more cheaply than the costs of the sweep say. -/
theorem Relaxed.le_of_walk {dt : DepthTable} {g : Graph} {w : Sweep} (h : Relaxed dt g.Arc w) (ts : List Term) (i j : Nat) {c : Nat}
    (hc : w.costAt i = some c) (hts : g.Walk i ts j) : ∃ d, w.costAt j = some d ∧ d ≤ c + termCosts dt ts := by
  induction ts generalizing i c with
  | nil => exact ⟨c, Graph.walk_nil hts ▸ hc, Nat.le_add_right _ _⟩
  | cons t ts ih =>
    obtain ⟨ht, hw⟩ := Graph.walk_cons.mp hts
    obtain ⟨d, hd, hle⟩ := h.least i t c ht hc
    obtain ⟨b, hb, hle'⟩ := ih (i + t.covers) hd hw
    rw [termCosts_cons]
    exact ⟨b, hb, by omega⟩

/-! ## The depth tables -/

/-- The state after a sweep `w` whose path is `terms`. -/
def State.minimized (P : Params) (w : Sweep) (terms : List Term) (codes : List TermCodes) (s : State) : State :=
  { s with
    mg := { s.mg with cost := w.cost, back := w.back }
    tv := terms
    dt := refineDepths P codes s.dt
    c := { s.c with termsBytes := s.mg.n } }

theorem minimizeOnce_eq_ok {P : Params} {s t : State} {terms : List Term} {total : Nat} :
    minimizeOnce P s = .ok (t, terms, total) ↔
      ∃ w codes, exploreFrom s.dt 0 s.mg.vertices { cost := costStart s.mg.n, back := backStart s.mg.n } = .ok w
        ∧ pathTerms s.mg.n w.back = .ok terms ∧ codesOf terms = .ok codes ∧ w.cost[s.mg.n]? = some (some total)
        ∧ t = s.minimized P w terms codes := by
  simp only [minimizeOnce, bind_eq_ok, written_eq_ok, pure_eq_ok, Except.ok.injEq, Prod.mk.injEq]
  constructor
  · rintro ⟨w, hw, ts, hts, codes, hcodes, sink, hsink, c, rfl, rfl, rfl, rfl⟩
    exact ⟨w, codes, hw, hts, hcodes, hsink, rfl⟩
  · rintro ⟨w, codes, hw, hts, hcodes, hsink, rfl⟩
    exact ⟨w, hw, terms, hts, codes, hcodes, some total, hsink, total, rfl, rfl, rfl, rfl⟩

/-- The depth table of `t` is that of `s` refined by the terms of `t`. -/
def State.Refined (s t : State) : Prop := ∃ codes, codesOf t.tv = .ok codes ∧ t.dt = refineDepths referenceParams codes s.dt

theorem minimizeOnce_refines (s : State) : Answers (minimizeOnce referenceParams s) (fun p => s.Refined p.1) := by
  rintro ⟨t, ts, c⟩ h
  obtain ⟨w, codes, -, -, hcodes, -, rfl⟩ := minimizeOnce_eq_ok.mp h
  exact ⟨codes, hcodes, rfl⟩

theorem getD_runLitFreqs_eob (codes : List TermCodes) : 0 < (runLitFreqs codes).getD 256 0 := by
  simp [runLitFreqs]

theorem refineEntry_reference {freqs lens : List Nat} {t : Table} {k old e : Nat} (he : extraBits t k = e) :
    refineEntry referenceParams freqs lens t k old = if 0 < freqs.getD k 0 then (lens.getD k 0 + e) * 16 else old := by
  rw [refineEntry, he]
  rfl

theorem extraBits_of_lt_257 {k : Nat} (h : k < 257) : extraBits .runLit k = 0 := if_pos h

theorem build_reference : referenceParams.build = referenceBuild := rfl

theorem extraBits_runSymbol {run l : Nat} {d : Decade} (h : runSymbol run = some (l, d)) : extraBits .runLit l = d.extra := by
  obtain ⟨i, rfl, hi, -⟩ := findDecade_some h
  rw [extraBits, if_neg (by omega), Nat.add_sub_cancel_left, hi]
  rfl

theorem extraBits_distDecade {k : Nat} {d : Decade} (h : distDecades[k]? = some d) : extraBits .dist k = d.extra := by
  rw [extraBits, h]
  rfl

theorem getElem?_zipWith_midpoint {xs ys : List Nat} {k x y : Nat} (hx : xs[k]? = some x) (hy : ys[k]? = some y) :
    (List.zipWith midpoint xs ys)[k]? = some ((x + y) / 2) := by
  rw [List.getElem?_zipWith, hx, hy]
  rfl

end Sys2Proof.Machine

namespace Sys2Proof.TermStrategies

open Sys2Proof.Machine

/-- Settles O40: the sweep relaxes every edge of the graph, so its path is a walk of the least cost. -/
theorem tmMinimizeOptimal : Obligations.TmMinimizeOptimal := by
  refine fun s hs hopen => ⟨fun hn => refuses_check (by rw [hopen, hn]; rfl), fun hn => ?_⟩
  have hcheck : (!s.c.isOpen || decide (s.mg.n = 0)) = false := by
    rw [hopen, decide_eq_false hn.ne']
    rfl
  obtain ⟨w, hw, hswept⟩ := (swept_start s.mg.n).exploreFrom hs.depth hs.graph s.mg.vertices 0 rfl (Nat.zero_le _)
  obtain ⟨c, hc⟩ := hswept.reached s.mg.n le_rfl le_rfl
  obtain ⟨ts, hpath, hvalid, -⟩ := hswept.pathLoop s.mg.n s.mg.n le_rfl [] ⟨c, hc⟩
  rw [List.append_nil] at hpath
  obtain ⟨codes, hcodes, -⟩ := codesOf_ok hvalid
  have hrelaxed : Relaxed s.dt s.mg.Arc w := Relaxed.explore hs.graph s.mg.vertices 0
    (relaxed_start s.dt s.mg.n _ fun _ _ h => Nat.not_lt_zero _ h.1) rfl hw
  have hcost : w.costAt s.mg.n = some c := by rw [Sweep.costAt, hc, Option.join_some]
  obtain ⟨path, hts, hwalk, rfl⟩ := hrelaxed.path s.mg.n s.mg.n [] ts hcost hpath
  obtain rfl : ts = path := hts.trans (List.append_nil path)
  have hmin : minimizeOnce referenceParams s = .ok (s.minimized referenceParams w ts codes, ts, termCosts s.dt ts) :=
    minimizeOnce_eq_ok.mpr ⟨w, codes, hw, hpath, hcodes, hc, rfl⟩
  have hexec : exec .tmMinimize s = .next ((s.minimized referenceParams w ts codes).answer .ok [word ts.length, word (termCosts s.dt ts)] []) :=
    (finish_afterCheck hcheck).trans (by rw [hmin] <;> rfl)
  refine ⟨_, hexec, hwalk, fun us hus => ?_, rfl, rfl, rfl, rfl, rfl, rfl, rfl⟩
  obtain ⟨d, hd, hle⟩ := hrelaxed.le_of_walk us 0 s.mg.n hrelaxed.source hus
  cases hcost.symm.trans hd
  exact hle.trans_eq (Nat.zero_add _)

/-- Settles O41: the entries of the refined and of the blended depth table, each by its list. -/
theorem depths : Obligations.Depths := by
  refine ⟨fun s t hsized h => ?_, fun s hopen => ⟨_, finish_opened hopen, rfl, fun b x y => getElem?_zipWith_midpoint, rfl,
    fun k x y => getElem?_zipWith_midpoint, fun k x y => getElem?_zipWith_midpoint⟩⟩
  obtain ⟨codes, hcodes, hdt⟩ := h.answers (Q := s.Refined) rfl
    (.after fun _ => (minimizeOnce_refines s).bind (R := fun p => s.Refined p.1) fun p hp => .ok hp)
  obtain ⟨hlit, -⟩ := (sized_iff s.dt).mp hsized
  refine ⟨codes, hcodes, fun b old hb => ?_, ?_, fun k l d old hk hl => ?_, fun k d old hk hd => ?_⟩ <;> rw [hdt]
  · have hb256 : b < 256 := hlit ▸ (List.getElem?_eq_some_iff.mp hb).1
    rw [refineDepths, List.getElem?_map, List.getElem?_zipIdx, hb]
    simp [build_reference, refineEntry_reference (extraBits_of_lt_257 (hb256.trans (by decide)))]
  · rw [refineDepths, refineEntry_reference (extraBits_of_lt_257 (by decide)), if_pos (getD_runLitFreqs_eob codes)]
    rfl
  · rw [refineDepths, List.getElem?_map, List.getElem?_zipIdx, hk, ← refineEntry_reference (extraBits_runSymbol hl)]
    simp [runSymbolNat, hl, build_reference]
  · rw [refineDepths, List.getElem?_map, List.getElem?_zipIdx, hk, ← refineEntry_reference (extraBits_distDecade hd)]
    simp [build_reference]

end Sys2Proof.TermStrategies

end

section
/-! PROOF. The positions of the two streams and the bytes of their memories: a window that takes bytes in writes each into its own slot, the
parse only moves forward, and the terms in hand account for what is parsed and not yet emitted. -/

namespace Sys2Proof.Machine

/-! ## A window that takes bytes in -/

/-- From window `v` to window `w` only the slots of the positions inserted between are written (spec/42_match_finder.md R324). -/
structure Slides (v w : Window) : Prop where
  exp      : w.exp = v.exp
  inserted : v.inserted ≤ w.inserted
  bytes    : ∀ a, (∀ p, v.inserted ≤ p → p < w.inserted → p % 2 ^ v.exp.toNat ≠ a) → w.bytes.read a = v.bytes.read a

theorem Slides.refl (w : Window) : Slides w w := ⟨rfl, le_rfl, fun _ _ => rfl⟩

theorem Slides.trans {u v w : Window} (x : Slides u v) (y : Slides v w) : Slides u w := by
  refine ⟨y.exp.trans x.exp, x.inserted.trans y.inserted, fun a ha => ?_⟩
  rw [y.bytes a fun p h1 h2 => x.exp ▸ ha p (x.inserted.trans h1) h2, x.bytes a fun p h1 h2 => ha p h1 (h2.trans_le y.inserted)]

section Window

variable {P : Params}

theorem Window.update_slides (w : Window) (b : Byte) : Answers (w.update P b) (Slides w) := fun v hv => by
  obtain ⟨hinserted, hexp, -, -, hbytes, -⟩ := Window.update_frame hv
  refine ⟨hexp, by omega, fun a ha => ?_⟩
  rw [hbytes]
  exact Memory.read_write_other _ (Ne.symm (ha w.inserted le_rfl (by omega))) b

theorem insertTo_slides (input : List Byte) (p : Nat) (w : Window) : Answers (insertTo P input p w) (Slides w) := by
  unfold insertTo
  generalize min input.length (p + 4) - w.inserted = n
  induction n generalizing w with
  | zero => exact .ok (.refl w)
  | succ n ih => exact .after fun b => (w.update_slides b).bind fun v hv => (ih v).mono fun _ hu => hv.trans hu

theorem findAt_slides (c : Compressor) (p : Nat) (w : Window) : Answers (findAt P c p w) (fun r => Slides w r.2) := by
  unfold findAt
  split
  · exact .ok (.refl w)
  · exact (insertTo_slides c.input p w).bind fun _ hv => .after fun _ => .ok hv

theorem parseAt_slides (c : Compressor) (p : Nat) (b : Byte) (w : Window) :
    Answers (parseAt P c p b w) (fun r => Slides w r.2) := by
  refine (findAt_slides c p w).bind fun ⟨m, v⟩ hv => ?_
  dsimp only
  split
  · exact .ok hv
  · split
    · refine (findAt_slides c (p + 1) v).bind fun ⟨m', u⟩ hu => ?_
      dsimp only
      split
      · exact .ok (hv.trans hu)
      · split <;> exact .ok (hv.trans hu)
    · exact .ok hv

theorem edgesAt_slides (c : Compressor) (p room : Nat) (w : Window) : Answers (edgesAt P c p room w) (fun r => Slides w r.2) := by
  unfold edgesAt
  split
  · exact .ok (.refl w)
  · refine (insertTo_slides c.input p w).bind fun _ hv => .after fun _ => ?_
    split <;> exact .ok hv

theorem graphLoop_slides (c : Compressor) (k p : Nat) (w : Window) : Answers (graphLoop P c k p w) (fun r => Slides w r.2) := by
  induction k generalizing p w with
  | zero => exact .ok (.refl w)
  | succ k ih =>
    exact .after fun _ => (edgesAt_slides c p (k + 1) w).bind fun r hr => (ih (p + 1) r.2).bind fun _ hu => .ok (hr.trans hu)

end Window

/-! ## The compressor moves forward -/

/-- The parse has moved forward and the window has taken bytes in. -/
structure MovesOn (s t : State) : Prop where
  parsed : s.c.parsed ≤ t.c.parsed
  window : Slides s.wn t.wn

theorem MovesOn.refl (s : State) : MovesOn s s := ⟨le_rfl, .refl _⟩

theorem MovesOn.trans {s t u : State} (x : MovesOn s t) (y : MovesOn t u) : MovesOn s u :=
  ⟨x.parsed.trans y.parsed, x.window.trans y.window⟩

theorem MovesOn.answer {s t : State} (h : MovesOn s t) (status : Status) (res : List Word) (out : List Byte) :
    MovesOn s (t.answer status res out) := ⟨h.parsed, h.window⟩

section Moves

variable (P : Params)

theorem parseStep_movesOn (s : State) : Answers (parseStep P s) (fun p => MovesOn s p.1) :=
  .after fun _ => (parseAt_slides _ _ _ _).bind fun _ hw => .ok ⟨Nat.le_add_right _ _, hw⟩

theorem graphOver_movesOn (n : Nat) (s : State) : Answers (graphOver P n s) (MovesOn s) :=
  .after fun _ => (graphLoop_slides _ _ _ _).bind fun _ hw => .ok ⟨Nat.le_add_right _ _, hw⟩

theorem writeDynamic_movesOn (final : Bool) (s : State) : Answers (writeDynamic P final s) (MovesOn s) :=
  .after fun _ => .after fun _ => .after fun _ => .after fun _ => .ok ⟨le_rfl, .refl _⟩

theorem keptByParts_movesOn (s : State) : KeptByParts P (MovesOn s) where
  parse t ht := (parseStep_movesOn P t).mono fun _ hp => ht.trans hp
  graph n t ht := (graphOver_movesOn P n t).mono fun _ hu => ht.trans hu
  minimize t ht := .after fun _ => .after fun _ => .after fun _ => .after fun _ => .after fun _ => .ok (ht.trans ⟨le_rfl, .refl _⟩)
  generalize t ht := ht.trans ⟨le_rfl, .refl _⟩
  write final t ht := (writeDynamic_movesOn P final t).mono fun _ hu => ht.trans hu
  final t ht := by
    unfold finalBlock
    split
    · exact .ok (ht.trans ⟨le_rfl, .refl _⟩)
    · exact (writeDynamic_movesOn P true t).mono fun _ hu => ht.trans hu
  skip n t ht := ht.trans ⟨Nat.le_add_right _ _, .refl _⟩

theorem pushInput_movesOn (last : Bool) (bytes : List Byte) (s : State) : Answers (pushInput P last bytes s) (MovesOn s) := by
  have hfed : MovesOn s { s with c := s.c.take last bytes, wn := s.wn.feed bytes } := ⟨le_rfl, rfl, le_rfl, fun _ _ => rfl⟩
  refine ((keptByParts_movesOn P s).drive hfed).bind fun t ht => ?_
  cases last
  · exact .ok ht
  · exact .ok (ht.trans ⟨le_rfl, .refl _⟩)

end Moves

/-- Every command moves the compressor on, but those that open it or its window. -/
theorem Accepts.movesOn {i : Instr} {s t : State} (h : Accepts i s t) (hw : i.op ≠ .wnInit) (hc : i.op ≠ .cNew) : MovesOn s t := by
  have hsame : t.c = s.c → t.wn = s.wn → MovesOn s t := fun hc hw => ⟨by rw [hc], hw ▸ .refl _⟩
  cases i with
  | tmStep =>
    refine h.answers rfl (.after fun _ => .after fun _ => ?_)
    split
    · exact .ok ((MovesOn.refl s).answer _ _ _)
    · split
      · exact .ok ((MovesOn.refl s).answer _ _ _)
      · exact (parseStep_movesOn _ s).bind fun _ hp => .ok (hp.answer _ _ _)
  | tmGraph n => exact h.answers rfl (.after fun _ => (graphOver_movesOn _ _ s).bind fun _ hu => .ok (hu.answer _ _ _))
  | cPush last bytes => exact h.answers rfl (.after fun _ => .after fun _ => (pushInput_movesOn _ last bytes s).bind fun _ hu => .ok (hu.answer _ _ _))
  | wnUpdate byte =>
    refine h.answers rfl (.after fun _ => (s.wn.update_slides byte).bind fun w hw => ?_)
    dsimp only
    split
    · exact .ok ⟨le_rfl, hw⟩
    · split <;> exact .ok ⟨le_rfl, hw⟩
  | wnFeed bytes => exact h.answers rfl (.after fun _ => .ok ⟨le_rfl, rfl, le_rfl, fun _ _ => rfl⟩)
  | tmMinimize | bwDynamic _ =>
    have hleaves := h.leaves
    exact ⟨(read_eq (fun u => u.c.parsed) hleaves rfl).ge, (read_eq State.wn hleaves rfl) ▸ .refl _⟩
  | wnInit _ => exact absurd rfl hw
  | cNew _ _ _ _ => exact absurd rfl hc
  | _ => exact hsame (h.c_eq (by simp [Instr.op])) (h.wn_eq (by simp [Instr.op]))

/-! ## The terms in hand account for what is parsed and not emitted -/

/-- The bytes emitted and those of the terms in hand are the bytes parsed (spec/10_state.md R40, R41). -/
def Compressor.Accounted (c : Compressor) : Prop := c.emitted + c.termsBytes = c.parsed

section Accounts

variable (P : Params)

theorem parseStep_accounted {s : State} (h : s.c.Accounted) : Answers (parseStep P s) (fun p => p.1.c.Accounted) :=
  .after fun _ => .after fun _ => .ok (by
    rw [Compressor.Accounted] at h ⊢
    simp only [State.commitTerms]
    omega)

theorem writeDynamic_accounted (final : Bool) {s : State} (h : s.c.Accounted) : Answers (writeDynamic P final s) (fun t => t.c.Accounted) :=
  .after fun _ => .after fun _ => .after fun _ => .after fun _ => .ok h

theorem finalBlock_accounted {s : State} (h : s.c.Accounted) : Answers (finalBlock P s) (fun t => t.c.Accounted) := by
  unfold finalBlock
  split
  · exact .ok (Nat.add_zero _)
  · exact writeDynamic_accounted P true h

theorem driveTerms_accounted (fuel : Nat) {s : State} (h : s.c.Accounted) : Answers (driveTerms P fuel s) (fun t => t.c.Accounted) := by
  induction fuel generalizing s with
  | zero => exact .error
  | succ fuel ih =>
    have hblock : Answers (endBlockIfFull P s) (fun t => t.c.Accounted) := by
      unfold endBlockIfFull
      split
      · exact writeDynamic_accounted P false h
      · exact .ok h
    unfold driveTerms
    split
    · exact .ok h
    · split
      · exact .ok h
      · exact hblock.bind fun _ ht => (parseStep_accounted P ht).bind fun _ hu => ih hu

theorem pushInput_accounted (last : Bool) (bytes : List Byte) {s : State} (h : s.c.Accounted) (hs : s.c.cfg.strategy ≠ .full) :
    Answers (pushInput P last bytes s) (fun t => t.c.Accounted) := by
  have hdrive : Answers (drive P { s with c := s.c.take last bytes, wn := s.wn.feed bytes }) (fun t => t.c.Accounted) := by
    unfold drive
    dsimp only
    rw [if_neg (show (s.c.take last bytes).cfg.strategy ≠ .full from hs)]
    refine (driveTerms_accounted P _ (s := { s with c := s.c.take last bytes, wn := s.wn.feed bytes }) h).bind fun t ht => ?_
    split
    · exact finalBlock_accounted P ht
    · exact .ok ht
  refine hdrive.bind fun t ht => ?_
  cases last <;> exact .ok ht

end Accounts

theorem Accepts.accounted {i : Instr} {s t : State} (h : Accepts i s t) (hg : i.op ≠ .tmGraph) (hm : i.op ≠ .tmMinimize)
    (hs : s.c.cfg.strategy ≠ .full → s.c.Accounted) (ht : t.c.cfg.strategy ≠ .full) : t.c.Accounted := by
  by_cases hnew : i.op = .cNew
  · cases i with
    | cNew f e l hint => exact h.answers (Q := fun t => t.c.Accounted) rfl (.after fun _ => .after fun _ => .ok rfl)
    | _ => simp [Instr.op] at hnew
  have hfull : s.c.cfg.strategy ≠ .full := h.cfg_eq hnew ▸ ht
  have hacc := hs hfull
  cases i with
  | tmStep =>
    refine h.answers (Q := fun t => t.c.Accounted) rfl (.after fun _ => .after fun _ => ?_)
    split
    · exact .ok hacc
    · split
      · exact .ok hacc
      · exact (parseStep_accounted _ hacc).bind fun _ hp => .ok hp
  | cPush last bytes =>
    exact h.answers (Q := fun t => t.c.Accounted) rfl (.after fun _ => .after fun _ =>
      (pushInput_accounted _ last bytes hacc hfull).bind fun _ hu => .ok hu)
  | bwDynamic final =>
    exact h.answers (Q := fun t => t.c.Accounted) rfl (.after fun _ => (writeDynamic_accounted _ final hacc).bind fun _ hu => .ok hu)
  | tmGraph _ => exact absurd rfl hg
  | tmMinimize => exact absurd rfl hm
  | cNew _ _ _ _ => exact absurd rfl hnew
  | _ => exact (h.c_eq (by simp [Instr.op])) ▸ hacc

/-! ## The decompressor moves forward -/

/-- Every command but `D.NEW` moves an undisturbed decompressor forward. -/
theorem Accepts.advances {i : Instr} {s t : State} (h : Accepts i s t) (hi : i.op ≠ .dNew) (hd : s.d.disturbed = false) :
    Advances { s.d with drained := t.d.drained, input := t.d.input, disturbed := t.d.disturbed } t.d := by
  by_cases hreader : i.op ∈ [.brStep, .dPush, .dPulln, .dPull]
  · obtain ⟨hinput, hformat, hdrained, hdisturbed, hout, htotal, hhist⟩ := (h.readerFrame hd hreader).moves
    exact ⟨rfl, hformat, rfl, rfl, hout, htotal, hhist⟩
  · rw [h.d_eq (by simp only [List.mem_cons, not_or] at hreader ⊢; simp_all)]
    exact .refl _

/-! ## The obligations -/

/-- Settles O17: the parse only moves forward, emitted bytes stay, and each part of the driver of the term strategies keeps the account. -/
theorem positions : Obligations.Positions := by
  refine ⟨fun i s t h hi => ?_, fun i s t h hi hd => (h.advances hi hd).out, fun i s t h hg hm => h.accounted hg hm⟩
  by_cases hw : i.op = .wnInit
  · rw [h.c_eq (by simp [hw])]
  · exact (h.movesOn hw hi).parsed

/-- Settles O60: what moves a window or a decompressor forward writes the slots of the positions it takes in. -/
theorem memoryFrame : Obligations.MemoryFrame :=
  ⟨fun _ _ _ a h hw hc ha => (h.movesOn hw hc).window.bytes a ha, fun _ _ _ a h hi hd ha => (h.advances hi hd).hist a ha⟩

end Sys2Proof.Machine

end

section
/-! PROOF. Two runs side by side: what a command answers and writes depends on the units it reads. From this, that the two contexts do not
affect each other and that the values of closed units cannot be told. -/

namespace Sys2Proof.Machine

/-! ## Two computations in lockstep -/

/-- Two computations that end alike: with answers that `R` relates, or with the same error. -/
inductive Lockstep {ε α β : Type} (R : α → β → Prop) : Except ε α → Except ε β → Prop
  | ok {a : α} {b : β} : R a b → Lockstep R (.ok a) (.ok b)
  | error (e : ε) : Lockstep R (.error e) (.error e)

namespace Lockstep

variable {ε α β γ δ : Type} {R : α → β → Prop} {Q : γ → δ → Prop}

theorem bind {x : Except ε α} {y : Except ε β} {f : α → Except ε γ} {g : β → Except ε δ} (h : Lockstep R x y)
    (hf : ∀ a b, R a b → Lockstep Q (f a) (g b)) : Lockstep Q (x >>= f) (y >>= g) := by
  cases h with
  | ok hab => exact hf _ _ hab
  | error e => exact .error e

theorem mono {x : Except ε α} {y : Except ε β} {R' : α → β → Prop} (h : Lockstep R x y) (hr : ∀ a b, R a b → R' a b) :
    Lockstep R' x y := by
  cases h with
  | ok hab => exact .ok (hr _ _ hab)
  | error e => exact .error e

/-- The same computation first, then whatever follows from its answer. -/
theorem afterOk {x : Except ε α} {f : α → Except ε γ} {g : α → Except ε δ} (hf : ∀ a, x = .ok a → Lockstep Q (f a) (g a)) :
    Lockstep Q (x >>= f) (x >>= g) := by
  cases x with
  | ok a => exact hf a rfl
  | error e => exact .error e

theorem after {x : Except ε α} {f : α → Except ε γ} {g : α → Except ε δ} (hf : ∀ a, Lockstep Q (f a) (g a)) :
    Lockstep Q (x >>= f) (x >>= g) := afterOk fun a _ => hf a

/-- What each of the two answers meets by itself comes with what relates them. -/
theorem withAnswers {x : Except ε α} {y : Except ε β} {I : α → Prop} {J : β → Prop} (h : Lockstep R x y) (hx : Answers x I)
    (hy : Answers y J) : Lockstep (fun a b => R a b ∧ I a ∧ J b) x y := by
  cases h with
  | ok hab => exact .ok ⟨hab, hx _ rfl, hy _ rfl⟩
  | error e => exact .error e

end Lockstep

/-- Two commands in lockstep end alike: with the same results, and unless they refuse, related as their answers are. -/
theorem Lockstep.next {x y : Run State} {s t s' : State} {Q : State → State → Prop}
    (h : Lockstep (fun a b => SameResults a b ∧ Q a b) x y) (hs : s.finish x = .next s') :
    ∃ t', t.finish y = .next t' ∧ SameResults s' t' ∧ (s'.status ≠ .refused → Q s' t') := by
  cases h with
  | ok hab =>
    cases hs
    exact ⟨_, rfl, hab.1, fun _ => hab.2⟩
  | error e =>
    cases e with
    | refuse r =>
      cases hs
      exact ⟨t.refuse r, rfl, ⟨rfl, rfl, fun hne => absurd rfl hne⟩, fun hne => absurd rfl hne⟩
    | fault f => cases hs

theorem Lockstep.fault {x y : Run State} {s t : State} {f : Fault} {R : State → State → Prop} (h : Lockstep R x y)
    (hs : s.finish x = .fault f) : t.finish y = .fault f := by
  cases h with
  | ok hab => cases hs
  | error e =>
    cases e with
    | refuse r => cases hs
    | fault g => exact hs

/-! ## The parts of the state -/

/-- The parts of the state that commands read and write, each table by itself. -/
inductive Part where
  | c | tv | mg | dt | bs | wn | d | bc | free
  | enc (t : Table)
  | dec (t : Table)

/-- Two states have the same part. -/
def Part.Same (p : Part) (s t : State) : Prop :=
  match p with
  | .c => s.c = t.c
  | .tv => s.tv = t.tv
  | .mg => s.mg = t.mg
  | .dt => s.dt = t.dt
  | .bs => s.bs = t.bs
  | .wn => s.wn = t.wn
  | .d => s.d = t.d
  | .bc => s.bc = t.bc
  | .free => s.free = t.free
  | .enc k => s.enc.get k = t.enc.get k
  | .dec k => s.dec.get k = t.dec.get k

/-- The parts of the compressor's side. -/
def Part.ofCompressor (p : Part) : Prop :=
  match p with
  | .c | .tv | .mg | .dt | .bs | .wn | .enc _ => True
  | .d | .bc | .dec _ | .free => False

/-- The parts of the decompressor's side. -/
def Part.ofDecompressor (p : Part) : Prop :=
  match p with
  | .d | .bc | .dec _ => True
  | .c | .tv | .mg | .dt | .bs | .wn | .enc _ | .free => False

theorem EncTables.eq_of_get {e f : EncTables} (h : ∀ k : Table, e.get k = f.get k) : e = f := by
  cases e
  cases f
  exact (EncTables.mk.injEq ..).mpr ⟨h .runLit, h .dist, h .metasym⟩

theorem DecTables.eq_of_get {e f : DecTables} (h : ∀ k : Table, e.get k = f.get k) : e = f := by
  cases e
  cases f
  exact (DecTables.mk.injEq ..).mpr ⟨h .runLit, h .dist, h .metasym⟩

theorem sameCompressor_iff {s t : State} : SameCompressor s t ↔ ∀ p : Part, p.ofCompressor → p.Same s t := by
  constructor
  · rintro ⟨hc, hbs, hwn, htv, hmg, hdt, henc⟩ p hp
    cases p with
    | enc k => exact congrArg (EncTables.get · k) henc
    | d | bc | dec _ | free => exact hp.elim
    | _ => assumption
  · exact fun h => ⟨h .c trivial, h .bs trivial, h .wn trivial, h .tv trivial, h .mg trivial, h .dt trivial,
      EncTables.eq_of_get fun k => h (.enc k) trivial⟩

theorem sameDecompressor_iff {s t : State} : SameDecompressor s t ↔ ∀ p : Part, p.ofDecompressor → p.Same s t := by
  constructor
  · rintro ⟨hd, hbc, hdec⟩ p hp
    cases p with
    | dec k => exact congrArg (DecTables.get · k) hdec
    | d | bc => assumption
    | _ => exact hp.elim
  · exact fun h => ⟨h .d trivial, h .bc trivial, DecTables.eq_of_get fun k => h (.dec k) trivial⟩

/-- The parts a command reads; a free value only for the commands of a disturbed decompressor (spec/70_reset_and_hazards.md R652). -/
def ReadsPart (i : Instr) (s : State) (p : Part) : Prop :=
  match i with
  | .bsAppend _ _ | .bsPad | .bsPull | .bsPop | .bwStored _ _ => p = .bs
  | .bcRebase _ _ | .bcRead _ _ => p = .bc
  | .wnUpdate _ | .wnMatch _ _ _ | .wnMatchd _ _ _ | .wnFeed _ => p = .wn
  | .hfEncode t _ => ∃ tbl, tableOf t = .ok tbl ∧ p = .enc tbl
  | .hfDecode t _ _ => ∃ tbl, tableOf t = .ok tbl ∧ p = .dec tbl
  | .tmStep | .tmGraph _ | .tmMinimize | .tmGeneralize | .bwDynamic _ | .cPush _ _ | .cPop | .cPull => p.ofCompressor
  | .brStep | .dPush _ | .dPulln _ | .dPull => p.ofDecompressor ∨ (s.d.disturbed = true ∧ p = .free)
  | .bsInit _ | .bcNew _ | .hfBuild _ _ | .hfLoad _ _ | .wnInit _ | .tmMap _ | .cNew _ _ _ _ | .dNew _ | .ckAdler _ _
  | .ckCrc32 _ _ => False

/-- The parts of which a command leaves what it read alone decides. -/
def WritesPart (i : Instr) (p : Part) : Prop :=
  match i with
  | .bsInit _ | .bsAppend _ _ | .bsPad | .bsPull | .bsPop | .bwStored _ _ => p = .bs
  | .bcNew _ | .bcRebase _ _ => p = .bc
  | .wnInit _ | .wnUpdate _ | .wnFeed _ => p = .wn
  | .hfLoad t _ => ∃ tbl, tableOf t = .ok tbl ∧ (p = .enc tbl ∨ p = .dec tbl)
  | .tmStep | .tmGraph _ | .tmMinimize | .tmGeneralize | .bwDynamic _ | .cNew _ _ _ _ | .cPush _ _ | .cPop | .cPull => p.ofCompressor
  | .dNew _ | .brStep | .dPush _ | .dPulln _ | .dPull => p.ofDecompressor
  | .bcRead _ _ | .hfBuild _ _ | .hfEncode _ _ | .hfDecode _ _ _ | .wnMatch _ _ _ | .wnMatchd _ _ _ | .tmMap _ | .ckAdler _ _
  | .ckCrc32 _ _ => False

/-- After a command the two runs answer the same, and have the same parts: those it writes, and those that were the same. -/
structure Tied (w : Part → Prop) (s t s' t' : State) : Prop where
  results : SameResults s' t'
  parts   : ∀ p : Part, w p ∨ p.Same s t → p.Same s' t'

theorem Lockstep.nextTied {x y : Run State} {s t s' : State} {w : Part → Prop} (h : Lockstep (Tied w s t) x y)
    (hs : s.finish x = .next s') :
    ∃ t', t.finish y = .next t' ∧ SameResults s' t' ∧ (s'.status ≠ .refused → Tied w s t s' t') :=
  (h.mono (R' := fun a b => SameResults a b ∧ Tied w s t a b) fun _ _ hab => ⟨hab.results, hab⟩).next hs

section Tied

variable {s t : State} {status : Status} {res : List Word} {out : List Byte} {w : Part → Prop}

theorem sameResults_answer (s t : State) : SameResults (s.answer status res out) (t.answer status res out) := ⟨rfl, rfl, fun _ => rfl⟩

theorem tied_answer (hw : ∀ p, ¬ w p) : Tied w s t (s.answer status res out) (t.answer status res out) :=
  ⟨sameResults_answer s t, fun p hp => by cases p <;> exact hp.resolve_left (hw _)⟩

theorem tied_sink (k : Sink) : Tied (· = .bs) s t (({ s with bs := k } : State).answer status res out)
    (({ t with bs := k } : State).answer status res out) := by
  refine ⟨sameResults_answer _ _, fun p hp => ?_⟩
  cases p with
  | bs => rfl
  | _ => exact hp.resolve_left nofun

theorem tied_window (v : Window) : Tied (· = .wn) s t (({ s with wn := v } : State).answer status res out)
    (({ t with wn := v } : State).answer status res out) := by
  refine ⟨sameResults_answer _ _, fun p hp => ?_⟩
  cases p with
  | wn => rfl
  | _ => exact hp.resolve_left nofun

theorem tied_cursor (k : Cursor) : Tied (· = .bc) s t (({ s with bc := k, d := s.d.touched } : State).answer status res out)
    (({ t with bc := k, d := t.d.touched } : State).answer status res out) := by
  refine ⟨sameResults_answer _ _, fun p hp => ?_⟩
  cases p with
  | bc => rfl
  | d => exact congrArg Decompressor.touched (hp.resolve_left nofun)
  | _ => exact hp.resolve_left nofun

theorem EncTables.get_put_ne {e : EncTables} {tbl k : Table} {x : EncTable} (h : k ≠ tbl) : (e.put tbl x).get k = e.get k := by
  cases tbl <;> cases k <;> simp_all [EncTables.put, EncTables.get]

theorem EncTables.get_put_congr {e f : EncTables} {tbl k : Table} {x : EncTable} (h : k = tbl ∨ e.get k = f.get k) :
    (e.put tbl x).get k = (f.put tbl x).get k := by
  rcases h with rfl | h
  · rw [EncTables.get_put, EncTables.get_put]
  · by_cases hk : k = tbl
    · rw [hk, EncTables.get_put, EncTables.get_put]
    · rw [EncTables.get_put_ne hk, EncTables.get_put_ne hk, h]

theorem DecTables.get_put_ne {e : DecTables} {tbl k : Table} {x : DecTable} (h : k ≠ tbl) : (e.put tbl x).get k = e.get k := by
  cases tbl <;> cases k <;> simp_all [DecTables.put, DecTables.get]

theorem DecTables.get_put_congr {e f : DecTables} {tbl k : Table} {x : DecTable} (h : k = tbl ∨ e.get k = f.get k) :
    (e.put tbl x).get k = (f.put tbl x).get k := by
  rcases h with rfl | h
  · rw [DecTables.get_put, DecTables.get_put]
  · by_cases hk : k = tbl
    · rw [hk, DecTables.get_put, DecTables.get_put]
    · rw [DecTables.get_put_ne hk, DecTables.get_put_ne hk, h]

theorem tied_loadTables (tbl : Table) (lens : List Nat) :
    Tied (fun p => p = .enc tbl ∨ p = .dec tbl) s t (s.loadTables tbl lens) (t.loadTables tbl lens) := by
  refine ⟨sameResults_answer _ _, fun p hp => ?_⟩
  cases p with
  | enc k => exact EncTables.get_put_congr (hp.imp_left fun h => by simpa using h)
  | dec k => exact DecTables.get_put_congr (hp.imp_left fun h => by simpa using h)
  | d => exact congrArg Decompressor.touched (hp.resolve_left (by simp))
  | _ => exact hp.resolve_left (by simp)

/-- Parts that were the same already may be counted as written. -/
theorem Tied.widen {w' : Part → Prop} {s' t' : State} (h : Tied w s t s' t') (hw : ∀ p, w' p → w p ∨ p.Same s t) : Tied w' s t s' t' :=
  ⟨h.results, fun p hp => h.parts p (hp.elim (hw p) .inr)⟩

theorem popChunk_tied (h : s.bs = t.bs) : Tied (· = .bs) s t s.popChunk t.popChunk := by
  unfold State.popChunk
  rw [← h]
  split
  · exact (tied_answer (w := fun _ => False) fun _ => id).widen fun p hp => .inr (hp ▸ h)
  · exact tied_sink _

/-- The compressor's work: its side is the same afterwards, and the other side and the count of free values are as before. -/
theorem tied_compressor {s' t' : State} (h : SameCompressor s' t') (hs : SameDecompressor s s') (ht : SameDecompressor t t')
    (hfree : s.free = s'.free) (hfree' : t.free = t'.free) :
    Tied Part.ofCompressor s t (s'.answer status res out) (t'.answer status res out) := by
  refine ⟨sameResults_answer _ _, fun p hp => ?_⟩
  have hkeeps : ∀ q : Part, ¬ q.ofCompressor → q.Same s s' → q.Same t t' → (q.ofCompressor ∨ q.Same s t) → q.Same s' t' := by
    intro q hq hs ht hsame
    cases q <;> exact hs.symm.trans ((hsame.resolve_left hq).trans ht)
  cases p with
  | d => exact hkeeps .d id hs.d ht.d hp
  | bc => exact hkeeps .bc id hs.bc ht.bc hp
  | dec k => exact hkeeps (.dec k) id (congrArg (DecTables.get · k) hs.dec) (congrArg (DecTables.get · k) ht.dec) hp
  | free => exact hkeeps .free id hfree hfree' hp
  | enc k => exact congrArg (EncTables.get · k) h.enc
  | c => exact h.c
  | tv => exact h.tv
  | mg => exact h.mg
  | dt => exact h.dt
  | bs => exact h.bs
  | wn => exact h.wn

theorem SameOutside.sameDecompressor {s t : State} (h : SameOutside s t) : SameDecompressor s t := ⟨h.d.symm, h.bc.symm, h.dec.symm⟩

theorem tied_work {s' t' : State} (h : SameCompressor s' t' ∧ SameOutside s s' ∧ SameOutside t t') :
    Tied Part.ofCompressor s t (s'.answer status res out) (t'.answer status res out) :=
  tied_compressor h.1 h.2.1.sameDecompressor h.2.2.sameDecompressor h.2.1.free.symm h.2.2.free.symm

/-- The decompressor's work: its side is the same afterwards, and nothing else is touched but the count of free values. -/
theorem tied_decompressor (d : Decompressor) (k : Cursor) (x : DecTables) : Tied Part.ofDecompressor s t
    (({ s with d := d, bc := k, dec := x } : State).answer status res out)
    (({ t with d := d, bc := k, dec := x } : State).answer status res out) := by
  refine ⟨sameResults_answer _ _, fun p hp => ?_⟩
  cases p with
  | d | bc | dec _ => rfl
  | _ => exact hp.resolve_left id

theorem tied_reader (hbc : s.bc = t.bc) (r : Reader) :
    Tied Part.ofDecompressor s t ((s.withReader r).answer status res out) ((t.withReader r).answer status res out) := by
  have h := tied_decompressor (s := s) (t := t) (status := status) (res := res) (out := out) r.d s.bc r.dec
  exact ⟨sameResults_answer _ _, fun p hp => by
    cases p with
    | bc => exact hbc
    | _ => exact h.parts _ hp⟩

theorem tied_fed {bytes : List Byte} (hbc : (s.feedReader bytes).bc = (t.feedReader bytes).bc) (r : Reader) :
    Tied Part.ofDecompressor s t (((s.feedReader bytes).withReader r).answer status res out)
      (((t.feedReader bytes).withReader r).answer status res out) := by
  have h := tied_decompressor (s := s) (t := t) (status := status) (res := res) (out := out) r.d s.bc r.dec
  exact ⟨sameResults_answer _ _, fun p hp => by
    cases p with
    | bc => exact hbc
    | _ => exact h.parts _ hp⟩

theorem tied_drained (hbc : s.bc = t.bc) (hdec : s.dec = t.dec) (d : Decompressor) : Tied Part.ofDecompressor s t
    (({ s with d := d } : State).answer status res out) (({ t with d := d } : State).answer status res out) := by
  have h := tied_reader (s := s) (t := t) (status := status) (res := res) (out := out) hbc { d := d, dec := s.dec }
  exact ⟨sameResults_answer _ _, fun p hp => by
    cases p with
    | dec k => exact congrArg (DecTables.get · k) hdec
    | _ => exact h.parts _ hp⟩

end Tied

/-! ## The compressor's driver in lockstep -/

section Driver

variable (P : Params)

theorem parseStep_lockstep {s t : State} (h : SameCompressor s t) :
    Lockstep (fun p q => SameCompressor p.1 q.1 ∧ p.2 = q.2) (parseStep P s) (parseStep P t) := by
  obtain ⟨hc, hbs, hwn, htv, hmg, hdt, henc⟩ := h
  unfold parseStep
  rw [← hc, ← hwn]
  refine .after fun b => .after fun p => .ok ⟨⟨?_, hbs, rfl, ?_, hmg, hdt, henc⟩, rfl⟩
  · simp only [State.commitTerms, hc]
  · simp only [State.commitTerms, htv]

theorem graphOver_lockstep (n : Nat) {s t : State} (h : SameCompressor s t) :
    Lockstep SameCompressor (graphOver P n s) (graphOver P n t) := by
  obtain ⟨hc, hbs, hwn, htv, hmg, hdt, henc⟩ := h
  unfold graphOver buildGraph
  rw [← hc, ← hwn]
  exact .after fun _ => .after fun p => .ok ⟨by rw [hc], hbs, rfl, htv, rfl, hdt, henc⟩

theorem minimizeOnce_lockstep {s t : State} (h : SameCompressor s t) :
    Lockstep (fun p q => SameCompressor p.1 q.1 ∧ p.2 = q.2) (minimizeOnce P s) (minimizeOnce P t) := by
  obtain ⟨hc, hbs, hwn, htv, hmg, hdt, henc⟩ := h
  unfold minimizeOnce
  rw [← hmg, ← hdt]
  exact .after fun w => .after fun terms => .after fun codes => .after fun sink => .after fun total =>
    .ok ⟨⟨by rw [hc], hbs, hwn, rfl, by rw [hmg], by rw [hdt], henc⟩, rfl⟩

theorem generalize_lockstep {s t : State} (h : SameCompressor s t) : SameCompressor (s.generalize P) (t.generalize P) := by
  obtain ⟨hc, hbs, hwn, htv, hmg, hdt, henc⟩ := h
  exact ⟨hc, hbs, hwn, htv, hmg, congrArg (blendDepths P) hdt, henc⟩

theorem writeDynamic_lockstep (final : Bool) {s t : State} (h : SameCompressor s t) :
    Lockstep SameCompressor (writeDynamic P final s) (writeDynamic P final t) := by
  obtain ⟨hc, hbs, hwn, htv, hmg, hdt, henc⟩ := h
  unfold writeDynamic
  rw [← htv, ← hbs]
  exact .after fun codes => .after fun k => .after fun k' => .after fun k'' => .ok ⟨by rw [hc], rfl, hwn, rfl, hmg, hdt, rfl⟩

theorem finalBlock_lockstep {s t : State} (h : SameCompressor s t) : Lockstep SameCompressor (finalBlock P s) (finalBlock P t) := by
  have hwrite := writeDynamic_lockstep P true h
  obtain ⟨hc, hbs, hwn, htv, hmg, hdt, henc⟩ := h
  unfold finalBlock
  rw [← hc, ← hbs]
  split
  · exact .ok ⟨by rw [hc], rfl, hwn, rfl, hmg, hdt, henc⟩
  · exact hwrite

theorem driveTerms_lockstep (fuel : Nat) {s t : State} (h : SameCompressor s t) :
    Lockstep SameCompressor (driveTerms P fuel s) (driveTerms P fuel t) := by
  induction fuel generalizing s t with
  | zero => exact .error _
  | succ fuel ih =>
    have hblock : Lockstep SameCompressor (endBlockIfFull P s) (endBlockIfFull P t) := by
      unfold endBlockIfFull
      rw [← h.tv]
      split
      · exact writeDynamic_lockstep P false h
      · exact .ok h
    unfold driveTerms
    rw [← h.c]
    split
    · exact .ok h
    · split
      · exact .ok h
      · exact hblock.bind fun u v huv => (parseStep_lockstep P huv).bind fun p q hpq => ih hpq.1

theorem minimizeTimes_lockstep (k : Nat) {s t : State} (h : SameCompressor s t) :
    Lockstep SameCompressor (minimizeTimes P k s) (minimizeTimes P k t) := by
  induction k generalizing s t with
  | zero => exact .ok h
  | succ k ih =>
    unfold minimizeTimes
    rw [← h.mg]
    exact .after fun _ => (minimizeOnce_lockstep P h).bind fun p q hpq => ih hpq.1

theorem segment_lockstep (n : Nat) (final : Bool) {s t : State} (h : SameCompressor s t) :
    Lockstep SameCompressor (segment P n final s) (segment P n final t) := by
  refine (graphOver_lockstep P n h).bind fun u v huv => ?_
  rw [← huv.c]
  exact (minimizeTimes_lockstep P _ huv).bind fun _ _ h' => (writeDynamic_lockstep P final h').bind fun _ _ h'' =>
    .ok (generalize_lockstep P h'')

theorem driveGraphs_lockstep (fuel : Nat) {s t : State} (h : SameCompressor s t) :
    Lockstep SameCompressor (driveGraphs P fuel s) (driveGraphs P fuel t) := by
  induction fuel generalizing s t with
  | zero => exact .error _
  | succ fuel ih =>
    obtain ⟨hc, hbs, hwn, htv, hmg, hdt, henc⟩ := id h
    unfold driveGraphs
    dsimp only
    rw [← hc]
    split
    · exact .ok h
    · split
      · exact .ok h
      · split
        · exact finalBlock_lockstep P ⟨rfl, hbs, hwn, htv, hmg, hdt, henc⟩
        · exact (segment_lockstep P _ _ h).bind fun _ _ h' => ih h'

theorem drive_lockstep {s t : State} (h : SameCompressor s t) : Lockstep SameCompressor (drive P s) (drive P t) := by
  have hlast : ∀ (u v : State) (c : Prop) [Decidable c], SameCompressor u v →
      Lockstep SameCompressor (if c then finalBlock P u else pure u) (if c then finalBlock P v else pure v) := by
    intro u v c _ huv
    split
    · exact finalBlock_lockstep P huv
    · exact .ok huv
  unfold drive
  dsimp only
  rw [← h.c]
  split
  · refine (driveGraphs_lockstep P _ h).bind fun u v huv => ?_
    rw [← huv.c]
    exact hlast u v _ huv
  · refine (driveTerms_lockstep P _ h).bind fun u v huv => ?_
    rw [← huv.c]
    exact hlast u v _ huv

theorem pushInput_lockstep (last : Bool) (bytes : List Byte) {s t : State} (h : SameCompressor s t) :
    Lockstep SameCompressor (pushInput P last bytes s) (pushInput P last bytes t) := by
  obtain ⟨hc, hbs, hwn, htv, hmg, hdt, henc⟩ := h
  unfold pushInput
  rw [← hc, ← hwn]
  have hfed : SameCompressor { s with c := s.c.take last bytes, wn := s.wn.feed bytes }
      { t with c := s.c.take last bytes, wn := s.wn.feed bytes } := ⟨rfl, hbs, rfl, htv, hmg, hdt, henc⟩
  refine (drive_lockstep P hfed).bind fun u v huv => ?_
  cases last
  · exact .ok huv
  · obtain ⟨hc', hbs', hwn', htv', hmg', hdt', henc'⟩ := huv
    exact .ok ⟨by simp only [State.closeStream, if_true, hc'], by simp only [State.closeStream, if_true, hc', hbs'], hwn', htv', hmg', hdt', henc'⟩

end Driver

/-! ## Every command in lockstep -/

theorem disturbedAnswer_lockstep {s t : State} (h : SameDecompressor s t) (hfree : s.free = t.free) :
    Lockstep (Tied Part.ofDecompressor s t) s.disturbedAnswer t.disturbedAnswer := by
  obtain ⟨hd, hbc, hdec⟩ := h
  unfold State.disturbedAnswer
  dsimp only
  rw [← hfree, ← hd, ← hbc, ← hdec]
  split
  · exact .error _
  · refine .ok ⟨⟨rfl, rfl, fun _ => rfl⟩, fun p hp => ?_⟩
    cases p with
    | d | bc | dec _ | free => rfl
    | _ => exact hp.resolve_left id

/-- A command of the decompressor in lockstep, on the two sides when they are the same. -/
theorem reader_lockstep {s t : State} {x y : Run State} (h : SameDecompressor s t) (hfree : s.d.disturbed = true → s.free = t.free)
    (hxy : Lockstep (Tied Part.ofDecompressor s t) x y) :
    Lockstep (Tied Part.ofDecompressor s t) (do refuseIf (!s.d.isOpen) .noInstance; if s.d.disturbed then s.disturbedAnswer else x)
      (do refuseIf (!t.d.isOpen) .noInstance; if t.d.disturbed then t.disturbedAnswer else y) := by
  rw [← h.d]
  refine .after fun _ => ?_
  split
  · next hd => exact disturbedAnswer_lockstep h (hfree hd)
  · exact hxy

/-- The work of a compressor, in lockstep on two states with the same compressor's side. -/
theorem exec_lockstep_compressor {i : Instr} {s t : State} (hcomp : SameCompressor s t)
    (hi : i.op ∈ [.tmStep, .tmGraph, .tmMinimize, .tmGeneralize, .bwDynamic, .cPush, .cPop, .cPull]) :
    ∃ x y, exec i s = s.finish x ∧ exec i t = t.finish y ∧ Lockstep (Tied Part.ofCompressor s t) x y := by
  cases i with
  | tmStep =>
    refine ⟨_, _, rfl, rfl, ?_⟩
    unfold Machine.tmStep
    rw [← hcomp.c]
    refine .after fun _ => .after fun _ => ?_
    split
    · exact .ok (tied_compressor hcomp ⟨rfl, rfl, rfl⟩ ⟨rfl, rfl, rfl⟩ rfl rfl)
    · split
      · exact .ok (tied_compressor hcomp ⟨rfl, rfl, rfl⟩ ⟨rfl, rfl, rfl⟩ rfl rfl)
      · refine ((parseStep_lockstep _ hcomp).withAnswers ((keptByParts_sameOutside _ s).parse s (.refl s))
          ((keptByParts_sameOutside _ t).parse t (.refl t))).bind ?_
        rintro ⟨u, new⟩ ⟨v, _⟩ ⟨⟨huv, rfl⟩, hs, ht⟩
        exact .ok (tied_work ⟨huv, hs, ht⟩)
  | tmGraph n =>
    refine ⟨_, _, rfl, rfl, ?_⟩
    unfold Machine.tmGraph
    rw [← hcomp.c]
    exact .after fun _ => ((graphOver_lockstep _ _ hcomp).withAnswers ((keptByParts_sameOutside _ s).graph _ s (.refl s))
      ((keptByParts_sameOutside _ t).graph _ t (.refl t))).bind fun _ _ huv => .ok (tied_work huv)
  | tmMinimize =>
    refine ⟨_, _, rfl, rfl, ?_⟩
    unfold Machine.tmMinimize
    rw [← hcomp.c, ← hcomp.mg]
    refine .after fun _ => ((minimizeOnce_lockstep _ hcomp).withAnswers ((keptByParts_sameOutside _ s).minimize s (.refl s))
      ((keptByParts_sameOutside _ t).minimize t (.refl t))).bind ?_
    rintro ⟨u, p⟩ ⟨v, _⟩ ⟨⟨huv, rfl⟩, hs, ht⟩
    exact .ok (tied_work ⟨huv, hs, ht⟩)
  | tmGeneralize =>
    refine ⟨_, _, rfl, rfl, ?_⟩
    unfold Machine.tmGeneralize
    rw [← hcomp.c]
    exact .after fun _ => .ok (tied_compressor (generalize_lockstep _ hcomp) ⟨rfl, rfl, rfl⟩ ⟨rfl, rfl, rfl⟩ rfl rfl)
  | bwDynamic final =>
    refine ⟨_, _, rfl, rfl, ?_⟩
    unfold Machine.bwDynamic
    rw [← hcomp.c]
    exact .after fun _ => ((writeDynamic_lockstep _ final hcomp).withAnswers (writeDynamic_sameOutside _ final s)
      (writeDynamic_sameOutside _ final t)).bind fun _ _ huv => .ok (tied_work huv)
  | cPush last bytes =>
    refine ⟨_, _, rfl, rfl, ?_⟩
    unfold Machine.cPush
    rw [← hcomp.c]
    refine .after fun _ => .after fun _ => ((pushInput_lockstep _ last bytes hcomp).withAnswers (pushInput_sameOutside _ last bytes s)
      (pushInput_sameOutside _ last bytes t)).bind fun u v huv => .ok ?_
    rw [← huv.1.bs]
    exact tied_work huv
  | cPop =>
    refine ⟨_, _, rfl, rfl, ?_⟩
    rw [← hcomp.c]
    exact .after fun _ => .ok ((popChunk_tied hcomp.bs).widen fun p hp => .inr (sameCompressor_iff.mp hcomp p hp))
  | cPull =>
    refine ⟨_, _, rfl, rfl, ?_⟩
    rw [← hcomp.c, ← hcomp.bs]
    obtain ⟨-, -, hwn, htv, hmg, hdt, henc⟩ := hcomp
    exact .after fun _ => .ok (tied_compressor ⟨rfl, rfl, hwn, htv, hmg, hdt, henc⟩ ⟨rfl, rfl, rfl⟩ ⟨rfl, rfl, rfl⟩ rfl rfl)
  | _ => simp [Instr.op] at hi

/-- The reader's commands, in lockstep on two states with the same decompressor's side. -/
theorem exec_lockstep_reader {i : Instr} {s t : State} (hdecomp : SameDecompressor s t) (hfree : s.d.disturbed = true → s.free = t.free)
    (hi : i.op ∈ [.brStep, .dPush, .dPulln, .dPull]) :
    ∃ x y, exec i s = s.finish x ∧ exec i t = t.finish y ∧ Lockstep (Tied Part.ofDecompressor s t) x y := by
  cases i with
  | brStep =>
    refine ⟨_, _, rfl, rfl, reader_lockstep hdecomp hfree ?_⟩
    obtain ⟨hd, hbc, hdec⟩ := id hdecomp
    unfold State.withReader State.reader
    rw [← hd, ← hdec]
    exact .after fun a => .ok (tied_reader hbc a.reader)
  | dPush bytes =>
    refine ⟨_, _, rfl, rfl, reader_lockstep hdecomp hfree ?_⟩
    have hsame : ∀ {status : Status} {res : List Word} {out : List Byte},
        Tied Part.ofDecompressor s t (s.answer status res out) (t.answer status res out) :=
      (tied_answer (w := fun _ => False) fun _ => id).widen fun p hp => .inr (sameDecompressor_iff.mp hdecomp p hp)
    obtain ⟨hd, hbc, hdec⟩ := id hdecomp
    have hfeed : (s.feedReader bytes).bc = (t.feedReader bytes).bc := by simp only [State.feedReader, hd, hbc]
    have hreader : (s.feedReader bytes).reader = (t.feedReader bytes).reader := by simp only [State.feedReader, State.reader, hd, hdec]
    have hturns : (s.feedReader bytes).d.turns = (t.feedReader bytes).d.turns := by simp only [State.feedReader, hd]
    dsimp only
    rw [← hd, ← hreader, ← hturns]
    split
    · exact .after fun e => .ok hsame
    · split
      · exact .ok hsame
      · exact .after fun a => .ok (tied_fed hfeed a.reader)
  | dPulln count =>
    refine ⟨_, _, rfl, rfl, reader_lockstep hdecomp hfree ?_⟩
    obtain ⟨hd, hbc, hdec⟩ := id hdecomp
    rw [← hd]
    split
    · exact .ok ((tied_answer (w := fun _ => False) fun _ => id).widen fun p hp => .inr (sameDecompressor_iff.mp hdecomp p hp))
    · exact .ok (tied_drained hbc hdec _)
  | dPull =>
    refine ⟨_, _, rfl, rfl, reader_lockstep hdecomp hfree ?_⟩
    obtain ⟨hd, hbc, hdec⟩ := id hdecomp
    rw [← hd]
    exact .ok (tied_drained hbc hdec _)
  | _ => simp [Instr.op] at hi

/-- A command answers alike, and leaves the same in the parts it writes, on two states with the same parts that it reads. -/
theorem exec_lockstep {i : Instr} {s t : State} (h : ∀ p, ReadsPart i s p → p.Same s t) :
    ∃ x y, exec i s = s.finish x ∧ exec i t = t.finish y ∧ Lockstep (Tied (WritesPart i) s t) x y := by
  have hsink : (∀ p : Part, p = .bs → p.Same s t) → s.bs = t.bs := fun h => h .bs rfl
  have hwindow : (∀ p : Part, p = .wn → p.Same s t) → s.wn = t.wn := fun h => h .wn rfl
  have hcursor : (∀ p : Part, p = .bc → p.Same s t) → s.bc = t.bc := fun h => h .bc rfl
  cases i with
  | ckAdler _ _ | ckCrc32 _ _ => exact ⟨pure _, pure _, rfl, rfl, .ok (tied_answer fun _ => id)⟩
  | hfBuild _ _ => exact ⟨_, _, rfl, rfl, .after fun _ => .ok (tied_answer fun _ => id)⟩
  | tmMap term =>
    refine ⟨_, _, rfl, rfl, ?_⟩
    split
    · exact .error _
    · split <;> exact .ok (tied_answer fun _ => id)
  | bsInit hint => exact ⟨_, _, rfl, rfl, .after fun _ => .ok (tied_sink _)⟩
  | wnInit exp => exact ⟨_, _, rfl, rfl, .after fun _ => .ok (tied_window _)⟩
  | bcNew bytes => exact ⟨pure _, pure _, rfl, rfl, .ok (tied_cursor _)⟩
  | bsAppend _ _ | bwStored _ _ =>
    refine ⟨_, _, rfl, rfl, ?_⟩
    rw [← hsink h]
    exact .after fun _ => .after fun _ => .ok (tied_sink _)
  | bsPad | bsPull =>
    refine ⟨_, _, rfl, rfl, ?_⟩
    rw [← hsink h]
    exact .after fun _ => .ok (tied_sink _)
  | bsPop =>
    refine ⟨_, _, rfl, rfl, ?_⟩
    rw [← hsink h]
    exact .after fun _ => .ok (popChunk_tied (hsink h))
  | bcRead _ _ =>
    refine ⟨_, _, rfl, rfl, ?_⟩
    rw [← hcursor h]
    exact .after fun _ => .after fun _ => .after fun _ => .after fun _ => .after fun _ => .ok (tied_answer fun _ => id)
  | bcRebase _ _ =>
    refine ⟨_, _, rfl, rfl, ?_⟩
    rw [← hcursor h]
    exact .after fun _ => .after fun _ => .after fun _ => .ok (tied_cursor _)
  | wnUpdate byte =>
    refine ⟨_, _, rfl, rfl, ?_⟩
    unfold Machine.wnUpdate
    rw [← hwindow h]
    refine .after fun _ => .after fun w => ?_
    dsimp only
    split
    · exact .ok (tied_window _)
    · split <;> exact .ok (tied_window _)
  | wnMatch _ _ _ | wnMatchd _ _ _ =>
    refine ⟨_, _, rfl, rfl, ?_⟩
    rw [← hwindow h]
    refine .after fun _ => .after fun m => ?_
    cases m <;> exact .ok (tied_answer fun _ => id)
  | wnFeed bytes =>
    refine ⟨_, _, rfl, rfl, ?_⟩
    rw [← hwindow h]
    exact .after fun _ => .ok (tied_window _)
  | hfLoad sel lengths =>
    refine ⟨_, _, rfl, rfl, .afterOk fun tbl htbl => .after fun _ => .ok ?_⟩
    refine (tied_loadTables tbl _).widen ?_
    rintro p ⟨tbl', htbl', hp⟩
    obtain rfl := Except.ok.inj (htbl.symm.trans htbl')
    exact .inl hp
  | hfEncode sel sym =>
    refine ⟨_, _, rfl, rfl, .afterOk fun tbl htbl => .after fun _ => ?_⟩
    rw [← show s.enc.get tbl = t.enc.get tbl from h (.enc tbl) ⟨tbl, htbl, rfl⟩]
    refine .after fun _ => .after fun _ => .after fun e => ?_
    split <;> exact .ok (tied_answer fun _ => id)
  | hfDecode sel avail peek =>
    refine ⟨_, _, rfl, rfl, .afterOk fun tbl htbl => .after fun _ => ?_⟩
    rw [← show s.dec.get tbl = t.dec.get tbl from h (.dec tbl) ⟨tbl, htbl, rfl⟩]
    refine .after fun _ => .after fun _ => .after fun _ => ?_
    split <;> exact .ok (tied_answer fun _ => id)
  | cNew f exp level hint =>
    exact ⟨_, _, rfl, rfl, .after fun _ => .after fun _ => .ok
      (tied_compressor ⟨rfl, rfl, rfl, rfl, rfl, rfl, rfl⟩ ⟨rfl, rfl, rfl⟩ ⟨rfl, rfl, rfl⟩ rfl rfl)⟩
  | dNew f => exact ⟨_, _, rfl, rfl, .after fun _ => .ok (tied_decompressor _ _ _)⟩
  | tmStep | tmGraph _ | tmMinimize | tmGeneralize | bwDynamic _ | cPush _ _ | cPop | cPull =>
    exact exec_lockstep_compressor (sameCompressor_iff.mpr h) (by simp [Instr.op])
  | brStep | dPush _ | dPulln _ | dPull =>
    exact exec_lockstep_reader (sameDecompressor_iff.mpr fun p hp => h p (.inl hp)) (fun hd => h .free (.inr ⟨hd, rfl⟩))
      (by simp [Instr.op])

/-! ## The two contexts -/

theorem reads_ofCompressor {i : Instr} {s : State} {p : Part} (hi : compressorSide i = true) (h : ReadsPart i s p) : p.ofCompressor := by
  cases i with
  | bsAppend _ _ | bsPad | bsPull | bsPop | bwStored _ _ | wnUpdate _ | wnMatch _ _ _ | wnMatchd _ _ _ | wnFeed _ =>
    cases (h : p = _)
    trivial
  | hfEncode sel _ =>
    obtain ⟨tbl, -, rfl⟩ := h
    trivial
  | tmStep | tmGraph _ | tmMinimize | tmGeneralize | bwDynamic _ | cPush _ _ | cPop | cPull => exact h
  | bsInit _ | wnInit _ | tmMap _ | cNew _ _ _ _ => exact h.elim
  | _ => simp [compressorSide] at hi

theorem reads_ofDecompressor {i : Instr} {s : State} {p : Part} (hi : decompressorSide i = true) (hd : s.d.disturbed = false)
    (h : ReadsPart i s p) : p.ofDecompressor := by
  cases i with
  | bcRebase _ _ | bcRead _ _ =>
    cases (h : p = _)
    trivial
  | hfDecode sel _ _ =>
    obtain ⟨tbl, -, rfl⟩ := h
    trivial
  | brStep | dPush _ | dPulln _ | dPull => exact h.resolve_right fun hfree => by simp [hd] at hfree
  | bcNew _ | dNew _ => exact h.elim
  | _ => simp [decompressorSide] at hi

/-- Settles O59: the frames of the two sides, and two runs of a command that read the same. -/
theorem contextsIndependent : Obligations.ContextsIndependent := by
  refine ⟨fun i s t hi h => h.sameDecompressor hi, fun i s t hi h => h.sameCompressor hi, fun i s s' t hi hsame hexec => ?_,
    fun i s s' t hi hd hsame hexec => ?_⟩
  · obtain ⟨x, y, hx, hy, hxy⟩ := exec_lockstep (i := i) (t := s') fun p hp => sameCompressor_iff.mp hsame p (reads_ofCompressor hi hp)
    obtain ⟨t', ht', hresults, htied⟩ := hxy.nextTied (hx.symm.trans hexec)
    exact ⟨t', hy.trans ht', hresults, fun hne => sameCompressor_iff.mpr fun p hp =>
      (htied hne).parts p (.inr (sameCompressor_iff.mp hsame p hp))⟩
  · obtain ⟨x, y, hx, hy, hxy⟩ := exec_lockstep (i := i) (t := s')
      fun p hp => sameDecompressor_iff.mp hsame p (reads_ofDecompressor hi hd hp)
    obtain ⟨t', ht', hresults, htied⟩ := hxy.nextTied (hx.symm.trans hexec)
    exact ⟨t', hy.trans ht', hresults, fun hne => sameDecompressor_iff.mpr fun p hp =>
      (htied hne).parts p (.inr (sameDecompressor_iff.mp hsame p hp))⟩

/-! ## What is not open -/

/-- Whether what a part belongs to is open; the count of free values always is. -/
def Part.isOpen (p : Part) (s : State) : Bool :=
  match p with
  | .c | .tv | .mg | .dt => s.c.isOpen
  | .bs => s.bs.isOpen
  | .wn => s.wn.isOpen
  | .d => s.d.isOpen
  | .bc => s.bc.isOpen
  | .free => true
  | .enc k => (s.enc.get k).isOpen
  | .dec k => (s.dec.get k).isOpen

/-- The command opens what the part belongs to (spec/70_reset_and_hazards.md R641). -/
def OpensPart (i : Instr) (p : Part) : Prop :=
  match p with
  | .c | .tv | .mg | .dt => i.op = .cNew
  | .bs => i.op = .bsInit ∨ i.op = .cNew
  | .wn => i.op = .wnInit ∨ i.op = .cNew
  | .d => i.op = .dNew
  | .bc => i.op = .bcNew ∨ i.op = .dNew
  | .free => False
  | .enc k => i.op = .cNew ∨ ∃ t lengths, i = .hfLoad t lengths ∧ tableOf t = .ok k
  | .dec k => i.op = .dNew ∨ ∃ t lengths, i = .hfLoad t lengths ∧ tableOf t = .ok k

theorem ne_three_of_tableOf {sel : BitVec 2} {k : Table} (h : tableOf sel = .ok k) : sel ≠ 3#2 := by
  rintro rfl
  cases h

/-- The openness of the tables a selector names. -/
theorem isOpen_of_tableOf {sel : BitVec 2} {k : Table} (h : tableOf sel = .ok k) (s : State) :
    (s.enc.get k).isOpen = encOpen s sel ∧ (s.dec.get k).isOpen = decOpen s sel := by
  obtain ⟨tbl, htbl, -, hopen⟩ := tableOf_of_ne_three (ne_three_of_tableOf h)
  obtain rfl := Except.ok.inj (h.symm.trans htbl)
  exact hopen s

theorem exists_selector (k : Table) : ∃ sel : BitVec 2, tableOf sel = .ok k ∧ sel ≠ 3 := by
  cases k
  · exact ⟨0, rfl, by decide⟩
  · exact ⟨1, rfl, by decide⟩
  · exact ⟨2, rfl, by decide⟩

theorem Accepts.isOpen_part {i : Instr} {s t : State} (h : Accepts i s t) (hs : s.UnitsOpen) (p : Part) :
    p.isOpen t = true ↔ p.isOpen s = true ∨ OpensPart i p := by
  obtain ⟨hc, hd, hbs, hbc, hwn, henc, hdec⟩ := h.opens hs
  have hload : ∀ (k : BitVec 2) (tbl : Table), tableOf k = .ok tbl →
      (loadsTable i k = true ↔ ∃ t lengths, i = .hfLoad t lengths ∧ tableOf t = .ok tbl) := fun k tbl hk => by
    constructor
    · intro hl
      cases i with
      | hfLoad t lengths => exact ⟨t, lengths, rfl, (by simpa [loadsTable] using hl : t = k) ▸ hk⟩
      | _ => simp [loadsTable] at hl
    · rintro ⟨t, lengths, rfl, ht⟩
      simp only [loadsTable, beq_iff_eq]
      obtain rfl | rfl | rfl := code_cases_of_ne_three t (ne_three_of_tableOf ht) <;>
        obtain rfl | rfl | rfl := code_cases_of_ne_three k (ne_three_of_tableOf hk) <;>
        cases ht <;> cases hk <;> rfl
  cases p with
  | c | tv | mg | dt => simp [Part.isOpen, OpensPart, hc]
  | d => simp [Part.isOpen, OpensPart, hd]
  | bs => simp [Part.isOpen, OpensPart, hbs, or_assoc]
  | wn => simp [Part.isOpen, OpensPart, hwn, or_assoc]
  | bc => simp [Part.isOpen, OpensPart, hbc, or_assoc]
  | free => simp [Part.isOpen]
  | enc k =>
    obtain ⟨sel, hsel, hne⟩ := exists_selector k
    simp only [Part.isOpen, OpensPart, (isOpen_of_tableOf hsel _).1, henc sel hne, Bool.or_eq_true, beq_iff_eq, hload sel _ hsel, or_assoc]
  | dec k =>
    obtain ⟨sel, hsel, hne⟩ := exists_selector k
    simp only [Part.isOpen, OpensPart, (isOpen_of_tableOf hsel _).2, hdec sel hne, Bool.or_eq_true, beq_iff_eq, hload sel _ hsel, or_assoc]

theorem writes_of_opens {i : Instr} {p : Part} (h : OpensPart i p) : WritesPart i p := by
  have hnew : ∀ q : Part, q.ofCompressor → i.op = .cNew → WritesPart i q := fun q hq hi => by
    cases i with
    | cNew _ _ _ _ => exact hq
    | _ => simp [Instr.op] at hi
  have hdnew : ∀ q : Part, q.ofDecompressor → i.op = .dNew → WritesPart i q := fun q hq hi => by
    cases i with
    | dNew _ => exact hq
    | _ => simp [Instr.op] at hi
  cases p with
  | c | tv | mg | dt => exact hnew _ trivial h
  | d => exact hdnew _ trivial h
  | bs =>
    refine h.elim (fun hi => ?_) (hnew _ trivial)
    cases i with
    | bsInit _ => rfl
    | _ => simp [Instr.op] at hi
  | wn =>
    refine h.elim (fun hi => ?_) (hnew _ trivial)
    cases i with
    | wnInit _ => rfl
    | _ => simp [Instr.op] at hi
  | bc =>
    refine h.elim (fun hi => ?_) (hdnew _ trivial)
    cases i with
    | bcNew _ => rfl
    | _ => simp [Instr.op] at hi
  | free => exact h.elim
  | enc k =>
    rcases h with hi | ⟨sel, lengths, rfl, hsel⟩
    · exact hnew _ trivial hi
    · exact ⟨k, hsel, .inl rfl⟩
  | dec k =>
    rcases h with hi | ⟨sel, lengths, rfl, hsel⟩
    · exact hdnew _ trivial hi
    · exact ⟨k, hsel, .inr rfl⟩

theorem Compressor.isOpen_iff {c : Compressor} : c.isOpen = true ↔ c.state ≠ .closed := by simp [Compressor.isOpen]

theorem Decompressor.isOpen_iff {d : Decompressor} : d.isOpen = true ↔ d.state ≠ .closed := by simp [Decompressor.isOpen]

/-- Agreement on everything open, part by part. -/
theorem agreeOpen_iff {s t : State} : AgreeOpen s t ↔
    s.refused = t.refused ∧ ∀ p : Part, p.isOpen s = p.isOpen t ∧ (p.isOpen s = true → p.Same s t) := by
  constructor
  · rintro ⟨hrefused, hfree, hcState, hdState, hbsOpen, hbcOpen, hwnOpen, hencOpen, hdecOpen, hc, hd, hbs, hbc, hwn, henc, hdec⟩
    have hcOpen : s.c.isOpen = t.c.isOpen := Bool.eq_iff_iff.mpr (by rw [Compressor.isOpen_iff, Compressor.isOpen_iff, hcState])
    have hdOpen : s.d.isOpen = t.d.isOpen := Bool.eq_iff_iff.mpr (by rw [Decompressor.isOpen_iff, Decompressor.isOpen_iff, hdState])
    refine ⟨hrefused, fun p => ?_⟩
    cases p with
    | c => exact ⟨hcOpen, fun h => (hc h).1⟩
    | tv => exact ⟨hcOpen, fun h => (hc h).2.1⟩
    | mg => exact ⟨hcOpen, fun h => (hc h).2.2.1⟩
    | dt => exact ⟨hcOpen, fun h => (hc h).2.2.2⟩
    | bs => exact ⟨hbsOpen, hbs⟩
    | wn => exact ⟨hwnOpen, hwn⟩
    | d => exact ⟨hdOpen, hd⟩
    | bc => exact ⟨hbcOpen, hbc⟩
    | free => exact ⟨rfl, fun _ => hfree⟩
    | enc k => exact ⟨hencOpen k, henc k⟩
    | dec k => exact ⟨hdecOpen k, hdec k⟩
  · rintro ⟨hrefused, h⟩
    have hcState : s.c.state = t.c.state := by
      by_cases hc : s.c.isOpen = true
      · exact congrArg Compressor.state ((h .c).2 hc)
      · have ht : ¬ t.c.isOpen = true := fun h' => hc ((h .c).1.trans h')
        rw [Compressor.isOpen_iff, not_not] at hc ht
        rw [hc, ht]
    have hdState : s.d.state = t.d.state := by
      by_cases hd : s.d.isOpen = true
      · exact congrArg Decompressor.state ((h .d).2 hd)
      · have ht : ¬ t.d.isOpen = true := fun h' => hd ((h .d).1.trans h')
        rw [Decompressor.isOpen_iff, not_not] at hd ht
        rw [hd, ht]
    exact ⟨hrefused, (h .free).2 rfl, hcState, hdState, (h .bs).1, (h .bc).1, (h .wn).1, fun k => (h (.enc k)).1, fun k => (h (.dec k)).1,
      fun hc => ⟨(h .c).2 hc, (h .tv).2 hc, (h .mg).2 hc, (h .dt).2 hc⟩, (h .d).2, (h .bs).2, (h .bc).2, (h .wn).2,
      fun k => (h (.enc k)).2, fun k => (h (.dec k)).2⟩

/-- What a command reads is open when what it needs is. -/
theorem isOpen_of_reads {i : Instr} {s : State} (hs : s.UnitsOpen) (hneeds : needsMet i s = true) {p : Part} (h : ReadsPart i s p) :
    p.isOpen s = true ∧ (p = .free → s.d.isOpen = true) := by
  cases i with
  | bsAppend _ _ | bsPad | bsPull | bsPop | bwStored _ _ | wnUpdate _ | wnMatch _ _ _ | wnMatchd _ _ _ | wnFeed _ | bcRebase _ _
  | bcRead _ _ =>
    cases (h : p = _)
    exact ⟨hneeds, nofun⟩
  | hfEncode sel _ =>
    obtain ⟨tbl, htbl, rfl⟩ := h
    exact ⟨(isOpen_of_tableOf htbl s).1.trans hneeds, nofun⟩
  | hfDecode sel _ _ =>
    obtain ⟨tbl, htbl, rfl⟩ := h
    exact ⟨(isOpen_of_tableOf htbl s).2.trans hneeds, nofun⟩
  | tmStep | tmGraph _ | tmMinimize | tmGeneralize | bwDynamic _ | cPush _ _ | cPop | cPull =>
    obtain ⟨hbs, hwn, hrunLit, hdist, hmetasym⟩ := hs.compressor hneeds
    cases p with
    | c | tv | mg | dt => exact ⟨hneeds, nofun⟩
    | bs => exact ⟨hbs, nofun⟩
    | wn => exact ⟨hwn, nofun⟩
    | enc k => cases k <;> exact ⟨by assumption, nofun⟩
    | _ => exact h.elim
  | brStep | dPush _ | dPulln _ | dPull =>
    obtain ⟨hbc, hrunLit, hdist, hmetasym⟩ := hs.decompressor hneeds
    cases p with
    | d => exact ⟨hneeds, nofun⟩
    | bc => exact ⟨hbc, nofun⟩
    | dec k => cases k <;> exact ⟨by assumption, nofun⟩
    | free => exact ⟨rfl, fun _ => hneeds⟩
    | _ => exact h.elim (fun h => False.elim h) fun h => nomatch h.2
  | _ => exact h.elim

/-- Commands that need what is closed in both states are refused alike. -/
theorem refuses_alike {i : Instr} {s t : State} (hs : needsMet i s = false) (ht : needsMet i t = false) :
    ∃ r, Refuses (exec i s) r ∧ Refuses (exec i t) r := by
  by_cases hlegal : operandsLegal i = true ∨ i.op ∈ [.bwStored, .tmGraph]
  · exact ⟨_, exec_refuses_closed_unit i s hs hlegal, exec_refuses_closed_unit i t ht hlegal⟩
  · obtain ⟨hillegal, hop⟩ := not_or.mp hlegal
    rw [Bool.not_eq_true] at hillegal
    exact ⟨_, exec_refuses_illegal_operand i s hillegal (.inr hop), exec_refuses_illegal_operand i t hillegal (.inr hop)⟩

theorem needsMet_congr (i : Instr) {s t : State} (hparts : ∀ p : Part, p.isOpen s = p.isOpen t) : needsMet i s = needsMet i t := by
  have henc : ∀ k, encOpen s k = encOpen t k := fun k => by
    simp only [encOpen, show s.enc.runLit.isOpen = t.enc.runLit.isOpen from hparts (.enc .runLit),
      show s.enc.dist.isOpen = t.enc.dist.isOpen from hparts (.enc .dist),
      show s.enc.metasym.isOpen = t.enc.metasym.isOpen from hparts (.enc .metasym)]
  have hdec : ∀ k, decOpen s k = decOpen t k := fun k => by
    simp only [decOpen, show s.dec.runLit.isOpen = t.dec.runLit.isOpen from hparts (.dec .runLit),
      show s.dec.dist.isOpen = t.dec.dist.isOpen from hparts (.dec .dist),
      show s.dec.metasym.isOpen = t.dec.metasym.isOpen from hparts (.dec .metasym)]
  cases i with
  | cPush _ _ | cPop | cPull | tmStep | tmGraph _ | tmMinimize | tmGeneralize | bwDynamic _ => exact hparts .c
  | dPush _ | dPulln _ | dPull | brStep => exact hparts .d
  | bsAppend _ _ | bsPad | bsPull | bsPop | bwStored _ _ => exact hparts .bs
  | bcRebase _ _ | bcRead _ _ => exact hparts .bc
  | wnUpdate _ | wnMatch _ _ _ | wnMatchd _ _ _ | wnFeed _ => exact hparts .wn
  | hfEncode k _ => exact henc k
  | hfDecode k _ _ => exact hdec k
  | _ => rfl

theorem Accepts.refused_eq {i : Instr} {s t : State} (h : Accepts i s t) : t.refused = s.refused := by
  cases i <;> exact read_eq State.refused h.leaves rfl

theorem AgreeOpen.unitsOpen {s t : State} (h : AgreeOpen s t) (hs : s.UnitsOpen) : t.UnitsOpen := by
  obtain ⟨-, hparts⟩ := agreeOpen_iff.mp h
  constructor
  · intro hc
    obtain ⟨hbs, hwn, hrunLit, hdist, hmetasym⟩ := hs.compressor ((hparts .c).1.trans hc)
    exact ⟨(hparts .bs).1.symm.trans hbs, (hparts .wn).1.symm.trans hwn, (hparts (.enc .runLit)).1.symm.trans hrunLit,
      (hparts (.enc .dist)).1.symm.trans hdist, (hparts (.enc .metasym)).1.symm.trans hmetasym⟩
  · intro hd
    obtain ⟨hbc, hrunLit, hdist, hmetasym⟩ := hs.decompressor ((hparts .d).1.trans hd)
    exact ⟨(hparts .bc).1.symm.trans hbc, (hparts (.dec .runLit)).1.symm.trans hrunLit,
      (hparts (.dec .dist)).1.symm.trans hdist, (hparts (.dec .metasym)).1.symm.trans hmetasym⟩

/-- Two accepted runs whose parts are tied agree again on everything open. -/
theorem AgreeOpen.after {i : Instr} {s t s' t' : State} (h : AgreeOpen s t) (hopen : s.UnitsOpen) (hs : Accepts i s s') (ht : Accepts i t t')
    (htied : Tied (WritesPart i) s t s' t') : AgreeOpen s' t' := by
  obtain ⟨hrefused, hparts⟩ := agreeOpen_iff.mp h
  refine agreeOpen_iff.mpr ⟨by rw [hs.refused_eq, ht.refused_eq, hrefused], fun p => ⟨Bool.eq_iff_iff.mpr ?_, fun hp => ?_⟩⟩
  · rw [hs.isOpen_part hopen p, ht.isOpen_part (h.unitsOpen hopen) p, (hparts p).1]
  · exact htied.parts p (((hs.isOpen_part hopen p).mp hp).elim (fun hp => .inr ((hparts p).2 hp)) fun hp => .inl (writes_of_opens hp))

theorem SameResults.symm {s t : State} (h : SameResults s t) : SameResults t s :=
  ⟨h.status.symm, h.res.symm, fun hne => (h.dataOut (h.status.symm ▸ hne)).symm⟩

/-- Settles O7: a command reads only what is open, so two states that agree there answer alike; with nothing open it reads nothing. -/
theorem powerOnValuesNotObservable : Obligations.PowerOnValuesNotObservable := by
  refine ⟨fun i s hc hd hbs hbc hwn henc hdec => ?_, fun i s t hopen hagree => ?_⟩
  · obtain ⟨u, hu⟩ : ∃ u, exec i State.reset = .next u := by
      obtain ⟨x, hx, -⟩ := exec_answers i State.reset
      cases hu : exec i State.reset with
      | next u => exact ⟨u, rfl⟩
      | fault f => exact absurd hu ((exec_sound State.sound_reset).1 f)
      | refused r => exact absurd (hx.symm.trans hu) (finish_ne_refused _ _ _)
    have hcopen : s.c.isOpen = false := by simp [Compressor.isOpen, hc]
    have hdopen : s.d.isOpen = false := by simp [Decompressor.isOpen, hd]
    have hclosed : ∀ p : Part, p ≠ .free → p.isOpen s = false := fun p hp => by
      cases p with
      | c | tv | mg | dt => exact hcopen
      | d => exact hdopen
      | bs => exact hbs
      | bc => exact hbc
      | wn => exact hwn
      | free => exact absurd rfl hp
      | enc k =>
        obtain ⟨sel, hsel, hne⟩ := exists_selector k
        exact (isOpen_of_tableOf hsel s).1.trans (henc sel hne)
      | dec k =>
        obtain ⟨sel, hsel, hne⟩ := exists_selector k
        exact (isOpen_of_tableOf hsel s).2.trans (hdec sel hne)
    have hsame : ∀ p : Part, p.isOpen s = p.isOpen State.reset := fun p => by
      by_cases hp : p = .free
      · rw [hp]
        rfl
      · rw [hclosed p hp]
        cases p with
        | free => exact absurd rfl hp
        | enc k | dec k => cases k <;> rfl
        | _ => rfl
    by_cases hneeds : needsMet i s = true
    · obtain ⟨x, y, hx, hy, hxy⟩ := exec_lockstep (i := i) (s := State.reset) (t := s) fun p hp => by
        obtain ⟨hp1, hp2⟩ := isOpen_of_reads State.sound_reset.opened ((needsMet_congr i hsame).symm.trans hneeds) hp
        by_cases hfree : p = .free
        · exact absurd (hp2 hfree) (by decide)
        · exact absurd ((hsame p).trans hp1) (by simp [hclosed p hfree])
      obtain ⟨t, ht, hresults, -⟩ := hxy.nextTied (hx.symm.trans hu)
      exact ⟨t, u, hy.trans ht, hu, hresults.symm⟩
    · rw [Bool.not_eq_true] at hneeds
      obtain ⟨r, ⟨v, hv, hstatus, hres, -⟩, ⟨w, hw, hstatus', hres', -⟩⟩ :=
        refuses_alike hneeds ((needsMet_congr i hsame).symm.trans hneeds)
      exact ⟨v, w, hv, hw, hstatus.trans hstatus'.symm, hres.trans hres'.symm, fun hne => absurd hstatus hne⟩
  · by_cases hneeds : needsMet i s = true
    · obtain ⟨x, y, hx, hy, hxy⟩ := exec_lockstep (i := i) (t := t)
        fun p hp => ((agreeOpen_iff.mp hagree).2 p).2 (isOpen_of_reads hopen hneeds hp).1
      refine ⟨fun s' hs' => ?_, fun f hf => hy.trans (hxy.fault (hx.symm.trans hf))⟩
      obtain ⟨t', ht', hresults, htied⟩ := hxy.nextTied (hx.symm.trans hs')
      exact ⟨t', hy.trans ht', hresults, fun hne => hagree.after hopen ⟨hs', hne⟩ ⟨hy.trans ht', hresults.status ▸ hne⟩ (htied hne)⟩
    · rw [Bool.not_eq_true] at hneeds
      obtain ⟨r, ⟨u, hu, hstatus, hres, -⟩, ⟨v, hv, hstatus', hres', -⟩⟩ := refuses_alike hneeds ((needsMet_congr i fun p => ((agreeOpen_iff.mp hagree).2 p).1).symm.trans hneeds)
      refine ⟨fun s' hs' => ?_, fun f hf => nomatch hu.symm.trans hf⟩
      cases hu.symm.trans hs'
      exact ⟨v, hv, ⟨hstatus.trans hstatus'.symm, hres.trans hres'.symm, fun hne => absurd hstatus hne⟩, fun hne => absurd hstatus hne⟩

end Sys2Proof.Machine

end

section
/-! PROOF. The block header and the code tables (spec/45_block_reader.md R494 to R505): what the fields of a block header are once they are
there, the metasymbol lengths in the order of `PERM`, and the code-length sequence, read metasymbol by metasymbol. -/

namespace Sys2Proof.Machine

variable {s : State} {d : Decompressor}

/-! ## The block header -/

theorem stateStep_blockStart (hs : s.d.state = .blockStart) : stateStep s.reader = some (stepBlockStart s.reader) := by
  rw [stateStep, State.reader_d, hs]

/-- The decompressor past the three bits of a block header (spec/45_block_reader.md R494). -/
def Decompressor.headed (d : Decompressor) (btype : BitVec 2) : Decompressor :=
  { d with cur := d.cur + 3, final := bitsAt d.input d.cur 1 == 1, btype := btype }

/-- The decompressor with its cursor `n` bits on. -/
def Decompressor.skip (d : Decompressor) (n : Nat) : Decompressor := { d with cur := d.cur + n }

theorem Decompressor.bits_bind {β : Type} {n : Nat} (h : d.cur + n ≤ d.valid) (f : Nat × Decompressor → Txn β) :
    (d.bits n >>= f) = f (bitsAt d.input d.cur n, d.skip n) := by
  rw [Decompressor.bits_ok h]
  rfl

theorem Decompressor.bits_bind_waits {β : Type} {n : Nat} (h : d.valid < d.cur + n) (f : Nat × Decompressor → Txn β) :
    (d.bits n >>= f) = .error .needInput := by
  rw [Decompressor.bits_waits h]
  rfl

theorem stepBlockStart_waits {r : Reader} (h : r.d.valid < r.d.cur + 3) : stepBlockStart r = .error .needInput := by
  by_cases hfirst : r.d.valid < r.d.cur + 1
  · exact Decompressor.bits_bind_waits hfirst _
  · exact (Decompressor.bits_bind (not_lt.mp hfirst) _).trans (Decompressor.bits_bind_waits (d := r.d.skip 1) h _)

section Header

variable {r : Reader} (h : r.d.cur + 3 ≤ r.d.valid)

include h

theorem stepBlockStart_stored (ht : bitsAt r.d.input (r.d.cur + 1) 2 = 0) :
    stepBlockStart r = storedHeader (r.d.headed 0) >>= fun d => pure { r with d := d } := by
  refine (Decompressor.bits_bind (by omega) _).trans ((Decompressor.bits_bind (d := r.d.skip 1) h _).trans ?_)
  rw [show bitsAt (r.d.skip 1).input (r.d.skip 1).cur 2 = 0 from ht]
  rfl

theorem stepBlockStart_fixed (ht : bitsAt r.d.input (r.d.cur + 1) 2 = 1) :
    stepBlockStart r = .ok { d := { r.d.headed 1 with state := .blockCompressed }, dec := r.dec.fixed } := by
  refine (Decompressor.bits_bind (by omega) _).trans ((Decompressor.bits_bind (d := r.d.skip 1) h _).trans ?_)
  rw [show bitsAt (r.d.skip 1).input (r.d.skip 1).cur 2 = 1 from ht]
  rfl

theorem stepBlockStart_dynamic (ht : bitsAt r.d.input (r.d.cur + 1) 2 = 2) :
    stepBlockStart r = dynamicHeader { r with d := r.d.headed 2 } := by
  refine (Decompressor.bits_bind (by omega) _).trans ((Decompressor.bits_bind (d := r.d.skip 1) h _).trans ?_)
  rw [show bitsAt (r.d.skip 1).input (r.d.skip 1).cur 2 = 2 from ht]
  rfl

theorem stepBlockStart_reserved (ht : bitsAt r.d.input (r.d.cur + 1) 2 = 3) :
    stepBlockStart r = .error (.error .invalidBlockType) := by
  refine (Decompressor.bits_bind (by omega) _).trans ((Decompressor.bits_bind (d := r.d.skip 1) h _).trans ?_)
  rw [show bitsAt (r.d.skip 1).input (r.d.skip 1).cur 2 = 3 from ht]
  rfl

end Header

/-! ## A stored block's header -/

theorem storedHeader_waits (h : d.valid < (d.cur + 7) / 8 * 8 + 32) : storedHeader d = .error .needInput := by
  by_cases hfirst : d.valid < (d.cur + 7) / 8 * 8 + 16
  · exact Decompressor.bits_bind_waits (d := d.align) hfirst _
  · exact (Decompressor.bits_bind (d := d.align) (not_lt.mp hfirst) _).trans (Decompressor.bits_bind_waits (d := d.align.skip 16) h _)

theorem storedHeader_present {start : Nat} (hstart : (d.cur + 7) / 8 * 8 = start) (h : start + 32 ≤ d.valid) :
    storedHeader d = (do
      raiseIf (bitsAt d.input (start + 16) 16 != 65535 - bitsAt d.input start 16) .invalidStoredLength
      pure { d with cur := start + 32, storedLeft := BitVec.ofNat 16 (bitsAt d.input start 16), state := .blockUncompressed }) := by
  subst hstart
  have hfirst : (d.cur + 7) / 8 * 8 + 16 ≤ d.valid := by omega
  exact (Decompressor.bits_bind (d := d.align) hfirst _).trans (Decompressor.bits_bind (d := d.align.skip 16) h _)

section Present

variable {start : Nat} (hstart : (d.cur + 7) / 8 * 8 = start) (h : start + 32 ≤ d.valid)

include hstart h

theorem storedHeader_fails (hbad : bitsAt d.input start 16 + bitsAt d.input (start + 16) 16 ≠ 65535) :
    storedHeader d = .error (.error .invalidStoredLength) := by
  have hlen : bitsAt d.input start 16 < 65536 := bitsAt_lt _ _ _
  rw [storedHeader_present hstart h, bne_iff_ne.mpr (by omega : bitsAt d.input (start + 16) 16 ≠ 65535 - bitsAt d.input start 16)]
  rfl

theorem storedHeader_passes (hgood : bitsAt d.input start 16 + bitsAt d.input (start + 16) 16 = 65535) : storedHeader d =
    .ok { d with cur := start + 32, storedLeft := BitVec.ofNat 16 (bitsAt d.input start 16), state := .blockUncompressed } := by
  rw [storedHeader_present hstart h, (by omega : bitsAt d.input (start + 16) 16 = 65535 - bitsAt d.input start 16), bne_self_eq_false]
  rfl

end Present

/-! ## The metasymbol lengths sent -/

theorem readMetaLens_ok (order : List Nat) (h : d.cur + 3 * order.length ≤ d.valid) : readMetaLens d order =
    .ok (order.zipIdx.map (fun p => (p.1, bitsAt d.input (d.cur + 3 * p.2) 3)), { d with cur := d.cur + 3 * order.length }) := by
  induction order generalizing d with
  | nil => rfl
  | cons m rest ih =>
    rw [List.length_cons] at h
    have hrest : d.cur + 3 + 3 * rest.length ≤ d.valid := by omega
    have hshift : ∀ k, d.cur + 3 + 3 * k = d.cur + 3 * (k + 1) := by omega
    refine (Decompressor.bits_bind (by omega) _).trans ?_
    dsimp only
    rw [ih (d := d.skip 3) hrest]
    have hnext : rest.zipIdx 1 = rest.zipIdx.map (fun p => (p.1, p.2 + 1)) := List.zipIdx_succ
    simp [Decompressor.skip, hshift, hnext, Function.comp_def]

theorem readMetaLens_waits (order : List Nat) (h : d.valid < d.cur + 3 * order.length) (hcur : d.cur ≤ d.valid) :
    readMetaLens d order = .error .needInput := by
  induction order generalizing d with
  | nil => simp at h; omega
  | cons m rest ih =>
    rw [List.length_cons] at h
    by_cases hfirst : d.valid < d.cur + 3
    · exact Decompressor.bits_bind_waits hfirst _
    · have hrest : d.valid < d.cur + 3 + 3 * rest.length := by omega
      refine (Decompressor.bits_bind (not_lt.mp hfirst) _).trans ?_
      dsimp only
      rw [ih (d := d.skip 3) hrest (not_lt.mp hfirst), error_bind]

/-- A length sent is found at its metasymbol. -/
theorem depthOf_zipIdx {order : List Nat} (hnodup : order.Nodup) (f : Nat → Nat) {j k m : Nat} (hk : order[k]? = some m) :
    depthOf ((order.zipIdx j).map fun p => (p.1, f p.2)) m = f (j + k) := by
  induction order generalizing j k with
  | nil => cases hk
  | cons o rest ih =>
    obtain ⟨hno, hrest⟩ := List.nodup_cons.mp hnodup
    rw [List.zipIdx_cons, List.map_cons, depthOf]
    cases k with
    | zero => exact if_pos (Option.some.inj hk)
    | succ k =>
      have hmem : m ∈ rest := List.mem_of_getElem? hk
      rw [if_neg (show ¬ o = m from fun heq => hno (heq ▸ hmem)), ih hrest hk]
      exact congrArg f (by omega)

theorem depthOf_of_notMem {order : List Nat} (f : Nat → Nat) (j : Nat) {m : Nat} (hm : m ∉ order) :
    depthOf ((order.zipIdx j).map fun p => (p.1, f p.2)) m = 0 := by
  induction order generalizing j with
  | nil => rfl
  | cons o rest ih =>
    obtain ⟨hne, hrest⟩ := not_or.mp (List.mem_cons.not.mp hm)
    rw [List.zipIdx_cons, List.map_cons, depthOf, if_neg (Ne.symm hne)]
    exact ih (j + 1) hrest

theorem exists_perm (m : Nat) (hm : m < 19) : ∃ k : Nat, perm[k]? = some m := by
  have hall : ∀ m ∈ List.range 19, m ∈ perm := by decide
  obtain ⟨k, hk⟩ := List.getElem?_of_mem (hall m (List.mem_range.mpr hm))
  exact ⟨k, hk⟩

theorem perm_nodup : perm.Nodup := by decide

/-- The lengths of the metasymbols: those sent in their places, 0 elsewhere (spec/45_block_reader.md R497). -/
theorem metaLens_eq {n : Nat} {f : Nat → Nat} {lM : List Nat} (hlen : lM.length = 19)
    (hlM : ∀ k m, perm[k]? = some m → lM[m]? = some (if k < n then f k else 0)) :
    (List.range 19).map (fun m => depthOf ((perm.take n).zipIdx.map fun p => (p.1, f p.2)) m) = lM := by
  refine List.ext_getElem? fun m => ?_
  rcases lt_or_ge m 19 with hm | hm
  · obtain ⟨k, hk⟩ := exists_perm m hm
    rw [hlM k m hk, List.getElem?_map, List.getElem?_range hm, Option.map_some]
    congr 1
    split
    case isTrue hlt =>
      have htake : (perm.take n)[k]? = some m := by rw [List.getElem?_take_of_lt hlt, hk]
      rw [depthOf_zipIdx (perm_nodup.sublist (List.take_sublist _ _)) f htake, Nat.zero_add]
    case isFalse hge =>
      refine depthOf_of_notMem f 0 fun hmem => ?_
      obtain ⟨k', hk'⟩ := List.getElem?_of_mem hmem
      have hlt : k' < n := by
        by_contra hge'
        rw [List.getElem?_take, if_neg hge'] at hk'
        cases hk'
      rw [List.getElem?_take_of_lt hlt] at hk'
      obtain rfl := (List.getElem?_inj (List.getElem?_eq_some_iff.mp hk).1 perm_nodup).mp (hk.trans hk'.symm)
      exact hge hlt
  · rw [List.getElem?_eq_none (by simpa using hm), List.getElem?_eq_none (by omega)]

/-! ## A dynamic block's header -/

/-- The decompressor past the three counts of a dynamic block (spec/45_block_reader.md R497). -/
def Decompressor.counted (d : Decompressor) : Decompressor :=
  { d with
    cur := d.cur + 14, hlit := bitsAt d.input d.cur 5 + 257, hdist := bitsAt d.input (d.cur + 5) 5 + 1
    hclen := bitsAt d.input (d.cur + 10) 4 + 4 }

theorem Decompressor.length_perm_counted (d : Decompressor) : (perm.take d.counted.hclen).length = d.counted.hclen := by
  have hbits : bitsAt d.input (d.cur + 10) 4 < 16 := bitsAt_lt _ _ _
  have hclen : d.counted.hclen = bitsAt d.input (d.cur + 10) 4 + 4 := rfl
  have hperm : perm.length = 19 := rfl
  rw [List.length_take, hperm]
  omega

theorem dynamicHeader_waits {r : Reader} (h : r.d.valid < r.d.cur + 14) : dynamicHeader r = .error .needInput := by
  by_cases hfirst : r.d.valid < r.d.cur + 5
  · exact Decompressor.bits_bind_waits hfirst _
  · refine (Decompressor.bits_bind (not_lt.mp hfirst) _).trans ?_
    by_cases hsecond : r.d.valid < r.d.cur + 5 + 5
    · exact Decompressor.bits_bind_waits (d := r.d.skip 5) hsecond _
    · exact (Decompressor.bits_bind (d := r.d.skip 5) (not_lt.mp hsecond) _).trans
        (Decompressor.bits_bind_waits (d := (r.d.skip 5).skip 5) h _)

theorem dynamicHeader_present {r : Reader} (h : r.d.cur + 14 ≤ r.d.valid) : dynamicHeader r = (do
    raiseIf (decide (286 < r.d.counted.hlit)) .invalidRunLiteralCount
    raiseIf (decide (30 < r.d.counted.hdist)) .invalidDistanceTable
    let (sent, d) ← readMetaLens r.d.counted (perm.take r.d.counted.hclen)
    let t := DecTable.load ((List.range 19).map (fun m => depthOf sent m))
    raiseIf (!t.verdict.sound) .invalidCodelengthTable
    pure { d := { d with state := .blockTables }, dec := { r.dec with metasym := t } }) := by
  have hfirst : r.d.cur + 5 ≤ r.d.valid := by omega
  have hsecond : r.d.cur + 5 + 5 ≤ r.d.valid := by omega
  exact (Decompressor.bits_bind hfirst _).trans ((Decompressor.bits_bind (d := r.d.skip 5) hsecond _).trans
    (Decompressor.bits_bind (d := (r.d.skip 5).skip 5) h _))

section Counted

variable {r : Reader} (h : r.d.cur + 14 ≤ r.d.valid)

include h

theorem dynamicHeader_manyRunLits (hbad : 286 < r.d.counted.hlit) : dynamicHeader r = .error (.error .invalidRunLiteralCount) := by
  rw [dynamicHeader_present h, decide_eq_true hbad, raiseIf_true, error_bind]

variable (hlit : r.d.counted.hlit ≤ 286)

include hlit

theorem dynamicHeader_manyDists (hbad : 30 < r.d.counted.hdist) : dynamicHeader r = .error (.error .invalidDistanceTable) := by
  rw [dynamicHeader_present h, decide_eq_false hlit.not_gt, raiseIf_false, ok_bind, decide_eq_true hbad, raiseIf_true, error_bind]

variable (hdist : r.d.counted.hdist ≤ 30)

include hdist

theorem dynamicHeader_waitsForMetaLens (hshort : r.d.valid < r.d.cur + 14 + 3 * r.d.counted.hclen) :
    dynamicHeader r = .error .needInput := by
  have hlen := r.d.length_perm_counted
  rw [dynamicHeader_present h, decide_eq_false hlit.not_gt, raiseIf_false, ok_bind, decide_eq_false hdist.not_gt, raiseIf_false, ok_bind,
    readMetaLens_waits (d := r.d.counted) _ (by rw [hlen]; exact hshort) h, error_bind]

variable {lM : List Nat} (hlM : lM.length = 19) (hsent : ∀ k m, perm[k]? = some m → lM[m]? = some (if k < r.d.counted.hclen then
    bitsAt r.d.input (r.d.cur + 14 + 3 * k) 3 else 0)) (hall : r.d.cur + 14 + 3 * r.d.counted.hclen ≤ r.d.valid)

include hlM hsent hall

theorem dynamicHeader_metaLens : dynamicHeader r = (do
    raiseIf (!(verdictOf lM).sound) .invalidCodelengthTable
    pure { d := { r.d.counted with cur := r.d.cur + 14 + 3 * r.d.counted.hclen, state := .blockTables }
           dec := { r.dec with metasym := DecTable.load lM } }) := by
  have hlen := r.d.length_perm_counted
  rw [dynamicHeader_present h, decide_eq_false hlit.not_gt, raiseIf_false, ok_bind, decide_eq_false hdist.not_gt, raiseIf_false, ok_bind,
    readMetaLens_ok (d := r.d.counted) _ (by rw [hlen]; exact hall), ok_bind]
  have hload := metaLens_eq (f := fun k => bitsAt r.d.input (r.d.cur + 14 + 3 * k) 3) hlM hsent
  dsimp only
  rw [hlen]
  exact congrArg (fun lens => (do
    raiseIf (!(DecTable.load lens).verdict.sound) .invalidCodelengthTable
    pure { d := { r.d.counted with cur := r.d.cur + 14 + 3 * r.d.counted.hclen, state := .blockTables }
           dec := { r.dec with metasym := DecTable.load lens } } : Txn Reader)) hload

end Counted

end Sys2Proof.Machine

namespace Sys2Proof.BlockReader

open Sys2Proof.Machine

/-- Settles O45: a block header that is there is that of its type, and each type makes its checks in order. -/
theorem blockHeader : Obligations.BlockHeader := by
  intro s hs hd hcur bits start len fails waits
  have hraises : ∀ {e : DecodeError}, stepBlockStart s.reader = .error (.error e) → fails e := fun h =>
    exec_brStep_raises hd ((stateStep_blockStart hs).trans (congrArg some h))
  have hwaits : stepBlockStart s.reader = .error .needInput → waits := fun h => by
    have := exec_brStep_waits hd ((stateStep_blockStart hs).trans (congrArg some h))
    rwa [hs] at this
  have hstart : s.d.cur + 3 ≤ start ∧ start < s.d.cur + 3 + 8 := by omega
  have hlen : len < 65536 := bitsAt_lt _ _ _
  have hstored : s.d.cur + 3 ≤ s.d.valid → bits 1 2 = 0 → stepBlockStart s.reader = _ := stepBlockStart_stored (r := s.reader)
  have hdynamic : s.d.cur + 3 ≤ s.d.valid → bits 1 2 = 2 → stepBlockStart s.reader = _ := stepBlockStart_dynamic (r := s.reader)
  refine ⟨fun h => hwaits (stepBlockStart_waits h), fun h ht => hraises (stepBlockStart_reserved (r := s.reader) h ht),
    fun h ht hshort => ?_, fun ht h hbad => ?_, fun ht h hgood => ?_, fun h ht => ?_, fun h ht hshort => ?_, fun h ht hbad => ?_,
    fun h ht hlit hbad => ?_, fun h ht hlit hdist => ?_⟩
  · refine hwaits ((hstored h ht).trans ?_)
    rw [storedHeader_waits (d := s.reader.d.headed 0) hshort, error_bind]
  · refine hraises ((hstored (by omega) ht).trans ?_)
    rw [storedHeader_fails (d := s.reader.d.headed 0) (start := start) rfl h hbad, error_bind]
  · have hstep := hstored (by omega) ht
    rw [storedHeader_passes (d := s.reader.d.headed 0) (start := start) rfl h hgood, ok_bind] at hstep
    exact exec_brStep_commits hd ((stateStep_blockStart hs).trans (congrArg some hstep))
  · exact exec_brStep_commits hd ((stateStep_blockStart hs).trans (congrArg some (stepBlockStart_fixed (r := s.reader) h ht)))
  · exact hwaits ((hdynamic h ht).trans (dynamicHeader_waits hshort))
  · exact hraises ((hdynamic (by omega) ht).trans (dynamicHeader_manyRunLits h hbad))
  · exact hraises ((hdynamic (by omega) ht).trans (dynamicHeader_manyDists h hlit hbad))
  · refine ⟨fun hshort => hwaits ((hdynamic (by omega) ht).trans (dynamicHeader_waitsForMetaLens h hlit hdist hshort)),
      fun lM hall hlM hsent => ?_⟩
    have hstep := (hdynamic (by omega) ht).trans (dynamicHeader_metaLens (r := { s.reader with d := s.reader.d.headed 2 }) (lM := lM)
      h hlit hdist hlM (fun k m hk => by
        have hshift : bits (17 + 3 * k) 3 = bitsAt s.d.input (s.d.cur + 3 + 14 + 3 * k) 3 := congrArg (bitsAt s.d.input · 3) (by omega)
        exact hshift ▸ hsent k m hk) hall)
    refine ⟨fun hbad => hraises (hstep.trans ?_), fun hgood => ?_⟩
    · rw [hbad]
      rfl
    · rw [hgood] at hstep
      exact exec_brStep_commits hd ((stateStep_blockStart hs).trans (congrArg some hstep))

end Sys2Proof.BlockReader

namespace Sys2Proof.Machine

/-! ## Decoding in a step -/

section Decode

variable {β : Type} {d : Decompressor} {t : Table} {x : DecTable} (hx : x.holds t = true) (e : DecodeError)

include hx

theorem Decompressor.decode_bind_symbol {m l : Nat} (h : d.peekSymbol x = .symbol m l) (f : Nat × Decompressor → Txn β) :
    (d.decode t x e >>= f) = f (m, d.skip l) := by
  rw [Decompressor.decode, hx, h]
  rfl

theorem Decompressor.decode_bind_waits (h : d.peekSymbol x = .needInput) (f : Nat × Decompressor → Txn β) :
    (d.decode t x e >>= f) = .error .needInput := by
  rw [Decompressor.decode, hx, h]
  rfl

theorem Decompressor.decode_bind_raises (h : d.peekSymbol x = .noCode) (f : Nat × Decompressor → Txn β) :
    (d.decode t x e >>= f) = .error (.error e) := by
  rw [Decompressor.decode, hx, h]
  rfl

end Decode

/-- A symbol decoded at the cursor is that of a code length, its bits all there. -/
theorem Decompressor.peekSymbol_spec {d : Decompressor} {x : DecTable} {m l : Nat} (h : d.peekSymbol x = .symbol m l)
    (hcur : d.cur ≤ d.valid) : 1 ≤ l ∧ d.cur + l ≤ d.valid ∧ x.lens[m]? = some l := by
  obtain ⟨hpos, hle, hlen⟩ := decodeSymbol_spec h
  exact ⟨hpos, by omega, hlen⟩

/-! ## The code-length sequence -/

/-- The decompressor with its cursor at a bit of the input. -/
def Decompressor.atBit (d : Decompressor) (cur : Nat) : Decompressor := { d with cur := cur }

section Lens

variable {d : Decompressor} {x : DecTable} {seq : List Nat} (hx : x.holds .metasym = true)

theorem LengthsAt.length_pos {cur cur' : Nat} {added : List Nat} (h : LengthsAt x d cur seq cur' added) : 1 ≤ added.length := by
  cases h <;> simp only [List.length_cons, List.length_nil, List.length_replicate] <;> omega

theorem LengthsAt.cur_le {cur cur' : Nat} {added : List Nat} (h : LengthsAt x d cur seq cur' added) (hcur : cur ≤ d.valid) :
    cur' ≤ d.valid := by
  cases h with
  | one m l h _ => exact (Decompressor.peekSymbol_spec h hcur).2.1
  | again l v _ _ h => exact h
  | zeros l _ h => exact h
  | manyZeros l _ h => exact h

include hx

/-- A metasymbol that is there with its extra bits is read (spec/45_block_reader.md R500). -/
theorem LengthsAt.readLens {cur cur' : Nat} {added : List Nat} (h : LengthsAt x d cur seq cur' added) :
    readLens x seq (d.atBit cur) = .ok (added, d.atBit cur') := by
  cases h with
  | one m l h hm =>
    refine (Decompressor.decode_bind_symbol hx _ h _).trans ?_
    exact if_pos hm
  | again l v h hlast hbits =>
    refine (Decompressor.decode_bind_symbol hx _ h _).trans ?_
    dsimp only
    rw [if_neg (by decide), if_pos rfl, hlast]
    exact Decompressor.bits_bind (d := (d.atBit cur).skip l) hbits _
  | zeros l h hbits =>
    refine (Decompressor.decode_bind_symbol hx _ h _).trans ?_
    exact Decompressor.bits_bind (d := (d.atBit cur).skip l) hbits _
  | manyZeros l h hbits =>
    refine (Decompressor.decode_bind_symbol hx _ h _).trans ?_
    exact Decompressor.bits_bind (d := (d.atBit cur).skip l) hbits _

/-- A metasymbol whose extra bits are not all there waits. -/
theorem readLens_waits {m l : Nat} (h : d.peekSymbol x = .symbol m l) (hcur : d.cur ≤ d.valid) (hm : m = 16 → seq ≠ [])
    (hshort : d.valid < d.cur + l + metaExtra m) : readLens x seq d = .error .needInput := by
  have hle := (Decompressor.peekSymbol_spec h hcur).2.1
  refine (Decompressor.decode_bind_symbol hx _ h _).trans ?_
  dsimp only
  unfold metaExtra at hshort
  split at hshort
  case isTrue h16 =>
    obtain ⟨v, hv⟩ := Option.ne_none_iff_exists'.mp (fun h => hm h16 (List.getLast?_eq_none_iff.mp h))
    rw [h16, if_neg (by decide), if_pos rfl, hv]
    exact Decompressor.bits_bind_waits (d := d.skip l) hshort _
  case isFalse h16 =>
    split at hshort
    case isTrue h17 =>
      rw [h17, if_neg (by decide), if_neg (by decide), if_pos rfl]
      exact Decompressor.bits_bind_waits (d := d.skip l) hshort _
    case isFalse h17 =>
      split at hshort
      case isTrue h18 =>
        rw [h18, if_neg (by decide), if_neg (by decide), if_neg (by decide)]
        exact Decompressor.bits_bind_waits (d := d.skip l) hshort _
      case isFalse => omega

theorem readLens_noneBefore {l : Nat} (h : d.peekSymbol x = .symbol 16 l) : readLens x [] d = .error (.error .invalidCodelengthSequence) :=
  Decompressor.decode_bind_symbol hx _ h _

variable {total : Nat}

omit hx in
theorem lensLoop_step {fuel : Nat} {e : Decompressor} {more : List Nat} (hseq : seq.length < total)
    (h : Machine.readLens x seq d = .ok (more, e)) : lensLoop x total (fuel + 1) seq d =
      (raiseIf (decide (total < (seq ++ more).length)) .invalidCodelengthSequence >>= fun _ => lensLoop x total fuel (seq ++ more) e) := by
  rw [lensLoop, if_neg hseq.not_ge, h] <;> rfl

theorem lensLoop_more {fuel : Nat} (hseq : seq.length < total) {cur cur' : Nat} {added : List Nat}
    (h : LengthsAt x d cur seq cur' added) (hfit : (seq ++ added).length ≤ total) :
    lensLoop x total (fuel + 1) seq (d.atBit cur) = lensLoop x total fuel (seq ++ added) (d.atBit cur') := by
  rw [lensLoop_step hseq (h.readLens hx), decide_eq_false hfit.not_gt, raiseIf_false, ok_bind]

/-- The loop arrives wherever lengths are read, with turns enough for the lengths left. -/
theorem LengthsRead.lensLoop {cur : Nat} (h : LengthsRead x d total cur seq) :
    ∃ fuel, total ≤ fuel + seq.length ∧ Machine.lensLoop x total total [] d = Machine.lensLoop x total fuel seq (d.atBit cur) := by
  induction h with
  | start => exact ⟨total, le_rfl, rfl⟩
  | more cur cur' seq added _ hseq hadded hfit ih =>
    obtain ⟨fuel, hfuel, hloop⟩ := ih
    obtain ⟨fuel, rfl⟩ := Nat.exists_eq_succ_of_ne_zero (by omega : fuel ≠ 0)
    refine ⟨fuel, ?_, hloop.trans (lensLoop_more hx hseq hadded hfit)⟩
    have := hadded.length_pos
    rw [List.length_append]
    omega

omit hx in
theorem LengthsRead.cur_le {cur : Nat} (h : LengthsRead x d total cur seq) (hcur : d.cur ≤ d.valid) : cur ≤ d.valid := by
  induction h with
  | start => exact hcur
  | more _ _ _ _ _ _ hadded _ ih => exact hadded.cur_le ih

/-- Where the next metasymbol fails or waits, so does the loop. -/
theorem LengthsRead.lensLoop_error {cur : Nat} (h : LengthsRead x d total cur seq) (hseq : seq.length < total) {a : Abort}
    (ha : readLens x seq (d.atBit cur) = .error a) : Machine.lensLoop x total total [] d = .error a := by
  obtain ⟨fuel, hfuel, hloop⟩ := h.lensLoop hx
  obtain ⟨fuel, rfl⟩ := Nat.exists_eq_succ_of_ne_zero (by omega : fuel ≠ 0)
  rw [hloop, Machine.lensLoop, if_neg hseq.not_ge, ha, error_bind]

theorem LengthsRead.lensLoop_tooMany {cur cur' : Nat} {added : List Nat} (h : LengthsRead x d total cur seq) (hseq : seq.length < total)
    (hadded : LengthsAt x d cur seq cur' added) (hfit : total < (seq ++ added).length) :
    Machine.lensLoop x total total [] d = .error (.error .invalidCodelengthSequence) := by
  obtain ⟨fuel, hfuel, hloop⟩ := h.lensLoop hx
  obtain ⟨fuel, rfl⟩ := Nat.exists_eq_succ_of_ne_zero (by omega : fuel ≠ 0)
  rw [hloop, lensLoop_step hseq (hadded.readLens hx), decide_eq_true hfit, raiseIf_true, error_bind]

theorem LengthsRead.lensLoop_done {cur : Nat} (h : LengthsRead x d total cur seq) (hseq : seq.length = total) :
    Machine.lensLoop x total total [] d = .ok (seq, d.atBit cur) := by
  obtain ⟨fuel, hfuel, hloop⟩ := h.lensLoop hx
  rw [hloop]
  cases fuel <;> exact if_pos hseq.ge

end Lens

/-! ## The tables -/

theorem stateStep_blockTables {s : State} (hs : s.d.state = .blockTables) : stateStep s.reader = some (stepBlockTables s.reader) := by
  rw [stateStep, State.reader_d, hs]

theorem padTo_of_length_le {n : Nat} {l : List Nat} (h : l.length ≤ n) : padTo n l = l ++ List.replicate (n - l.length) 0 := by
  rw [padTo, List.take_of_length_le h]

/-- The checks of the two tables, in their order (spec/45_block_reader.md R501). -/
def loadBoth (r : Reader) (cur : Nat) (lL lD : List Nat) : Txn Reader := do
  raiseIf (lL.getD 256 0 == 0) .invalidRunLiteralTable
  raiseIf (!(verdictOf lL).sound) .invalidRunLiteralTable
  raiseIf (!usableFor .dist (verdictOf lD)) .invalidDistanceTable
  pure { d := { r.d with state := .blockCompressed, cur := cur }
         dec := { r.dec with runLit := DecTable.load lL, dist := DecTable.load lD } }

theorem stepBlockTables_done {r : Reader} {cur : Nat} {seq : List Nat} (hx : r.dec.metasym.holds .metasym = true)
    (h : LengthsRead r.dec.metasym r.d (r.d.hlit + r.d.hdist) cur seq) (hseq : seq.length = r.d.hlit + r.d.hdist)
    (hlit : r.d.hlit ≤ 288) (hdist : r.d.hdist ≤ 32) : stepBlockTables r =
      loadBoth r cur (seq.take r.d.hlit ++ List.replicate (288 - r.d.hlit) 0) (seq.drop r.d.hlit ++ List.replicate (32 - r.d.hdist) 0) := by
  have htake : (seq.take r.d.hlit).length = r.d.hlit := by rw [List.length_take]; omega
  have hdrop : (seq.drop r.d.hlit).length = r.d.hdist := by rw [List.length_drop]; omega
  have hL : padTo 288 (seq.take r.d.hlit) = seq.take r.d.hlit ++ List.replicate (288 - r.d.hlit) 0 := by
    rw [padTo_of_length_le (by omega), htake]
  have hD : padTo 32 (seq.drop r.d.hlit) = seq.drop r.d.hlit ++ List.replicate (32 - r.d.hdist) 0 := by
    rw [padTo_of_length_le (by omega), hdrop]
  rw [stepBlockTables, h.lensLoop_done hx hseq, ok_bind, ← hL, ← hD]
  rfl

theorem usableFor_dist {v : Verdict} : usableFor .dist v = false ↔ v = .incomplete ∨ v = .oversubscribed := by
  cases v <;> decide

end Sys2Proof.Machine

namespace Sys2Proof.BlockReader

open Sys2Proof.Machine

/-- Settles O46: the loop arrives wherever the lengths are read, and goes on there as the next metasymbol says. -/
theorem blockTables : Obligations.BlockTables := by
  intro s hsound hs hd total x fails waits cur seq hread next lL lD
  have hwhole := (s.sound_iff.mp hsound).2.whole hd
  have hx : x.holds .metasym = true := hwhole.metasym.holds
  obtain ⟨hlit1, hlit2, hdist1, hdist2, -⟩ := hwhole.ready.tables hs
  have hcur : cur ≤ s.d.valid := hread.cur_le hwhole.d.cursor
  have hraises : ∀ {e : DecodeError}, stepBlockTables s.reader = .error (.error e) → fails e := fun h =>
    exec_brStep_raises hd ((stateStep_blockTables hs).trans (congrArg some h))
  have hwaits : stepBlockTables s.reader = .error .needInput → waits := fun h => by
    have := exec_brStep_waits hd ((stateStep_blockTables hs).trans (congrArg some h))
    rwa [hs] at this
  have hstep : ∀ {a : Abort}, lensLoop x total total [] s.d = .error a → stepBlockTables s.reader = .error a := fun {a} h =>
    congrArg (· >>= _) h
  refine ⟨fun hseq => ⟨fun h => ?_, fun h => ?_, fun l h hnil => ?_, fun m l h hm hshort => ?_, fun cur' added hadded hfit => ?_⟩, fun hseq => ?_⟩
  · exact hwaits (hstep (hread.lensLoop_error hx hseq (Decompressor.decode_bind_waits hx _ h _)))
  · exact hraises (hstep (hread.lensLoop_error hx hseq (Decompressor.decode_bind_raises hx _ h _)))
  · exact hraises (hstep (hread.lensLoop_error hx hseq (hnil ▸ readLens_noneBefore hx h)))
  · exact hwaits (hstep (hread.lensLoop_error hx hseq (readLens_waits hx h hcur hm hshort)))
  · exact hraises (hstep (hread.lensLoop_tooMany hx hseq hadded hfit))
  · have hdone : stepBlockTables s.reader = loadBoth s.reader cur lL lD :=
      stepBlockTables_done hx hread hseq (hlit2.trans (by decide)) (hdist2.trans (by decide))
    refine ⟨fun hbad => ?_, fun heob hsoundL hbad => ?_, fun heob hsoundL hcomplete hsub => ?_⟩
    · refine hraises (hdone.trans ?_)
      rw [loadBoth]
      by_cases heob : lL.getD 256 0 = 0
      · rw [heob]
        rfl
      · rw [beq_false_of_ne heob, hbad.resolve_left heob]
        rfl
    · refine hraises (hdone.trans ?_)
      rw [loadBoth, beq_false_of_ne heob, hsoundL, usableFor_dist.mpr hbad]
      rfl
    · have husable : usableFor .dist (verdictOf lD) = true := by
        rw [← Bool.not_eq_false, usableFor_dist]
        exact not_or.mpr ⟨hcomplete, hsub⟩
      have hload := hdone
      rw [loadBoth, beq_false_of_ne heob, hsoundL, husable] at hload
      exact exec_brStep_commits hd ((stateStep_blockTables hs).trans (congrArg some hload))

end Sys2Proof.BlockReader

end

section
/-! PROOF. Compressed data (spec/45_block_reader.md R510 to R512): the parts of a match in their order, the copy byte by byte, and from both
what a `BLOCK_COMPRESSED` step answers for the bits at the cursor. -/

namespace Sys2Proof.Machine

/-! ## The copy -/

/-- `out` goes on for `n` bytes, each the one `dist` before it (spec/45_block_reader.md R512). -/
structure Repeats (dist n : Nat) (d e : Decompressor) (copied : List Byte) : Prop where
  length : copied.length = n
  eq     : e = { d with
    out := d.out ++ copied, total := d.total + n, hist := e.hist, check := checkOver d.format d.check copied }
  bytes  : ∀ j, j < n → e.out[d.out.length + j]? = e.out[d.out.length + j - dist]?

theorem copyLoop_ok {dist : Nat} (hpos : 1 ≤ dist) (n : Nat) {d : Decompressor} (htotal : d.total = d.out.length) (hle : dist ≤ d.total) :
    ∃ e copied, Decompressor.copyLoop dist n d = .ok e ∧ Repeats dist n d e copied := by
  induction n generalizing d with
  | zero =>
    refine ⟨d, [], rfl, rfl, ?_, fun j hj => absurd hj (Nat.not_lt_zero j)⟩
    simp [checkOver_nil]
  | succ n ih =>
    have hlt : d.total - dist < d.out.length := by omega
    obtain ⟨b, hb⟩ : ∃ b, d.out[d.total - dist]? = some b := ⟨_, List.getElem?_eq_getElem hlt⟩
    have hemit : (d.emit b).total = (d.emit b).out.length := by simp [Decompressor.emit, htotal]
    obtain ⟨e, copied, hloop, hlen, heq, hbytes⟩ := ih hemit (hle.trans (Nat.le_succ _))
    have hout : e.out = d.out ++ b :: copied := by
      rw [heq]
      simp [Decompressor.emit]
    refine ⟨e, b :: copied, ?_, by simp [hlen], ?_, fun j hj => ?_⟩
    · rw [Decompressor.copyLoop, hb]
      exact hloop
    · rw [heq]
      have hcheck := checkOver_append d.format d.check [b] copied
      simp only [List.singleton_append] at hcheck
      simp [Decompressor.emit, hcheck, Nat.add_assoc, Nat.add_comm 1]
    · cases j with
      | zero =>
        rw [hout, Nat.add_zero, List.getElem?_append_right le_rfl, Nat.sub_self, List.getElem?_append_left (by omega), ← htotal, hb]
        rfl
      | succ j =>
        have hj' := hbytes j (Nat.lt_of_succ_lt_succ hj)
        rwa [show (d.emit b).out.length + j = d.out.length + (j + 1) by simp [Decompressor.emit]; omega] at hj'

/-! ## The parts of a match -/

theorem runDecades_range : ∀ rd ∈ runDecades, 3 ≤ rd.base ∧ rd.base + 2 ^ rd.extra ≤ 259 := by decide

theorem distDecades_range : ∀ dd ∈ distDecades, 1 ≤ dd.base ∧ dd.base + 2 ^ dd.extra ≤ 32769 := by decide

section Match

variable {r : Reader} {d : Decompressor} {run dd : Decade} {k m : Nat}

theorem readMatch_waits (h : d.valid < d.cur + run.extra) : readMatch r run d = .error .needInput :=
  Decompressor.bits_bind_waits h _

variable (hx : r.dec.dist.holds .dist = true) (hextra : d.cur + run.extra ≤ d.valid)

include hx hextra

theorem readMatch_waitsForDist (h : (d.skip run.extra).peekSymbol r.dec.dist = .needInput) : readMatch r run d = .error .needInput :=
  (Decompressor.bits_bind hextra _).trans (Decompressor.decode_bind_waits hx _ h _)

theorem readMatch_noDist (h : (d.skip run.extra).peekSymbol r.dec.dist = .noCode) :
    readMatch r run d = .error (.error .invalidDistanceTable) :=
  (Decompressor.bits_bind hextra _).trans (Decompressor.decode_bind_raises hx _ h _)

variable (hback : (d.skip run.extra).peekSymbol r.dec.dist = .symbol k m)

include hback

theorem readMatch_badDist (h : 29 < k) : readMatch r run d = .error (.error .invalidDistanceTable) := by
  refine (Decompressor.bits_bind hextra _).trans ((Decompressor.decode_bind_symbol hx _ hback _).trans ?_)
  have hnone : distDecades[k]? = none := List.getElem?_eq_none (show 30 ≤ k from h)
  dsimp only
  rw [hnone]

variable (hdd : distDecades[k]? = some dd)

include hdd

theorem readMatch_waitsForExtra (h : d.valid < d.cur + run.extra + m + dd.extra) : readMatch r run d = .error .needInput := by
  refine (Decompressor.bits_bind hextra _).trans ((Decompressor.decode_bind_symbol hx _ hback _).trans ?_)
  dsimp only
  rw [hdd]
  exact Decompressor.bits_bind_waits (d := (d.skip run.extra).skip m) h _

variable (hall : d.cur + run.extra + m + dd.extra ≤ d.valid)

include hall

/-- With all its bits there, a match copies its run from its distance, which has to lie within the output. -/
theorem readMatch_present : readMatch r run d = (do
    raiseIf (decide (d.total < dd.base + bitsAt d.input (d.cur + run.extra + m) dd.extra)) .invalidBackReference
    Decompressor.copyLoop (dd.base + bitsAt d.input (d.cur + run.extra + m) dd.extra) (run.base + bitsAt d.input d.cur run.extra)
      (d.atBit (d.cur + run.extra + m + dd.extra))) := by
  refine (Decompressor.bits_bind hextra _).trans ((Decompressor.decode_bind_symbol hx _ hback _).trans ?_)
  dsimp only
  rw [hdd]
  exact Decompressor.bits_bind (d := (d.skip run.extra).skip m) hall _

theorem readMatch_far (h : d.total < dd.base + bitsAt d.input (d.cur + run.extra + m) dd.extra) :
    readMatch r run d = .error (.error .invalidBackReference) := by
  rw [readMatch_present hx hextra hback hdd hall, decide_eq_true h, raiseIf_true, error_bind]

theorem readMatch_near (h : dd.base + bitsAt d.input (d.cur + run.extra + m) dd.extra ≤ d.total) : readMatch r run d =
    Decompressor.copyLoop (dd.base + bitsAt d.input (d.cur + run.extra + m) dd.extra) (run.base + bitsAt d.input d.cur run.extra)
      (d.atBit (d.cur + run.extra + m + dd.extra)) := by
  rw [readMatch_present hx hextra hback hdd hall, decide_eq_false h.not_gt, raiseIf_false, ok_bind]

end Match

/-! ## The step -/

/-- What a `BLOCK_COMPRESSED` step that does not stop has done: one literal, the end of the block, or one copied run. -/
def TokenStep (s t : State) : Prop :=
  t.status ≠ .refused
  ∧ (t.status = .ok ∨ t.status = .finished →
      s.d.cur < t.d.cur ∧ t.d.total = t.d.out.length
      ∧ ((∃ b, t.d.out = s.d.out ++ [b] ∧ t.d.state = .blockCompressed)
        ∨ (t.d.out = s.d.out ∧ t.d.state = afterBlock s.d)
        ∨ ∃ (run dist : Nat) (copied : List Byte), t.d.out = s.d.out ++ copied ∧ copied.length = run ∧ 3 ≤ run ∧ run ≤ 258
            ∧ 1 ≤ dist ∧ dist ≤ s.d.out.length ∧ dist ≤ 32768 ∧ t.d.state = .blockCompressed
            ∧ ∀ j, j < run → t.d.out[s.d.out.length + j]? = t.d.out[s.d.out.length + j - dist]?))

theorem stateStep_blockCompressed {s : State} (hs : s.d.state = .blockCompressed) :
    stateStep s.reader = some (stepCompressed s.reader) := by
  rw [stateStep, State.reader_d, hs]

section Token

variable {r : Reader} (hx : r.dec.runLit.holds .runLit = true)

include hx

theorem stepCompressed_waits (h : r.d.peekSymbol r.dec.runLit = .needInput) : stepCompressed r = .error .needInput :=
  Decompressor.decode_bind_waits hx _ h _

theorem stepCompressed_noCode (h : r.d.peekSymbol r.dec.runLit = .noCode) :
    stepCompressed r = .error (.error .invalidRunLiteralTable) :=
  Decompressor.decode_bind_raises hx _ h _

variable {sym l : Nat} (h : r.d.peekSymbol r.dec.runLit = .symbol sym l)

include h

theorem stepCompressed_literal (hsym : sym < 256) :
    stepCompressed r = .ok { r with d := (r.d.skip l).emit (BitVec.ofNat 8 sym) } :=
  (Decompressor.decode_bind_symbol hx _ h _).trans (if_pos hsym)

theorem stepCompressed_end (hsym : sym = 256) : stepCompressed r = .ok { r with d := (r.d.skip l).endOfBlock } := by
  refine (Decompressor.decode_bind_symbol hx _ h _).trans ?_
  subst hsym
  rfl

theorem stepCompressed_badSymbol (hsym : 285 < sym) : stepCompressed r = .error (.error .invalidRunLiteralTable) := by
  refine (Decompressor.decode_bind_symbol hx _ h _).trans ?_
  have hnone : runDecades[sym - 257]? = none := List.getElem?_eq_none (show 29 ≤ sym - 257 by omega)
  dsimp only
  rw [if_neg (by omega), if_neg (by omega), hnone]

theorem stepCompressed_match {rd : Decade} (hsym : 257 ≤ sym) (hrd : runDecades[sym - 257]? = some rd) :
    stepCompressed r = readMatch r rd (r.d.skip l) >>= fun d => pure { r with d := d } := by
  refine (Decompressor.decode_bind_symbol hx _ h _).trans ?_
  dsimp only
  rw [if_neg (by omega), if_neg (by omega), hrd]

end Token

end Sys2Proof.Machine

namespace Sys2Proof.BlockReader

open Sys2Proof.Machine

/-- Settles O48: a token is read part by part; from what each part answers, the step emits a literal, ends the block, copies a match, fails
or waits. -/
theorem compressedStep : Obligations.CompressedStep := by
  refine (fun h => ⟨fun s hsound hs hd => ?answered, h⟩) ?bits
  case answered =>
    have hwhole := (s.sound_iff.mp hsound).2.whole hd
    have hwait : exec .brStep s = .next (s.answer .needInput [4] []) → ∃ t, exec .brStep s = .next t ∧ TokenStep s t := fun hexec =>
      ⟨_, hexec, nofun, fun hst => hst.elim nofun nofun⟩
    have hfail : ∀ {u : State} {e : DecodeError}, exec .brStep s = .next (u.answer (.error e) [8] []) →
        ∃ t, exec .brStep s = .next t ∧ TokenStep s t := fun hexec => ⟨_, hexec, nofun, fun hst => hst.elim nofun nofun⟩
    have htotal : s.d.total = s.d.out.length := hwhole.d.total
    obtain ⟨hwaits, hnone, hsymbol⟩ := h s hsound hs hd
    clear h
    cases htoken : s.d.peekSymbol s.dec.runLit with
    | needInput => exact hwait (hwaits htoken)
    | noCode => exact hfail (hnone htoken)
    | symbol sym l =>
      obtain ⟨hl, hcur, -⟩ := Decompressor.peekSymbol_spec htoken hwhole.d.cursor
      have hmoved : s.d.cur < s.d.cur + l := by omega
      obtain ⟨hliteral, hend, hbad, hmatch⟩ := hsymbol sym l htoken
      rcases lt_trichotomy sym 256 with hlt | heq | hgt
      · refine ⟨_, hliteral hlt, nofun, fun _ => ⟨hmoved, ?_, .inl ⟨_, rfl, hs⟩⟩⟩
        simp [htotal]
      · refine ⟨_, hend heq, ?_, fun _ => ⟨hmoved, htotal, .inr (.inl ⟨rfl, rfl⟩)⟩⟩
        rw [State.answer_status]
        split <;> exact nofun
      · by_cases hsym : 285 < sym
        · exact hfail (hbad hsym)
        obtain ⟨rd, hrd⟩ : ∃ rd, runDecades[sym - 257]? = some rd :=
          ⟨_, List.getElem?_eq_getElem (show sym - 257 < 29 by omega)⟩
        obtain ⟨hshort, hmatch⟩ := hmatch rd hgt hrd
        by_cases hextra : s.d.cur + l + rd.extra ≤ s.d.valid
        case neg => exact hwait (hshort (not_le.mp hextra))
        obtain ⟨hbackWaits, hbackNone, hback⟩ := hmatch hextra
        cases hdist : (s.d.atBit (s.d.cur + l + rd.extra)).peekSymbol s.dec.dist with
        | needInput => exact hwait (hbackWaits hdist)
        | noCode => exact hfail (hbackNone hdist)
        | symbol k m =>
          obtain ⟨hbadDist, hback⟩ := hback k m hdist
          by_cases hk : 29 < k
          · exact hfail (hbadDist hk)
          obtain ⟨dd, hdd⟩ : ∃ dd, distDecades[k]? = some dd := ⟨_, List.getElem?_eq_getElem (show k < 30 by omega)⟩
          obtain ⟨hshort, hfar, hcopy⟩ := hback dd hdd
          by_cases hall : s.d.cur + l + rd.extra + m + dd.extra ≤ s.d.valid
          case neg => exact hwait (hshort (not_le.mp hall))
          by_cases hnear : dd.base + bitsAt s.d.input (s.d.cur + l + rd.extra + m) dd.extra ≤ s.d.total
          case neg => exact hfail (hfar hall (not_le.mp hnear))
          obtain ⟨t, copied, hexec, ht, hlen, hrun, hrun', hpos, hbytes⟩ := hcopy hall hnear
          have hdist' := distDecades_range dd (List.mem_of_getElem? hdd)
          have hbits := bitsAt_lt s.d.input (s.d.cur + l + rd.extra + m) dd.extra
          refine ⟨t, hexec, by rw [ht]; exact nofun, fun _ => ⟨?_, ?_, .inr (.inr ⟨_, _, copied, ?_, hlen, hrun, hrun', hpos, ?_, ?_, ?_, hbytes⟩)⟩⟩
          · rw [ht]
            show s.d.cur < s.d.cur + l + rd.extra + m + dd.extra
            omega
          · rw [ht]
            simp [htotal, hlen]
          · rw [ht]
            rfl
          · exact htotal ▸ hnear
          · omega
          · rw [ht]
            exact hs
  case bits =>
    intro s hsound hs hd fails waits token
    have hwhole := (s.sound_iff.mp hsound).2.whole hd
    have hx := hwhole.runLit.holds
    have hxd := hwhole.dist.holds
    have hraises : ∀ {e : DecodeError}, stepCompressed s.reader = .error (.error e) → fails e := fun h =>
      exec_brStep_raises hd ((stateStep_blockCompressed hs).trans (congrArg some h))
    have hwaits : stepCompressed s.reader = .error .needInput → waits := fun h => by
      have := exec_brStep_waits hd ((stateStep_blockCompressed hs).trans (congrArg some h))
      rwa [hs] at this
    have hcommits : ∀ {r : Reader}, stepCompressed s.reader = .ok r → exec .brStep s = _ := fun {r} h =>
      exec_brStep_commits (r := r) hd ((stateStep_blockCompressed hs).trans (congrArg some h))
    have hcommits4 : ∀ {r : Reader}, stepCompressed s.reader = .ok r → r.d.state = .blockCompressed →
        exec .brStep s = .next ((s.withReader r).answer .ok [4] []) := fun h hr => by
      have hexec := hcommits h
      rwa [hr] at hexec
    refine ⟨fun h => hwaits (stepCompressed_waits hx h), fun h => hraises (stepCompressed_noCode hx h), fun sym l hsym =>
      ⟨fun hlt => ?_, fun heq => ?_, fun hgt => hraises (stepCompressed_badSymbol hx hsym hgt), ?_⟩⟩
    · exact hcommits4 (stepCompressed_literal hx hsym hlt) hs
    · exact hcommits (stepCompressed_end hx hsym heq)
    · intro rd hge hrd run at2 back
      have hmatch := stepCompressed_match hx hsym hge hrd
      have herror : ∀ {a : Abort}, readMatch s.reader rd (s.reader.d.skip l) = .error a → stepCompressed s.reader = .error a :=
        fun h => hmatch.trans (congrArg (· >>= _) h)
      refine ⟨fun hshort => hwaits (herror (readMatch_waits hshort)), fun hextra => ⟨fun h => hwaits (herror (readMatch_waitsForDist hxd hextra h)),
        fun h => hraises (herror (readMatch_noDist hxd hextra h)), fun k m hback => ?_⟩⟩
      refine ⟨fun hbad => hraises (herror (readMatch_badDist hxd hextra hback hbad)), ?_⟩
      intro dd hdd dist
      refine ⟨fun hshort => hwaits (herror (readMatch_waitsForExtra hxd hextra hback hdd hshort)), fun hall hfar => ?_, fun hall hnear => ?_⟩
      · exact hraises (herror (readMatch_far (d := s.reader.d.skip l) hxd hextra hback hdd hall hfar))
      · have hpos : 1 ≤ dist := Nat.le_add_right_of_le (distDecades_range dd (List.mem_of_getElem? hdd)).1
        obtain ⟨e, copied, hloop, hlen, heq, hbytes⟩ := copyLoop_ok hpos run (d := (s.d.skip l).atBit (at2 + m + dd.extra)) hwhole.d.total hnear
        have hread := (readMatch_near (d := s.reader.d.skip l) hxd hextra hback hdd hall hnear).trans hloop
        have hexec := hcommits4 (hmatch.trans (congrArg (· >>= fun d => pure { s.reader with d := d }) hread)) (by rw [heq]; exact hs)
        have hrun := runDecades_range rd (List.mem_of_getElem? hrd)
        have hbits := bitsAt_lt s.d.input (s.d.cur + l) rd.extra
        exact ⟨_, copied, hexec, congrArg (fun d => ({ s with d := d } : State).answer .ok [4] []) heq, hlen, by omega, by omega, hpos, hbytes⟩

end Sys2Proof.BlockReader

end

section
/-! PROOF. `D.PUSH` completes (spec/46_stream_interface.md R551): its loop runs the state steps to the first status other than `OK`, and
the one refusal of a state step is a gzip header with optional fields (spec/60_exceptions.md R606). -/

namespace Sys2Proof.Machine

/-! ## The parts of a state step refuse nothing -/

/-- A part of a state step that never ends in a refusal. -/
def NeverRefuses {α : Type} (x : Txn α) : Prop := ∀ q, x ≠ .error (.refuse q)

section
variable {α β : Type} {x : Txn α} {f : α → Txn β}

theorem NeverRefuses.ok {a : α} : NeverRefuses (Except.ok a : Txn α) := fun _ h => by cases h

theorem NeverRefuses.needInput : NeverRefuses (Except.error .needInput : Txn α) := fun _ h => by cases h

theorem NeverRefuses.error {e : DecodeError} : NeverRefuses (Except.error (.error e) : Txn α) := fun _ h => by cases h

theorem NeverRefuses.fault {e : Fault} : NeverRefuses (Except.error (.fault e) : Txn α) := fun _ h => by cases h

theorem NeverRefuses.bind (hx : NeverRefuses x) (hf : ∀ a, NeverRefuses (f a)) : NeverRefuses (x >>= f) := by
  intro q h
  cases x with
  | error e => cases h; exact hx q rfl
  | ok a => exact hf a q h

end

theorem neverRefuses_raiseIf (c : Bool) (e : DecodeError) : NeverRefuses (raiseIf c e) := by
  unfold raiseIf
  split
  · exact .error
  · exact .ok

theorem Decompressor.neverRefuses_bits (d : Decompressor) (n : Nat) : NeverRefuses (d.bits n) := by
  unfold Decompressor.bits
  split
  · exact .needInput
  · exact .ok

theorem Decompressor.neverRefuses_byteFields (n : Nat) (d : Decompressor) : NeverRefuses (d.byteFields n) := by
  induction n generalizing d with
  | zero => exact .ok
  | succ n ih => exact (d.neverRefuses_bits 8).bind fun p => (ih p.2).bind fun _ => .ok

theorem Decompressor.neverRefuses_decode (t : Table) (x : DecTable) (e : DecodeError) (d : Decompressor) :
    NeverRefuses (d.decode t x e) := by
  unfold Decompressor.decode
  split
  · exact .fault
  · split
    · exact .ok
    · exact .needInput
    · exact .error

theorem Decompressor.neverRefuses_copyLoop (dist n : Nat) (d : Decompressor) : NeverRefuses (Decompressor.copyLoop dist n d) := by
  induction n generalizing d with
  | zero => exact .ok
  | succ n ih =>
    unfold Decompressor.copyLoop
    split
    · exact ih _
    · exact .fault

theorem neverRefuses_readMetaLens (order : List Nat) (d : Decompressor) : NeverRefuses (readMetaLens d order) := by
  induction order generalizing d with
  | nil => exact .ok
  | cons m rest ih => exact (d.neverRefuses_bits 3).bind fun p => (ih p.2).bind fun _ => .ok

theorem neverRefuses_storedHeader (d : Decompressor) : NeverRefuses (storedHeader d) :=
  (d.align.neverRefuses_bits 16).bind fun p => (p.2.neverRefuses_bits 16).bind fun _ => (neverRefuses_raiseIf _ _).bind fun _ => .ok

theorem neverRefuses_dynamicHeader (r : Reader) : NeverRefuses (dynamicHeader r) :=
  (r.d.neverRefuses_bits 5).bind fun p => (p.2.neverRefuses_bits 5).bind fun q => (q.2.neverRefuses_bits 4).bind fun _ =>
    (neverRefuses_raiseIf _ _).bind fun _ => (neverRefuses_raiseIf _ _).bind fun _ => (neverRefuses_readMetaLens _ _).bind fun _ =>
      (neverRefuses_raiseIf _ _).bind fun _ => .ok

theorem neverRefuses_readLens (t : DecTable) (seq : List Nat) (d : Decompressor) : NeverRefuses (readLens t seq d) := by
  refine (d.neverRefuses_decode _ _ _).bind fun p => ?_
  dsimp only
  split
  · exact .ok
  · split
    · split
      · exact .error
      · exact (p.2.neverRefuses_bits 2).bind fun _ => .ok
    · split
      · exact (p.2.neverRefuses_bits 3).bind fun _ => .ok
      · exact (p.2.neverRefuses_bits 7).bind fun _ => .ok

theorem neverRefuses_lensLoop (t : DecTable) (total fuel : Nat) (seq : List Nat) (d : Decompressor) :
    NeverRefuses (lensLoop t total fuel seq d) := by
  induction fuel generalizing seq d with
  | zero =>
    unfold lensLoop
    split
    · exact .ok
    · exact .fault
  | succ fuel ih =>
    unfold lensLoop
    split
    · exact .ok
    · exact (neverRefuses_readLens t seq d).bind fun _ => (neverRefuses_raiseIf _ _).bind fun _ => ih _ _

theorem neverRefuses_readMatch (r : Reader) (run : Decade) (d : Decompressor) : NeverRefuses (readMatch r run d) := by
  refine (d.neverRefuses_bits _).bind fun p => (p.2.neverRefuses_decode _ _ _).bind fun q => ?_
  dsimp only
  split
  · exact .error
  · exact (q.2.neverRefuses_bits _).bind fun _ => (neverRefuses_raiseIf _ _).bind fun _ => Decompressor.neverRefuses_copyLoop _ _ _

theorem neverRefuses_storedLoop (k : Nat) (d : Decompressor) : NeverRefuses (storedLoop k d) := by
  induction k generalizing d with
  | zero => exact .ok
  | succ k ih => exact (d.neverRefuses_bits 8).bind fun _ => ih _

theorem neverRefuses_zlibHeader (d : Decompressor) : NeverRefuses (zlibHeader d) :=
  (d.neverRefuses_bits 8).bind fun p => (p.2.neverRefuses_bits 8).bind fun _ => (neverRefuses_raiseIf _ _).bind fun _ =>
    (neverRefuses_raiseIf _ _).bind fun _ => (neverRefuses_raiseIf _ _).bind fun _ => (neverRefuses_raiseIf _ _).bind fun _ => .ok

theorem neverRefuses_streamTrailer (d : Decompressor) : NeverRefuses (streamTrailer d) := by
  unfold streamTrailer
  split
  · exact (Decompressor.neverRefuses_byteFields 4 _).bind fun _ => (neverRefuses_raiseIf _ _).bind fun _ => .ok
  · exact (Decompressor.neverRefuses_byteFields 8 _).bind fun _ => (neverRefuses_raiseIf _ _).bind fun _ =>
      (neverRefuses_raiseIf _ _).bind fun _ => .ok
  · exact .ok

theorem neverRefuses_stepBlockStart (r : Reader) : NeverRefuses (stepBlockStart r) := by
  refine (r.d.neverRefuses_bits 1).bind fun p => (p.2.neverRefuses_bits 2).bind fun q => ?_
  dsimp only
  split
  · exact (neverRefuses_storedHeader _).bind fun _ => .ok
  · exact .ok
  · exact neverRefuses_dynamicHeader _
  · exact .error

theorem neverRefuses_stepBlockTables (r : Reader) : NeverRefuses (stepBlockTables r) :=
  (neverRefuses_lensLoop _ _ _ _ _).bind fun _ => (neverRefuses_raiseIf _ _).bind fun _ => (neverRefuses_raiseIf _ _).bind fun _ =>
    (neverRefuses_raiseIf _ _).bind fun _ => .ok

theorem neverRefuses_stepCompressed (r : Reader) : NeverRefuses (stepCompressed r) := by
  refine (r.d.neverRefuses_decode _ _ _).bind fun p => ?_
  dsimp only
  split
  · exact .ok
  · split
    · exact .ok
    · split
      · exact .error
      · exact (neverRefuses_readMatch _ _ _).bind fun _ => .ok

theorem neverRefuses_stepUncompressed (r : Reader) : NeverRefuses (stepUncompressed r) := by
  unfold stepUncompressed
  split
  · exact .ok
  · dsimp only
    split
    · exact .needInput
    · exact (neverRefuses_storedLoop _ _).bind fun _ => .ok

/-- The gzip header refuses optional fields only. -/
theorem gzipHeader_refuses {d : Decompressor} {q : Reason} (h : gzipHeader d = .error (.refuse q)) : q = .gzipFields := by
  by_contra hne
  refine (?_ : gzipHeader d ≠ .error (.refuse q)) h
  intro h
  unfold gzipHeader at h
  rcases hfields : d.byteFields 10 with e | ⟨fields, d'⟩
  · rw [hfields] at h
    cases h
    exact Decompressor.neverRefuses_byteFields 10 d q hfields
  · simp only [hfields, ok_bind, raiseIf] at h
    repeat' split at h
    all_goals cases h
    exact hne rfl

/-! ## The one refusal of a step -/

/-- A state step that refuses is the gzip header meeting optional fields. -/
theorem stateStep_refuses {r : Reader} {q : Reason} (h : stateStep r = some (.error (.refuse q))) :
    r.d.state = .streamStart ∧ r.d.format = .gzip ∧ q = .gzipFields := by
  unfold stateStep at h
  cases hs : r.d.state <;> simp only [hs, Option.some.injEq, reduceCtorEq] at h
  case blockStart => exact absurd h (neverRefuses_stepBlockStart r q)
  case blockTables => exact absurd h (neverRefuses_stepBlockTables r q)
  case blockCompressed => exact absurd h (neverRefuses_stepCompressed r q)
  case blockUncompressed => exact absurd h (neverRefuses_stepUncompressed r q)
  case streamChecksum => exact absurd h (NeverRefuses.bind (neverRefuses_streamTrailer r.d) (fun _ => .ok) q)
  case streamStart =>
    have hhead : streamHeader r.d = .error (.refuse q) := by
      by_contra hne
      cases hx : streamHeader r.d with
      | ok d => rw [stepStreamStart, hx] at h; cases h
      | error e => rw [stepStreamStart, hx] at h; cases h; exact hne hx
    unfold streamHeader at hhead
    split at hhead
    · exact absurd hhead (neverRefuses_zlibHeader r.d q)
    · next hf => exact ⟨rfl, hf, gzipHeader_refuses hhead⟩
    · cases hhead

theorem brStep_refuses {r : Reader} {q : Reason} (h : brStep r = .error (.refuse q)) :
    r.d.state = .streamStart ∧ r.d.format = .gzip ∧ q = .gzipFields := by
  unfold brStep at h
  split at h
  case h_4 hstep => cases h; exact stateStep_refuses hstep
  case h_6 => split at h <;> cases h
  all_goals cases h

/-- No step leads to the start of the stream. -/
theorem OkSteps.eq_of_streamStart {r r' : Reader} (h : OkSteps r r') (hr : r.d.isOpen = true) (hs : r'.d.state = .streamStart) :
    r' = r := by
  induction h with
  | here _ => rfl
  | step r r' a ha hok hsteps ih =>
    have hturn := brStep_turn hr a ha
    rw [ih (isOpen_of_streaming (hturn.streaming_of_ok hok)) hs] at hs
    cases hturn with
    | commits r' hc =>
      have hafter : DState.streamStart ≠ afterBlock r.d := by
        unfold afterBlock
        split
        · split <;> simp
        · simp
      have htrans := transition_of_stateStep hc
      simp only [] at hs
      simp [Transition, hs, hafter] at htrans
    | waits _ | raises _ | latched _ _ | ended _ => cases hok

/-- A loop that refuses has taken steps that answered `OK` to one that refuses. -/
theorem readLoop_refuses {fuel : Nat} {r : Reader} {q : Reason} (h : readLoop fuel r = .error (.refuse q)) :
    ∃ r', OkSteps r r' ∧ brStep r' = .error (.refuse q) := by
  induction fuel generalizing r with
  | zero => cases h
  | succ fuel ih =>
    cases ha : brStep r with
    | error e =>
      rw [readLoop, ha] at h
      cases h
      exact ⟨r, .here r, ha⟩
    | ok a =>
      rw [readLoop, ha, ok_bind] at h
      split at h
      · next hok =>
        obtain ⟨r', hsteps, hr'⟩ := ih h
        exact ⟨r', .step r r' a ha hok hsteps, hr'⟩
      · cases h

/-! ## The obligation -/

/-- Settles O54: on a sound stream in progress the loop neither faults nor runs out of turns (`meets_readLoop`), so it answers, by steps
that answer `OK` and one that does not, or refuses, which only the gzip header it starts with can do. -/
theorem dPushCompletes : Obligations.DPushCompletes := by
  intro bytes s hs hopen hd herr hend
  have hstream := Decompressor.streaming_of_ne hopen hend herr
  have hwhole : (s.feedReader bytes).reader.Whole := (s.sound_iff.mp hs).2.feed hd hstream bytes |>.whole hd
  have hopen' : (s.feedReader bytes).reader.d.isOpen = true := hopen
  have hexec := exec_dPush bytes hstream hd
  have hmeets := meets_readLoop _ hwhole hopen' (Reader.left_lt_turns _)
  rcases hloop : readLoop (s.feedReader bytes).d.turns (s.feedReader bytes).reader with (q | f) | a
  · obtain ⟨r', hsteps, hr'⟩ := readLoop_refuses hloop
    obtain ⟨hstart, hgzip, rfl⟩ := brStep_refuses hr'
    have hr := hsteps.eq_of_streamStart hopen' hstart
    rw [hr] at hstart hgzip hr'
    rw [hloop] at hexec
    exact ⟨_, hexec, fun _ => ⟨hgzip, hstart, rfl, hr'⟩, fun hne => absurd rfl hne⟩
  · exact absurd hloop (hmeets.noFault f)
  · obtain ⟨hread, hne, hstatus⟩ := hmeets.answer a hloop
    obtain ⟨r', hsteps, hr', -⟩ := readLoop_okSteps _ _ a hloop
    rw [hloop] at hexec
    refine ⟨_, hexec, fun href => ?_, fun _ => ⟨hstatus, hread.input, hread.format, hread.drained, hread.cur, hread.out, rfl, rfl, rfl,
      r', a, hsteps, hr', hne, rfl⟩⟩
    have href : a.status = .refused := href
    simp [href] at hstatus

end Sys2Proof.Machine
end

section
/-! PROOF. The stream trailer (spec/45_block_reader.md R525): what `STREAM_CHECKSUM` does at the bytes that follow the byte boundary, and
that a push ends a zlib or gzip stream by that step only. -/

namespace Sys2Proof.Machine

/-! ## The trailer and its comparison -/

/-- The number of trailer bytes of a format (spec/46_stream_interface.md R566, R586). -/
def trailerSize : Format → Nat
  | .zlib => 4
  | .gzip => 8
  | .raw => 0

/-- The input from the next byte boundary on. -/
def Decompressor.beyond (d : Decompressor) : List Byte := d.input.drop ((d.cur + 7) / 8)

/-- The comparison of the trailer with the check registers (spec/45_block_reader.md R525). -/
def Decompressor.TrailerFits (d : Decompressor) : Prop :=
  match d.format with
  | .zlib => bigEndian ((d.beyond.take 4).map BitVec.toNat) = d.check.toNat
  | .gzip => littleEndian ((d.beyond.take 4).map BitVec.toNat) = d.check.toNat
      ∧ littleEndian (((d.beyond.drop 4).take 4).map BitVec.toNat) = d.total % 2 ^ 32
  | .raw => True

/-- The decompressor past a trailer of `n` bytes. -/
def Decompressor.past (d : Decompressor) (n : Nat) : Decompressor := { d with cur := 8 * ((d.cur + 7) / 8) + 8 * n }

/-- The decompressor at the end of its stream, past a trailer of `n` bytes (spec/45_block_reader.md R525). -/
def Decompressor.ended (d : Decompressor) (n : Nat) : Decompressor := { d.past n with state := .streamEnd }

theorem raiseIf_bne_of_ne {a b : Nat} {e : DecodeError} (h : a ≠ b) : raiseIf (a != b) e = .error (.error e) := by
  rw [bne_iff_ne.mpr h, raiseIf_true]

theorem raiseIf_bne_of_eq {a b : Nat} {e : DecodeError} (h : a = b) : raiseIf (a != b) e = .ok () := by
  rw [h, bne_self_eq_false, raiseIf_false]

section
variable {d : Decompressor} {n : Nat}

@[simp] theorem Decompressor.past_check (d : Decompressor) (n : Nat) : (d.past n).check = d.check := rfl

@[simp] theorem Decompressor.past_total (d : Decompressor) (n : Nat) : (d.past n).total = d.total := rfl

theorem Decompressor.align_eq_past (d : Decompressor) : d.align = d.past 0 := by
  unfold Decompressor.align Decompressor.past
  rw [Nat.mul_comm]
  rfl

/-- Byte fields that start at a byte boundary are the bytes there. -/
theorem Decompressor.byteFields_align (h : n ≤ d.beyond.length) :
    d.align.byteFields n = .ok ((d.beyond.take n).map BitVec.toNat, d.past n) := by
  have hlen : (d.cur + 7) / 8 + n ≤ d.input.length ∨ n = 0 := by
    simp only [Decompressor.beyond, List.length_drop] at h
    omega
  rcases hlen with hlen | rfl
  · have hthere : d.align.cur + 8 * n ≤ d.align.valid := by
      simp only [Decompressor.align, Decompressor.valid]
      omega
    have hbytes : (List.range n).map (fun k => bitsAt d.align.input (d.align.cur + 8 * k) 8) = (d.beyond.take n).map BitVec.toNat := by
      refine List.ext_getElem (by simp; exact h.trans' le_rfl) fun k hk hk' => ?_
      simp only [List.length_map, List.length_range] at hk
      have haligned : (d.align.cur + 8 * k) % 8 = 0 := by
        simp only [Decompressor.align]
        omega
      have hindex : (d.align.cur + 8 * k) / 8 = (d.cur + 7) / 8 + k := by
        simp only [Decompressor.align]
        omega
      have hbyte := congrArg BitVec.toNat (bitsAt_byte d.align.input haligned)
      rw [BitVec.toNat_ofNat, Nat.mod_eq_of_lt (bitsAt_lt _ _ _), hindex,
        List.getD_eq_getElem _ _ (show (d.cur + 7) / 8 + k < d.align.input.length from by simp [Decompressor.align]; omega)] at hbyte
      simpa [Decompressor.beyond] using hbyte
    rw [Decompressor.byteFields_ok hthere, hbytes]
    simp only [Decompressor.align, Decompressor.past, Nat.mul_comm 8]
  · simp [Decompressor.byteFields, Decompressor.align_eq_past]

theorem Decompressor.byteFields_align_waits (hcur : d.cur ≤ d.valid) (h : d.beyond.length < n) :
    d.align.byteFields n = .error .needInput := by
  simp only [Decompressor.beyond, List.length_drop] at h
  simp only [Decompressor.valid] at hcur
  refine Decompressor.byteFields_waits ?_ ?_ <;> simp only [Decompressor.align, Decompressor.valid] <;> omega

theorem streamTrailer_waits (hcur : d.cur ≤ d.valid) (h : d.beyond.length < trailerSize d.format) :
    streamTrailer d = .error .needInput := by
  unfold streamTrailer
  cases hf : d.format <;> rw [hf, trailerSize] at h
  · simp only [Decompressor.byteFields_align_waits hcur h, error_bind]
  · simp only [Decompressor.byteFields_align_waits hcur h, error_bind]
  · exact absurd h (Nat.not_lt_zero _)

theorem streamTrailer_fails (h : trailerSize d.format ≤ d.beyond.length) (hfits : ¬ d.TrailerFits) :
    streamTrailer d = .error (.error .checksumMismatch) := by
  unfold streamTrailer
  unfold Decompressor.TrailerFits at hfits
  cases hf : d.format <;> simp only [hf, trailerSize] at h hfits
  · simp only [Decompressor.byteFields_align h, ok_bind, Decompressor.past_check]
    rw [raiseIf_bne_of_ne hfits, error_bind]
  · simp only [Decompressor.byteFields_align h, ok_bind, ← List.map_take, ← List.map_drop, List.take_take, List.drop_take,
      Decompressor.past_check, Decompressor.past_total, show min 4 8 = 4 from rfl, Nat.reduceSub]
    by_cases hcheck : littleEndian ((d.beyond.take 4).map BitVec.toNat) = d.check.toNat
    · rw [raiseIf_bne_of_eq hcheck, ok_bind, raiseIf_bne_of_ne fun h => hfits ⟨hcheck, h⟩, error_bind]
    · rw [raiseIf_bne_of_ne hcheck, error_bind]
  · exact absurd trivial hfits

theorem streamTrailer_passes (h : trailerSize d.format ≤ d.beyond.length) (hfits : d.TrailerFits) :
    streamTrailer d = .ok (d.past (trailerSize d.format)) := by
  unfold streamTrailer
  unfold Decompressor.TrailerFits at hfits
  cases hf : d.format <;> simp only [hf, trailerSize] at h hfits ⊢
  · simp only [Decompressor.byteFields_align h, ok_bind, Decompressor.past_check]
    rw [raiseIf_bne_of_eq hfits]
    rfl
  · simp only [Decompressor.byteFields_align h, ok_bind, ← List.map_take, ← List.map_drop, List.take_take, List.drop_take,
      Decompressor.past_check, Decompressor.past_total, show min 4 8 = 4 from rfl, Nat.reduceSub]
    rw [raiseIf_bne_of_eq hfits.1, ok_bind, raiseIf_bne_of_eq hfits.2]
    rfl
  · exact congrArg Except.ok d.align_eq_past

end

/-! ## The step of `STREAM_CHECKSUM` -/

section
variable {s : State} {r : Reader}

theorem stateStep_streamChecksum (hs : r.d.state = .streamChecksum) : stateStep r = some (stepChecksum r) := by
  rw [stateStep, hs]

theorem exec_streamChecksum_waits (hs : s.d.state = .streamChecksum) (hd : s.d.disturbed = false) (hcur : s.d.cur ≤ s.d.valid)
    (h : s.d.beyond.length < trailerSize s.d.format) : exec .brStep s = .next (s.answer .needInput [6] []) := by
  have hstep := stateStep_streamChecksum (r := s.reader) hs
  rw [stepChecksum, streamTrailer_waits (d := s.reader.d) hcur h] at hstep
  rw [exec_brStep_waits hd hstep, hs]
  rfl

theorem exec_streamChecksum_fails (hs : s.d.state = .streamChecksum) (hd : s.d.disturbed = false)
    (h : trailerSize s.d.format ≤ s.d.beyond.length) (hfits : ¬ s.d.TrailerFits) :
    exec .brStep s = .next (({ s with
      d := { s.d with state := .error, err := some .checksumMismatch } } : State).answer (.error .checksumMismatch) [8] []) := by
  have hstep := stateStep_streamChecksum (r := s.reader) hs
  rw [stepChecksum, streamTrailer_fails (d := s.reader.d) h hfits] at hstep
  exact exec_brStep_raises hd hstep

theorem exec_streamChecksum_ends (hs : s.d.state = .streamChecksum) (hd : s.d.disturbed = false)
    (h : trailerSize s.d.format ≤ s.d.beyond.length) (hfits : s.d.TrailerFits) :
    exec .brStep s = .next (({ s with
      d := s.d.ended (trailerSize s.d.format) } : State).answer .finished [7] []) := by
  have hstep := stateStep_streamChecksum (r := s.reader) hs
  rw [stepChecksum, streamTrailer_passes (d := s.reader.d) h hfits] at hstep
  exact exec_brStep_commits hd hstep

/-- A `STREAM_CHECKSUM` step that commits has found the whole trailer and found it equal. -/
theorem stepChecksum_ok {r' : Reader} (hcur : r.d.cur ≤ r.d.valid) (h : stepChecksum r = .ok r') :
    trailerSize r.d.format ≤ r.d.beyond.length ∧ r.d.TrailerFits
      ∧ r'.d = r.d.ended (trailerSize r.d.format) := by
  by_cases hlen : r.d.beyond.length < trailerSize r.d.format
  · rw [stepChecksum, streamTrailer_waits hcur hlen] at h
    cases h
  · by_cases hfits : r.d.TrailerFits
    · rw [stepChecksum, streamTrailer_passes (not_lt.mp hlen) hfits] at h
      cases h
      exact ⟨not_lt.mp hlen, hfits, rfl⟩
    · rw [stepChecksum, streamTrailer_fails (not_lt.mp hlen) hfits] at h
      cases h

end

/-! ## How a push ends a stream -/

/-- Steps that answered `OK` read on. -/
theorem OkSteps.readOn {r r' : Reader} (h : OkSteps r r') (hw : r.Whole) (ho : r.d.isOpen = true) : ReadOn r r' := by
  induction h with
  | here r => exact .refl hw ho
  | step r r' a ha _ _ ih =>
    have hr := ((meets_brStep hw ho).answer a ha).readOn hw ho
    exact hr.trans (ih hr.whole hr.isOpen)

/-- A turn that ends a stream in progress with a trailer is its `STREAM_CHECKSUM` step (spec/45_block_reader.md R516, R525). -/
theorem stepChecksum_of_finished {r : Reader} {a : StepAnswer} (hr : r.d.streaming = true) (hf : r.d.format ≠ .raw)
    (ha : brStep r = .ok a) (hfin : a.status = .finished) : r.d.state = .streamChecksum ∧ stepChecksum r = .ok a.reader := by
  cases brStep_turn (isOpen_of_streaming hr) a ha with
  | commits r' hc =>
    have hend : r'.d.state = .streamEnd := by
      by_contra hne
      simp [hne] at hfin
    have hafter : DState.streamEnd ≠ afterBlock r.d := by simp only [afterBlock, hf, if_false]; split <;> simp
    have hne : r.d.state ≠ .streamEnd := fun h => by simp [Decompressor.streaming, h] at hr
    have hstate : r.d.state = .streamChecksum := by simpa [Transition, hend, hafter, hne] using transition_of_stateStep hc
    exact ⟨hstate, Option.some.inj ((stateStep_streamChecksum hstate).symm.trans hc)⟩
  | ended h => simp [Decompressor.streaming, h] at hr
  | waits _ | raises _ | latched _ _ => cases hfin

/-- A push that reaches the end of a stream with a trailer ends by a `STREAM_CHECKSUM` step from a sound reader. -/
theorem Accepts.endsChecked {bytes : List Byte} {s t : State} (hs : s.Sound) (hd : s.d.disturbed = false)
    (hend : s.d.state ≠ .streamEnd) (h : Accepts (.dPush bytes) s t) (hfin : t.status = .finished) (hf : t.d.format ≠ .raw) :
    ∃ r : Reader, r.Whole ∧ r.d.isOpen = true ∧ stepChecksum r = .ok ⟨t.d, t.dec⟩ := by
  have hopen : s.d.isOpen = true := opened_of_accepted h.1 h.2
  have herr : s.d.state ≠ .error := fun he => by
    obtain ⟨e, hlatched, rfl⟩ := h.exists_answer (exec_dPush_of_error hd bytes he)
    unfold Decompressor.latched at hlatched
    split at hlatched <;> cases hlatched
    cases hfin
  have hstream := Decompressor.streaming_of_ne hopen hend herr
  have hwhole : (s.feedReader bytes).reader.Whole := (s.sound_iff.mp hs).2.feed hd hstream bytes |>.whole hd
  obtain ⟨a, hloop, rfl⟩ := h.exists_answer (exec_dPush bytes hstream hd)
  obtain ⟨r, hsteps, ha, -⟩ := readLoop_okSteps _ _ a hloop
  have hread := hsteps.readOn hwhole hopen
  have hfin : a.status = .finished := hfin
  have hformat : r.d.format ≠ .raw := by
    have := ((meets_brStep hread.whole hread.isOpen).answer a ha).readOn hread.whole hread.isOpen
    rw [← this.format]
    exact hf
  exact ⟨r, hread.whole, hread.isOpen, (stepChecksum_of_finished (hsteps.streaming hstream) hformat ha hfin).2⟩

/-! ## The obligation -/

/-- The bytes before the cursor past a trailer are that trailer. -/
theorem take_ended_drop {d : Decompressor} {n : Nat} :
    ((d.ended n).input.take ((d.ended n).cur / 8)).drop ((d.ended n).cur / 8 - n) = d.beyond.take n := by
  have hcur : (d.ended n).cur / 8 = (d.cur + 7) / 8 + n := by
    simp only [Decompressor.ended, Decompressor.past]
    omega
  rw [hcur, Nat.add_sub_cancel, List.drop_take, Nat.add_sub_cancel_left]
  rfl

theorem Decompressor.ended_cur_mod (d : Decompressor) (n : Nat) : (d.ended n).cur % 8 = 0 := by
  simp only [Decompressor.ended, Decompressor.past]
  omega

/-- Settles O49: the step of `STREAM_CHECKSUM` waits for the trailer, compares it and ends the stream, and it is the only turn by
which a push reaches the end of a stream with a trailer. -/
theorem finishedMeansChecked : Obligations.FinishedMeansChecked := by
  refine ⟨fun bytes s t hs hd hend hacc hfin => ?_, fun s hs hstate hd => ?_⟩
  · intro trailer
    have hchecked : ∀ f, f ≠ .raw → t.d.format = f → t.d.cur % 8 = 0 ∧ (trailer (trailerSize f)).length = trailerSize f
        ∧ ∃ d : Decompressor, d.format = f ∧ trailer (trailerSize f) = d.beyond.take (trailerSize f) ∧ d.TrailerFits
          ∧ d.check = checkOver f (checkInit f) t.d.out ∧ d.total = t.d.out.length := by
      intro f hraw hf
      obtain ⟨r, hwhole, hopen, hstep⟩ := hacc.endsChecked hs hd hend hfin (hf ▸ hraw)
      obtain ⟨hlen, hfits, htd⟩ := stepChecksum_ok hwhole.d.cursor hstep
      have htd : t.d = r.d.ended (trailerSize r.d.format) := htd
      have hformat : r.d.format = f := (congrArg Decompressor.format htd).symm.trans hf
      have hout : t.d.out = r.d.out := (congrArg Decompressor.out htd).trans rfl
      rw [hformat] at hlen htd
      have htrailer : trailer (trailerSize f) = r.d.beyond.take (trailerSize f) := by
        have := take_ended_drop (d := r.d) (n := trailerSize f)
        rwa [← htd] at this
      refine ⟨?_, ?_, r.d, hformat, htrailer, hfits, ?_, ?_⟩
      · rw [htd]
        exact r.d.ended_cur_mod _
      · rw [htrailer, List.length_take, Nat.min_eq_left hlen]
      · rw [hout, ← hformat]
        exact hwhole.d.check hopen
      · rw [hout]
        exact hwhole.d.total
    refine ⟨fun hf => ?_, fun hf => ?_⟩
    · obtain ⟨hcur, hlen, d, hformat, htrailer, hfits, hcheck, -⟩ := hchecked .zlib (by decide) hf
      rw [Decompressor.TrailerFits, hformat] at hfits
      exact ⟨hcur, hlen, (congrArg (fun b : List Byte => bigEndian (b.map BitVec.toNat)) htrailer).trans (hfits.trans (congrArg BitVec.toNat hcheck))⟩
    · obtain ⟨hcur, hlen, d, hformat, htrailer, hfits, hcheck, htotal⟩ := hchecked .gzip (by decide) hf
      rw [Decompressor.TrailerFits, hformat] at hfits
      have htrailer : trailer 8 = d.beyond.take 8 := htrailer
      have hfront : (trailer 8).take 4 = d.beyond.take 4 := by rw [htrailer, List.take_take]; rfl
      have hback : (trailer 8).drop 4 = (d.beyond.drop 4).take 4 := by rw [htrailer, List.drop_take]
      exact ⟨hcur, hlen, hfront ▸ hfits.1.trans (congrArg BitVec.toNat hcheck), hback ▸ htotal ▸ hfits.2⟩
  · intro start trailer value fails waits ends
    have hwhole : s.reader.Whole := (s.sound_iff.mp hs).2.whole hd
    have hcur : s.d.cur ≤ s.d.valid := hwhole.d.cursor
    have hopen : s.d.isOpen = true := by simp [Decompressor.isOpen, hstate]
    have hcheck : s.d.check = checkOver s.d.format (checkInit s.d.format) s.d.out := hwhole.d.check hopen
    have htotal : s.d.total = s.d.out.length := hwhole.d.total
    have hwait := fun h => exec_streamChecksum_waits hstate hd hcur h
    have hfail := fun h hne => exec_streamChecksum_fails hstate hd h hne
    have hpass := fun h heq => exec_streamChecksum_ends hstate hd h heq
    refine ⟨fun hf => ?_, fun hf => ?_⟩
    · rw [hf] at hcheck
      have hfits : s.d.TrailerFits ↔ bigEndian ((trailer.take 4).map BitVec.toNat) = (adler32 1 s.d.out).toNat := by
        simp only [Decompressor.TrailerFits, hf, hcheck]
        rfl
      rw [hf] at hwait hfail hpass
      exact ⟨hwait, fun h hne => hfail h (hfits.not.mpr hne), fun h heq => hpass h (hfits.mpr heq)⟩
    · rw [hf] at hcheck
      have hfits : s.d.TrailerFits ↔ value 0 4 = (crc32 0 s.d.out).toNat ∧ value 4 4 = s.d.out.length % 2 ^ 32 := by
        simp only [Decompressor.TrailerFits, hf, hcheck, htotal]
        rfl
      rw [hf] at hwait hfail hpass
      exact ⟨hwait, fun h hne => hfail h (hfits.not.mpr (not_and_or.mpr hne)), fun h hcrc hsize => hpass h (hfits.mpr ⟨hcrc, hsize⟩)⟩

end Sys2Proof.Machine
end

section
/-! PROOF. The stored round trip: the bits of a byte sequence determine it, and fields of it are the numbers they were written from; from
both, the three steps by which `D.PUSH` reads a stored block that the core has written (spec/44_block_writer.md R448,
spec/45_block_reader.md R494, R495, R520). -/

namespace Sys2Proof.Machine

/-! ## A byte sequence by its bits (spec/00_scope.md R10) -/

theorem bitsOfBytes_cons (b : Byte) (bytes : List Byte) : bitsOfBytes (b :: bytes) = lowBits 8 b.toNat ++ bitsOfBytes bytes := rfl

theorem getElem?_lowBits {n j : Nat} (v : Nat) (h : j < n) : (lowBits n v)[j]? = some (v.testBit j) := by
  simp [lowBits, h]

theorem getElem?_bitsOfBytes {bytes : List Byte} {i : Nat} (h : i < 8 * bytes.length) :
    (bitsOfBytes bytes)[i]? = some (bitAt bytes i) := by
  induction bytes generalizing i with
  | nil => simp at h
  | cons b bytes ih =>
    rw [bitsOfBytes_cons]
    by_cases hi : i < 8
    · rw [List.getElem?_append_left (by simpa using hi), getElem?_lowBits _ hi, bitAt, Nat.div_eq_of_lt hi, Nat.mod_eq_of_lt hi]
      rfl
    · have hdiv : i / 8 = (i - 8) / 8 + 1 := by omega
      have hmod : i % 8 = (i - 8) % 8 := by omega
      rw [List.getElem?_append_right (by simpa using hi), length_lowBits, ih (by simp only [List.length_cons] at h; omega), bitAt, bitAt,
        hdiv, hmod]
      rfl

/-- A number written on a stream is read there again. -/
theorem bitsAt_of_bitsOfBytes {bytes : List Byte} {before rest : List Bool} {n v : Nat}
    (h : bitsOfBytes bytes = before ++ lowBits n v ++ rest) (hv : v < 2 ^ n) : bitsAt bytes before.length n = v := by
  have hlen := congrArg List.length h
  simp only [length_bitsOfBytes, List.length_append, length_lowBits] at hlen
  refine Nat.eq_of_testBit_eq fun j => ?_
  rw [testBit_bitsAt]
  by_cases hj : j < n
  · have hbit := getElem?_bitsOfBytes (bytes := bytes) (i := before.length + j) (by omega)
    rw [h, List.append_assoc, List.getElem?_append_right (Nat.le_add_right _ _), Nat.add_sub_cancel_left,
      List.getElem?_append_left (by simpa using hj), getElem?_lowBits _ hj, Option.some.injEq] at hbit
    rw [decide_eq_true hj, Bool.true_and, hbit]
  · rw [decide_eq_false hj, Bool.false_and, Nat.testBit_lt_two_pow (hv.trans_le (Nat.pow_le_pow_right (by decide) (not_lt.mp hj)))]

theorem bitsOfBytes_drop (bytes : List Byte) (n : Nat) : bitsOfBytes (bytes.drop n) = (bitsOfBytes bytes).drop (8 * n) := by
  induction n generalizing bytes with
  | zero => rfl
  | succ n ih =>
    cases bytes with
    | nil => simp
    | cons b bytes => rw [List.drop_succ_cons, ih, bitsOfBytes_cons, Nat.mul_succ, Nat.add_comm, ← List.drop_drop,
        List.drop_left' (length_lowBits _ _)]

/-- The bits of a byte sequence determine it. -/
theorem bitsOfBytes_injective : Function.Injective bitsOfBytes := by
  intro a b h
  have hlen := congrArg List.length h
  simp only [length_bitsOfBytes] at hlen
  refine List.ext_getElem (by omega) fun i hi hi' => BitVec.eq_of_getLsbD_eq fun j hj => ?_
  have hbit : bitAt a (8 * i + j) = bitAt b (8 * i + j) :=
    Option.some.inj ((getElem?_bitsOfBytes (by omega)).symm.trans ((congrArg (·[8 * i + j]?) h).trans (getElem?_bitsOfBytes (by omega))))
  have hdiv : (8 * i + j) / 8 = i := by omega
  have hmod : (8 * i + j) % 8 = j := by omega
  simpa [bitAt, hdiv, hmod, hi, hi'] using hbit

/-! ## The loop of `D.PUSH`, turn by turn -/

theorem readLoop_of_ok {r r' : Reader} (fuel : Nat) (h : brStep r = .ok ⟨r', .ok⟩) : readLoop (fuel + 1) r = readLoop fuel r' := by
  rw [readLoop, h, ok_bind]
  rfl

theorem readLoop_of_ne {r : Reader} {a : StepAnswer} (fuel : Nat) (h : brStep r = .ok a) (hne : a.status ≠ .ok) :
    readLoop (fuel + 1) r = .ok a := by
  rw [readLoop, h, ok_bind, if_neg hne]
  rfl

/-! ## The stored block written and read back -/

/-- What a fresh sink returns of a final stored block: three header bits, the padding, the length, its complement, the bytes. -/
theorem bitsOfBytes_storedBlock (hint : Word) (hhint : hint ≠ 0) (bytes : List Byte) :
    bitsOfBytes (((Sink.init hint.toNat).stored true bytes).pull.1) =
      [true, false, false] ++ padding 3 ++ lowBits 16 bytes.length ++ lowBits 16 (65535 - bytes.length) ++ bitsOfBytes bytes := by
  have hstream := (Sink.init hint.toNat).stream_stored true bytes
  rw [((Sink.sound_init _ (BitVec.toNat_pos_of_ne_zero hhint)).stored true bytes).bitsOfBytes_pull, hstream]
  have hwhole : padding ((Sink.init hint.toNat).stream ++ [true, false, false] ++ padding ((Sink.init hint.toNat).stream.length + 3)
      ++ lowBits 16 bytes.length ++ lowBits 16 (65535 - bytes.length) ++ bitsOfBytes bytes).length = [] := by
    have hempty : (Sink.init hint.toNat).stream = [] := rfl
    simp [hempty, padding]
    omega
  rw [hwhole, List.append_nil]
  rfl

/-- The three header bits of a final stored block, read as its two fields (spec/45_block_reader.md R494). -/
theorem bitsAt_of_finalStored {data : List Byte} {tail : List Bool} (h : bitsOfBytes data = [true, false, false] ++ tail) :
    bitsAt data 0 1 = 1 ∧ bitsAt data 1 2 = 0 :=
  ⟨bitsAt_of_bitsOfBytes (before := []) (v := 1) (rest := [false, false] ++ tail) h (by decide),
    bitsAt_of_bitsOfBytes (before := [true]) (v := 0) (rest := tail) h (by decide)⟩

/-- A reader at the start of a raw stream with its input. -/
def rawReader (data : List Byte) : Reader := { d := { Decompressor.fresh .raw with input := data }, dec := DecTables.cleared }

/-- That reader at its first block. -/
def rawBlock (data : List Byte) : Reader := { rawReader data with d := { (rawReader data).d with state := .blockStart } }

/-- That reader past the header of a final stored block of `n` bytes. -/
def rawStored (data : List Byte) (n : Nat) : Reader := { rawReader data with d := { (rawReader data).d with
  state := .blockUncompressed, cur := 40, final := true, storedLeft := BitVec.ofNat 16 n } }

section
variable {data bytes : List Byte} (h : bitsOfBytes data =
  [true, false, false] ++ padding 3 ++ lowBits 16 bytes.length ++ lowBits 16 (65535 - bytes.length) ++ bitsOfBytes bytes)
  (hlen : bytes.length ≤ 65535)
include h

theorem length_of_storedBlock : data.length = bytes.length + 5 := by
  have := congrArg List.length h
  simp [padding] at this
  omega

theorem drop_of_storedBlock : data.drop 5 = bytes := by
  refine bitsOfBytes_injective ?_
  rw [bitsOfBytes_drop, h]
  exact List.drop_left' (by simp [padding])

include hlen

theorem stepBlockStart_rawBlock : stepBlockStart (rawBlock data) = .ok (rawStored data bytes.length) := by
  have hdata := length_of_storedBlock h
  have hvalid : (rawBlock data).d.valid = 8 * data.length := rfl
  have hcur : (rawBlock data).d.cur = 0 := rfl
  obtain ⟨hfinal, htype⟩ := bitsAt_of_finalStored
    (tail := padding 3 ++ lowBits 16 bytes.length ++ lowBits 16 (65535 - bytes.length) ++ bitsOfBytes bytes)
    (h.trans (by simp only [List.append_assoc]))
  have hlength : bitsAt data 8 16 = bytes.length :=
    bitsAt_of_bitsOfBytes (before := [true, false, false] ++ padding 3)
      (rest := lowBits 16 (65535 - bytes.length) ++ bitsOfBytes bytes) (by rw [h]; simp only [List.append_assoc]) (by omega)
  have hcomplement : bitsAt data 24 16 = 65535 - bytes.length := by
    have := bitsAt_of_bitsOfBytes (before := [true, false, false] ++ padding 3 ++ lowBits 16 bytes.length) h (by omega)
    simpa [padding] using this
  have hgood : bitsAt data 8 16 + bitsAt data 24 16 = 65535 := by omega
  have hthere : 40 ≤ ((rawBlock data).d.headed 0).valid := by
    change 40 ≤ (rawBlock data).d.valid
    omega
  have hstart : (((rawBlock data).d.headed 0).cur + 7) / 8 * 8 = 8 := (by decide : (0 + 3 + 7) / 8 * 8 = 8)
  rw [stepBlockStart_stored (r := rawBlock data) (by omega) htype, storedHeader_passes hstart hthere hgood, ok_bind,
    show bitsAt ((rawBlock data).d.headed 0).input 8 16 = bytes.length from hlength, Decompressor.headed,
    show bitsAt (rawBlock data).d.input (rawBlock data).d.cur 1 = 1 from hfinal]
  rfl

theorem stepUncompressed_rawStored : ∃ r, stepUncompressed (rawStored data bytes.length) = .ok r ∧ r.d.state = .streamEnd
    ∧ r.d.out = bytes ∧ r.d.cur = 8 * data.length := by
  have hdata := length_of_storedBlock h
  have hleft : (rawStored data bytes.length).d.storedLeft.toNat = bytes.length := by
    simp only [rawStored, BitVec.toNat_ofNat]
    omega
  have hnow : (rawStored data bytes.length).d.storedNow = bytes.length := by
    have hthere : ((rawStored data bytes.length).d.valid - (rawStored data bytes.length).d.cur) / 8 = bytes.length := by
      change (8 * data.length - 40) / 8 = _
      omega
    rw [Decompressor.storedNow, hleft, hthere, Nat.min_self]
  have hcur : (rawStored data bytes.length).d.cur ≤ (rawStored data bytes.length).d.valid := by
    change 40 ≤ 8 * data.length
    omega
  have hsome : (rawStored data bytes.length).d.storedLeft = 0 ∨ 0 < (rawStored data bytes.length).d.storedNow := by
    rw [hnow, ← BitVec.toNat_inj, hleft]
    exact Nat.eq_zero_or_pos _
  obtain ⟨hist, hok, -⟩ := stepUncompressed_ok (r := rawStored data bytes.length) rfl (by decide : 40 % 8 = 0) hcur hsome
  refine ⟨_, hok, ?_, ?_, ?_⟩
  · exact if_pos (hnow.trans hleft.symm)
  · change [] ++ (data.drop (40 / 8)).take (rawStored data bytes.length).d.storedNow = bytes
    rw [hnow, drop_of_storedBlock h, List.take_length, List.nil_append]
  · change 40 + 8 * _ = _
    rw [hnow]
    omega

/-- The decompressor reads a raw stream of one stored block to its end in three steps (spec/45_block_reader.md R492, R495, R520). -/
theorem readLoop_storedBlock (fuel : Nat) : ∃ a, readLoop (fuel + 3) (rawReader data) = .ok a
    ∧ a.status = .finished ∧ a.reader.d.out = bytes ∧ a.reader.d.cur = 8 * data.length := by
  obtain ⟨r, hcopy, hend, hout, hcur⟩ := stepUncompressed_rawStored h hlen
  have hfirst : brStep (rawReader data) = .ok ⟨rawBlock data, .ok⟩ := rfl
  have hsecond : brStep (rawBlock data) = .ok ⟨rawStored data bytes.length, .ok⟩ := by
    have hstep : stateStep (rawBlock data) = some (stepBlockStart (rawBlock data)) := rfl
    rw [brStep, hstep, stepBlockStart_rawBlock h hlen]
    rfl
  have hthird : brStep (rawStored data bytes.length) = .ok ⟨r, .finished⟩ := by
    have hstep : stateStep (rawStored data bytes.length) = some (stepUncompressed (rawStored data bytes.length)) := rfl
    rw [brStep, hstep, hcopy]
    exact congrArg (fun b => Except.ok (StepAnswer.mk r b)) (if_pos hend)
  refine ⟨⟨r, .finished⟩, ?_, rfl, hout, hcur⟩
  rw [readLoop_of_ok _ hfirst, readLoop_of_ok _ hsecond, readLoop_of_ne _ hthird (by simp)]

end

/-- Settles O56: the writer's bytes are one stored block, which the reader of a fresh raw stream reads in three steps. -/
theorem storedRoundTrip : Obligations.StoredRoundTrip := by
  intro hint bytes s hhint hlen
  have hopen : ((Sink.init hint.toNat).stored true bytes).isOpen = true := Sink.isOpen_stored _ _ _
  have hblock := bitsOfBytes_storedBlock hint hhint bytes
  set data := ((Sink.init hint.toNat).stored true bytes).pull.1 with hdata
  have hturns : ∃ fuel, (rawReader data).d.turns = fuel + 3 := by
    have hlong := length_of_storedBlock hblock
    refine ⟨(rawReader data).d.turns - 3, ?_⟩
    have : (rawReader data).d.turns = 2 * (8 * data.length - 0) + 2 := rfl
    omega
  obtain ⟨fuel, hfuel⟩ := hturns
  obtain ⟨a, hloop, hfin, hout, hcur⟩ := readLoop_storedBlock hblock hlen fuel
  rw [← hfuel] at hloop
  refine ⟨_, _, _, _, _, finish_afterCheck (by simpa using hhint), (finish_opened rfl).trans (finish_afterCheck (by simpa using hlen)),
    finish_opened hopen, rfl, (exec_dPush data rfl rfl).trans (congrArg (fun x => State.finish _ (x >>= _)) hloop), hfin, hout, hcur⟩

end Sys2Proof.Machine
end

section
/-! PROOF. Decoding does not depend on how the input is split (spec/45_block_reader.md R530): a step that does not wait does the same with
more input behind it, but for a stored copy cut short, which the longer input lets go on; a run of steps to the end of the first piece
goes on as the run over both. -/

namespace Sys2Proof.Machine

/-! ## More input -/

/-- The decompressor with more input behind what it holds. -/
def Decompressor.fed (d : Decompressor) (more : List Byte) : Decompressor := { d with input := d.input ++ more }

def Reader.fed (r : Reader) (more : List Byte) : Reader := { r with d := r.d.fed more }

def StepAnswer.fed (a : StepAnswer) (more : List Byte) : StepAnswer := { a with reader := a.reader.fed more }

@[simp] theorem Decompressor.fed_nil (d : Decompressor) : d.fed [] = d := by
  simp [Decompressor.fed]

@[simp] theorem Decompressor.fed_fed (d : Decompressor) (a b : List Byte) : (d.fed a).fed b = d.fed (a ++ b) := by
  simp [Decompressor.fed]

theorem Decompressor.valid_fed (d : Decompressor) (more : List Byte) : (d.fed more).valid = d.valid + 8 * more.length := by
  simp only [Decompressor.valid, Decompressor.fed, List.length_append]
  omega

theorem bitAt_append {bytes : List Byte} {i : Nat} (more : List Byte) (h : i < 8 * bytes.length) :
    bitAt (bytes ++ more) i = bitAt bytes i := by
  rw [bitAt, bitAt, List.getD_append _ _ _ _ (by omega)]

/-- The first bits of a field that may reach into the further input. -/
theorem bitsAt_append_mod {bytes : List Byte} {off m n : Nat} (more : List Byte) (hm : m = 0 ∨ off + m ≤ 8 * bytes.length) (hle : m ≤ n) :
    bitsAt (bytes ++ more) off n % 2 ^ m = bitsAt bytes off m := by
  refine Nat.eq_of_testBit_eq fun j => ?_
  rw [Nat.testBit_mod_two_pow, testBit_bitsAt, testBit_bitsAt]
  by_cases hj : j < m
  · rw [bitAt_append more (by omega)]
    simp [hj, hj.trans_le hle]
  · simp [hj]

theorem bitsAt_append {bytes : List Byte} {off n : Nat} (more : List Byte) (h : off + n ≤ 8 * bytes.length) :
    bitsAt (bytes ++ more) off n = bitsAt bytes off n := by
  have := bitsAt_append_mod more (.inr h) le_rfl
  rwa [Nat.mod_eq_of_lt (bitsAt_lt _ _ _)] at this

/-! ## Decoding with more bits behind -/

theorem searchCode_congr {lens codes : List Nat} {k l c p q : Nat} (h : p % 2 ^ k = q % 2 ^ k) :
    searchCode lens codes k l c p = searchCode lens codes k l c q := by
  induction k generalizing l c p q with
  | zero => rfl
  | succ k ih =>
    have hlow : p % 2 = q % 2 := by
      have := congrArg (· % 2) h
      simpa [Nat.mod_mod_of_dvd _ (dvd_pow_self 2 (Nat.succ_ne_zero k))] using this
    have hhigh : p / 2 % 2 ^ k = q / 2 % 2 ^ k := by
      rw [← Nat.mod_mul_right_div_self, ← Nat.mod_mul_right_div_self, ← pow_succ', h]
    simp only [searchCode, hlow, ih hhigh]

theorem searchCode_more {lens codes : List Nat} {k l c p : Nat} {x : Nat × Nat} (n : Nat) (h : searchCode lens codes k l c p = some x) :
    searchCode lens codes (k + n) l c p = some x := by
  induction k generalizing l c p with
  | zero => cases h
  | succ k ih =>
    rw [Nat.succ_add, searchCode]
    rw [searchCode] at h
    split at h
    · exact h
    · exact ih h

/-- A symbol, or that there is none, does not change with more bits behind those there. -/
theorem decodeSymbol_more {t : DecTable} {m n p q : Nat} (hle : m ≤ n) (h : q % 2 ^ m = p) (hne : decodeSymbol t m p ≠ .needInput) :
    decodeSymbol t n q = decodeSymbol t m p := by
  unfold decodeSymbol at hne ⊢
  split
  · rfl
  · next hv =>
    rw [if_neg hv] at hne
    dsimp only at hne ⊢
    have hcongr : searchCode t.lens (canonicalCodes t.lens) (min m (maxLen t.lens)) 1 0 p
        = searchCode t.lens (canonicalCodes t.lens) (min m (maxLen t.lens)) 1 0 q := by
      refine searchCode_congr ?_
      rw [← h, Nat.mod_mod_of_dvd _ (pow_dvd_pow 2 (Nat.min_le_left _ _))]
    rw [hcongr] at hne ⊢
    obtain ⟨k, hk⟩ := Nat.exists_eq_add_of_le (min_le_min_right (maxLen t.lens) hle)
    cases hsearch : searchCode t.lens (canonicalCodes t.lens) (min m (maxLen t.lens)) 1 0 q with
    | some x => rw [hk, searchCode_more k hsearch]
    | none =>
      rw [hsearch] at hne
      have hall : maxLen t.lens ≤ m := by
        by_contra hnot
        exact hne (if_neg hnot)
      rw [Nat.min_eq_right hall] at hsearch
      rw [Nat.min_eq_right (hall.trans hle), hsearch]
      dsimp only
      rw [if_pos hall, if_pos (hall.trans hle)]

/-! ## Parts of a step that do not wait -/

/-- With more input the part does the same, unless it waits. -/
def Persists {α : Type} (f : α → α) (x y : Txn α) : Prop := x = .error .needInput ∨ y = x.map f

section
variable {α β : Type} {f : α → α} {g : β → β} {x y : Txn α}

theorem Persists.ok {a b : α} (h : b = f a) : Persists f (.ok a) (.ok b) := .inr (h ▸ rfl)

theorem Persists.error (e : Abort) : Persists f (.error e) (.error e) := .inr rfl

theorem Persists.bind {k k' : α → Txn β} (h : Persists f x y) (hk : ∀ a, x = .ok a → Persists g (k a) (k' (f a))) :
    Persists g (x >>= k) (y >>= k') := by
  rcases h with rfl | rfl
  · exact .inl rfl
  · cases x with
    | error e => exact .inr rfl
    | ok a => exact hk a rfl

theorem persists_raiseIf (c : Bool) (e : DecodeError) : Persists id (raiseIf c e) (raiseIf c e) := by
  refine .inr ?_
  cases raiseIf c e <;> rfl

end

section
variable (more : List Byte)

/-- A value read, and the decompressor after it. -/
def fedAfter {α : Type} (p : α × Decompressor) : α × Decompressor := (p.1, p.2.fed more)

theorem Decompressor.persists_bits (d : Decompressor) (n : Nat) : Persists (fedAfter more) (d.bits n) ((d.fed more).bits n) := by
  by_cases h : d.valid < d.cur + n
  · exact .inl (Decompressor.bits_waits h)
  · have hn : d.cur + n ≤ d.valid := not_lt.mp h
    have hfed : (d.fed more).cur + n ≤ (d.fed more).valid := by
      rw [Decompressor.valid_fed]
      exact hn.trans (Nat.le_add_right _ _)
    rw [Decompressor.bits_ok hn, Decompressor.bits_ok hfed]
    refine .ok ?_
    rw [show bitsAt (d.fed more).input (d.fed more).cur n = bitsAt d.input d.cur n from bitsAt_append more hn]
    rfl

theorem Decompressor.persists_byteFields (n : Nat) (d : Decompressor) :
    Persists (fedAfter more) (d.byteFields n) ((d.fed more).byteFields n) := by
  induction n generalizing d with
  | zero => exact .ok rfl
  | succ n ih => exact (d.persists_bits more 8).bind fun p _ => (ih p.2).bind fun _ _ => .ok rfl

theorem Decompressor.persists_decode (t : Table) (x : DecTable) (e : DecodeError) (d : Decompressor) :
    Persists (fedAfter more) (d.decode t x e) ((d.fed more).decode t x e) := by
  unfold Decompressor.decode
  split
  · exact .error _
  · by_cases hwait : d.peekSymbol x = .needInput
    · rw [hwait]
      exact .inl rfl
    · have hvalid := d.valid_fed more
      have hpeek : (d.fed more).peekSymbol x = d.peekSymbol x := by
        refine decodeSymbol_more (by rw [hvalid]; exact min_le_min_left _ (Nat.sub_le_sub_right (Nat.le_add_right _ _) _)) ?_ hwait
        refine bitsAt_append_mod (off := d.cur) more ?_ (by rw [hvalid]; exact min_le_min_left _ (Nat.sub_le_sub_right (Nat.le_add_right _ _) _))
        have : d.valid = 8 * d.input.length := rfl
        omega
      rw [hpeek]
      split
      · exact .ok rfl
      · exact .error _
      · exact .error _

theorem Decompressor.persists_copyLoop (dist n : Nat) (d : Decompressor) :
    Persists (Decompressor.fed · more) (Decompressor.copyLoop dist n d) (Decompressor.copyLoop dist n (d.fed more)) := by
  induction n generalizing d with
  | zero => exact .ok rfl
  | succ n ih =>
    unfold Decompressor.copyLoop
    rw [show (d.fed more).out[(d.fed more).total - dist]? = d.out[d.total - dist]? from rfl]
    split
    · next b _ => exact ih (d.emit b)
    · exact .error _

theorem persists_readMetaLens (order : List Nat) (d : Decompressor) :
    Persists (fedAfter more) (readMetaLens d order) (readMetaLens (d.fed more) order) := by
  induction order generalizing d with
  | nil => exact .ok rfl
  | cons m rest ih => exact (d.persists_bits more 3).bind fun p _ => (ih p.2).bind fun _ _ => .ok rfl

theorem persists_storedLoop (k : Nat) (d : Decompressor) :
    Persists (Decompressor.fed · more) (storedLoop k d) (storedLoop k (d.fed more)) := by
  induction k generalizing d with
  | zero => exact .ok rfl
  | succ k ih => exact (d.persists_bits more 8).bind fun p _ => ih (p.2.emit (BitVec.ofNat 8 p.1))

theorem persists_storedHeader (d : Decompressor) : Persists (Decompressor.fed · more) (storedHeader d) (storedHeader (d.fed more)) :=
  (d.align.persists_bits more 16).bind fun p _ => (p.2.persists_bits more 16).bind fun _ _ => (persists_raiseIf _ _).bind fun _ _ => .ok rfl

theorem persists_dynamicHeader (r : Reader) : Persists (Reader.fed · more) (dynamicHeader r) (dynamicHeader (r.fed more)) :=
  (r.d.persists_bits more 5).bind fun p _ => (p.2.persists_bits more 5).bind fun q _ => (q.2.persists_bits more 4).bind fun u _ =>
    (persists_raiseIf _ _).bind fun _ _ => (persists_raiseIf _ _).bind fun _ _ =>
      (persists_readMetaLens more _ { u.2 with hlit := p.1 + 257, hdist := q.1 + 1, hclen := u.1 + 4 }).bind fun _ _ =>
        (persists_raiseIf _ _).bind fun _ _ => .ok rfl

theorem persists_readLens (t : DecTable) (seq : List Nat) (d : Decompressor) :
    Persists (fedAfter more) (readLens t seq d) (readLens t seq (d.fed more)) := by
  refine (d.persists_decode more _ _ _).bind fun p _ => ?_
  dsimp only [fedAfter]
  split
  · exact .ok rfl
  · split
    · split
      · exact .error _
      · exact (p.2.persists_bits more 2).bind fun _ _ => .ok rfl
    · split
      · exact (p.2.persists_bits more 3).bind fun _ _ => .ok rfl
      · exact (p.2.persists_bits more 7).bind fun _ _ => .ok rfl

theorem persists_lensLoop (t : DecTable) (total fuel : Nat) (seq : List Nat) (d : Decompressor) :
    Persists (fedAfter more) (lensLoop t total fuel seq d) (lensLoop t total fuel seq (d.fed more)) := by
  induction fuel generalizing seq d with
  | zero =>
    unfold lensLoop
    split
    · exact .ok rfl
    · exact .error _
  | succ fuel ih =>
    unfold lensLoop
    split
    · exact .ok rfl
    · exact (persists_readLens more t seq d).bind fun p _ => (persists_raiseIf _ _).bind fun _ _ => ih _ p.2

theorem persists_readMatch (r : Reader) (run : Decade) (d : Decompressor) :
    Persists (Decompressor.fed · more) (readMatch r run d) (readMatch (r.fed more) run (d.fed more)) := by
  refine (d.persists_bits more _).bind fun p _ => (p.2.persists_decode more _ _ _).bind fun q _ => ?_
  dsimp only [fedAfter]
  split
  · exact .error _
  · exact (q.2.persists_bits more _).bind fun u _ => (persists_raiseIf _ _).bind fun _ _ => u.2.persists_copyLoop more _ _

theorem persists_streamHeader (d : Decompressor) : Persists (Decompressor.fed · more) (streamHeader d) (streamHeader (d.fed more)) := by
  unfold streamHeader
  rw [show (d.fed more).format = d.format from rfl]
  split
  · exact (d.persists_bits more 8).bind fun p _ => (p.2.persists_bits more 8).bind fun _ _ => (persists_raiseIf _ _).bind fun _ _ =>
      (persists_raiseIf _ _).bind fun _ _ => (persists_raiseIf _ _).bind fun _ _ => (persists_raiseIf _ _).bind fun _ _ => .ok rfl
  · refine (d.persists_byteFields more 10).bind fun p _ => (persists_raiseIf _ _).bind fun _ _ => (persists_raiseIf _ _).bind fun _ _ =>
      (persists_raiseIf _ _).bind fun _ _ => ?_
    split
    · exact .error _
    · exact .ok rfl
  · exact .ok rfl

theorem persists_streamTrailer (d : Decompressor) : Persists (Decompressor.fed · more) (streamTrailer d) (streamTrailer (d.fed more)) := by
  unfold streamTrailer
  rw [show (d.fed more).format = d.format from rfl]
  split
  · exact (d.align.persists_byteFields more 4).bind fun _ _ => (persists_raiseIf _ _).bind fun _ _ => .ok rfl
  · exact (d.align.persists_byteFields more 8).bind fun _ _ => (persists_raiseIf _ _).bind fun _ _ => (persists_raiseIf _ _).bind fun _ _ =>
      .ok rfl
  · exact .ok rfl

theorem persists_stepBlockStart (r : Reader) : Persists (Reader.fed · more) (stepBlockStart r) (stepBlockStart (r.fed more)) := by
  refine (r.d.persists_bits more 1).bind fun p _ => (p.2.persists_bits more 2).bind fun q _ => ?_
  dsimp only [fedAfter]
  split
  · exact (persists_storedHeader more { q.2 with final := p.1 == 1, btype := BitVec.ofNat 2 q.1 }).bind fun _ _ => .ok rfl
  · exact .ok rfl
  · exact persists_dynamicHeader more { r with d := { q.2 with final := p.1 == 1, btype := BitVec.ofNat 2 q.1 } }
  · exact .error _

theorem persists_stepBlockTables (r : Reader) : Persists (Reader.fed · more) (stepBlockTables r) (stepBlockTables (r.fed more)) :=
  (persists_lensLoop more _ _ _ _ r.d).bind fun _ _ => (persists_raiseIf _ _).bind fun _ _ => (persists_raiseIf _ _).bind fun _ _ =>
    (persists_raiseIf _ _).bind fun _ _ => .ok rfl

theorem persists_stepCompressed (r : Reader) : Persists (Reader.fed · more) (stepCompressed r) (stepCompressed (r.fed more)) := by
  refine (r.d.persists_decode more _ _ _).bind fun p _ => ?_
  dsimp only [fedAfter]
  split
  · exact .ok rfl
  · split
    · exact .ok rfl
    · split
      · exact .error _
      · exact (persists_readMatch more r _ p.2).bind fun _ _ => .ok rfl

end

/-! ## The stored copy -/

theorem storedLoop_add (m n : Nat) (d : Decompressor) : storedLoop (m + n) d = storedLoop m d >>= storedLoop n := by
  induction m generalizing d with
  | zero => rw [Nat.zero_add]; rfl
  | succ m ih =>
    rw [Nat.succ_add, storedLoop, storedLoop, bind_assoc]
    exact congrArg (d.bits 8 >>= ·) (funext fun p => ih (p.2.emit (BitVec.ofNat 8 p.1)))

theorem Decompressor.bits_withLeft (left : BitVec 16) (d : Decompressor) (n : Nat) : ({ d with storedLeft := left } : Decompressor).bits n =
    (d.bits n).map fun p => (p.1, { p.2 with storedLeft := left }) := by
  rw [Decompressor.bits, Decompressor.bits]
  by_cases h : d.valid < d.cur + n
  · rw [if_pos h]
    exact if_pos h
  · rw [if_neg h]
    exact if_neg h

theorem storedLoop_answers {k : Nat} {d : Decompressor} (h : d.cur + 8 * k ≤ d.valid) : ∃ e, storedLoop k d = .ok e := by
  induction k generalizing d with
  | zero => exact ⟨d, rfl⟩
  | succ k ih =>
    rw [storedLoop, Decompressor.bits_bind (by omega)]
    exact ih (d := (d.skip 8).emit (BitVec.ofNat 8 (bitsAt d.input d.cur 8))) (by change d.cur + 8 + 8 * k ≤ d.valid; omega)

/-- The copy does not look at the count of bytes left. -/
theorem storedLoop_withLeft (left : BitVec 16) (n : Nat) (d : Decompressor) : storedLoop n { d with storedLeft := left } =
    (storedLoop n d).map fun e => { e with storedLeft := left } := by
  induction n generalizing d with
  | zero => rfl
  | succ n ih =>
    rw [storedLoop, storedLoop, Decompressor.bits_withLeft]
    cases d.bits 8 with
    | error _ => rfl
    | ok p => exact ih (p.2.emit (BitVec.ofNat 8 p.1))

/-- The count of bytes left taken down by what was copied, and the block ended with it (spec/45_block_reader.md R520). -/
def Decompressor.copied (d : Decompressor) (k : Nat) : Decompressor :=
  let e : Decompressor := { d with storedLeft := d.storedLeft - BitVec.ofNat 16 k }
  if e.storedLeft = 0 then e.endOfBlock else e

theorem stepUncompressed_eq {r : Reader} (hleft : r.d.storedLeft ≠ 0) (hk : r.d.storedNow ≠ 0) :
    stepUncompressed r = storedLoop r.d.storedNow r.d >>= fun d => .ok { r with d := d.copied r.d.storedNow } :=
  stepUncompressed_copies hleft hk

/-- With more input a stored step does the same, unless it waits or is cut short: then the longer input lets it go on as the step after
it would. -/
theorem stepUncompressed_fed {r : Reader} (h : r.d.Sound) (more : List Byte) :
    Persists (Reader.fed · more) (stepUncompressed r) (stepUncompressed (r.fed more))
      ∨ ∃ r' r'', stepUncompressed r = .ok r' ∧ r'.d.state = r.d.state ∧ stepUncompressed (r.fed more) = .ok r''
        ∧ stepUncompressed (r'.fed more) = .ok r'' := by
  by_cases hleft : r.d.storedLeft = 0
  · have hend : stepUncompressed r = .ok { r with d := r.d.endOfBlock } := if_pos hleft
    have hend' : stepUncompressed (r.fed more) = .ok { r with d := (r.d.fed more).endOfBlock } := if_pos hleft
    rw [hend, hend']
    exact .inl (.ok rfl)
  by_cases hk : r.d.storedNow = 0
  · have hpos : 0 < r.d.storedLeft.toNat := BitVec.toNat_pos_of_ne_zero hleft
    rw [stepUncompressed_waits hpos hk]
    exact .inl (.inl rfl)
  have hcur := h.cursor
  have hnow : r.d.storedNow = min r.d.storedLeft.toNat ((r.d.valid - r.d.cur) / 8) := rfl
  have hnow' : (r.fed more).d.storedNow = min r.d.storedLeft.toNat ((r.d.valid - r.d.cur) / 8 + more.length) := by
    change min r.d.storedLeft.toNat (((r.d.fed more).valid - r.d.cur) / 8) = _
    rw [Decompressor.valid_fed]
    congr 1
    omega
  obtain ⟨n, hn⟩ : ∃ n, (r.fed more).d.storedNow = r.d.storedNow + n := Nat.exists_eq_add_of_le (by omega)
  obtain ⟨e, he⟩ : ∃ e, storedLoop r.d.storedNow r.d = .ok e := storedLoop_answers (by omega)
  have hstep : stepUncompressed r = .ok { r with d := e.copied r.d.storedNow } := by
    rw [stepUncompressed_eq hleft hk, he]
    rfl
  have hfed : storedLoop r.d.storedNow (r.d.fed more) = .ok (e.fed more) := by
    rcases persists_storedLoop more r.d.storedNow r.d with hwait | hmap
    · rw [he] at hwait
      cases hwait
    · rw [hmap, he]
      rfl
  have hlong : stepUncompressed (r.fed more) = storedLoop n (e.fed more) >>= fun d => .ok { r with d := d.copied (r.d.storedNow + n) } := by
    rw [stepUncompressed_eq (r := r.fed more) hleft (by omega), hn, storedLoop_add]
    exact congrArg (· >>= storedLoop n >>= _) hfed
  rw [hstep, hlong]
  rcases Nat.eq_zero_or_pos n with rfl | hpos
  · refine .inl (.inr ?_)
    change Except.ok _ = Except.ok _
    refine congrArg Except.ok (congrArg (Reader.mk · r.dec) ?_)
    unfold Decompressor.copied
    dsimp only
    rw [Nat.add_zero, show (e.fed more).storedLeft = e.storedLeft from rfl]
    split <;> rfl
  · obtain ⟨⟨state, -, -, left, -⟩, hcur'⟩ : SameRegs r.d e ∧ e.cur = r.d.cur + 8 * r.d.storedNow :=
      ((h.runs_storedLoop _).answer e he).2
    have hrest : (r.d.storedLeft - BitVec.ofNat 16 r.d.storedNow).toNat = r.d.storedLeft.toNat - r.d.storedNow := storedLeft_sub (by omega)
    have hne : r.d.storedLeft - BitVec.ofNat 16 r.d.storedNow ≠ 0 := fun h0 => by
      rw [h0] at hrest
      simp at hrest
      omega
    have hcopied : e.copied r.d.storedNow = { e with storedLeft := r.d.storedLeft - BitVec.ofNat 16 r.d.storedNow } := by
      rw [Decompressor.copied, left]
      exact if_neg hne
    rw [hcopied]
    have hnext : ({ r with d := { e with storedLeft := r.d.storedLeft - BitVec.ofNat 16 r.d.storedNow } } : Reader).fed more
        = { r with d := { e.fed more with storedLeft := r.d.storedLeft - BitVec.ofNat 16 r.d.storedNow } } := rfl
    have hvalid : (e.fed more).valid = r.d.valid + 8 * more.length := by
      rw [Decompressor.valid_fed, Decompressor.valid, ((h.runs_storedLoop _).answer e he).1.input]
      rfl
    have hnow'' : ({ e.fed more with storedLeft := r.d.storedLeft - BitVec.ofNat 16 r.d.storedNow } : Decompressor).storedNow = n := by
      change min (r.d.storedLeft - BitVec.ofNat 16 r.d.storedNow).toNat (((e.fed more).valid - e.cur) / 8) = n
      rw [hrest, hvalid, hcur']
      omega
    obtain ⟨d, hd⟩ : ∃ d, storedLoop n (e.fed more) = .ok d :=
      storedLoop_answers (by change e.cur + _ ≤ _; rw [hvalid, hcur']; omega)
    have hleft' : d.storedLeft = r.d.storedLeft := by
      have hsame := storedLoop_withLeft (e.fed more).storedLeft n (e.fed more)
      rw [hd] at hsame
      exact (congrArg Decompressor.storedLeft (Except.ok.inj hsame)).trans left
    refine .inr ⟨_, { r with d := d.copied (r.d.storedNow + n) }, rfl, state, by rw [hd]; rfl, ?_⟩
    rw [hnext, stepUncompressed_eq hne (by rw [hnow'']; omega), hnow'', storedLoop_withLeft (r.d.storedLeft - _), hd]
    refine congrArg (fun d => Except.ok (Reader.mk d r.dec)) ?_
    unfold Decompressor.copied
    rw [hleft', BitVec.ofNat_add, sub_add_eq_sub_sub]

/-! ## The step with more input -/

/-- A state step with more input: the same unless it waits, or a stored copy that goes on. -/
theorem stateStep_fed {r : Reader} (hw : r.Whole) (more : List Byte) {x : Txn Reader} (h : stateStep r = some x) :
    ∃ y, stateStep (r.fed more) = some y ∧ (Persists (Reader.fed · more) x y
      ∨ ∃ r' r'', x = .ok r' ∧ r'.d.state ≠ .streamEnd ∧ y = .ok r'' ∧ stateStep (r'.fed more) = some y) := by
  have hstate : (r.fed more).d.state = r.d.state := rfl
  unfold stateStep at h ⊢
  cases hs : r.d.state <;> simp only [hs, Option.some.injEq, reduceCtorEq] at h <;> subst h <;> rw [hstate, hs]
  case streamStart => exact ⟨_, rfl, .inl ((persists_streamHeader more r.d).bind fun _ _ => .ok rfl)⟩
  case blockStart => exact ⟨_, rfl, .inl (persists_stepBlockStart more r)⟩
  case blockTables => exact ⟨_, rfl, .inl (persists_stepBlockTables more r)⟩
  case blockCompressed => exact ⟨_, rfl, .inl (persists_stepCompressed more r)⟩
  case streamChecksum => exact ⟨_, rfl, .inl ((persists_streamTrailer more r.d).bind fun _ _ => .ok rfl)⟩
  case blockUncompressed =>
    refine ⟨_, rfl, ?_⟩
    rcases stepUncompressed_fed hw.d more with hsame | ⟨r', r'', hok, hstate', hlong, hnext⟩
    · exact .inl hsame
    · have hs' : r'.d.state = .blockUncompressed := hstate'.trans hs
      have hfed : (r'.fed more).d.state = .blockUncompressed := hs'
      refine .inr ⟨r', r'', hok, by simp [hs'], hlong, ?_⟩
      rw [hfed, hlong, hnext]

/-- What a turn answers is a function of its state step, where there is one. -/
def answerOf (r : Reader) : Txn Reader → Run StepAnswer
  | .ok r' => .ok { reader := r', status := if r'.d.state = .streamEnd then .finished else .ok }
  | .error .needInput => .ok { reader := r, status := .needInput }
  | .error (.error e) => .ok { reader := { r with d := r.d.raise e }, status := .error e }
  | .error (.refuse reason) => refuse reason
  | .error (.fault f) => .error (.fault f)

theorem brStep_of_stateStep {r : Reader} {x : Txn Reader} (h : stateStep r = some x) : brStep r = answerOf r x := by
  rw [brStep, h]
  rcases x with (_ | _ | _ | _) | _ <;> rfl

/-- A turn that does not wait does the same with more input, or goes on with it as the turn after it. -/
theorem brStep_fed {r : Reader} {a : StepAnswer} (hw : r.Whole) (hs : r.d.streaming = true) (more : List Byte) (h : brStep r = .ok a)
    (hne : a.status ≠ .needInput) : brStep (r.fed more) = .ok (a.fed more)
      ∨ (a.status = .ok ∧ brStep (r.fed more) = brStep (a.reader.fed more)) := by
  obtain ⟨x, hx⟩ : ∃ x, stateStep r = some x := by
    unfold stateStep
    unfold Decompressor.streaming at hs
    cases hstate : r.d.state <;> simp [hstate] at hs ⊢
  obtain ⟨y, hy, hsame | ⟨r', r'', rfl, hend, rfl, hnext⟩⟩ := stateStep_fed hw more hx
  · rw [brStep_of_stateStep hx] at h
    rw [brStep_of_stateStep hy]
    rcases hsame with rfl | rfl
    · cases h
      exact absurd rfl hne
    · refine .inl ?_
      rcases x with (_ | _ | _ | _) | r' <;> cases h
      · exact absurd rfl hne
      · rfl
      · rfl
  · rw [brStep_of_stateStep hx] at h
    cases h
    exact .inr ⟨if_neg hend, (brStep_of_stateStep hy).trans (brStep_of_stateStep hnext).symm⟩

/-! ## Runs of turns -/

/-- The turns from a reader on end with an answer other than `OK` (spec/46_stream_interface.md R551). -/
def RunsTo (r : Reader) (a : StepAnswer) : Prop := ∃ fuel, readLoop fuel r = .ok a

theorem RunsTo.unique {r : Reader} {a b : StepAnswer} (ha : RunsTo r a) (hb : RunsTo r b) : a = b := by
  obtain ⟨n, ha⟩ := ha
  obtain ⟨m, hb⟩ := hb
  induction n generalizing r m with
  | zero => cases ha
  | succ n ih =>
    cases m with
    | zero => cases hb
    | succ m =>
      cases h : brStep r with
      | error e => rw [readLoop, h] at ha; cases ha
      | ok c =>
        rw [readLoop, h, ok_bind] at ha hb
        split at ha
        · next hok => rw [if_pos hok] at hb; exact ih ha m hb
        · next hne =>
          rw [if_neg hne] at hb
          exact Except.ok.inj (ha.symm.trans hb)

theorem RunsTo.stop {r : Reader} {a : StepAnswer} (h : brStep r = .ok a) (hne : a.status ≠ .ok) : RunsTo r a :=
  ⟨1, readLoop_of_ne 0 h hne⟩

theorem RunsTo.step {r r' : Reader} {a : StepAnswer} (h : brStep r = .ok ⟨r', .ok⟩) (ha : RunsTo r' a) : RunsTo r a := by
  obtain ⟨n, ha⟩ := ha
  exact ⟨n + 1, (readLoop_of_ok n h).trans ha⟩

/-- Readers with the same next turn run to the same answers. -/
theorem RunsTo.congr {r r' : Reader} {a : StepAnswer} (h : brStep r = brStep r') (ha : RunsTo r' a) : RunsTo r a := by
  obtain ⟨n, ha⟩ := ha
  cases n with
  | zero => cases ha
  | succ n => exact ⟨n + 1, by rw [readLoop, h]; exact ha⟩

/-- A run that does not end waiting is the same with more input. One that does is gone on with from where it waits. -/
theorem RunsTo.fed {r : Reader} {a : StepAnswer} (hw : r.Whole) (hs : r.d.streaming = true) (more : List Byte) (h : RunsTo r a) :
    (a.status ≠ .needInput → RunsTo (r.fed more) (a.fed more))
      ∧ (a.status = .needInput → ∀ b, RunsTo (a.reader.fed more) b → RunsTo (r.fed more) b) := by
  obtain ⟨n, h⟩ := h
  induction n generalizing r with
  | zero => cases h
  | succ n ih =>
    cases hc : brStep r with
    | error e => rw [readLoop, hc] at h; cases h
    | ok c =>
      rw [readLoop, hc, ok_bind] at h
      have hturn := brStep_turn (isOpen_of_streaming hs) c hc
      split at h
      · next hok =>
        have hread := ((meets_brStep hw (isOpen_of_streaming hs)).answer c hc).readOn hw (isOpen_of_streaming hs)
        have hgoOn : ∀ b, RunsTo (c.reader.fed more) b → RunsTo (r.fed more) b := fun b hb => by
          rcases brStep_fed hw hs more hc (by simp [hok]) with hsame | ⟨-, heq⟩
          · exact RunsTo.step (hsame.trans (by rw [StepAnswer.fed, hok])) hb
          · exact hb.congr heq
        obtain ⟨hdone, hwait⟩ := ih hread.whole (hturn.streaming_of_ok hok) h
        exact ⟨fun hne => hgoOn _ (hdone hne), fun hneed b hb => hgoOn _ (hwait hneed b hb)⟩
      · next hne =>
        cases h
        refine ⟨fun hneed => ?_, fun hneed b hb => ?_⟩
        · rcases brStep_fed hw hs more hc hneed with hsame | ⟨hok, -⟩
          · exact .stop hsame hne
          · exact absurd hok hne
        · cases hturn with
          | waits _ => exact hb
          | commits r' _ => split at hneed <;> cases hneed
          | raises _ | latched _ _ | ended _ => cases hneed

/-! ## Pushes -/

/-- A stream that is over answers every push with this status (spec/45_block_reader.md R526, spec/60_exceptions.md R604). -/
def Decompressor.Latches (d : Decompressor) (x : Status) : Prop :=
  (d.state = .streamEnd ∧ x = .finished) ∨ ∃ e, d.state = .error ∧ d.err = some e ∧ x = .error e

/-- What a run leaves a stream in. -/
theorem RunsTo.latches {r : Reader} {a : StepAnswer} (hs : r.d.streaming = true) (h : RunsTo r a) :
    (a.status = .needInput ∧ a.reader.d.streaming = true) ∨ a.reader.d.Latches a.status := by
  obtain ⟨n, h⟩ := h
  obtain ⟨r', hsteps, ha, hne⟩ := readLoop_okSteps n r a h
  have hs' := hsteps.streaming hs
  cases brStep_turn (isOpen_of_streaming hs') a ha with
  | commits r'' _ =>
    by_cases hend : r''.d.state = .streamEnd
    · exact .inr (.inl ⟨hend, if_pos hend⟩)
    · exact absurd (if_neg hend) hne
  | waits _ => exact .inl ⟨rfl, hs'⟩
  | raises e => exact .inr (.inr ⟨e, rfl, rfl, rfl⟩)
  | latched _ he => exact absurd he (state_ne_error_of_streaming hs')
  | ended he => simp [Decompressor.streaming, he] at hs'

theorem Accepts.latched {bytes : List Byte} {s t : State} {x : Status} (h : Accepts (.dPush bytes) s t) (hd : s.d.disturbed = false)
    (hx : s.d.Latches x) : t.d = s.d ∧ t.dec = s.dec ∧ t.status = x := by
  rcases hx with ⟨hs, rfl⟩ | ⟨e, hs, he, rfl⟩
  · have hexec := exec_dPush_of_streamEnd bytes hs hd
    rw [h.1] at hexec
    cases hexec
    exact ⟨rfl, rfl, rfl⟩
  · have hexec := exec_dPush_of_error hd bytes hs
    rw [h.1, Decompressor.latched, he] at hexec
    cases hexec
    exact ⟨rfl, rfl, rfl⟩

theorem Pushes.latched {s t : State} {pieces : List (List Byte)} {x : Status} (h : Pushes s pieces t) (hne : pieces ≠ [])
    (hd : s.d.disturbed = false) (hx : s.d.Latches x) : t.d = s.d ∧ t.dec = s.dec ∧ t.status = x := by
  induction h with
  | done s => exact absurd rfl hne
  | push s t u bytes rest hacc hrest ih =>
    obtain ⟨htd, htdec, hstatus⟩ := hacc.latched hd hx
    cases rest with
    | nil => cases hrest; exact ⟨htd, htdec, hstatus⟩
    | cons y rest =>
      obtain ⟨hud, hudec, hustatus⟩ := ih (by simp) (htd ▸ hd) (htd ▸ hx)
      exact ⟨hud.trans htd, hudec.trans htdec, hustatus⟩

/-- The state holds what a run left, up to the input behind it. -/
structure Holds (t : State) (a : StepAnswer) : Prop where
  status : t.status = a.status
  dec    : t.dec = a.reader.dec
  d      : ∃ input, t.d = { a.reader.d with input := input }

/-- Pushes on a stream in progress leave what the run over all of the input together does. -/
theorem Pushes.holds {s t : State} {pieces : List (List Byte)} (h : Pushes s pieces t) (hne : pieces ≠ []) (hs : s.SoundDecompressor)
    (hd : s.d.disturbed = false) (hstream : s.d.streaming = true) : ∃ a, RunsTo (s.reader.fed pieces.flatten) a ∧ Holds t a := by
  induction h with
  | done s => exact absurd rfl hne
  | push s t u bytes rest hacc hrest ih =>
    obtain ⟨a, hloop, rfl⟩ := hacc.exists_answer (exec_dPush bytes hstream hd)
    have hruns : RunsTo (s.reader.fed bytes) a := ⟨_, hloop⟩
    have hfed := hs.feed hd hstream bytes
    have hwhole : (s.reader.fed bytes).Whole := hfed.whole hd
    have hread := ((meets_readLoop _ hwhole (isOpen_of_streaming hstream) (Reader.left_lt_turns _)).answer a hloop).1
    obtain ⟨hdone, hwait⟩ := hruns.fed hwhole hstream rest.flatten
    have hjoin : (s.reader.fed bytes).fed rest.flatten = s.reader.fed (bytes :: rest).flatten :=
      congrArg (Reader.mk · s.dec) (Decompressor.fed_fed _ _ _)
    rw [hjoin] at hdone hwait
    cases rest with
    | nil =>
      cases hrest
      refine ⟨a, ?_, rfl, rfl, _, rfl⟩
      simpa using hruns
    | cons y rest =>
      rcases hruns.latches hstream with ⟨hneed, hstill⟩ | hlatches
      · obtain ⟨b, hb, hholds⟩ := ih (by simp) (hfed.withReader hd (isOpen_of_streaming hstream) hread fun _ => hstream)
          (hread.disturbed.trans hd) hstill
        exact ⟨b, hwait hneed b hb, hholds⟩
      · obtain ⟨hud, hudec, hustatus⟩ := hrest.latched (by simp) (hread.disturbed.trans hd) hlatches
        have hne : a.status ≠ .needInput := fun hneed => by simp [Decompressor.Latches, hneed] at hlatches
        exact ⟨_, hdone hne, hustatus, hudec, a.reader.d.input, hud⟩

/-! ## The obligation -/

theorem Holds.sameDecoding {t u : State} {a : StepAnswer} (ht : Holds t a) (hu : Holds u a) : SameDecoding t u := by
  obtain ⟨htstatus, htdec, i, htd⟩ := ht
  obtain ⟨hustatus, hudec, j, hud⟩ := hu
  constructor <;> simp only [htstatus, hustatus, htdec, hudec, htd, hud]

/-- Settles O14: either the stream is over, and every push answers that, or both splits leave what the run over their bytes together does. -/
theorem readerChunkingIndependence : Obligations.ReaderChunkingIndependence := by
  intro s t u a b hs hopen hd ha hb hflat hpa hpb
  have hsound := (s.sound_iff.mp hs).2
  by_cases hstream : s.d.streaming = true
  · obtain ⟨x, hx, ht⟩ := hpa.holds ha hsound hd hstream
    obtain ⟨y, hy, hu⟩ := hpb.holds hb hsound hd hstream
    rw [hflat] at hx
    exact ht.sameDecoding (hx.unique hy ▸ hu)
  · obtain ⟨x, hx⟩ : ∃ x, s.d.Latches x := by
      by_cases hend : s.d.state = .streamEnd
      · exact ⟨_, .inl ⟨hend, rfl⟩⟩
      · have herr : s.d.state = .error := by
          by_contra hne
          exact hstream (Decompressor.streaming_of_ne hopen hend hne)
        obtain ⟨e, he⟩ := Option.isSome_iff_exists.mp ((hsound.whole hd).d.err.mp herr)
        exact ⟨_, .inr ⟨e, herr, he, rfl⟩⟩
    obtain ⟨htd, htdec, htstatus⟩ := hpa.latched ha hd hx
    obtain ⟨hud, hudec, hustatus⟩ := hpb.latched hb hd hx
    constructor <;> simp only [htd, hud, htdec, hudec, htstatus, hustatus]

end Sys2Proof.Machine
end

section
/-! PROOF. `C.PUSH` completes (spec/46_stream_interface.md R542 to R544, spec/60_exceptions.md R600): each part of the driver answers on a
stream driven by its own commands and leaves one, with the terms accounted for; what they write only joins the sink's stream, and the
last push ends with the trailer. -/

namespace Sys2Proof.Machine

/-! ## What the driver needs and leaves -/

/-- A state the driver can work on: sound units, the window fed the input and not ahead of the next key, the graph's capacity that of
its count, at least one sweep to make. -/
structure Driven (s : State) : Prop where
  workable : Workable s
  fed      : s.wn.input = s.c.input
  near     : s.wn.inserted ≤ s.c.parsed + 4
  limit    : s.c.limit = limitAfter referenceParams s.c.graphs
  sweeps   : 1 ≤ s.c.cfg.iterations.toNat

theorem Driven.before {s : State} (h : Driven s) : Before s.c.input s.c.parsed s.wn := ⟨h.workable.window, h.fed, h.near⟩

theorem Driven.of_before {s t : State} (h : Driven s) (hw : Work referenceParams s t) (ht : Workable t)
    (hb : Before t.c.input t.c.parsed t.wn) : Driven t :=
  ⟨ht, hb.fed, hb.near, hw.limit h.limit, hw.cfg ▸ h.sweeps⟩

/-- Work that leaves the window. -/
theorem Driven.of_work {s t : State} (h : Driven s) (hw : Work referenceParams s t) (ht : Workable t) (hwn : t.wn = s.wn) : Driven t :=
  h.of_before hw ht (hw.input ▸ hwn ▸ h.before.later hw.parsed)

theorem Driven.limit_pos {s : State} (h : Driven s) : 0 < s.c.limit := by
  rw [h.limit, limitAfter]
  exact lt_min (Nat.mul_pos (by decide) (Nat.two_pow_pos _)) (by decide)

/-- The computation answers, with work done from `s` that leaves a state the driver can work on. -/
def Completes (s : State) (x : Run State) (Q : State → Prop) : Prop :=
  ∃ t, x = .ok t ∧ Work referenceParams s t ∧ Driven t ∧ Q t

section
variable {s : State} {x : Run State} {Q R : State → Prop}

theorem Completes.pure (h : Driven s) (hq : Q s) : Completes s (Pure.pure s) Q := ⟨s, rfl, .refl _ s, h, hq⟩

theorem Completes.bind {f : State → Run State} (h : Completes s x R)
    (hf : ∀ t, Work referenceParams s t → Driven t → R t → Completes t (f t) Q) : Completes s (x >>= f) Q := by
  obtain ⟨t, rfl, hw, ht, hr⟩ := h
  obtain ⟨u, hu, hw', hu', hq⟩ := hf t hw ht hr
  exact ⟨u, hu, hw.trans hw', hu', hq⟩

theorem Completes.mono (h : Completes s x R) (hq : ∀ t, Work referenceParams s t → R t → Q t) : Completes s x Q := by
  obtain ⟨t, hx, hw, ht, hr⟩ := h
  exact ⟨t, hx, hw, ht, hq t hw hr⟩

end

/-- No terms are in hand, and every byte parsed is emitted. -/
structure Settled (s : State) : Prop where
  tv      : s.tv = []
  bytes   : s.c.termsBytes = 0
  emitted : s.c.emitted = s.c.parsed

theorem Settled.accounted {s : State} (h : Settled s) : s.c.Accounted := by
  rw [Compressor.Accounted, h.bytes, h.emitted, Nat.add_zero]

/-! ## Blocks -/

section
variable {s : State} (h : Driven s)
include h

theorem writeDynamic_completes (final : Bool) : Completes s (writeDynamic referenceParams final s) (fun t =>
    t.tv = [] ∧ t.c.parsed = s.c.parsed ∧ t.c.emitted = s.c.emitted + s.c.termsBytes ∧ t.c.termsBytes = 0) := by
  obtain ⟨t, ht, hw, hwork, htv, hparsed, hemitted, hbytes, -⟩ := writeDynamic_ok referenceParams_bounded final h.workable
  have hwn : Answers (writeDynamic referenceParams final s) (fun t => t.wn = s.wn) := .after fun _ => .after fun _ => .after fun _ => .after fun _ => .ok rfl
  exact ⟨t, ht, hw, h.of_work hw hwork (hwn t ht), htv, hparsed, hemitted, hbytes⟩

/-- The last block takes every byte that is accounted for. -/
theorem finalBlock_completes (hacc : s.c.Accounted) : Completes s (finalBlock referenceParams s) (fun t =>
    Settled t ∧ t.c.parsed = s.c.parsed) := by
  obtain ⟨t, ht, hw, hwork, htv, hparsed, hbytes⟩ := finalBlock_ok referenceParams_bounded h.workable
  have hwn : Answers (finalBlock referenceParams s) (fun t => t.wn = s.wn) := by
    unfold finalBlock
    split
    · exact .ok rfl
    · exact .after fun _ => .after fun _ => .after fun _ => .after fun _ => .ok rfl
  have hacc' : t.c.Accounted := finalBlock_accounted referenceParams hacc t ht
  rw [Compressor.Accounted, hbytes, Nat.add_zero] at hacc'
  exact ⟨t, ht, hw, h.of_work hw hwork (hwn t ht), ⟨htv, hbytes, hacc'⟩, hparsed⟩

/-- A tail short enough is stored, accounted for or not (spec/44_block_writer.md R452). -/
theorem finalBlock_tail (htail : s.c.parsed - s.c.emitted < storedTail) : Completes s (finalBlock referenceParams s) (fun t =>
    Settled t ∧ t.c.parsed = s.c.parsed) := by
  obtain ⟨t, ht, hw, hwork, htv, hparsed, hbytes⟩ := finalBlock_ok referenceParams_bounded h.workable
  have hstored : Answers (finalBlock referenceParams s) (fun t => t.wn = s.wn ∧ t.c.emitted = s.c.parsed) := by
    rw [finalBlock, if_pos htail]
    exact .ok ⟨rfl, rfl⟩
  obtain ⟨hwn, hemitted⟩ := hstored t ht
  exact ⟨t, ht, hw, h.of_work hw hwork hwn, ⟨htv, hbytes, hemitted.trans hparsed.symm⟩, hparsed⟩

/-- Bytes that are there counted as parsed. -/
theorem Driven.skip {n : Nat} (hn : s.c.parsed + n ≤ s.c.input.length) :
    Work referenceParams s { s with c := { s.c with parsed := s.c.parsed + n } } ∧ Driven { s with c := { s.c with parsed := s.c.parsed + n } } := by
  have hw : Work referenceParams s { s with c := { s.c with parsed := s.c.parsed + n } } := by
    constructor <;> first | rfl | exact id | exact Nat.le_add_right _ _
  exact ⟨hw, h.of_work hw ⟨h.workable.window, ⟨h.workable.terms.terms, h.workable.terms.graph, h.workable.terms.depth, h.workable.terms.enc⟩, hn⟩
    rfl⟩

/-! ## The greedy and lazy loop -/

theorem endBlockIfFull_completes : Completes s (endBlockIfFull referenceParams s) (fun t => t.c.parsed = s.c.parsed) := by
  unfold endBlockIfFull
  split
  · exact (writeDynamic_completes h false).mono fun t _ ⟨_, hparsed, _, _⟩ => hparsed
  · exact .pure h rfl

/-- A parse step where there is a byte (spec/43_term_strategies.md R380). -/
theorem parseStep_answers (hfull : s.c.cfg.strategy ≠ .full) (hlt : s.c.parsed < s.c.input.length) :
    ∃ t new, parseStep referenceParams s = .ok (t, new) ∧ Work referenceParams s t ∧ Driven t ∧ s.c.parsed < t.c.parsed := by
  have hb := List.getElem?_eq_getElem hlt
  obtain ⟨new, v, hok, hparses⟩ := h.before.parseAt hb hfull
  have hstep : parseStep referenceParams s = .ok (s.commitTerms new v, new) := by
    rw [parseStep, hb, written_some, ok_bind, hok]
    rfl
  obtain ⟨hw, hwork, hlt', -⟩ := (meets_parseStep h.workable hlt).answer _ hstep
  exact ⟨_, new, hstep, hw, h.of_before hw hwork (hparses.parsed h.before).before, hlt'⟩

end

theorem driveTerms_completes (fuel : Nat) {s : State} (h : Driven s) (hfull : s.c.cfg.strategy ≠ .full)
    (hf : s.c.input.length - s.c.parsed < fuel) : Completes s (driveTerms referenceParams fuel s) (fun t =>
      s.c.last = true → t.c.parsed = s.c.input.length) := by
  induction fuel generalizing s with
  | zero => omega
  | succ fuel ih =>
    unfold driveTerms
    split
    · next hle => exact .pure h fun _ => le_antisymm h.workable.parsed hle
    · next hlt =>
      split
      · next hwait => exact .pure h fun hlast => by simp [lookaheadReady, hlast] at hwait
      · refine (endBlockIfFull_completes h).bind fun t hw ht hparsed => ?_
        obtain ⟨u, new, hstep, hw', hu, hless⟩ := parseStep_answers ht (hw.cfg ▸ hfull) (by rw [hw.input, hparsed]; omega)
        have hrest := ih hu (by rw [hw'.cfg, hw.cfg]; exact hfull) (by rw [hw'.input, hw.input]; omega)
        rw [hstep, ok_bind]
        obtain ⟨v, hv, hw'', hv', hend⟩ := hrest
        exact ⟨v, hv, hw'.trans hw'', hv', fun hlast => by
          rw [hend (hw'.last.trans (hw.last.trans hlast)), hw'.input, hw.input]⟩

/-! ## The full strategy -/

theorem graphOver_completes {s : State} (h : Driven s) {n : Nat} (hpos : 0 < n) (hlimit : n ≤ s.c.limit)
    (hin : s.c.parsed + n ≤ s.c.input.length) : Completes s (graphOver referenceParams n s) (fun t =>
      t.mg.n = n ∧ t.c.parsed = s.c.parsed + n ∧ t.c.emitted = s.c.emitted) := by
  obtain ⟨vs, v, hloop, -⟩ := h.before.graphLoop n s.c.parsed hin
  have hbefore := h.before.graphLoop_before n s.c.parsed hin hloop
  have hbuild := buildGraph_ok hloop
  have hcheck : (decide (n = 0) || decide (s.c.limit < n) || decide (s.c.input.length < s.c.parsed + n)) = false := by
    simp only [Bool.or_eq_false_iff, decide_eq_false_iff_not]
    omega
  obtain ⟨hw, hwork, hn, hparsed⟩ := (meets_buildGraph h.workable n hin).answer _ hbuild
  refine ⟨s.graphed n vs v, ?_, hw, h.of_before hw hwork hbefore, hn, hparsed, rfl⟩
  rw [graphOver, hcheck, refuseIf_false, ok_bind, hbuild]

/-- A sweep over a graph: its terms cover it (spec/43_term_strategies.md R396, R398). -/
theorem minimizeOnce_answers {s : State} (h : Driven s) : ∃ t terms total, minimizeOnce referenceParams s = .ok (t, terms, total)
    ∧ Work referenceParams s t ∧ Driven t ∧ t.mg.n = s.mg.n ∧ t.c.termsBytes = s.mg.n ∧ t.c.parsed = s.c.parsed ∧ t.c.emitted = s.c.emitted := by
  obtain ⟨t, terms, total, ht, hw, hwork, hn, hparsed, -, -, hbytes⟩ := minimizeOnce_ok (P := referenceParams) h.workable
  have hkeeps : Answers (minimizeOnce referenceParams s) (fun p => p.1.wn = s.wn ∧ p.1.c.emitted = s.c.emitted) :=
    .after fun _ => .after fun _ => .after fun _ => .after fun _ => .after fun _ => .ok ⟨rfl, rfl⟩
  obtain ⟨hwn, hemitted⟩ := hkeeps _ ht
  exact ⟨t, terms, total, ht, hw, h.of_work hw hwork hwn, hn, hbytes, hparsed, hemitted⟩

theorem minimizeTimes_completes (k : Nat) {s : State} (h : Driven s) (hn : s.mg.n ≠ 0) :
    Completes s (minimizeTimes referenceParams (k + 1) s) (fun t =>
      t.c.termsBytes = s.mg.n ∧ t.c.parsed = s.c.parsed ∧ t.c.emitted = s.c.emitted) := by
  induction k generalizing s with
  | zero =>
    obtain ⟨t, terms, total, ht, hw, hd, -, hq⟩ := minimizeOnce_answers h
    refine ⟨t, ?_, hw, hd, hq⟩
    rw [minimizeTimes, decide_eq_false hn, refuseIf_false, ok_bind, ht]
    rfl
  | succ k ih =>
    obtain ⟨t, terms, total, ht, hw, hd, hn', -, hparsed, hemitted⟩ := minimizeOnce_answers h
    obtain ⟨u, hu, hw', hd', hbytes', hparsed', hemitted'⟩ := ih hd (hn' ▸ hn)
    refine ⟨u, ?_, hw.trans hw', hd', hbytes'.trans hn', hparsed'.trans hparsed, hemitted'.trans hemitted⟩
    rw [minimizeTimes, decide_eq_false hn, refuseIf_false, ok_bind, ht]
    exact hu

theorem Driven.generalize {s : State} (h : Driven s) : Work referenceParams s (s.generalize referenceParams)
    ∧ Driven (s.generalize referenceParams) := by
  have hw : Work referenceParams s (s.generalize referenceParams) := by
    constructor <;> first | rfl | exact id
  refine ⟨hw, h.of_work hw ⟨h.workable.window, ⟨h.workable.terms.terms, h.workable.terms.graph, ?_, h.workable.terms.enc⟩,
    h.workable.parsed⟩ rfl⟩
  have hd := (sized_iff _).mp h.workable.terms.depth
  have hp := (sized_iff _).mp referenceParams_bounded.depth
  refine (sized_iff _).mpr ?_
  simp [State.generalize, blendDepths, hd, hp]

theorem segment_completes {s : State} (h : Driven s) {n : Nat} (final : Bool) (hpos : 0 < n) (hlimit : n ≤ s.c.limit)
    (hin : s.c.parsed + n ≤ s.c.input.length) : Completes s (segment referenceParams n final s) (fun t =>
      (Settled s → Settled t) ∧ t.c.parsed = s.c.parsed + n) := by
  unfold segment
  refine (graphOver_completes h hpos hlimit hin).bind fun t hw ht ⟨hn, hparsed, hemitted⟩ => ?_
  obtain ⟨k, hk⟩ := Nat.exists_eq_succ_of_ne_zero (Nat.one_le_iff_ne_zero.mp ht.sweeps)
  rw [hk]
  refine (minimizeTimes_completes k ht (by omega)).bind fun u hw' hu ⟨hbytes, hparsed', hemitted'⟩ => ?_
  refine (writeDynamic_completes hu final).bind fun v hw'' hv ⟨htv, hparsed'', hemitted'', hbytes'⟩ => ?_
  obtain ⟨hw3, hd3⟩ := hv.generalize
  have hall : v.c.parsed = s.c.parsed + n := by omega
  refine ⟨_, rfl, hw3, hd3, fun hs => ⟨htv, hbytes', ?_⟩, hall⟩
  change v.c.emitted = v.c.parsed
  have := hs.emitted
  omega

theorem driveGraphs_completes (fuel : Nat) {s : State} (h : Driven s) (hs : Settled s) (hf : s.c.input.length - s.c.parsed < fuel) :
    Completes s (driveGraphs referenceParams fuel s) (fun t => Settled t ∧ (s.c.last = true → t.c.parsed = s.c.input.length)) := by
  induction fuel generalizing s with
  | zero => omega
  | succ fuel ih =>
    have hle := h.workable.parsed
    have hpos := h.limit_pos
    unfold driveGraphs
    dsimp only
    split
    · exact .pure h ⟨hs, fun _ => by omega⟩
    · split
      · next hwait => exact .pure h ⟨hs, fun hlast => by simp [hlast] at hwait⟩
      · split
        · next hfinal =>
          obtain ⟨hlast, htail⟩ := hfinal
          simp only [Bool.and_eq_true, decide_eq_true_eq] at hlast
          obtain ⟨hw, hd⟩ := h.skip (n := min s.c.limit (s.c.input.length - s.c.parsed)) (by omega)
          obtain ⟨t, ht, hw', hd', hst, hparsed⟩ := finalBlock_tail hd (by
            have := hs.emitted
            dsimp only
            omega)
          refine ⟨t, ht, hw.trans hw', hd', hst, fun _ => ?_⟩
          rw [hparsed]
          dsimp only
          omega
        · refine (segment_completes h _ (by omega) (Nat.min_le_left _ _) (by omega)).bind fun t hw ht ⟨hst, hparsed⟩ => ?_
          refine (ih ht (hst hs) ?_).mono fun u hw' ⟨hsu, hend⟩ => ⟨hsu, fun hlast => ?_⟩
          · rw [hw.input]
            omega
          · rw [hend (hw.last.trans hlast), hw.input]

/-! ## The driver -/

/-- Whatever the strategy, the driver accounts for its terms; the full strategy has none in hand. -/
structure DriveReady (s : State) : Prop where
  accounted : s.c.Accounted
  settled   : s.c.cfg.strategy = .full → s.tv = [] ∧ s.c.termsBytes = 0

theorem DriveReady.full {s : State} (h : DriveReady s) (hfull : s.c.cfg.strategy = .full) : Settled s := by
  obtain ⟨htv, hbytes⟩ := h.settled hfull
  have := h.accounted
  rw [Compressor.Accounted, hbytes, Nat.add_zero] at this
  exact ⟨htv, hbytes, this⟩

theorem Settled.ready {s : State} (h : Settled s) : DriveReady s := ⟨h.accounted, fun _ => ⟨h.tv, h.bytes⟩⟩

theorem drive_completes {s : State} (h : Driven s) (hr : DriveReady s) : Completes s (drive referenceParams s) (fun t =>
    DriveReady t ∧ (s.c.last = true → Settled t ∧ t.c.parsed = s.c.input.length)) := by
  unfold drive
  dsimp only
  split
  · next hfull =>
    refine (driveGraphs_completes _ h (hr.full hfull) (Nat.lt_succ_self _)).bind fun t hw ht ⟨hs, hend⟩ => ?_
    split
    · next hempty =>
      refine (finalBlock_completes ht hs.accounted).mono fun u _ ⟨hsu, hparsed⟩ => ⟨hsu.ready, fun hlast => ⟨hsu, ?_⟩⟩
      rw [hparsed, hend hlast]
    · exact .pure ht ⟨hs.ready, fun hlast => ⟨hs, hend hlast⟩⟩
  · next hfull =>
    obtain ⟨t, ht, hw, hd, hend⟩ := driveTerms_completes (s.c.input.length - s.c.parsed + 1) h hfull (Nat.lt_succ_self _)
    have hacc : t.c.Accounted := driveTerms_accounted referenceParams _ hr.accounted t ht
    rw [ht, ok_bind]
    split
    · next hlast =>
      obtain ⟨u, hu, hw', hd', hs, hparsed⟩ := finalBlock_completes hd hacc
      exact ⟨u, hu, hw.trans hw', hd', hs.ready, fun hlast => ⟨hs, hparsed.trans (hend hlast)⟩⟩
    · next hlast =>
      exact ⟨t, rfl, hw, hd, ⟨hacc, fun hf => absurd (hw.cfg ▸ hf) hfull⟩, fun h => absurd (hw.last.trans h) hlast⟩

/-! ## What is written joins the stream -/

/-- The stream of the one sink begins with that of the other. -/
def Sink.Extends (k k' : Sink) : Prop := ∃ written, k'.stream = k.stream ++ written

theorem Sink.Extends.refl (k : Sink) : k.Extends k := ⟨[], (List.append_nil _).symm⟩

theorem Sink.Extends.trans {a b c : Sink} (x : a.Extends b) (y : b.Extends c) : a.Extends c := by
  obtain ⟨v, hv⟩ := x
  obtain ⟨w, hw⟩ := y
  exact ⟨v ++ w, by rw [hw, hv, List.append_assoc]⟩

theorem Sink.extends_append (k : Sink) (bits count : Nat) : k.Extends (k.append bits count) := ⟨_, k.stream_append bits count⟩

theorem Sink.extends_pad (k : Sink) : k.Extends k.pad := ⟨_, k.stream_pad⟩

theorem Sink.extends_stored (k : Sink) (last : Bool) (bytes : List Byte) : k.Extends (k.stored last bytes) :=
  ⟨[last, false, false] ++ (padding (k.stream.length + 3) ++ (lowBits 16 bytes.length ++ (lowBits 16 (65535 - bytes.length)
    ++ bitsOfBytes bytes))), by simp only [Sink.stream_stored, List.append_assoc]⟩

theorem Sink.code_extends (t : EncTable) (x : Nat) (k : Sink) : Answers (k.code t x) k.Extends :=
  .after fun _ => .ok (k.extends_append _ _)

theorem Sink.metaStream_extends (t : EncTable) (rle : List (Nat × Nat)) (k : Sink) : Answers (k.metaStream t rle) k.Extends := by
  induction rle generalizing k with
  | nil => exact .ok (.refl k)
  | cons p rest ih =>
    have hextra : ∀ u : Sink, u.Extends (if 16 ≤ p.1 then u.append p.2 (metaExtra p.1) else u) := fun u => by
      split
      · exact u.extends_append _ _
      · exact .refl u
    exact (k.code_extends t p.1).bind fun u hu => (ih _).mono fun _ hv => (hu.trans (hextra u)).trans hv

theorem Sink.token_extends (e : EncTables) (t : TermCodes) (k : Sink) : Answers (k.token e t) k.Extends := by
  refine (k.code_extends _ _).bind fun u hu => ?_
  split
  · exact .ok hu
  · exact (Sink.code_extends _ _ _).bind fun v hv => .ok (((hu.trans (u.extends_append _ _)).trans hv).trans (v.extends_append _ _))

theorem Sink.tokens_extends (e : EncTables) (codes : List TermCodes) (k : Sink) : Answers (k.tokens e codes) k.Extends := by
  induction codes generalizing k with
  | nil => exact .ok (.refl k)
  | cons t rest ih => exact (k.token_extends e t).bind fun u hu => (ih u).mono fun _ hv => hu.trans hv

theorem Sink.dynamicHeader_extends (final : Bool) (p : BlockPlan) (k : Sink) : k.Extends (k.dynamicHeader final p) := by
  have hfold : ∀ (l : List Nat) (k : Sink), k.Extends (l.foldl (fun k x => k.append x 3) k) := by
    intro l
    induction l with
    | nil => exact .refl
    | cons x rest ih => exact fun k => (k.extends_append x 3).trans (ih _)
  unfold Sink.dynamicHeader
  exact (((((k.extends_append _ _).trans (Sink.extends_append _ _ _)).trans (Sink.extends_append _ _ _)).trans
    (Sink.extends_append _ _ _)).trans (Sink.extends_append _ _ _)).trans (hfold _ _)

theorem writeDynamic_extends (P : Params) (final : Bool) (s : State) : Answers (writeDynamic P final s) (fun t => s.bs.Extends t.bs) :=
  .after fun _ => (Sink.metaStream_extends _ _ _).bind fun _ hk => (Sink.tokens_extends _ _ _).bind fun _ hk' =>
    (Sink.code_extends _ _ _).bind fun _ hk'' => .ok ((((s.bs.dynamicHeader_extends final _).trans hk).trans hk').trans hk'')

theorem keptByParts_extends (P : Params) (k : Sink) : KeptByParts P (fun t => k.Extends t.bs) where
  parse _ ht := .after fun _ => .after fun _ => .ok ht
  graph _ _ ht := .after fun _ => .after fun _ => .ok ht
  minimize _ ht := .after fun _ => .after fun _ => .after fun _ => .after fun _ => .after fun _ => .ok ht
  generalize _ ht := ht
  write final t ht := (writeDynamic_extends P final t).mono fun _ hu => ht.trans hu
  final t ht := by
    unfold finalBlock
    split
    · exact .ok (ht.trans (t.bs.extends_stored _ _))
    · exact (writeDynamic_extends P true t).mono fun _ hu => ht.trans hu
  skip _ _ ht := ht

/-! ## The trailer (spec/46_stream_interface.md R566, R586) -/

theorem bigEndian_bytesBE (w : Word) : bigEndian (((bytesBE w).map (BitVec.ofNat 8)).map BitVec.toNat) = w.toNat := by
  have hw := w.isLt
  simp only [bytesBE, byteOf, List.map_cons, List.map_nil, bigEndian, List.foldl_cons, List.foldl_nil, BitVec.toNat_ofNat]
  omega

theorem littleEndian_bytesLE (w : Word) : littleEndian (((bytesLE w).map (BitVec.ofNat 8)).map BitVec.toNat) = w.toNat :=
  bigEndian_bytesBE w

/-- The trailer of the compressor's registers, as bytes. -/
def Compressor.trailer (c : Compressor) : List Byte := (trailerBytes c).map (BitVec.ofNat 8)

/-- The trailer of a sound compressor holds the check of its input, and for gzip its length. -/
theorem Compressor.Sound.trailer {c : Compressor} (h : c.Sound) :
    (c.cfg.format = .zlib → c.trailer.length = 4 ∧ bigEndian (c.trailer.map BitVec.toNat) = (adler32 1 c.input).toNat)
      ∧ (c.cfg.format = .gzip → c.trailer.length = 8 ∧ littleEndian ((c.trailer.take 4).map BitVec.toNat) = (crc32 0 c.input).toNat
          ∧ littleEndian ((c.trailer.drop 4).map BitVec.toNat) = c.input.length % 2 ^ 32)
      ∧ (c.cfg.format = .raw → c.trailer = []) := by
  have hcheck := h.check
  unfold Compressor.trailer trailerBytes
  refine ⟨fun hf => ?_, fun hf => ?_, fun hf => ?_⟩ <;> rw [hf] at hcheck ⊢
  · exact ⟨rfl, (bigEndian_bytesBE _).trans (congrArg BitVec.toNat hcheck)⟩
  · refine ⟨rfl, (littleEndian_bytesLE c.check).trans (congrArg BitVec.toNat hcheck), (littleEndian_bytesLE c.isize).trans ?_⟩
    rw [h.isize]
    exact BitVec.toNat_ofNat _ _
  · rfl

/-! ## The push -/

/-- The state with the bytes of a push taken in (spec/46_stream_interface.md R542). -/
def State.taken (s : State) (last : Bool) (bytes : List Byte) : State := { s with c := s.c.take last bytes, wn := s.wn.feed bytes }

/-- A push on an open stream drives the compressor over its input, and closes the stream if it is the last. -/
theorem exec_cPush {s : State} (hstate : s.c.state = .opened) (last : Bool) (bytes : List Byte) :
    exec (.cPush last bytes) s = s.finish (drive referenceParams (s.taken last bytes) >>= fun t =>
      pure ((if last then t.closeStream else t).answer .ok [word (if last then t.closeStream else t).bs.queue.length] [])) := by
  have hopen : s.c.isOpen = true := by simp [Compressor.isOpen, hstate]
  have hfin : (s.c.state == .finished) = false := by
    rw [hstate]
    rfl
  refine (finish_opened hopen).trans ((finish_afterCheck hfin).trans (congrArg s.finish ?_))
  change (drive referenceParams (s.taken last bytes) >>= _) >>= _ = _
  cases drive referenceParams (s.taken last bytes) <;> rfl

section
variable {s : State} (hs : s.Sound) (hd : s.DrivenAlone) (hstate : s.c.state = .opened) (last : Bool) (bytes : List Byte)
include hs hd hstate

theorem State.taken_last : (s.taken last bytes).c.last = last := by
  have hlast : s.c.last = false := by
    have := (hs.compressor hd.isOpen).last
    rw [hstate] at this
    simpa using this
  change (s.c.last || last) = last
  rw [hlast, Bool.false_or]

theorem State.taken_driven : Driven (s.taken last bytes) := by
  have hc := hs.compressor hd.isOpen
  refine ⟨⟨hs.window.feed bytes, ⟨hs.terms.terms, hs.terms.graph, hs.terms.depth, hs.terms.enc⟩, (hc.take hstate last bytes).parsed⟩, ?_,
    hd.near, hc.limit, hc.sweeps.1⟩
  change s.wn.input ++ bytes = s.c.input ++ bytes
  rw [hd.fed]

/-- The push does its work and leaves what the driver leaves. -/
theorem exec_cPush_drives (hr : DriveReady s) : ∃ t : State, drive referenceParams (s.taken last bytes) = .ok t
    ∧ exec (.cPush last bytes) s = .next ((if last then t.closeStream else t).answer .ok
        [word (if last then t.closeStream else t).bs.queue.length] [])
    ∧ Work referenceParams (s.taken last bytes) t ∧ Driven t ∧ DriveReady t
    ∧ (last = true → Settled t ∧ t.c.parsed = (s.c.input ++ bytes).length) := by
  obtain ⟨t, ht, hw, hdt, hrt, hend⟩ := drive_completes (State.taken_driven hs hd hstate last bytes) ⟨hr.accounted, hr.settled⟩
  rw [State.taken_last hs hd hstate] at hend
  exact ⟨t, ht, (exec_cPush hstate last bytes).trans (by rw [ht]; rfl), hw, hdt, hrt, hend⟩

end

end Sys2Proof.Machine

namespace Sys2Proof.StreamInterface

open Sys2Proof.Machine

/-- Settles O51: the driver completes on a driven stream whose terms are accounted for, and what it and the end of the stream write only
joins what the sink held. -/
theorem cPushCompletes : Obligations.CPushCompletes := by
  refine ⟨fun last bytes s hs hd hstate hacc hfull => ?_, fun last bytes s hfin => ?_⟩
  · obtain ⟨t, ht, hexec, hw, hdt, hrt, hend⟩ := exec_cPush_drives hs hd hstate last bytes ⟨hacc, hfull⟩
    obtain ⟨written, hwritten⟩ : s.bs.Extends t.bs := (keptByParts_extends referenceParams s.bs).drive (s := s.taken last bytes) (.refl _) t ht
    have htake := (hs.compressor hd.isOpen).take hstate last bytes
    have hlast : t.c.last = last := hw.last.trans (State.taken_last hs hd hstate last bytes)
    have hinput : t.c.input = s.c.input ++ bytes := hw.input
    have hcfg : t.c.cfg = s.c.cfg := hw.cfg
    have hsound : ({ t.c with state := if last then .finished else .opened } : Compressor).Sound :=
      htake.of_same hw.cfg hw.input hw.check hw.isize hdt.workable.parsed (by rw [hlast]; cases last <;> simp) hdt.limit
    have hcheck : t.c.check = checkOver s.c.cfg.format (checkInit s.c.cfg.format) (s.c.input ++ bytes) := by
      have := hsound.check
      rwa [hcfg, hinput] at this
    have hisize : t.c.isize = word (s.c.input ++ bytes).length := by
      have := hsound.isize
      rwa [hinput] at this
    have hopen : t.c.state = .opened := hw.cstate.trans hstate
    refine ⟨_, hexec, rfl, rfl, rfl, ?_⟩
    cases last with
    | false =>
      exact ⟨hinput, hisize, hcfg, hcheck, hlast, hopen, nofun, ⟨written, [], by simpa using hwritten, fun _ => rfl, nofun⟩,
        ⟨by simp [Compressor.isOpen, hopen], hdt.fed, hdt.near⟩, hrt.accounted, hrt.settled⟩
    | true =>
      obtain ⟨hsettled, hparsed⟩ := hend rfl
      have hlen : t.c.parsed = t.c.input.length := by rw [hparsed, hinput]
      have hpad : t.bs.pad.stream = s.bs.stream ++ (written ++ padding t.bs.stream.length) := by
        rw [Sink.stream_pad, hwritten, List.append_assoc]
      have hwhole : t.bs.pad.stream.length % 8 = 0 := by
        rw [Sink.stream_pad, length_append_padding_mod]
      have hclosed : (t.bs.pad.appendBytes (trailerBytes t.c)).stream = t.bs.pad.stream ++ bitsOfBytes t.c.trailer := by
        rw [Sink.stream_appendBytes, Compressor.trailer, bitsOfBytes_ofNat]
      obtain ⟨hzlib, hgzip, hraw⟩ := hsound.trailer
      rw [← hcfg, ← hinput]
      refine ⟨rfl, hisize.trans (by rw [hinput]), rfl, ?_, hlast, rfl, fun _ => ⟨hlen, hsettled.emitted.trans hlen, hsettled.tv, ?_⟩,
        ⟨written ++ padding t.bs.stream.length, t.c.trailer, hclosed.trans (by rw [hpad]), nofun, fun _ => ⟨hpad ▸ hwhole, hzlib, hgzip, hraw⟩⟩,
        ⟨rfl, hdt.fed, hdt.near⟩, hrt.accounted, hrt.settled⟩
      · rw [hcfg, hinput]
        exact hcheck
      · refine Sink.nacc_of_whole ?_
        change (t.bs.pad.appendBytes (trailerBytes t.c)).stream.length % 8 = 0
        rw [hclosed, List.length_append, length_bitsOfBytes]
        omega
  · exact refuses_opened (by simp [Compressor.isOpen, hfin]) (refuses_check (by rw [hfin]; rfl))

end Sys2Proof.StreamInterface
end

section
/-! PROOF. The compressed stream does not depend on how the input is split (spec/46_stream_interface.md R545): what the driver does before it
waits for more input it does as well with the further input there, since no search reaches beyond the lookahead it asks for. -/

namespace Sys2Proof.Machine

/-! ## One computation the image of another -/

section
variable {ε α β α' β' : Type} {x : Except ε α} {y : Except ε α'}

theorem bind_eq_map {g : α → Except ε β} {g' : α' → Except ε β'} {f : α → α'} {h : β → β'} (hx : y = x.map f)
    (hg : ∀ a, x = .ok a → g' (f a) = (g a).map h) : y >>= g' = (x >>= g).map h := by
  subst hx
  cases x with
  | error e => rfl
  | ok a => exact hg a rfl

theorem after_eq_map {g : α → Except ε β} {g' : α → Except ε β'} {h : β → β'} (hg : ∀ a, g' a = (g a).map h) :
    x >>= g' = (x >>= g).map h := by
  cases x with
  | error e => rfl
  | ok a => exact hg a

end

/-! ## The window with more lookahead -/

section
variable (b : List Byte)

theorem Window.update_feed {P : Params} {w : Window} (byte : Byte) (h : w.inserted < w.input.length) :
    (w.feed b).update P byte = (w.update P byte).map (Window.feed · b) := by
  have hshift : (w.feed b).shiftIn byte = (w.shiftIn byte).feed b := by
    have hne : w.inserted ≠ w.input.length := h.ne
    have hne' : w.inserted ≠ (w.input ++ b).length := by
      rw [List.length_append]
      omega
    unfold Window.shiftIn
    rw [if_neg hne, show (w.feed b).inserted = w.inserted from rfl, show (w.feed b).input = w.input ++ b from rfl, if_neg hne']
    rfl
  have hread : (w.feed b).input[(w.feed b).inserted]? = w.input[w.inserted]? := List.getElem?_append_left h
  have hlt : decide ((w.feed b).inserted < (w.feed b).input.length) = decide (w.inserted < w.input.length) := by
    rw [decide_eq_true h]
    refine decide_eq_true (show w.inserted < (w.input ++ b).length from ?_)
    rw [List.length_append]
    omega
  rw [Window.update, Window.update, hread, hlt, hshift]
  refine after_eq_map fun _ => ?_
  by_cases hfew : (w.shiftIn byte).inserted < 4
  · dsimp only
    rw [if_pos hfew, if_pos (show ((w.shiftIn byte).feed b).inserted < 4 from hfew)]
    rfl
  · dsimp only
    rw [if_neg hfew, if_neg (show ¬ ((w.shiftIn byte).feed b).inserted < 4 from hfew)]
    rfl

theorem insertLoop_feed {P : Params} (n : Nat) {w : Window} (h : w.inserted + n ≤ w.input.length) :
    insertLoop P (w.input ++ b) n (w.feed b) = (insertLoop P w.input n w).map (Window.feed · b) := by
  induction n generalizing w with
  | zero => rfl
  | succ n ih =>
    have hlt : w.inserted < w.input.length := by omega
    rw [insertLoop, insertLoop, show (w.input ++ b)[(w.feed b).inserted]? = w.input[w.inserted]? from List.getElem?_append_left hlt]
    refine after_eq_map fun byte => bind_eq_map (Window.update_feed b byte hlt) fun v hv => ?_
    obtain ⟨hin, -, -, hinput, -⟩ := Window.update_frame hv
    rw [if_neg hlt.ne] at hinput
    rw [← hinput]
    exact ih (by rw [hin, hinput]; omega)

theorem insertTo_feed {P : Params} {s : Nat} {w : Window} (h : w.inserted ≤ s + 4) (hs : s + 4 ≤ w.input.length) :
    insertTo P (w.input ++ b) s (w.feed b) = (insertTo P w.input s w).map (Window.feed · b) := by
  have hmin : min (w.input ++ b).length (s + 4) = min w.input.length (s + 4) := by
    rw [List.length_append]
    omega
  rw [insertTo, insertTo, hmin]
  have hturns : w.inserted + (min w.input.length (s + 4) - w.inserted) ≤ w.input.length := by omega
  exact insertLoop_feed b _ hturns

theorem runLength_append (limit : Nat) {as bs : List Byte} (ha : limit ≤ as.length) (hb : limit ≤ bs.length) (x y : List Byte) :
    runLength limit (as ++ x) (bs ++ y) = runLength limit as bs := by
  induction limit generalizing as bs with
  | zero => rw [runLength, runLength]
  | succ limit ih =>
    cases as with
    | nil => simp at ha
    | cons a as =>
      cases bs with
      | nil => simp at hb
      | cons c bs =>
        simp only [List.length_cons, Nat.add_le_add_iff_right] at ha hb
        rw [List.cons_append, List.cons_append, runLength, runLength, ih ha hb]

theorem Window.walk_feed {w : Window} (h : w.Sound) {s limit : Nat} (goal tries : Nat) {head : Option Nat} (hhead : ∀ p, head = some p → p < s)
    (hs : s + limit ≤ w.input.length) : (w.feed b).walk s limit goal tries head = w.walk s limit goal tries head := by
  induction tries generalizing head with
  | zero => rfl
  | succ tries ih =>
    cases head with
    | none => rfl
    | some c =>
      have hc := hhead c rfl
      have hrun : runLength limit ((w.feed b).input.drop c) ((w.feed b).input.drop s)
          = runLength limit (w.input.drop c) (w.input.drop s) := by
        rw [Window.feed, List.drop_append_of_le_length (by omega), List.drop_append_of_le_length (by omega)]
        exact runLength_append limit (by rw [List.length_drop]; omega) (by rw [List.length_drop]; omega) _ _
      rw [Window.walk, Window.walk, hrun, show (w.feed b).maxDistance = w.maxDistance from rfl, show (w.feed b).next = w.next from rfl,
        ih fun p hp => (h.links c p hp).trans hc]

theorem Window.candidates_feed {w : Window} (h : w.Sound) {s lookahead lookahead' : Nat} {head : Option Nat} (hl : w.last = some (s, head))
    (hin : s + lookahead ≤ w.input.length) (hin' : s + lookahead' ≤ w.input.length + b.length)
    (hsame : min maxRun lookahead = min maxRun lookahead') (attempts goal : Nat) :
    (w.feed b).candidates lookahead' attempts goal = w.candidates lookahead attempts goal := by
  obtain ⟨-, -, hhead⟩ := h.last_key hl
  have hlong : decide (w.input.length - s < lookahead) = false := decide_eq_false (by omega)
  have hlong' : decide ((w.feed b).input.length - s < lookahead') = false := decide_eq_false (by
    rw [Window.feed, List.length_append]
    omega)
  rw [Window.candidates, Window.candidates, show (w.feed b).last = w.last from rfl, hl]
  dsimp only
  rw [hlong, hlong', ← hsame, Window.walk_feed b h goal attempts hhead (by omega)]

/-! ## The searches with more input -/

variable {c c' : Compressor} (hinput : c'.input = c.input ++ b) (hcfg : c'.cfg = c.cfg)
include hinput hcfg

theorem findAt_ahead {s : Nat} {w : Window} (h : Before c.input s w) (hs : s + 258 ≤ c.input.length) :
    findAt referenceParams c' s (w.feed b) = (findAt referenceParams c s w).map fun p => (p.1, p.2.feed b) := by
  have hfew : ¬ c.input.length < s + 4 := by omega
  have hfew' : ¬ c'.input.length < s + 4 := by rw [hinput, List.length_append]; omega
  obtain ⟨v, head, hv, hbefore, -, -, -, -, hlast⟩ := h.insertTo (s := s) (by omega)
  have hins := insertTo_feed (P := referenceParams) (s := s) b (w := w) h.near (by rw [h.fed]; omega)
  rw [h.fed, ← hinput] at hins
  rw [findAt, findAt, if_neg hfew, if_neg hfew', hcfg]
  refine bind_eq_map hins fun u hu => ?_
  obtain rfl : u = v := Except.ok.inj (hu.symm.trans hv)
  have hcand := Window.candidates_feed b hbefore.sound hlast (lookahead := c.input.length - s) (lookahead' := c'.input.length - s)
    (by rw [hbefore.fed]; omega) (by rw [hbefore.fed, hinput, List.length_append]; omega)
    (by rw [hinput, List.length_append, maxRun]; omega) c.cfg.attempts.toNat c.cfg.goal.toNat
  rw [Window.findMatch, Window.findMatch, hcand]
  exact after_eq_map fun _ => rfl

theorem parseAt_ahead {s : Nat} (byte : Byte) {w : Window} (h : Before c.input s w) (hs : s + 259 ≤ c.input.length) :
    parseAt referenceParams c' s byte (w.feed b) = (parseAt referenceParams c s byte w).map fun p => (p.1, p.2.feed b) := by
  rw [parseAt, parseAt]
  refine bind_eq_map (findAt_ahead b hinput hcfg h (by omega)) fun ⟨m, v⟩ hm => ?_
  obtain ⟨m', v', hfind, -, hv, -⟩ := h.findAt
  cases hm.symm.trans hfind
  cases m with
  | none => rfl
  | some best =>
    have hmore : s + 1 < c.input.length := by omega
    have hmore' : s + 1 < c'.input.length := by rw [hinput, List.length_append]; omega
    dsimp only
    rw [hcfg]
    by_cases hlazy : c.cfg.strategy = .lazy
    · rw [if_pos ⟨hlazy, hmore'⟩, if_pos ⟨hlazy, hmore⟩]
      refine bind_eq_map (findAt_ahead b hinput hcfg (hv.later (Nat.le_succ s)) (by omega)) fun ⟨m', u⟩ _ => ?_
      cases m' with
      | none => rfl
      | some best' =>
        dsimp only
        split <;> rfl
    · rw [if_neg fun hx => hlazy hx.1, if_neg fun hx => hlazy hx.1]
      rfl

theorem edgesAt_ahead {p room : Nat} {w : Window} (h : Before c.input p w) (hroom : p + room ≤ c.input.length) (hp : p + 4 ≤ c.input.length) :
    edgesAt referenceParams c' p room (w.feed b) = (edgesAt referenceParams c p room w).map fun r => (r.1, r.2.feed b) := by
  have hfew : ¬ c.input.length < p + 4 := by omega
  have hfew' : ¬ c'.input.length < p + 4 := by rw [hinput, List.length_append]; omega
  obtain ⟨v, head, hv, hbefore, -, -, -, -, hlast⟩ := h.insertTo (s := p) (by omega)
  have hins := insertTo_feed (P := referenceParams) (s := p) b (w := w) h.near (by rw [h.fed]; omega)
  rw [h.fed, ← hinput] at hins
  rw [edgesAt, edgesAt, if_neg hfew, if_neg hfew', hcfg]
  refine bind_eq_map hins fun u hu => ?_
  obtain rfl : u = v := Except.ok.inj (hu.symm.trans hv)
  have hcand := Window.candidates_feed b hbefore.sound hlast (lookahead := min maxRun room) (lookahead' := min maxRun room)
    (by rw [hbefore.fed]; omega) (by rw [hbefore.fed]; omega) rfl c.cfg.attempts.toNat c.cfg.goal.toNat
  rw [Window.findPerDecade, Window.findPerDecade, hcand]
  refine after_eq_map fun best => ?_
  cases best <;> rfl

theorem graphLoop_ahead (k : Nat) {p : Nat} {w : Window} (h : Before c.input p w) (hk : p + k + 3 ≤ c.input.length) :
    graphLoop referenceParams c' k p (w.feed b) = (graphLoop referenceParams c k p w).map fun r => (r.1, r.2.feed b) := by
  induction k generalizing p w with
  | zero => rfl
  | succ k ih =>
    obtain ⟨edges, v, hedges, -, hv, -⟩ := h.edgesAt (room := k + 1) (by omega)
    rw [graphLoop, graphLoop, hinput, List.getElem?_append_left (by omega)]
    refine after_eq_map fun byte => bind_eq_map (edgesAt_ahead b hinput hcfg h (by omega) (by omega)) fun r hr => ?_
    cases hr.symm.trans hedges
    exact bind_eq_map (ih (hv.later (Nat.le_succ p)) (by omega)) fun _ _ => rfl

end

/-! ## The parts of the driver with more input -/

section
variable (last : Bool) (b : List Byte) {s : State}

theorem parseStep_ahead (h : Driven s) (hs : s.c.parsed + 259 ≤ s.c.input.length) : parseStep referenceParams (s.taken last b) =
    (parseStep referenceParams s).map fun p => (p.1.taken last b, p.2) := by
  have hread : (s.taken last b).c.input[(s.taken last b).c.parsed]? = s.c.input[s.c.parsed]? := List.getElem?_append_left (show s.c.parsed < s.c.input.length by omega)
  rw [parseStep, parseStep, hread]
  exact after_eq_map fun byte => bind_eq_map (parseAt_ahead (c' := (s.taken last b).c) b rfl rfl byte h.before hs) fun _ _ => rfl

theorem writeDynamic_ahead (final : Bool) : writeDynamic referenceParams final (s.taken last b) =
    (writeDynamic referenceParams final s).map (State.taken · last b) :=
  after_eq_map fun _ => after_eq_map fun _ => after_eq_map fun _ => after_eq_map fun _ => rfl

theorem endBlockIfFull_ahead : endBlockIfFull referenceParams (s.taken last b) =
    (endBlockIfFull referenceParams s).map (State.taken · last b) := by
  by_cases hfull : referenceParams.blockTerms ≤ s.tv.length
  · rw [endBlockIfFull, endBlockIfFull, if_pos hfull, if_pos (show _ ≤ (s.taken last b).tv.length from hfull)]
    exact writeDynamic_ahead last b false
  · rw [endBlockIfFull, endBlockIfFull, if_neg hfull, if_neg (show ¬ _ ≤ (s.taken last b).tv.length from hfull)]
    rfl

theorem graphOver_ahead (h : Driven s) {n : Nat} (hn : s.c.parsed + n + 3 ≤ s.c.input.length) :
    graphOver referenceParams n (s.taken last b) = (graphOver referenceParams n s).map (State.taken · last b) := by
  have hin : decide (s.c.input.length < s.c.parsed + n) = false := decide_eq_false (by omega)
  have hin' : decide ((s.taken last b).c.input.length < (s.taken last b).c.parsed + n) = false := decide_eq_false (by
    change ¬ (s.c.input ++ b).length < s.c.parsed + n
    rw [List.length_append]
    omega)
  rw [graphOver, graphOver, hin, hin', show (s.taken last b).c.limit = s.c.limit from rfl]
  exact after_eq_map fun _ => bind_eq_map (graphLoop_ahead (c' := (s.taken last b).c) b rfl rfl n h.before hn) fun _ _ => rfl

theorem minimizeTimes_ahead (k : Nat) : minimizeTimes referenceParams k (s.taken last b) =
    (minimizeTimes referenceParams k s).map (State.taken · last b) := by
  have hone : ∀ s : State, minimizeOnce referenceParams (s.taken last b) =
      (minimizeOnce referenceParams s).map fun p => (p.1.taken last b, p.2) := fun _ =>
    after_eq_map fun _ => after_eq_map fun _ => after_eq_map fun _ => after_eq_map fun _ => after_eq_map fun _ => rfl
  induction k generalizing s with
  | zero => rfl
  | succ k ih => exact after_eq_map fun _ => bind_eq_map (hone s) fun p _ => ih

theorem segment_ahead (h : Driven s) {n : Nat} (final : Bool) (hn : s.c.parsed + n + 3 ≤ s.c.input.length) :
    segment referenceParams n final (s.taken last b) = (segment referenceParams n final s).map (State.taken · last b) :=
  bind_eq_map (graphOver_ahead last b h hn) fun _ _ => bind_eq_map (minimizeTimes_ahead last b _) fun _ _ =>
    bind_eq_map (writeDynamic_ahead last b final) fun _ _ => rfl

/-! ## The loops with more input -/

theorem driveTerms_unique {n m : Nat} {t u : State} (ht : driveTerms referenceParams n s = .ok t)
    (hu : driveTerms referenceParams m s = .ok u) : t = u := by
  induction n generalizing s m with
  | zero => cases ht
  | succ n ih =>
    cases m with
    | zero => cases hu
    | succ m =>
      rw [driveTerms] at ht hu
      split at ht
      · next hle =>
        rw [if_pos hle] at hu
        exact Except.ok.inj (ht.symm.trans hu)
      · next hlt =>
        rw [if_neg hlt] at hu
        split at ht
        · next hwait =>
          rw [if_pos hwait] at hu
          exact Except.ok.inj (ht.symm.trans hu)
        · next hgo =>
          rw [if_neg hgo] at hu
          obtain ⟨s1, h1, ht⟩ := bind_eq_ok.mp ht
          obtain ⟨p, h2, ht⟩ := bind_eq_ok.mp ht
          rw [h1, ok_bind, h2, ok_bind] at hu
          exact ih ht hu

/-- What the loop did before it waited, it does with more input as well, and goes on. -/
theorem driveTerms_ahead (fuel : Nat) (h : Driven s) (hfull : s.c.cfg.strategy ≠ .full) (hlast : s.c.last = false) {t : State}
    (ht : driveTerms referenceParams fuel s = .ok t) {m : Nat} {r : State} (hr : driveTerms referenceParams m (t.taken last b) = .ok r) :
    ∃ n, driveTerms referenceParams n (s.taken last b) = .ok r := by
  induction fuel generalizing s with
  | zero => cases ht
  | succ fuel ih =>
    rw [driveTerms] at ht
    split at ht
    · cases ht
      exact ⟨m, hr⟩
    · next hlt =>
      split at ht
      · cases ht
        exact ⟨m, hr⟩
      · next hgo =>
        have hready : s.c.parsed + 259 ≤ s.c.input.length := by
          have : lookaheadMin ≤ s.c.input.length - s.c.parsed := by simpa [lookaheadReady, hlast] using hgo
          rw [lookaheadMin] at this
          omega
        obtain ⟨s1, h1, hw1, hd1, hparsed⟩ := endBlockIfFull_completes h
        rw [h1, ok_bind] at ht
        have hready1 : s1.c.parsed + 259 ≤ s1.c.input.length := by rw [hparsed, hw1.input]; exact hready
        obtain ⟨s2, new, h2, hw2, hd2, -⟩ := parseStep_answers hd1 (hw1.cfg ▸ hfull) (by omega)
        rw [h2, ok_bind] at ht
        obtain ⟨n, hn⟩ := ih hd2 (by rw [hw2.cfg, hw1.cfg]; exact hfull) (hw2.last.trans (hw1.last.trans hlast)) ht
        have hlong : s.c.parsed + 259 ≤ (s.taken last b).c.input.length := by
          change _ ≤ (s.c.input ++ b).length
          rw [List.length_append]
          omega
        have hsame : (s.taken last b).c.parsed = s.c.parsed := rfl
        have hgo' : lookaheadReady (s.taken last b).c (s.taken last b).c.parsed = true := by
          rw [lookaheadReady, hsame, lookaheadMin, decide_eq_true (by omega), Bool.true_or]
        refine ⟨n + 1, ?_⟩
        rw [driveTerms, if_neg (by rw [hsame]; omega), hgo', Bool.not_true,
          if_neg Bool.false_ne_true, endBlockIfFull_ahead, h1]
        change parseStep referenceParams (s1.taken last b) >>= _ = _
        rw [parseStep_ahead last b hd1 hready1, h2]
        exact hn

theorem driveGraphs_unique {n m : Nat} {t u : State} (ht : driveGraphs referenceParams n s = .ok t)
    (hu : driveGraphs referenceParams m s = .ok u) : t = u := by
  induction n generalizing s m with
  | zero => cases ht
  | succ n ih =>
    cases m with
    | zero => cases hu
    | succ m =>
      rw [driveGraphs] at ht hu
      dsimp only at ht hu
      split at ht
      · next hnone =>
        rw [if_pos hnone] at hu
        exact Except.ok.inj (ht.symm.trans hu)
      · next hsome =>
        rw [if_neg hsome] at hu
        split at ht
        · next hwait =>
          rw [if_pos hwait] at hu
          exact Except.ok.inj (ht.symm.trans hu)
        · next hgo =>
          rw [if_neg hgo] at hu
          split at ht
          · next htail =>
            rw [if_pos htail] at hu
            exact Except.ok.inj (ht.symm.trans hu)
          · next hlong =>
            rw [if_neg hlong] at hu
            obtain ⟨s1, h1, ht⟩ := bind_eq_ok.mp ht
            rw [h1, ok_bind] at hu
            exact ih ht hu

theorem driveGraphs_ahead (fuel : Nat) (h : Driven s) (hlast : s.c.last = false) {t : State}
    (ht : driveGraphs referenceParams fuel s = .ok t) {m : Nat} {r : State} (hr : driveGraphs referenceParams m (t.taken last b) = .ok r) :
    ∃ n, driveGraphs referenceParams n (s.taken last b) = .ok r := by
  induction fuel generalizing s with
  | zero => cases ht
  | succ fuel ih =>
    rw [driveGraphs] at ht
    dsimp only at ht
    rw [hlast] at ht
    split at ht
    · cases ht
      exact ⟨m, hr⟩
    · next hsome =>
      split at ht
      · cases ht
        exact ⟨m, hr⟩
      · next hgo =>
        have hready : s.c.limit + 3 ≤ s.c.input.length - s.c.parsed := by
          by_contra hshort
          exact hgo ⟨not_le.mp hshort, rfl⟩
        have hmin : min s.c.limit (s.c.input.length - s.c.parsed) = s.c.limit := by omega
        rw [if_neg (by simp), hmin, Bool.false_and] at ht
        obtain ⟨s1, h1, hw1, hd1, -⟩ := segment_completes h false h.limit_pos le_rfl (by omega)
        rw [h1, ok_bind] at ht
        obtain ⟨n, hn⟩ := ih hd1 (hw1.last.trans hlast) ht
        have hsame : (s.taken last b).c.parsed = s.c.parsed := rfl
        have hcapacity : (s.taken last b).c.limit = s.c.limit := rfl
        have hlong : s.c.input.length ≤ (s.taken last b).c.input.length := by
          change _ ≤ (s.c.input ++ b).length
          rw [List.length_append]
          exact Nat.le_add_right _ _
        have hmin' : min s.c.limit ((s.taken last b).c.input.length - s.c.parsed) = s.c.limit := by omega
        have hnotAll : decide (s.c.limit = (s.taken last b).c.input.length - s.c.parsed) = false := decide_eq_false (by omega)
        refine ⟨n + 1, ?_⟩
        rw [driveGraphs]
        dsimp only
        rw [hsame, hcapacity, if_neg (by omega), if_neg (fun hx => absurd hx.1 (by omega)), hmin', hnotAll, Bool.and_false,
          if_neg (by simp), segment_ahead last b h false (by omega), h1]
        exact hn

/-! ## The driver and the push -/

/-- The driver over both pieces does what it does over the first and then over the second. -/
theorem drive_ahead (h : Driven s) (hlast : s.c.last = false) {t r r' : State} (ht : drive referenceParams s = .ok t)
    (hr : drive referenceParams (t.taken last b) = .ok r) (hr' : drive referenceParams (s.taken last b) = .ok r') : r = r' := by
  have hcfg : t.c.cfg = s.c.cfg := ((meets_drive referenceParams_bounded h.workable).answer t ht).1.cfg
  by_cases hfull : s.c.cfg.strategy = .full
  · have hfull' : (t.taken last b).c.cfg.strategy = .full := (congrArg CConfig.strategy hcfg).trans hfull
    rw [drive, if_pos hfull] at ht
    rw [drive, if_pos hfull'] at hr
    rw [drive, if_pos (show (s.taken last b).c.cfg.strategy = .full from hfull)] at hr'
    obtain ⟨t1, ht1, ht⟩ := bind_eq_ok.mp ht
    obtain ⟨r1, hr1, hr⟩ := bind_eq_ok.mp hr
    obtain ⟨r2, hr2, hr'⟩ := bind_eq_ok.mp hr'
    have hlast1 : t1.c.last = false :=
      ((meets_driveGraphs referenceParams_bounded _ h.workable (Nat.lt_succ_self _)).answer t1 ht1).1.last.trans hlast
    rw [if_neg (by simp [hlast1])] at ht
    cases ht
    obtain ⟨n, hn⟩ := driveGraphs_ahead last b _ h hlast ht1 hr1
    cases driveGraphs_unique hn hr2
    exact Except.ok.inj (hr.symm.trans hr')
  · have hfull' : ¬ (t.taken last b).c.cfg.strategy = .full := fun hf => hfull ((congrArg CConfig.strategy hcfg).symm.trans hf)
    rw [drive, if_neg hfull] at ht
    rw [drive, if_neg hfull'] at hr
    rw [drive, if_neg (show ¬ (s.taken last b).c.cfg.strategy = .full from hfull)] at hr'
    obtain ⟨t1, ht1, ht⟩ := bind_eq_ok.mp ht
    obtain ⟨r1, hr1, hr⟩ := bind_eq_ok.mp hr
    obtain ⟨r2, hr2, hr'⟩ := bind_eq_ok.mp hr'
    have hlast1 : t1.c.last = false :=
      ((meets_driveTerms referenceParams_bounded _ h.workable (Nat.lt_succ_self _)).answer t1 ht1).1.last.trans hlast
    rw [if_neg (by simp [hlast1])] at ht
    cases ht
    obtain ⟨n, hn⟩ := driveTerms_ahead last b _ h hfull hlast ht1 hr1
    cases driveTerms_unique hn hr2
    exact Except.ok.inj (hr.symm.trans hr')

end

theorem State.taken_taken (s : State) (last : Bool) (a b : List Byte) : (s.taken false a).taken last b = s.taken last (a ++ b) := by
  have hcheck : ∀ (f : Format) (old : Word) (x y : List Byte), inputCheck f (inputCheck f old x) y = inputCheck f old y := by
    intro f old x y
    cases f <;> rfl
  simp only [State.taken, Compressor.take, Window.feed, List.append_assoc, hcheck, lastFlag, Bool.or_false]

theorem closed_alike {x y : State} (last : Bool) (hbs : x.bs = y.bs) (hc : x.c = y.c) :
    (if last then x.closeStream else x).bs = (if last then y.closeStream else y).bs
      ∧ (if last then x.closeStream else x).c = (if last then y.closeStream else y).c := by
  cases last
  · exact ⟨hbs, hc⟩
  · simp only [if_true, State.closeStream, hbs, hc, and_self]

/-- Settles O52: the second push drives on from where the first one waited, which is where the one push of both comes by. -/
theorem compressorChunkingIndependence : Obligations.CompressorChunkingIndependence := by
  intro a b last s t u v hs hd hstate hst htu hsv
  obtain ⟨t1, ht1, rfl⟩ := hst.exists_answer (exec_cPush hstate false a)
  have hdriven := State.taken_driven hs hd hstate false a
  have hlast := State.taken_last hs hd hstate false a
  have hopen : t1.c.state = .opened := ((meets_drive referenceParams_bounded hdriven.workable).answer t1 ht1).1.cstate.trans hstate
  have hopen' : (t1.answer .ok [word t1.bs.queue.length] []).c.state = .opened := hopen
  obtain ⟨u1, hu1, rfl⟩ := htu.exists_answer (exec_cPush hopen' last b)
  obtain ⟨v1, hv1, rfl⟩ := hsv.exists_answer (exec_cPush hstate last (a ++ b))
  rw [← State.taken_taken] at hv1
  have hsame : SameCompressor (t1.taken last b) ((t1.answer .ok [word t1.bs.queue.length] []).taken last b) := ⟨rfl, rfl, rfl, rfl, rfl, rfl, rfl⟩
  have hlock := drive_lockstep referenceParams hsame
  have hu1 : drive referenceParams ((t1.answer .ok [word t1.bs.queue.length] []).taken last b) = .ok u1 := hu1
  rw [hu1] at hlock
  generalize hw : drive referenceParams (t1.taken last b) = w at hlock
  cases hlock with
  | @ok w1 _ hwu =>
    obtain rfl := drive_ahead last b hdriven hlast ht1 hw hv1
    obtain ⟨hbs, hc⟩ := closed_alike last hwu.bs hwu.c
    exact ⟨congrArg Sink.stream hbs.symm, hc.symm⟩

end Sys2Proof.Machine
end

section
/-! PROOF. The reference builder is a legal one (spec/41_huffman.md R271, R272, R276): the Huffman merge and package-merge both give a complete
code of the used symbols. A code is complete when the shares `2^-l` of its symbols sum to 1, so both parts follow this sum. -/

namespace Sys2Proof.Machine

/-! ## The sum of the shares of a code -/

/-- The sum of `2^-l` over symbols of length `l`: the Kraft sum, without its scale and with no case for length 0. -/
def shareSum (len : Nat → Nat) (syms : List Nat) : ℚ := (syms.map fun s => (1 / 2 : ℚ) ^ len s).sum

@[simp] theorem shareSum_nil (len : Nat → Nat) : shareSum len [] = 0 := rfl

@[simp] theorem shareSum_cons (len : Nat → Nat) (s : Nat) (syms : List Nat) :
    shareSum len (s :: syms) = (1 / 2) ^ len s + shareSum len syms := rfl

@[simp] theorem shareSum_append (len : Nat → Nat) (xs ys : List Nat) :
    shareSum len (xs ++ ys) = shareSum len xs + shareSum len ys := by
  simp [shareSum]

theorem shareSum_perm {len : Nat → Nat} {xs ys : List Nat} (h : xs.Perm ys) : shareSum len xs = shareSum len ys :=
  (h.map _).sum_eq

theorem shareSum_nonneg (len : Nat → Nat) (syms : List Nat) : 0 ≤ shareSum len syms :=
  List.sum_nonneg fun x hx => by
    obtain ⟨s, -, rfl⟩ := List.mem_map.mp hx
    positivity

theorem shareSum_pos (len : Nat → Nat) {syms : List Nat} (h : syms ≠ []) : 0 < shareSum len syms := by
  obtain ⟨s, rest, rfl⟩ := List.exists_cons_of_ne_nil h
  rw [shareSum_cons]
  have := shareSum_nonneg len rest
  positivity

/-- With two symbols or more a symbol of length 0 would leave nothing for the others. -/
theorem length_pos_of_shareSum {len : Nat → Nat} {syms : List Nat} (hsum : shareSum len syms = 1) (h2 : 2 ≤ syms.length)
    {s : Nat} (hs : s ∈ syms) : len s ≠ 0 := by
  intro h0
  have hperm := List.perm_cons_erase hs
  have hrest : syms.erase s ≠ [] := by
    rw [← List.length_pos_iff, List.length_erase_of_mem hs]
    omega
  have := shareSum_pos len hrest
  rw [shareSum_perm hperm, shareSum_cons, h0] at hsum
  simp at hsum
  linarith

/-- The Kraft sum counts the symbols that have a code. -/
theorem kraft_map (len : Nat → Nat) (syms : List Nat) (h15 : ∀ s ∈ syms, len s ≤ 15) :
    (kraft (syms.map len) : ℚ) = 2 ^ 15 * shareSum len (syms.filter fun s => len s != 0) := by
  induction syms with
  | nil => simp [kraft]
  | cons s rest ih =>
    have hcons : kraft ((s :: rest).map len) = (if len s = 0 then 0 else 2 ^ (15 - len s)) + kraft (rest.map len) := rfl
    have ih := ih fun t ht => h15 t (List.mem_cons_of_mem _ ht)
    by_cases h0 : len s = 0
    · rw [hcons, if_pos h0, List.filter_cons_of_neg (by simp [h0]), zero_add, ih]
    · have hs : (2 : ℚ) ^ (15 - len s) = 2 ^ 15 * (1 / 2) ^ len s := by
        rw [pow_sub₀ _ two_ne_zero (h15 s (by simp)), one_div, inv_pow]
      have h0' : (len s != 0) = true := by simpa using h0
      rw [hcons, if_neg h0, List.filter_cons_of_pos (p := fun s => len s != 0) h0', shareSum_cons, mul_add, ← hs, ← ih]
      push_cast
      rfl

/-! ## The symbols in use -/

/-- The symbols that occur. -/
def usedSyms (freqs : List Nat) : List Nat := (usedSymbols freqs).map Prod.snd

theorem mem_usedSymbols {freqs : List Nat} {f s : Nat} : (f, s) ∈ usedSymbols freqs ↔ freqs[s]? = some f ∧ 0 < f := by
  simp [usedSymbols, List.mem_zipIdx_iff_getElem?]

theorem mem_usedSyms {freqs : List Nat} {s : Nat} : s ∈ usedSyms freqs ↔ 0 < freqs.getD s 0 := by
  simp only [usedSyms, List.mem_map, Prod.exists, exists_eq_right, mem_usedSymbols, List.getD_eq_getElem?_getD]
  cases freqs[s]? with
  | none => simp
  | some f => simp

theorem lt_of_mem_usedSyms {freqs : List Nat} {s : Nat} (h : s ∈ usedSyms freqs) : s < freqs.length := by
  by_contra hge
  rw [mem_usedSyms, List.getD_eq_default _ _ (by omega)] at h
  omega

theorem usedSyms_nodup (freqs : List Nat) : (usedSyms freqs).Nodup := (usedSymbols_sorted freqs).imp Nat.ne_of_lt

theorem length_usedSyms (freqs : List Nat) : (usedSyms freqs).length = usedCount freqs := by
  have h := List.countP_map (p := fun f => decide (0 < f)) (f := Prod.fst) (l := freqs.zipIdx)
  rw [List.zipIdx_map_fst] at h
  rw [usedSyms, List.length_map, usedSymbols, ← List.countP_eq_length_filter, usedCount, h]
  rfl

/-- What both methods come to: shares of the used symbols that sum to 1, and length 0 for the others, are a complete code. -/
theorem buildSpec_of_shareSum {freqs : List Nat} {maxlen : Nat} {len : Nat → Nat} (h15 : maxlen ≤ 15)
    (h2 : 2 ≤ usedCount freqs) (hmax : ∀ s < freqs.length, len s ≤ maxlen) (hout : ∀ s, s ∉ usedSyms freqs → len s = 0)
    (hsum : shareSum len (usedSyms freqs) = 1) : BuildSpec freqs maxlen ((List.range freqs.length).map len) := by
  have hzero : ∀ s, len s = 0 ↔ s ∉ usedSyms freqs := fun s =>
    ⟨fun h0 hs => length_pos_of_shareSum hsum (by rwa [length_usedSyms]) hs h0, hout s⟩
  have hget : ∀ s < freqs.length, ((List.range freqs.length).map len).getD s 0 = len s := fun s hs => by
    simp [List.getD_eq_getElem?_getD, hs]
  refine ⟨by simp, fun l hl => ?_, fun _ s hs => ?_, fun _ => ?_, fun h => by omega, fun h => by omega⟩
  · obtain ⟨s, hs, rfl⟩ := List.mem_map.mp hl
    exact hmax s (by simpa using hs)
  · rw [hget s hs, hzero, mem_usedSyms]
    omega
  · have hfilter : ((List.range freqs.length).filter fun s => len s != 0).Perm (usedSyms freqs) := by
      refine (List.perm_ext_iff_of_nodup (List.nodup_range.filter _) (usedSyms_nodup freqs)).mpr fun s => ?_
      have := lt_of_mem_usedSyms (freqs := freqs) (s := s)
      simp only [List.mem_filter, List.mem_range, bne_iff_ne, ne_eq, hzero, not_not]
      tauto
    have h := kraft_map len (List.range freqs.length) fun s hs => (hmax s (by simpa using hs)).trans h15
    rw [shareSum_perm hfilter, hsum] at h
    exact_mod_cast h

/-! ## The Huffman merge -/

/-- The node as a node of any Huffman merge: without its key. -/
def HuffNode.merged (a : HuffNode) : MergeNode := { weight := a.weight, leaves := a.leaves }

theorem HuffNode.insert_perm (a : HuffNode) (pool : List HuffNode) : (a.insert pool).Perm (a :: pool) := by
  induction pool with
  | nil => rfl
  | cons b rest ih =>
    simp only [HuffNode.insert]
    split
    · rfl
    · exact (ih.cons b).trans (List.Perm.swap a b rest)

/-- A pool in the order of the weights. -/
def PoolSorted (pool : List HuffNode) : Prop := pool.Pairwise fun a b => a.weight ≤ b.weight

theorem HuffNode.before_weight {a b : HuffNode} : if a.before b then a.weight ≤ b.weight else b.weight ≤ a.weight := by
  simp only [HuffNode.before]
  rcases Nat.lt_trichotomy a.weight b.weight with h | h | h
  · simp [h, h.le]
  · simp [h]
  · simp [Nat.lt_asymm h, h.ne', h.le]

theorem PoolSorted.insert {pool : List HuffNode} (h : PoolSorted pool) (a : HuffNode) : PoolSorted (a.insert pool) := by
  induction pool with
  | nil => simp [HuffNode.insert, PoolSorted]
  | cons b rest ih =>
    obtain ⟨hb, hrest⟩ := List.pairwise_cons.mp h
    have hw := HuffNode.before_weight (a := a) (b := b)
    simp only [HuffNode.insert]
    split at hw
    · rename_i hab
      rw [if_pos hab]
      refine List.pairwise_cons.mpr ⟨fun c hc => ?_, h⟩
      rcases List.mem_cons.mp hc with rfl | hc
      · exact hw
      · exact hw.trans (hb c hc)
    · rename_i hab
      rw [if_neg hab]
      refine List.pairwise_cons.mpr ⟨fun c hc => ?_, ih hrest⟩
      rcases List.mem_cons.mp ((a.insert_perm rest).mem_iff.mp hc) with rfl | hc
      · exact hw
      · exact hb c hc

theorem merges_of_perm {pool pool' : List MergeNode} {root : MergeNode} (h : Merges pool root) (hp : pool'.Perm pool) :
    Merges pool' root := by
  cases h with
  | done => rw [List.perm_singleton.mp hp]; exact .done root
  | join _ rest a b _ hpool hleast hrest => exact .join pool' rest a b root (hp.trans hpool) hleast hrest

/-- The loop over a sorted pool is a Huffman merge. -/
theorem huffLoop_merges (n : Nat) (pool : List HuffNode) (hne : pool ≠ []) (hn : pool.length ≤ n + 1) (hs : PoolSorted pool) :
    ∃ root, huffLoop n pool = [root] ∧ Merges (pool.map HuffNode.merged) root.merged := by
  induction n generalizing pool with
  | zero =>
    obtain ⟨a, rfl⟩ := List.length_eq_one_iff.mp (le_antisymm hn (List.length_pos_iff.mpr hne))
    exact ⟨a, rfl, .done _⟩
  | succ n ih =>
    match pool with
    | [a] => exact ⟨a, rfl, .done _⟩
    | a :: b :: rest =>
      obtain ⟨ha, hbrest⟩ := List.pairwise_cons.mp hs
      obtain ⟨hb, hrest⟩ := List.pairwise_cons.mp hbrest
      have hperm := (a.join b).insert_perm rest
      obtain ⟨root, hloop, hmerge⟩ := ih ((a.join b).insert rest) (by simp [← List.length_pos_iff, hperm.length_eq])
        (by simp only [hperm.length_eq, List.length_cons] at hn ⊢; omega) (PoolSorted.insert hrest _)
      refine ⟨root, hloop, .join _ (rest.map HuffNode.merged) a.merged b.merged _ (.refl _) ?_
        (merges_of_perm hmerge (hperm.map HuffNode.merged).symm)⟩
      simp only [List.mem_map, forall_exists_index, and_imp, forall_apply_eq_imp_iff₂]
      exact fun c hc => ⟨ha c (List.mem_cons_of_mem _ hc), hb c hc⟩

/-- The leaf of a used symbol. -/
def huffLeaf (u : Nat × Nat) : HuffNode := { weight := u.1, key := u.2, leaves := [(u.2, 0)] }

/-- The pool the merge starts from. -/
def huffPool (used : List (Nat × Nat)) (pool : List HuffNode) : List HuffNode :=
  used.foldl (fun p u => (huffLeaf u).insert p) pool

theorem huffPool_perm (used : List (Nat × Nat)) (pool : List HuffNode) :
    (huffPool used pool).Perm (used.map huffLeaf ++ pool) := by
  induction used generalizing pool with
  | nil => rfl
  | cons u rest ih =>
    exact (ih _).trans (((huffLeaf u).insert_perm pool).append_left _ |>.trans List.perm_middle)

theorem huffPool_sorted (used : List (Nat × Nat)) {pool : List HuffNode} (h : PoolSorted pool) :
    PoolSorted (huffPool used pool) := by
  induction used generalizing pool with
  | nil => exact h
  | cons u rest ih => exact ih (h.insert _)

theorem huffDepths_merges {freqs : List Nat} (h : usedSymbols freqs ≠ []) :
    ∃ root, huffDepths (usedSymbols freqs) = root.leaves ∧ Merges (mergeLeaves freqs) root := by
  have hperm := huffPool_perm (usedSymbols freqs) []
  rw [List.append_nil] at hperm
  obtain ⟨root, hloop, hmerge⟩ := huffLoop_merges (usedSymbols freqs).length (huffPool (usedSymbols freqs) [])
    (by simp [← List.length_pos_iff, hperm.length_eq, List.length_pos_iff.mpr h]) (by simp [hperm.length_eq])
    (huffPool_sorted _ List.Pairwise.nil)
  refine ⟨root.merged, ?_, merges_of_perm hmerge ?_⟩
  · show (match huffLoop _ (huffPool (usedSymbols freqs) []) with
      | [] => []
      | root :: _ => root.leaves) = _
    rw [hloop]
    rfl
  · simpa [mergeLeaves, usedSymbols, HuffNode.merged, huffLeaf, Function.comp_def] using (hperm.map HuffNode.merged).symm

/-! ## The leaves of a merge -/

/-- The share of a node's leaves. -/
def leafShare (m : MergeNode) : ℚ := (m.leaves.map fun l => (1 / 2 : ℚ) ^ l.2).sum

/-- The symbols of a node's leaves. -/
def leafSyms (m : MergeNode) : List Nat := m.leaves.map Prod.fst

/-- Joining halves both shares. -/
theorem leafShare_join (a b : MergeNode) : leafShare (a.join b) = (leafShare a + leafShare b) / 2 := by
  have half : ∀ leaves : List (Nat × Nat), ((leaves.map fun l => (l.1, l.2 + 1)).map fun l => (1 / 2 : ℚ) ^ l.2).sum
      = (leaves.map fun l => (1 / 2 : ℚ) ^ l.2).sum / 2 := fun leaves => by
    induction leaves with
    | nil => simp
    | cons l rest ih => simp only [List.map_cons, List.sum_cons, ih, pow_succ]; ring
  simp only [leafShare, MergeNode.join, half, List.map_append, List.sum_append, add_div]

theorem leafSyms_join (a b : MergeNode) : leafSyms (a.join b) = leafSyms a ++ leafSyms b := by
  simp [leafSyms, MergeNode.join, Function.comp_def]

theorem leafShare_eq_one {pool : List MergeNode} {root : MergeNode} (h : Merges pool root) (hpool : ∀ m ∈ pool, leafShare m = 1) :
    leafShare root = 1 := by
  induction h with
  | done root => exact hpool root (by simp)
  | join pool rest a b root hperm _ _ ih =>
    have hall : ∀ m ∈ a :: b :: rest, leafShare m = 1 := fun m hm => hpool m (hperm.mem_iff.mpr hm)
    refine ih fun m hm => ?_
    rcases List.mem_cons.mp hm with rfl | hm
    · rw [leafShare_join, hall a (by simp), hall b (by simp)]
      norm_num
    · exact hall m (by simp [hm])

theorem leafSyms_perm {pool : List MergeNode} {root : MergeNode} (h : Merges pool root) :
    (leafSyms root).Perm (pool.flatMap leafSyms) := by
  induction h with
  | done root => simp
  | join pool rest a b root hperm _ _ ih =>
    refine ih.trans ?_
    rw [List.flatMap_cons, leafSyms_join, List.append_assoc]
    exact (hperm.flatMap_right _).symm

theorem mergeLeaves_share (freqs : List Nat) : ∀ m ∈ mergeLeaves freqs, leafShare m = 1 := by
  intro m hm
  obtain ⟨u, -, rfl⟩ := List.mem_map.mp hm
  simp [leafShare]

theorem mergeLeaves_syms (freqs : List Nat) : (mergeLeaves freqs).flatMap leafSyms = usedSyms freqs := by
  rw [mergeLeaves, List.flatMap_map, usedSyms, usedSymbols]
  simp [leafSyms, List.map_eq_flatMap]

theorem depthOf_of_mem {depths : List (Nat × Nat)} (hn : (depths.map Prod.fst).Nodup) {s d : Nat} (h : (s, d) ∈ depths) :
    depthOf depths s = d := by
  induction depths with
  | nil => simp at h
  | cons u rest ih =>
    obtain ⟨t, e⟩ := u
    obtain ⟨ht, hrest⟩ := List.nodup_cons.mp hn
    rcases List.mem_cons.mp h with heq | hmem
    · cases heq
      simp [depthOf]
    · have hts : t ≠ s := fun heq => ht (heq ▸ List.mem_map.mpr ⟨(s, d), hmem, rfl⟩)
      rw [depthOf, if_neg hts, ih hrest hmem]

theorem depthOf_of_not_mem {depths : List (Nat × Nat)} {s : Nat} (h : s ∉ depths.map Prod.fst) : depthOf depths s = 0 := by
  induction depths with
  | nil => rfl
  | cons u rest ih =>
    obtain ⟨t, e⟩ := u
    simp only [List.map_cons, List.mem_cons, not_or] at h
    rw [depthOf, if_neg (Ne.symm h.1), ih h.2]

theorem shareSum_depthOf {m : MergeNode} (hn : (leafSyms m).Nodup) : shareSum (depthOf m.leaves) (leafSyms m) = leafShare m := by
  rw [shareSum, leafSyms, List.map_map, leafShare]
  congr 1
  exact List.map_congr_left fun l hl => by simp [depthOf_of_mem hn (s := l.1) (d := l.2) hl]

section
variable {freqs : List Nat} {root : MergeNode} (hmerge : Merges (mergeLeaves freqs) root)
include hmerge

theorem leafSyms_of_merges : (leafSyms root).Perm (usedSyms freqs) := mergeLeaves_syms freqs ▸ leafSyms_perm hmerge

theorem leafSyms_nodup : (leafSyms root).Nodup := (leafSyms_of_merges hmerge).nodup_iff.mpr (usedSyms_nodup freqs)

theorem depthOf_unused {s : Nat} (h : s ∉ usedSyms freqs) : depthOf root.leaves s = 0 :=
  depthOf_of_not_mem fun hm => h ((leafSyms_of_merges hmerge).mem_iff.mp hm)

theorem shareSum_merge : shareSum (depthOf root.leaves) (usedSyms freqs) = 1 := by
  rw [← shareSum_perm (leafSyms_of_merges hmerge), shareSum_depthOf (leafSyms_nodup hmerge)]
  exact leafShare_eq_one hmerge (mergeLeaves_share freqs)

theorem mem_leaves_of_used {s : Nat} (h : s ∈ usedSyms freqs) : (s, depthOf root.leaves s) ∈ root.leaves := by
  obtain ⟨⟨t, d⟩, hmem, rfl⟩ := List.mem_map.mp ((leafSyms_of_merges hmerge).mem_iff.mpr h)
  rwa [depthOf_of_mem (leafSyms_nodup hmerge) hmem]

theorem used_of_mem_leaves {s d : Nat} (h : (s, d) ∈ root.leaves) : s ∈ usedSyms freqs ∧ depthOf root.leaves s = d :=
  ⟨(leafSyms_of_merges hmerge).mem_iff.mp (List.mem_map.mpr ⟨(s, d), h, rfl⟩), depthOf_of_mem (leafSyms_nodup hmerge) h⟩

end

/-! ## Package-merge: the lists -/

/-- A list of packages in the order of the weights. -/
def PackagesSorted (l : List Package) : Prop := l.Pairwise fun a b => a.weight ≤ b.weight

/-- The order in which two lists of packages are merged: the left one first on a tie. -/
def Package.le (a b : Package) : Bool := decide (a.weight ≤ b.weight)

/-- Packages put in one by one are packages merged in, when they come in order. -/
theorem merge_insert (p : Package) {leaves packs : List Package} (hp : ∀ q ∈ packs, p.weight ≤ q.weight) :
    (p.insert leaves).merge packs Package.le = leaves.merge (p :: packs) Package.le := by
  induction leaves with
  | nil =>
    cases packs with
    | nil => simp [Package.insert]
    | cons q rest => simp [Package.insert, Package.le, hp q (by simp)]
  | cons y rest ih =>
    by_cases hy : y.weight ≤ p.weight
    · cases packs with
      | nil => simpa [Package.insert, hy, List.merge, Package.le] using ih
      | cons q packs =>
        have hyq : y.weight ≤ q.weight := hy.trans (hp q (by simp))
        simp [Package.insert, hy, Package.le, hyq, ← ih]
    · cases packs with
      | nil => simp [Package.insert, hy, Package.le]
      | cons q packs => simp [Package.insert, hy, Package.le, hp q (by simp)]

theorem mergePackages_eq (leaves : List Package) {packs : List Package} (h : PackagesSorted packs) :
    mergePackages leaves packs = leaves.merge packs Package.le := by
  induction packs generalizing leaves with
  | nil => simp [mergePackages]
  | cons p rest ih =>
    obtain ⟨hp, hrest⟩ := List.pairwise_cons.mp h
    exact (ih (p.insert leaves) hrest).trans (merge_insert p hp)

theorem PackagesSorted.merge {leaves packs : List Package} (hl : PackagesSorted leaves) (hp : PackagesSorted packs) :
    PackagesSorted (leaves.merge packs Package.le) := by
  have h := List.pairwise_merge (le := Package.le) (fun a b c => by simpa [Package.le] using Nat.le_trans)
    (fun a b => by simpa [Package.le] using Nat.le_total _ _) leaves packs (hl.imp (by simp [Package.le])) (hp.imp (by simp [Package.le]))
  exact h.imp (by simp [Package.le])

/-- The first items of a merge are the first of both lists, and the leaves passed over are heavier than the packages taken. -/
theorem merge_take {leaves packs : List Package} (hl : PackagesSorted leaves) {n : Nat}
    (hn : n ≤ (leaves.merge packs Package.le).length) :
    ∃ a p, a ≤ leaves.length ∧ p ≤ packs.length ∧ a + p = n
      ∧ ((leaves.merge packs Package.le).take n).Perm (leaves.take a ++ packs.take p)
      ∧ ∀ x ∈ packs.take p, ∀ y ∈ leaves.drop a, x.weight < y.weight := by
  induction n generalizing leaves packs with
  | zero => exact ⟨0, 0, by simp, by simp, rfl, by simp, by simp⟩
  | succ n ih =>
    match leaves, packs with
    | [], packs => exact ⟨0, n + 1, by simp, by simpa using hn, by omega, by simp, by simp⟩
    | x :: xs, [] => exact ⟨n + 1, 0, by simpa using hn, by simp, rfl, by simp, by simp⟩
    | x :: xs, y :: ys =>
      by_cases hxy : x.weight ≤ y.weight
      · have hm : (x :: xs).merge (y :: ys) Package.le = x :: xs.merge (y :: ys) Package.le :=
          List.cons_merge_cons_pos _ _ _ (by simpa [Package.le] using hxy)
        rw [hm] at hn ⊢
        obtain ⟨a, p, ha, hp, hsum, hperm, hb⟩ := ih (List.pairwise_cons.mp hl).2 (Nat.le_of_succ_le_succ hn)
        exact ⟨a + 1, p, by simpa using ha, hp, by omega, by simpa using hperm, hb⟩
      · have hm : (x :: xs).merge (y :: ys) Package.le = y :: (x :: xs).merge ys Package.le :=
          List.cons_merge_cons_neg _ _ _ (by simpa [Package.le] using hxy)
        rw [hm] at hn ⊢
        obtain ⟨a, p, ha, hp, hsum, hperm, hb⟩ := ih hl (Nat.le_of_succ_le_succ hn)
        refine ⟨a, p + 1, ha, by simpa using hp, by omega, ?_, fun z hz w hw => ?_⟩
        · simpa using (hperm.cons y).trans List.perm_middle.symm
        · rcases List.mem_cons.mp hz with rfl | hz
          · rcases List.mem_cons.mp (List.mem_of_mem_drop hw) with rfl | hw
            · omega
            · exact (Nat.lt_of_not_le hxy).trans_le ((List.pairwise_cons.mp hl).1 w hw)
          · exact hb z hz w hw

theorem length_pairUp : ∀ l : List Package, (pairUp l).length = l.length / 2
  | [] => rfl
  | [_] => by simp [pairUp]
  | a :: b :: rest => by
    simp only [pairUp, List.length_cons, length_pairUp rest]
    omega

theorem mem_pairUp_weight : ∀ {l : List Package}, PackagesSorted l → ∀ x ∈ pairUp l, ∀ w, (∀ y ∈ l, w ≤ y.weight) → 2 * w ≤ x.weight
  | [], _, x, hx, _, _ => by simp [pairUp] at hx
  | [_], _, x, hx, _, _ => by simp [pairUp] at hx
  | a :: b :: rest, h, x, hx, w, hw => by
    rcases List.mem_cons.mp hx with rfl | hx
    · have := hw a (by simp)
      have := hw b (by simp)
      dsimp only
      omega
    · exact mem_pairUp_weight (List.pairwise_cons.mp (List.pairwise_cons.mp h).2).2 x hx w fun y hy => hw y (by simp [hy])

theorem PackagesSorted.pairUp : ∀ {l : List Package}, PackagesSorted l → PackagesSorted (pairUp l)
  | [], _ => List.Pairwise.nil
  | [_], _ => List.Pairwise.nil
  | a :: b :: rest, h => by
    obtain ⟨ha, hb⟩ := List.pairwise_cons.mp h
    obtain ⟨hb, hrest⟩ := List.pairwise_cons.mp hb
    refine List.pairwise_cons.mpr ⟨fun x hx => ?_, PackagesSorted.pairUp hrest⟩
    have := mem_pairUp_weight hrest x hx b.weight hb
    have := ha b (by simp)
    dsimp only
    omega

/-- The first pairs hold the symbols of the items paired. -/
theorem occurrences_take_pairUp (s : Nat) : ∀ (l : List Package) (p : Nat), 2 * p ≤ l.length →
    occurrences s ((pairUp l).take p) = occurrences s (l.take (2 * p))
  | _, 0, _ => by simp
  | [], p + 1, h => by simp at h
  | [_], p + 1, h => by simp only [List.length_cons, List.length_nil] at h; omega
  | a :: b :: rest, p + 1, h => by
    simp only [List.length_cons] at h
    have ih := occurrences_take_pairUp s rest p (by omega)
    have h2 : 2 * (p + 1) = 2 * p + 1 + 1 := by omega
    simp only [h2, pairUp, List.take_succ_cons, occurrences, List.map_cons, List.sum_cons, List.count_append] at ih ⊢
    omega

/-- Each item paired weighs no more than the pair it is in. -/
theorem exists_pair_of_mem_take : ∀ {l : List Package} {p : Nat} {y : Package}, y ∈ l.take (2 * p) → 2 * p ≤ l.length →
    ∃ x ∈ (pairUp l).take p, y.weight ≤ x.weight
  | _, 0, _, hy, _ => by simp at hy
  | [], p + 1, _, hy, _ => by simp at hy
  | [_], p + 1, _, _, h => by simp only [List.length_cons, List.length_nil] at h; omega
  | a :: b :: rest, p + 1, y, hy, h => by
    simp only [List.length_cons] at h
    have h2 : 2 * (p + 1) = 2 * p + 1 + 1 := by omega
    simp only [h2, List.take_succ_cons, List.mem_cons] at hy
    simp only [pairUp, List.take_succ_cons, List.mem_cons, exists_eq_or_imp]
    rcases hy with rfl | rfl | hy
    · exact .inl (by omega)
    · exact .inl (by omega)
    · exact .inr (exists_pair_of_mem_take hy (by omega))

/-! ## Package-merge: the shares -/

theorem occurrences_perm (s : Nat) {l l' : List Package} (h : l.Perm l') : occurrences s l = occurrences s l' :=
  (h.map _).sum_eq

theorem occurrences_append (s : Nat) (l l' : List Package) : occurrences s (l ++ l') = occurrences s l + occurrences s l' := by
  simp [occurrences]

/-- The leaf package of a symbol. -/
def leafPackage (u : Nat × Nat) : Package := { weight := u.1, syms := [u.2] }

theorem occurrences_leafPackages (s : Nat) (used : List (Nat × Nat)) :
    occurrences s (used.map leafPackage) = (used.map Prod.snd).count s := by
  rw [← count_flatMap_syms, List.flatMap_map]
  simp [leafPackage, List.map_eq_flatMap]

theorem shareSum_congr {f g : Nat → Nat} {syms : List Nat} (h : ∀ s ∈ syms, f s = g s) : shareSum f syms = shareSum g syms := by
  rw [shareSum, shareSum, List.map_congr_left fun s hs => by rw [h s hs]]

theorem shareSum_zero {f : Nat → Nat} {syms : List Nat} (h : ∀ s ∈ syms, f s = 0) : shareSum f syms = syms.length := by
  rw [shareSum, List.map_congr_left (g := fun _ => (1 : ℚ)) fun s hs => by rw [h s hs, pow_zero]]
  simp

/-- A longer code by 1 for every symbol halves the shares. -/
theorem shareSum_one_add {f g : Nat → Nat} {syms : List Nat} (h : ∀ s ∈ syms, f s = 1 + g s) :
    shareSum f syms = shareSum g syms / 2 := by
  rw [shareSum_congr h]
  induction syms with
  | nil => simp
  | cons s rest ih =>
    rw [shareSum_cons, ih fun t ht => h t (List.mem_cons_of_mem _ ht), shareSum_cons, pow_add]
    ring

theorem count_take_of_nodup {syms : List Nat} (hn : syms.Nodup) (a : Nat) :
    (∀ s ∈ syms.take a, (syms.take a).count s = 1) ∧ (∀ s ∈ syms.drop a, (syms.take a).count s = 0) := by
  have hsplit := List.take_append_drop a syms ▸ hn
  refine ⟨fun s hs => List.count_eq_one_of_mem (hn.sublist (List.take_sublist _ _)) hs, fun s hs => ?_⟩
  exact List.count_eq_zero.mpr fun hm => (List.nodup_append.mp hsplit).2.2 s hm s hs rfl

/-- What is taken of a list of package-merge: the first `a` leaves are in it, no later one has a share in it, and `n` items leave
`m - n / 2` of the shares. -/
structure Shares (used : List (Nat × Nat)) (taken : List Package) (a : Nat) : Prop where
  within : a ≤ used.length
  leaves : ∀ y ∈ (used.map leafPackage).take a, y ∈ taken
  later  : ∀ s ∈ (used.map Prod.snd).drop a, occurrences s taken = 0
  sum    : shareSum (fun s => occurrences s taken) (used.map Prod.snd) = used.length - taken.length / 2

section
variable {used : List (Nat × Nat)} (hsorted : PackagesSorted (used.map leafPackage)) (hnodup : (used.map Prod.snd).Nodup)
include hsorted

theorem packageRounds_sorted (k : Nat) : PackagesSorted (packageRounds (used.map leafPackage) k) := by
  induction k with
  | zero => exact hsorted
  | succ k ih =>
    rw [packageRounds, mergePackages_eq _ ih.pairUp]
    exact hsorted.merge ih.pairUp

theorem length_packageRounds_succ (k : Nat) : (packageRounds (used.map leafPackage) (k + 1)).length
    = used.length + (packageRounds (used.map leafPackage) k).length / 2 := by
  rw [packageRounds, mergePackages_eq _ (packageRounds_sorted hsorted k).pairUp, List.length_merge, length_pairUp, List.length_map]

/-- The lists are long enough to take `2m - 2` items of the last. -/
theorem length_packageRounds (k j : Nat) (hj : used.length ≤ 2 ^ k * j) :
    2 * used.length ≤ (packageRounds (used.map leafPackage) k).length + j := by
  induction k generalizing j with
  | zero => simp only [packageRounds, List.length_map] at hj ⊢; omega
  | succ k ih =>
    have := ih (2 * j) (by rwa [pow_succ, mul_assoc] at hj)
    rw [length_packageRounds_succ hsorted]
    omega

omit hsorted in
include hnodup in
/-- The leaves alone. -/
theorem shares_leaves {n : Nat} (hn : n ≤ used.length) : Shares used ((used.map leafPackage).take n) n := by
  have hocc : ∀ s, occurrences s ((used.map leafPackage).take n) = ((used.map Prod.snd).take n).count s := fun s => by
    rw [← List.map_take, occurrences_leafPackages, List.map_take]
  obtain ⟨hone, hzero⟩ := count_take_of_nodup hnodup n
  refine ⟨hn, fun y hy => hy, fun s hs => by rw [hocc, hzero s hs], ?_⟩
  have h1 : shareSum (fun s => occurrences s ((used.map leafPackage).take n)) ((used.map Prod.snd).take n) = n / 2 := by
    rw [shareSum_one_add (g := fun _ => 0) fun s hs => by rw [hocc, hone s hs], shareSum_zero fun _ _ => rfl]
    simp [hn]
  have h2 : shareSum (fun s => occurrences s ((used.map leafPackage).take n)) ((used.map Prod.snd).drop n) = used.length - n := by
    rw [shareSum_zero fun s hs => by rw [hocc, hzero s hs]]
    simp [Nat.cast_sub hn]
  rw [← List.take_append_drop n (used.map Prod.snd), shareSum_append, h1, h2]
  simp [hn]
  ring

include hnodup

/-- One round more: every leaf taken halves its share, and a leaf in a pair taken is taken itself. -/
theorem shares_merge {l : List Package}
    (ih : ∀ n, n ≤ l.length → ∃ a, Shares used (l.take n) a) {n : Nat}
    (hn : n ≤ ((used.map leafPackage).merge (pairUp l) Package.le).length) :
    ∃ a, Shares used (((used.map leafPackage).merge (pairUp l) Package.le).take n) a := by
  obtain ⟨a, p, ha, hp, hsum, hperm, hbound⟩ := merge_take hsorted hn
  rw [List.length_map] at ha
  have hpl : 2 * p ≤ l.length := by rw [length_pairUp] at hp; omega
  obtain ⟨a', hwithin, hleaves, hlater, hshare⟩ := ih (2 * p) hpl
  have hle : a' ≤ a := by
    by_contra hlt
    have hlen : a < (used.map leafPackage).length := by rw [List.length_map]; omega
    obtain ⟨x, hx, hxw⟩ := exists_pair_of_mem_take (hleaves _ (List.mem_take_iff_getElem.mpr ⟨a, by omega, rfl⟩)) hpl
    have := hbound x hx _ (List.mem_drop_iff_getElem.mpr ⟨0, by omega, rfl⟩)
    simp only [Nat.add_zero] at this
    omega
  obtain ⟨hone, hzero⟩ := count_take_of_nodup hnodup a
  have hocc : ∀ s, occurrences s (((used.map leafPackage).merge (pairUp l) Package.le).take n)
      = ((used.map Prod.snd).take a).count s + occurrences s (l.take (2 * p)) := fun s => by
    rw [occurrences_perm s hperm, occurrences_append, ← List.map_take, occurrences_leafPackages, List.map_take,
      occurrences_take_pairUp s l p hpl]
  have hlater' : ∀ s ∈ (used.map Prod.snd).drop a, occurrences s (l.take (2 * p)) = 0 := fun s hs =>
    hlater s ((List.drop_subset_drop_left _ hle) hs)
  refine ⟨a, ha, fun y hy => hperm.mem_iff.mpr (List.mem_append_left _ hy), fun s hs => ?_, ?_⟩
  · rw [hocc, hzero s hs, hlater' s hs]
  · have hold : shareSum (fun s => occurrences s (l.take (2 * p))) ((used.map Prod.snd).drop a) = used.length - a := by
      rw [shareSum_zero hlater']
      simp [Nat.cast_sub ha]
    have h1 := shareSum_one_add (f := fun s => occurrences s (((used.map leafPackage).merge (pairUp l) Package.le).take n))
      (g := fun s => occurrences s (l.take (2 * p))) (syms := (used.map Prod.snd).take a) fun s hs => by rw [hocc, hone s hs]
    have h2 := shareSum_congr (f := fun s => occurrences s (((used.map leafPackage).merge (pairUp l) Package.le).take n))
      (g := fun s => occurrences s (l.take (2 * p))) (syms := (used.map Prod.snd).drop a) fun s hs => by
        rw [hocc, hzero s hs, zero_add]
    rw [← List.take_append_drop a (used.map Prod.snd), shareSum_append, hold, List.length_take, min_eq_left hpl] at hshare
    rw [← List.take_append_drop a (used.map Prod.snd), shareSum_append, h1, h2, hold, List.length_take, min_eq_left hn, ← hsum]
    push_cast at hshare ⊢
    linarith

/-- What every list of package-merge leaves of the shares. -/
theorem packageRounds_shares (k n : Nat) (hn : n ≤ (packageRounds (used.map leafPackage) k).length) :
    ∃ a, Shares used ((packageRounds (used.map leafPackage) k).take n) a := by
  induction k generalizing n with
  | zero => exact ⟨n, shares_leaves hnodup (by simpa [packageRounds] using hn)⟩
  | succ k ih =>
    have hs := packageRounds_sorted hsorted k
    rw [packageRounds, mergePackages_eq _ hs.pairUp] at hn ⊢
    exact shares_merge hsorted hnodup ih hn

/-- The lengths of package-merge are a complete code. -/
theorem packageRounds_complete (k : Nat) (h1 : 1 ≤ used.length) (hk : used.length ≤ 2 ^ (k + 1)) :
    shareSum (fun s => occurrences s ((packageRounds (used.map leafPackage) k).take (2 * used.length - 2))) (used.map Prod.snd) = 1 := by
  have hlen := length_packageRounds hsorted k 2 (by rwa [← pow_succ])
  obtain ⟨a, -, -, -, hsum⟩ := packageRounds_shares hsorted hnodup k (2 * used.length - 2) (by omega)
  rw [hsum, List.length_take, min_eq_left (by omega), Nat.cast_sub (by omega)]
  push_cast
  ring

end

/-! ## The builder's lengths -/

theorem Package.insert_perm (x : Package) (l : List Package) : (x.insert l).Perm (x :: l) := by
  induction l with
  | nil => rfl
  | cons y rest ih =>
    simp only [Package.insert]
    split
    · exact (ih.cons y).trans (List.Perm.swap x y rest)
    · rfl

theorem PackagesSorted.insert (x : Package) {l : List Package} (h : PackagesSorted l) : PackagesSorted (x.insert l) := by
  have hmerge := h.merge (packs := [x]) (List.pairwise_singleton _ _)
  rwa [← merge_insert x (by simp), List.merge_right] at hmerge

/-- The leaves, put in one by one. -/
theorem foldl_insert_leaves (used : List (Nat × Nat)) {acc : List Package} (h : PackagesSorted acc) :
    (used.foldl (fun acc u => (leafPackage u).insert acc) acc).Perm (used.map leafPackage ++ acc)
      ∧ PackagesSorted (used.foldl (fun acc u => (leafPackage u).insert acc) acc) := by
  induction used generalizing acc with
  | nil => exact ⟨.refl _, h⟩
  | cons u rest ih =>
    obtain ⟨hperm, hs⟩ := ih (h.insert (leafPackage u))
    exact ⟨hperm.trans ((((leafPackage u).insert_perm acc).append_left _).trans List.perm_middle), hs⟩

/-- The frequency and the symbol of a leaf package. -/
def Package.leaf (p : Package) : Nat × Nat := (p.weight, p.syms.headD 0)

@[simp] theorem leaf_leafPackage (u : Nat × Nat) : (leafPackage u).leaf = u := rfl

/-- The leaves are those of the used symbols, sorted by weight. -/
theorem packageLeaves (used : List (Nat × Nat)) : ∃ sorted : List (Nat × Nat), sorted.Perm used
    ∧ used.foldl (fun acc u => Package.insert { weight := u.1, syms := [u.2] } acc) [] = sorted.map leafPackage
    ∧ PackagesSorted (sorted.map leafPackage) := by
  obtain ⟨hperm, hs⟩ := foldl_insert_leaves used (acc := []) List.Pairwise.nil
  rw [List.append_nil] at hperm
  have heq : used.foldl (fun acc u => (leafPackage u).insert acc) []
      = ((used.foldl (fun acc u => (leafPackage u).insert acc) []).map Package.leaf).map leafPackage := by
    rw [List.map_map]
    refine (List.map_id' _).symm.trans (List.map_congr_left fun x hx => ?_)
    obtain ⟨u, -, rfl⟩ := List.mem_map.mp (hperm.mem_iff.mp hx)
    rfl
  exact ⟨_, by simpa [Function.comp_def] using hperm.map Package.leaf, heq, heq ▸ hs⟩

theorem packageSymbols_complete {freqs : List Nat} {maxlen : Nat} (h1 : 1 ≤ maxlen) (hne : usedSymbols freqs ≠ [])
    (hm : usedCount freqs ≤ 2 ^ maxlen) :
    shareSum (fun s => (packageSymbols (usedSymbols freqs) maxlen).count s) (usedSyms freqs) = 1 := by
  obtain ⟨sorted, hperm, hleaves, hs⟩ := packageLeaves (usedSymbols freqs)
  have hlen := hperm.length_eq
  have hused : (usedSymbols freqs).length = usedCount freqs := by rw [← length_usedSyms, usedSyms, List.length_map]
  have hpow : maxlen - 1 + 1 = maxlen := by omega
  have hsum := packageRounds_complete hs ((hperm.map Prod.snd).nodup_iff.mpr (usedSyms_nodup freqs)) (maxlen - 1)
    (hlen ▸ List.length_pos_iff.mpr hne) (by rw [hpow, hlen, hused]; exact hm)
  rw [shareSum_perm (hperm.map Prod.snd), hlen] at hsum
  rw [← hsum]
  refine shareSum_congr fun s _ => ?_
  rw [packageSymbols, count_flatMap_syms, hleaves]

theorem packageSymbols_unused {freqs : List Nat} {maxlen s : Nat} (hs : s ∉ usedSyms freqs) :
    (packageSymbols (usedSymbols freqs) maxlen).count s = 0 := by
  have hrounds := occurrences_rounds s
    ((usedSymbols freqs).foldl (fun acc u => Package.insert { weight := u.1, syms := [u.2] } acc) []) (maxlen - 1)
  have htake := occurrences_take s (2 * (usedSymbols freqs).length - 2)
    (packageRounds ((usedSymbols freqs).foldl (fun acc u => Package.insert { weight := u.1, syms := [u.2] } acc) []) (maxlen - 1))
  rw [occurrences_leaves, show ((usedSymbols freqs).map Prod.snd).count s = 0 from List.count_eq_zero.mpr hs] at hrounds
  rw [packageSymbols, count_flatMap_syms]
  simp only [occurrences, List.map_nil, List.sum_nil, Nat.mul_zero, Nat.add_zero] at hrounds htake ⊢
  omega

/-! ## The builder -/

/-- The builder on two used symbols or more: the Huffman tree where it fits, else package-merge. -/
theorem referenceBuild_of_two {freqs : List Nat} (h2 : 2 ≤ usedCount freqs) (maxlen : Nat) :
    referenceBuild freqs maxlen
      = if (huffDepths (usedSymbols freqs)).all (fun l => decide (l.2 ≤ maxlen))
        then (List.range freqs.length).map (depthOf (huffDepths (usedSymbols freqs)))
        else (List.range freqs.length).map (fun s => (packageSymbols (usedSymbols freqs) maxlen).count s) := by
  rw [← length_usedSyms, usedSyms, List.length_map] at h2
  unfold referenceBuild
  split
  · rename_i h
    simp [h] at h2
  · rename_i h
    simp [h] at h2
  · rename_i u v rest h
    rw [h]

theorem usedSymbols_ne_nil {freqs : List Nat} (h : 1 ≤ usedCount freqs) : usedSymbols freqs ≠ [] := by
  rintro h0
  rw [← length_usedSyms, usedSyms, h0] at h
  simp at h

/-- The code of two used symbols or more (spec/41_huffman.md R271). -/
theorem buildSpec_of_two {freqs : List Nat} {maxlen : Nat} (h1 : 1 ≤ maxlen) (h15 : maxlen ≤ 15) (hm : usedCount freqs ≤ 2 ^ maxlen)
    (h2 : 2 ≤ usedCount freqs) : BuildSpec freqs maxlen (referenceBuild freqs maxlen) := by
  have hne : usedSymbols freqs ≠ [] := usedSymbols_ne_nil (by omega)
  have hle := referenceBuild_le freqs maxlen h1
  rw [referenceBuild_of_two h2] at hle ⊢
  split at hle
  · rename_i hfits
    rw [if_pos hfits]
    obtain ⟨root, hdepths, hmerge⟩ := huffDepths_merges hne
    rw [hdepths] at hle ⊢
    exact buildSpec_of_shareSum h15 h2 (fun s hs => hle _ (List.mem_map_of_mem (List.mem_range.mpr hs)))
      (fun s hs => depthOf_unused hmerge hs) (shareSum_merge hmerge)
  · rename_i hfits
    rw [if_neg hfits]
    exact buildSpec_of_shareSum h15 h2
      (fun s hs => hle _ (List.mem_map_of_mem (f := fun s => (packageSymbols (usedSymbols freqs) maxlen).count s) (List.mem_range.mpr hs)))
      (fun s hs => packageSymbols_unused hs) (packageSymbols_complete h1 hne hm)

theorem getD_map_range (n : Nat) (f : Nat → Nat) {s : Nat} (hs : s < n) : ((List.range n).map f).getD s 0 = f s := by
  simp [List.getD_eq_getElem?_getD, hs]

/-- The degenerate alphabets: no symbol or one (spec/41_huffman.md R272). -/
theorem buildSpec_of_degenerate {freqs : List Nat} {maxlen : Nat} (h1 : 1 ≤ maxlen) (h2 : usedCount freqs < 2) :
    BuildSpec freqs maxlen (referenceBuild freqs maxlen) := by
  refine ⟨length_referenceBuild freqs maxlen, referenceBuild_le freqs maxlen h1, fun h => by omega, fun h => by omega,
    fun hone s hs => ?_, fun hno s hs => ?_⟩
  · obtain ⟨⟨f, only⟩, hu⟩ := List.length_eq_one_iff.mp
      (show (usedSymbols freqs).length = 1 by rw [← hone, ← length_usedSyms, usedSyms, List.length_map])
    have hmem : 0 < freqs.getD s 0 ↔ s = only := by rw [← mem_usedSyms, usedSyms, hu]; simp
    simp only [referenceBuild, hu, getD_map_range _ _ hs, hmem]
  · have hu : usedSymbols freqs = [] := List.eq_nil_of_length_eq_zero
      (show (usedSymbols freqs).length = 0 by rw [← hno, ← length_usedSyms, usedSyms, List.length_map])
    simp only [referenceBuild, hu, getD_map_range _ _ hs]

/-- The builder's answer (spec/41_huffman.md R271, properties 1 to 3, and R272). -/
theorem referenceBuild_spec {freqs : List Nat} {maxlen : Nat} (h1 : 1 ≤ maxlen) (h15 : maxlen ≤ 15)
    (hm : usedCount freqs ≤ 2 ^ maxlen) : BuildSpec freqs maxlen (referenceBuild freqs maxlen) := by
  rcases Nat.lt_or_ge (usedCount freqs) 2 with h2 | h2
  · exact buildSpec_of_degenerate h1 h2
  · exact buildSpec_of_two h1 h15 hm h2

/-- The Huffman tree is the builder's answer where it fits (spec/41_huffman.md R271, property 5). -/
theorem referenceBuild_huffman {freqs : List Nat} (h2 : 2 ≤ usedCount freqs) :
    ∃ tree, HuffmanLengths freqs tree ∧ ∀ maxlen, (∀ l ∈ tree, l ≤ maxlen) → referenceBuild freqs maxlen = tree := by
  obtain ⟨root, hdepths, hmerge⟩ := huffDepths_merges (usedSymbols_ne_nil (by omega : 1 ≤ usedCount freqs))
  refine ⟨(List.range freqs.length).map (depthOf root.leaves), ⟨root, hmerge, by simp, fun s hs => ⟨fun hf => ?_, fun hf => ?_⟩⟩,
    fun maxlen htree => ?_⟩
  · rw [getD_map_range _ _ hs]
    exact mem_leaves_of_used hmerge (mem_usedSyms.mpr hf)
  · rw [getD_map_range _ _ hs]
    exact depthOf_unused hmerge fun hm => by rw [mem_usedSyms] at hm; omega
  · have hfits : root.leaves.all (fun l => decide (l.2 ≤ maxlen)) := List.all_eq_true.mpr fun ⟨s, d⟩ hl => by
      obtain ⟨hs, hd⟩ := used_of_mem_leaves hmerge hl
      have := htree _ (List.mem_map_of_mem (f := depthOf root.leaves) (List.mem_range.mpr (lt_of_mem_usedSyms hs)))
      simpa [hd] using this
    rw [referenceBuild_of_two h2, hdepths, if_pos hfits]

/-- The reference assignment meets every constraint on the OPEN parameters (spec/92_eei_decisions.md). -/
theorem referenceParams_legal : referenceParams.Legal :=
  { iterations := fun n => (referenceLevel_ranges n).2.2
    goal := fun n => ⟨(referenceLevel_ranges n).1, (referenceLevel_ranges n).2.1⟩
    depth := referenceParams_bounded.depth
    ceiling := ⟨by decide, 15, rfl⟩
    blockTerms := by decide
    build := fun _ _ _ h1 h15 hm => referenceBuild_spec h1 h15 hm
    huffman := fun _ h2 => by
      obtain ⟨tree, htree, hfits⟩ := referenceBuild_huffman h2
      exact ⟨tree, htree, fun maxlen _ _ h => hfits maxlen h⟩ }

/-- Settles O27: both the Huffman merge and package-merge leave the used symbols shares `2^-l` that sum to 1. -/
theorem builderLegal : Obligations.BuilderLegal :=
  ⟨fun _ _ _ h1 h15 hm => referenceBuild_spec h1 h15 hm, fun _ h2 => referenceBuild_huffman h2, referenceParams_legal⟩

end Sys2Proof.Machine
end

section
/-! PROOF. `BW.DYNAMIC` (spec/44_block_writer.md R430 to R441): the bits of a block part by part, the code-length sequence and the
metasymbols it is sent as, and the code lengths of its three tables, which the builder makes sound. -/

namespace Sys2Proof.Machine

/-! ## The bits written -/

/-- The sink `k'` is `k` with `bits` written to it. -/
structure Sink.Writes (k : Sink) (bits : List Bool) (k' : Sink) : Prop where
  stream : k'.stream = k.stream ++ bits
  hint   : k'.hint = k.hint
  isOpen : k'.isOpen = k.isOpen
  sound  : k.Sound → k'.Sound

theorem Sink.Writes.refl (k : Sink) : k.Writes [] k := ⟨(List.append_nil _).symm, rfl, rfl, id⟩

theorem Sink.Writes.trans {a b c : Sink} {v w : List Bool} (x : a.Writes v b) (y : b.Writes w c) : a.Writes (v ++ w) c :=
  ⟨by rw [y.stream, x.stream, List.append_assoc], y.hint.trans x.hint, y.isOpen.trans x.isOpen, y.sound ∘ x.sound⟩

theorem Sink.writes_append (k : Sink) (bits count : Nat) : k.Writes (lowBits count bits) (k.append bits count) :=
  ⟨k.stream_append bits count, k.hint_append bits count, Sink.isOpen_append k bits count, fun h => h.append bits count⟩

/-- Bits reversed are the bits in reverse order. -/
theorem lowBits_revBits (n v : Nat) : lowBits n (revBits n v) = (lowBits n v).reverse := by
  induction n generalizing v with
  | zero => rfl
  | succ n ih =>
    have hlow : lowBits n (revBits (n + 1) v) = lowBits n (revBits n (v / 2)) := by
      rw [revBits_succ, ← lowBits_mod, Nat.mul_add_mod_self_right, lowBits_mod]
    have htop : (revBits (n + 1) v).testBit n = (v % 2 == 1) := by
      rw [revBits_succ, Nat.testBit_eq_decide_div_mod_eq, Nat.add_comm, Nat.add_mul_div_right _ _ (Nat.two_pow_pos n),
        Nat.div_eq_of_lt (revBits_lt n _), Nat.zero_add, Nat.mod_mod]
      rfl
    rw [lowBits_succ_last, hlow, ih, htop, lowBits_succ, List.reverse_cons]

theorem Sink.code_writes (t : EncTable) (sym : Nat) (k : Sink) : Answers (k.code t sym) (k.Writes (codeBits t sym)) := by
  intro k' h
  obtain ⟨e, he, h⟩ := bind_eq_ok.mp h
  cases h
  have hbits : codeBits t sym = lowBits e.len (revBits e.len e.code) := by
    rw [codeBits, written_eq_ok.mp he, lowBits_revBits]
  exact hbits ▸ k.writes_append _ _

theorem Sink.metaStream_writes (t : EncTable) (rle : List (Nat × Nat)) (k : Sink) :
    Answers (k.metaStream t rle) (k.Writes (rle.flatMap fun p => codeBits t p.1 ++ lowBits (metaExtra p.1) p.2)) := by
  induction rle generalizing k with
  | nil => exact .ok (.refl k)
  | cons p rest ih =>
    have hextra : ∀ u : Sink, u.Writes (lowBits (metaExtra p.1) p.2) (if 16 ≤ p.1 then u.append p.2 (metaExtra p.1) else u) := fun u => by
      split
      · exact u.writes_append _ _
      · have h0 : metaExtra p.1 = 0 := by
          unfold metaExtra
          split_ifs <;> omega
        exact h0 ▸ .refl u
    exact (k.code_writes t p.1).bind fun u hu => (ih _).mono fun _ hv => (hu.trans (hextra u)).trans hv

/-- A copy has codes when its run and its distance lie in decades. -/
theorem decades_of_codes {run dist : Nat} {c : TermCodes} (h : (Term.copy run dist).codes = some c) :
    ∃ l dl m dm, runSymbol run = some (l, dl) ∧ distSymbol dist = some (m, dm)
      ∧ c = { sym := l, extra := dl.extra, value := run - dl.base, dist := some (m, dm.extra, dist - dm.base) } := by
  rcases hl : runSymbol run with _ | ⟨l, dl⟩
  · simp only [Term.codes, hl, reduceCtorEq] at h
  · rcases hm : distSymbol dist with _ | ⟨m, dm⟩
    · simp only [Term.codes, hl, hm, reduceCtorEq] at h
    · simp only [Term.codes, hl, hm, Option.some.injEq] at h
      exact ⟨l, dl, m, dm, rfl, rfl, h.symm⟩

theorem termBits_copy (e : EncTables) {run dist l m : Nat} {dl dm : Decade} (hl : runSymbol run = some (l, dl))
    (hm : distSymbol dist = some (m, dm)) : termBits e (.copy run dist)
      = codeBits e.runLit l ++ lowBits dl.extra (run - dl.base) ++ codeBits e.dist m ++ lowBits dm.extra (dist - dm.base) := by
  simp only [termBits, hl, hm]

theorem Sink.token_writes (e : EncTables) {t : Term} {c : TermCodes} (h : t.codes = some c) (k : Sink) :
    Answers (k.token e c) (k.Writes (termBits e t)) := by
  cases t with
  | lit b =>
    obtain rfl := Option.some.inj h
    exact (k.code_writes e.runLit b.toNat).bind fun _ hu => .ok hu
  | copy run dist =>
    obtain ⟨l, dl, m, dm, hl, hm, rfl⟩ := decades_of_codes h
    rw [termBits_copy e hl hm]
    exact (k.code_writes e.runLit l).bind fun u hu => (Sink.code_writes _ _ _).bind fun v hv =>
      .ok (((hu.trans (u.writes_append _ _)).trans hv).trans (v.writes_append _ _))

theorem Sink.tokens_writes (e : EncTables) {terms : List Term} {codes : List TermCodes}
    (h : List.Forall₂ (fun t c => Term.codes t = some c) terms codes) (k : Sink) :
    Answers (k.tokens e codes) (k.Writes (terms.flatMap (termBits e))) := by
  induction h generalizing k with
  | nil => exact .ok (.refl k)
  | cons hc _ ih => exact (k.token_writes e hc).bind fun u hu => (ih u).mono fun _ hv => hu.trans hv

theorem Sink.lengths_writes (lens : List Nat) (k : Sink) :
    k.Writes (lens.flatMap (lowBits 3)) (lens.foldl (fun k l => k.append l 3) k) := by
  induction lens generalizing k with
  | nil => exact .refl k
  | cons l rest ih => exact (k.writes_append l 3).trans (ih _)

/-- The header of a block (spec/44_block_writer.md R439). -/
theorem Sink.dynamicHeader_writes (final : Bool) (p : BlockPlan) (k : Sink) :
    k.Writes ([final] ++ [false, true] ++ lowBits 5 (p.hlit - 257) ++ lowBits 5 (p.hdist - 1) ++ lowBits 4 (p.hclen - 4)
      ++ (perm.take p.hclen).flatMap (fun m => lowBits 3 (p.lM.getD m 0))) (k.dynamicHeader final p) := by
  have hlens : (perm.take p.hclen).flatMap (fun m => lowBits 3 (p.lM.getD m 0)) = ((permuted p.lM).take p.hclen).flatMap (lowBits 3) := by
    rw [permuted, ← List.map_take, List.flatMap_map]
  have hfinal : [final] = lowBits 1 final.toNat := (lowBits_one final).symm
  rw [hlens, hfinal]
  exact (((((k.writes_append _ _).trans (Sink.writes_append _ 2 2)).trans (Sink.writes_append _ _ _)).trans
    (Sink.writes_append _ _ _)).trans (Sink.writes_append _ _ _)).trans (Sink.lengths_writes _ _)

/-! ## The code-length sequence (spec/44_block_writer.md R436) -/

/-- A metasymbol as the reader takes it: one of the 19, its extra value within its extra bits (spec/30_encoding.md R178). -/
structure MetaOk (p : Nat × Nat) : Prop where
  sym   : p.1 ≤ 18
  extra : p.2 < 2 ^ metaExtra p.1

theorem metaExtra_of_le {m : Nat} (h : m ≤ 15) : metaExtra m = 0 := by
  unfold metaExtra
  split_ifs <;> omega

theorem metaOk_length {v : Nat} (h : v ≤ 15) : MetaOk (v, 0) := ⟨by dsimp only; omega, by simp [metaExtra_of_le h]⟩

theorem metaOk_again {x : Nat} (h : x < 4) : MetaOk (16, x) := ⟨Nat.le_add_right 16 2, h⟩

theorem metaOk_zeros {x : Nat} (h : x < 8) : MetaOk (17, x) := ⟨Nat.le_add_right 17 1, h⟩

theorem metaOk_manyZeros {x : Nat} (h : x < 128) : MetaOk (18, x) := ⟨Nat.le_refl 18, h⟩

theorem zeroRuns_spec (n r : Nat) : ∀ p ∈ zeroRuns n r, MetaOk p ∧ p.1 ≠ 16 := by
  have hsingle : ∀ p ∈ List.replicate r (0, 0), MetaOk p ∧ p.1 ≠ 16 := fun p hp => by
    rw [List.eq_of_mem_replicate hp]
    exact ⟨metaOk_length (by omega), by decide⟩
  induction n generalizing r with
  | zero => exact hsingle
  | succ n ih =>
    intro p hp
    rw [zeroRuns] at hp
    split_ifs at hp with h11 h3
    · rcases List.mem_cons.mp hp with rfl | hp
      · exact ⟨metaOk_manyZeros (by omega), (by decide : 18 ≠ 16)⟩
      · refine ih _ (fun p hp => ?_) p hp
        rw [List.eq_of_mem_replicate hp]
        exact ⟨metaOk_length (by omega), by decide⟩
    · rw [List.mem_singleton.mp hp]
      exact ⟨metaOk_zeros (by omega), (by decide : 17 ≠ 16)⟩
    · exact hsingle p hp

theorem repeatRuns_spec {v : Nat} (hv : v ≤ 15) (n r : Nat) : ∀ p ∈ repeatRuns v n r, MetaOk p := by
  induction n generalizing r with
  | zero => exact fun p hp => List.eq_of_mem_replicate hp ▸ metaOk_length hv
  | succ n ih =>
    intro p hp
    rw [repeatRuns] at hp
    split_ifs at hp
    · rcases List.mem_cons.mp hp with rfl | hp
      · exact metaOk_again (by omega)
      · exact ih _ p hp
    · exact List.eq_of_mem_replicate hp ▸ metaOk_length hv

theorem rleOf_metaOk {seq : List Nat} (h : ∀ l ∈ seq, l ≤ 15) : ∀ p ∈ rleOf seq, MetaOk p := by
  intro p hp
  obtain ⟨q, hq, hp⟩ := List.mem_flatMap.mp hp
  have hv := h q.1 (runsOf_mem seq q hq)
  split_ifs at hp
  · exact (zeroRuns_spec _ _ p hp).1
  · rcases List.mem_cons.mp hp with rfl | hp
    · exact metaOk_length hv
    · exact repeatRuns_spec hv _ _ p hp

/-- A sequence does not begin with a repeat. -/
theorem rleOf_head {seq : List Nat} (h : ∀ l ∈ seq, l ≤ 15) {p : Nat × Nat} (hp : (rleOf seq).head? = some p) : p.1 ≠ 16 := by
  rw [rleOf, List.head?_flatMap] at hp
  obtain ⟨q, hq, hp⟩ := List.exists_of_findSome?_eq_some hp
  have hv := h q.1 (runsOf_mem seq q hq)
  split_ifs at hp
  · exact (zeroRuns_spec _ _ p (List.mem_of_mem_head? hp)).2
  · obtain rfl := Option.some.inj hp
    dsimp only
    omega

theorem expandLens_append (seq : List Nat) (xs ys : List (Nat × Nat)) :
    expandLens seq (xs ++ ys) = expandLens (expandLens seq xs) ys := by
  induction xs generalizing seq with
  | nil => rfl
  | cons p rest ih =>
    simp only [List.cons_append, expandLens]
    split_ifs <;> exact ih _

theorem expandLens_lengths (seq : List Nat) {v : Nat} (hv : v ≤ 15) (r : Nat) :
    expandLens seq (List.replicate r (v, 0)) = seq ++ List.replicate r v := by
  induction r generalizing seq with
  | zero => exact (List.append_nil _).symm
  | succ r ih => rw [List.replicate_succ, expandLens, if_pos hv, ih, List.append_assoc, List.replicate_succ]; rfl

theorem expandLens_zeroRuns (seq : List Nat) (n r : Nat) : expandLens seq (zeroRuns n r) = seq ++ List.replicate r 0 := by
  induction n generalizing seq r with
  | zero => exact expandLens_lengths seq (by omega) r
  | succ n ih =>
    rw [zeroRuns]
    split_ifs with h11 h3
    · have hsplit : List.replicate r 0 = List.replicate (11 + (min r 138 - 11)) 0 ++ List.replicate (r - min r 138) 0 := by
        rw [List.replicate_append_replicate]
        congr 1
        omega
      rw [hsplit, ← List.append_assoc]
      exact ih _ _
    · have hr : r = 3 + (r - 3) := by omega
      conv_rhs => rw [hr]
      rfl
    · exact expandLens_lengths seq (by omega) r

theorem expandLens_repeatRuns {seq : List Nat} {v : Nat} (hv : v ≤ 15) (hlast : seq.getLast? = some v) (n r : Nat) :
    expandLens seq (repeatRuns v n r) = seq ++ List.replicate r v := by
  induction n generalizing seq r with
  | zero => exact expandLens_lengths seq hv r
  | succ n ih =>
    rw [repeatRuns]
    split_ifs with h3
    · have hsplit : List.replicate r v = List.replicate (3 + (min r 6 - 3)) v ++ List.replicate (r - min r 6) v := by
        rw [List.replicate_append_replicate]
        congr 1
        omega
      have hv' : seq.getLast?.getD 0 = v := by rw [hlast]; rfl
      have hlast' : (seq ++ List.replicate (3 + (min r 6 - 3)) v).getLast? = some v := by
        rw [List.getLast?_append, List.getLast?_replicate, if_neg (by omega)]
        rfl
      rw [hsplit, ← List.append_assoc, ← ih hlast' (r - min r 6)]
      show expandLens (seq ++ List.replicate (3 + (min r 6 - 3)) (seq.getLast?.getD 0)) _ = _
      rw [hv']
    · exact expandLens_lengths seq hv r

/-- The runs of a sequence are the sequence, and none is empty. -/
theorem runsOf_spec (seq : List Nat) :
    (runsOf seq).flatMap (fun p => List.replicate p.2 p.1) = seq ∧ ∀ p ∈ runsOf seq, 1 ≤ p.2 := by
  induction seq with
  | nil => exact ⟨rfl, by simp [runsOf]⟩
  | cons v rest ih =>
    obtain ⟨hflat, hpos⟩ := ih
    rw [runsOf]
    split
    · rename_i u k more heq
      rw [heq] at hflat hpos
      split_ifs with huv
      · subst huv
        exact ⟨by rw [← hflat]; simp [List.replicate_succ], by simpa using fun a b h => hpos (a, b) (by simp [h])⟩
      · exact ⟨by rw [← hflat]; simp, by simpa using ⟨hpos (u, k) (by simp), fun a b h => hpos (a, b) (by simp [h])⟩⟩
    · rename_i heq
      rw [heq] at hflat
      exact ⟨by rw [← hflat]; rfl, by simp⟩

/-- The metasymbols of a sequence expand to it. -/
theorem expandLens_rleOf {seq : List Nat} (h : ∀ l ∈ seq, l ≤ 15) : expandLens [] (rleOf seq) = seq := by
  have hruns : ∀ (runs : List (Nat × Nat)) (before : List Nat), (∀ p ∈ runs, p.1 ≤ 15 ∧ 1 ≤ p.2) →
      expandLens before (runs.flatMap fun p => if p.1 = 0 then zeroRuns p.2 p.2 else (p.1, 0) :: repeatRuns p.1 (p.2 - 1) (p.2 - 1))
        = before ++ runs.flatMap fun p => List.replicate p.2 p.1 := fun runs => by
    induction runs with
    | nil => exact fun before _ => (List.append_nil _).symm
    | cons p rest ih =>
      intro before hall
      obtain ⟨hv, hpos⟩ := hall p (by simp)
      have hrun : expandLens before (if p.1 = 0 then zeroRuns p.2 p.2 else (p.1, 0) :: repeatRuns p.1 (p.2 - 1) (p.2 - 1))
          = before ++ List.replicate p.2 p.1 := by
        split_ifs with h0
        · rw [expandLens_zeroRuns, h0]
        · rw [expandLens, if_pos hv, expandLens_repeatRuns hv (by simp), List.append_assoc, List.singleton_append,
            ← List.replicate_succ, Nat.sub_add_cancel hpos]
      rw [List.flatMap_cons, expandLens_append, hrun, ih _ fun q hq => hall q (by simp [hq]), List.flatMap_cons, List.append_assoc]
  obtain ⟨hflat, hpos⟩ := runsOf_spec seq
  rw [rleOf, hruns _ _ fun p hp => ⟨h _ (runsOf_mem seq p hp), hpos p hp⟩, hflat, List.nil_append]

/-! ## The code lengths of a block (spec/44_block_writer.md R431 to R438) -/

theorem filter_padTo {n : Nat} {l : List Nat} (h : l.length ≤ n) :
    (padTo n l).filter (fun x => x != 0) = l.filter (fun x => x != 0) := by
  have hzeros : (List.replicate (n - l.length) 0).filter (fun x => x != 0) = [] := by simp
  rw [padTo_of_length_le h, List.filter_append, hzeros, List.append_nil]

theorem getD_padTo {n : Nat} {l : List Nat} (h : l.length ≤ n) (k : Nat) : (padTo n l).getD k 0 = l.getD k 0 := by
  rcases Nat.lt_or_ge k n with hk | hk
  · rw [List.getD_eq_getElem?_getD, getElem?_padTo l hk, Option.getD_some]
  · rw [List.getD_eq_default _ _ (by rwa [length_padTo]), List.getD_eq_default _ _ (h.trans hk)]

theorem take_padTo {m n : Nat} {l : List Nat} (hm : m ≤ l.length) (hn : l.length ≤ n) : (padTo n l).take m = padTo m l := by
  rw [padTo_of_length_le hn, List.take_append_of_le_length hm, padTo, Nat.sub_eq_zero_of_le hm, List.replicate_zero, List.append_nil]

theorem padTo_self {n : Nat} {l : List Nat} (h : l.length = n) : padTo n l = l := by
  rw [padTo_of_length_le h.le, h, Nat.sub_self, List.replicate_zero, List.append_nil]

theorem countToLast_le (l : List Nat) : countToLast l ≤ l.length := by
  induction l with
  | nil => exact le_refl 0
  | cons x rest ih =>
    rw [countToLast, List.length_cons]
    split_ifs <;> omega

/-- From the count to the last nonzero length on there are only zeros. -/
theorem getD_of_countToLast_le {l : List Nat} {k : Nat} (h : countToLast l ≤ k) : l.getD k 0 = 0 := by
  induction l generalizing k with
  | nil => rfl
  | cons x rest ih =>
    rw [countToLast] at h
    cases k with
    | zero =>
      rw [List.getD_cons_zero]
      split_ifs at h <;> omega
    | succ k =>
      rw [List.getD_cons_succ]
      refine ih ?_
      split_ifs at h <;> omega

section
variable {freqs lens : List Nat} {maxlen : Nat} (h : BuildSpec freqs maxlen lens)
include h

/-- A symbol that occurs has a length. -/
theorem length_pos_of_buildSpec {s : Nat} (hs : 0 < freqs.getD s 0) : 0 < lens.getD s 0 := by
  have hmem := mem_usedSyms.mpr hs
  have hlt := lt_of_mem_usedSyms hmem
  have hcount : 0 < usedCount freqs := length_usedSyms freqs ▸ List.length_pos_of_mem hmem
  rcases Nat.lt_or_ge (usedCount freqs) 2 with h2 | h2
  · rw [h.oneSymbol (by omega) s hlt, if_pos hs]
    exact Nat.one_pos
  · have := h.unused h2 s hlt
    omega

/-- The lengths of a single symbol: 1 for it, 0 for the others. -/
theorem filter_of_oneSymbol (h1 : usedCount freqs = 1) : lens.filter (fun x => x != 0) = [1] := by
  have hlens : lens = freqs.map fun f => if 0 < f then 1 else 0 := by
    refine List.ext_getElem (by rw [h.size, List.length_map]) fun s hs hs' => ?_
    have hs'' : s < freqs.length := h.size ▸ hs
    have := h.oneSymbol h1 s hs''
    rwa [List.getD_eq_getElem _ _ hs, List.getD_eq_getElem _ _ hs'', ← List.getElem_map (fun f => if 0 < f then 1 else 0) (h := hs')] at this
  have hone : ∀ x ∈ lens.filter (fun x => x != 0), x = 1 := fun x hx => by
    obtain ⟨hx, hne⟩ := List.mem_filter.mp hx
    rw [hlens] at hx
    obtain ⟨f, -, rfl⟩ := List.mem_map.mp hx
    split_ifs at hne ⊢
    · rfl
    · simp at hne
  have hcount : (lens.filter (fun x => x != 0)).length = 1 := by
    rw [← List.countP_eq_length_filter, hlens, List.countP_map]
    refine (List.countP_congr fun f _ => ?_).trans h1
    by_cases hf : 0 < f <;> simp only [Function.comp_apply, hf, if_true, if_false] <;> decide
  obtain ⟨x, hx⟩ := List.length_eq_one_iff.mp hcount
  rw [hx, hone x (by rw [hx]; simp)]

/-- The lengths of an alphabet not used: 1 for its first symbol. -/
theorem filter_of_noSymbol (h0 : usedCount freqs = 0) (hne : freqs ≠ []) : lens.filter (fun x => x != 0) = [1] := by
  obtain ⟨x, rest, hx⟩ : ∃ x rest, lens = x :: rest := List.exists_cons_of_length_pos (by rw [h.size]; exact List.length_pos_iff.mpr hne)
  have hget := fun s (hs : s < lens.length) => h.noSymbol h0 s (h.size ▸ hs)
  subst hx
  have hfirst : x = 1 := hget 0 (by simp)
  rw [hfirst, List.filter_cons_of_pos (by decide), List.filter_eq_nil_iff.mpr]
  intro y hy
  obtain ⟨s, hs, rfl⟩ := List.mem_iff_getElem.mp hy
  have := hget (s + 1) (by simpa using hs)
  rw [List.getD_cons_succ, List.getD_eq_getElem _ _ hs, if_neg (by omega)] at this
  simp [this]

/-- The lengths make a sound table: a complete code, or one codeword of one bit. -/
theorem sound_of_buildSpec (hne : freqs ≠ []) {n : Nat} (hn : lens.length ≤ n) : (verdictOf (padTo n lens)).sound = true := by
  obtain ⟨-, -, hcomplete, hdegenerate⟩ := verdictOf_spec (padTo n lens)
  rcases Nat.lt_or_ge (usedCount freqs) 2 with h2 | h2
  · have hone : lens.filter (fun x => x != 0) = [1] := by
      rcases Nat.eq_zero_or_pos (usedCount freqs) with h0 | h1
      · exact filter_of_noSymbol h h0 hne
      · exact filter_of_oneSymbol h (by omega)
    rw [hdegenerate.mpr (by rw [filter_padTo hn, hone])]
    rfl
  · rw [hcomplete.mpr (by rw [kraft_of_filter (filter_padTo hn), ← kraft_eq_kraft_filter, h.complete h2])]
    rfl

end

theorem usedCount_le (freqs : List Nat) : usedCount freqs ≤ freqs.length := List.countP_le_length

@[simp] theorem length_runLitFreqs (codes : List TermCodes) : (runLitFreqs codes).length = 286 := by simp [runLitFreqs]

@[simp] theorem length_distFreqs (codes : List TermCodes) : (distFreqs codes).length = 30 := by simp [distFreqs]

@[simp] theorem length_metaFreqs (rle : List (Nat × Nat)) : (metaFreqs rle).length = 19 := by simp [metaFreqs]

theorem ne_nil_of_length {l : List Nat} {n : Nat} (h : l.length = n + 1) : l ≠ [] := by
  rintro rfl
  cases h

theorem buildSpec_runLit (codes : List TermCodes) : BuildSpec (runLitFreqs codes) 15 (referenceBuild (runLitFreqs codes) 15) :=
  referenceBuild_spec (by decide) (by decide) ((usedCount_le _).trans (by rw [length_runLitFreqs]; decide))

theorem buildSpec_dist (codes : List TermCodes) : BuildSpec (distFreqs codes) 15 (referenceBuild (distFreqs codes) 15) :=
  referenceBuild_spec (by decide) (by decide) ((usedCount_le _).trans (by rw [length_distFreqs]; decide))

theorem buildSpec_meta (rle : List (Nat × Nat)) : BuildSpec (metaFreqs rle) 7 (referenceBuild (metaFreqs rle) 7) :=
  referenceBuild_spec (by decide) (by decide) ((usedCount_le _).trans (by rw [length_metaFreqs]; decide))

/-! ## The symbols of the terms -/

theorem forall₂_codesOf {terms : List Term} {codes : List TermCodes} (h : codesOf terms = .ok codes) :
    List.Forall₂ (fun t c => Term.codes t = some c) terms codes := by
  induction terms generalizing codes with
  | nil => cases h; exact .nil
  | cons t rest ih =>
    rw [codesOf, List.mapM_cons] at h
    obtain ⟨c, hc, h⟩ := bind_eq_ok.mp h
    obtain ⟨cs, hcs, h⟩ := bind_eq_ok.mp h
    cases h
    exact .cons (written_eq_ok.mp hc) (ih hcs)

theorem symbols_of_codes {t : Term} {c : TermCodes} (h : t.codes = some c) :
    t.symbols = (some c.sym, c.dist.map fun d => d.1) := by
  cases t with
  | lit b => cases h; rfl
  | copy run dist =>
    obtain ⟨l, dl, m, dm, hl, hm, rfl⟩ := decades_of_codes h
    simp only [Term.symbols, hl, hm, Option.map_some]

theorem runLitFreqs_pos {codes : List TermCodes} {c : TermCodes} (hc : c ∈ codes) (hs : c.sym < 286) :
    0 < (runLitFreqs codes).getD c.sym 0 := by
  have hcount : 0 < (codes.map TermCodes.sym).count c.sym := List.count_pos_iff.mpr (List.mem_map_of_mem hc)
  rw [runLitFreqs, getD_map_range _ _ hs]
  split_ifs with h256
  · omega
  · exact hcount

theorem distFreqs_pos {codes : List TermCodes} {c : TermCodes} {k e v : Nat} (hc : c ∈ codes) (hd : c.dist = some (k, e, v))
    (hk : k < 30) : 0 < (distFreqs codes).getD k 0 := by
  rw [distFreqs, getD_map_range _ _ hk]
  exact List.count_pos_iff.mpr (List.mem_filterMap.mpr ⟨c, hc, by rw [hd]; rfl⟩)

theorem metaFreqs_pos {rle : List (Nat × Nat)} {p : Nat × Nat} (hp : p ∈ rle) (h18 : p.1 ≤ 18) : 0 < (metaFreqs rle).getD p.1 0 := by
  rw [metaFreqs, getD_map_range _ _ (by omega)]
  exact List.count_pos_iff.mpr (List.mem_map_of_mem hp)

theorem exists_codes {terms : List Term} {codes : List TermCodes} (h : codesOf terms = .ok codes) {t : Term} (ht : t ∈ terms) :
    ∃ c ∈ codes, t.codes = some c := by
  obtain ⟨i, hi, rfl⟩ := List.mem_iff_getElem.mp ht
  obtain ⟨hlen, hall⟩ := List.forall₂_iff_get.mp (forall₂_codesOf h)
  exact ⟨codes[i], List.getElem_mem (hlen ▸ hi), hall i hi (hlen ▸ hi)⟩

/-! ## The block -/

theorem planBlock_lM (P : Params) (codes : List TermCodes) :
    (planBlock P codes).lM = P.build (metaFreqs (planBlock P codes).rle) 7 := rfl

section
variable (codes : List TermCodes)

/-- The lengths of a block's two tables, as its code-length sequence has them. -/
def BlockPlan.sequence (p : BlockPlan) : List Nat := padTo p.hlit p.lL ++ padTo p.hdist p.lD

theorem planBlock_sequence_le : ∀ l ∈ (planBlock referenceParams codes).sequence, l ≤ 15 := by
  intro l hl
  rcases List.mem_append.mp hl with hl | hl
  · rcases mem_padTo hl with hl | rfl
    · exact (buildSpec_runLit codes).bounded l hl
    · omega
  · rcases mem_padTo hl with hl | rfl
    · exact (buildSpec_dist codes).bounded l hl
    · omega

theorem planBlock_rle : (planBlock referenceParams codes).rle = rleOf (planBlock referenceParams codes).sequence := rfl

theorem buildSpec_lL : BuildSpec (runLitFreqs codes) 15 (planBlock referenceParams codes).lL := buildSpec_runLit codes

theorem buildSpec_lD : BuildSpec (distFreqs codes) 15 (planBlock referenceParams codes).lD := buildSpec_dist codes

theorem buildSpec_lM : BuildSpec (metaFreqs (planBlock referenceParams codes).rle) 7 (planBlock referenceParams codes).lM := by
  rw [planBlock_lM]
  generalize (planBlock referenceParams codes).rle = rle
  exact buildSpec_meta rle

theorem length_planBlock_lL : (planBlock referenceParams codes).lL.length = 286 :=
  (buildSpec_lL codes).size.trans (length_runLitFreqs codes)

theorem length_planBlock_lD : (planBlock referenceParams codes).lD.length = 30 :=
  (buildSpec_lD codes).size.trans (length_distFreqs codes)

theorem length_planBlock_lM : (planBlock referenceParams codes).lM.length = 19 :=
  (buildSpec_lM codes).size.trans (length_metaFreqs _)

theorem planBlock_hlit_eq :
    (planBlock referenceParams codes).hlit = max 257 (countToLast (planBlock referenceParams codes).lL) := rfl

theorem planBlock_hdist_eq :
    (planBlock referenceParams codes).hdist = max 1 (countToLast (planBlock referenceParams codes).lD) := rfl

theorem planBlock_hclen_eq :
    (planBlock referenceParams codes).hclen = max 4 (countToLast (permuted (planBlock referenceParams codes).lM)) := rfl

theorem planBlock_hlit : 257 ≤ (planBlock referenceParams codes).hlit ∧ (planBlock referenceParams codes).hlit ≤ 286 := by
  have h := countToLast_le (planBlock referenceParams codes).lL
  rw [length_planBlock_lL] at h
  rw [planBlock_hlit_eq]
  exact ⟨le_max_left _ _, max_le (by decide) h⟩

theorem planBlock_hdist : 1 ≤ (planBlock referenceParams codes).hdist ∧ (planBlock referenceParams codes).hdist ≤ 30 := by
  have h := countToLast_le (planBlock referenceParams codes).lD
  rw [length_planBlock_lD] at h
  rw [planBlock_hdist_eq]
  exact ⟨le_max_left _ _, max_le (by decide) h⟩

theorem length_permuted (lM : List Nat) : (permuted lM).length = 19 := by
  rw [permuted, List.length_map]
  rfl

theorem planBlock_hclen : 4 ≤ (planBlock referenceParams codes).hclen ∧ (planBlock referenceParams codes).hclen ≤ 19 := by
  have h := countToLast_le (permuted (planBlock referenceParams codes).lM)
  rw [length_permuted] at h
  rw [planBlock_hclen_eq]
  exact ⟨le_max_left _ _, max_le (by decide) h⟩

/-- Beyond the counts all lengths are zero. -/
theorem planBlock_zeros :
    (∀ k, (planBlock referenceParams codes).hlit ≤ k → (planBlock referenceParams codes).lL.getD k 0 = 0)
    ∧ (∀ k, (planBlock referenceParams codes).hdist ≤ k → (planBlock referenceParams codes).lD.getD k 0 = 0)
    ∧ (∀ k, (planBlock referenceParams codes).hclen ≤ k → (permuted (planBlock referenceParams codes).lM).getD k 0 = 0) := by
  rw [planBlock_hlit_eq, planBlock_hdist_eq, planBlock_hclen_eq]
  exact ⟨fun k hk => getD_of_countToLast_le ((le_max_right _ _).trans hk), fun k hk => getD_of_countToLast_le ((le_max_right _ _).trans hk),
    fun k hk => getD_of_countToLast_le ((le_max_right _ _).trans hk)⟩

end

/-- What the plan of a block ensures: lengths as the builder must give them, the counts in their ranges and past the last code, and
metasymbols that expand to the lengths. -/
structure PlanOk (codes : List TermCodes) (p : BlockPlan) : Prop where
  lL     : BuildSpec (runLitFreqs codes) 15 p.lL
  lD     : BuildSpec (distFreqs codes) 15 p.lD
  lM     : BuildSpec (metaFreqs p.rle) 7 p.lM
  hlit   : 257 ≤ p.hlit ∧ p.hlit ≤ 286
  hdist  : 1 ≤ p.hdist ∧ p.hdist ≤ 30
  hclen  : 4 ≤ p.hclen ∧ p.hclen ≤ 19
  zeroL  : ∀ k, p.hlit ≤ k → p.lL.getD k 0 = 0
  zeroD  : ∀ k, p.hdist ≤ k → p.lD.getD k 0 = 0
  zeroM  : ∀ k, p.hclen ≤ k → (permuted p.lM).getD k 0 = 0
  metas  : ∀ q ∈ p.rle, MetaOk q
  head   : ∀ q, p.rle.head? = some q → q.1 ≠ 16
  expand : expandLens [] p.rle = p.sequence

theorem planBlock_ok (codes : List TermCodes) : PlanOk codes (planBlock referenceParams codes) :=
  have hle := planBlock_sequence_le codes
  have hzero := planBlock_zeros codes
  { lL := buildSpec_lL codes, lD := buildSpec_lD codes, lM := buildSpec_lM codes
    hlit := planBlock_hlit codes, hdist := planBlock_hdist codes, hclen := planBlock_hclen codes
    zeroL := hzero.1, zeroD := hzero.2.1, zeroM := hzero.2.2
    metas := planBlock_rle codes ▸ rleOf_metaOk hle
    head := planBlock_rle codes ▸ fun _ hq => rleOf_head hle hq
    expand := planBlock_rle codes ▸ expandLens_rleOf hle }

section
variable {codes : List TermCodes} {p : BlockPlan} (h : PlanOk codes p)
include h

theorem PlanOk.length_lL : p.lL.length = 286 := h.lL.size.trans (length_runLitFreqs codes)

theorem PlanOk.length_lD : p.lD.length = 30 := h.lD.size.trans (length_distFreqs codes)

theorem PlanOk.length_lM : p.lM.length = 19 := h.lM.size.trans (length_metaFreqs p.rle)

theorem PlanOk.sequence_eq : p.sequence = (padTo 288 p.lL).take p.hlit ++ (padTo 32 p.lD).take p.hdist := by
  rw [BlockPlan.sequence, take_padTo (h.length_lL ▸ h.hlit.2) (h.length_lL.le.trans (by decide)),
    take_padTo (h.length_lD ▸ h.hdist.2) (h.length_lD.le.trans (by decide))]

/-- The symbols of a term have lengths. -/
theorem PlanOk.symbols_pos {c : TermCodes} (hc : c ∈ codes) (hr : c.InRange) {x : Term} (hx : x.codes = some c) :
    (∀ sym, x.symbols.1 = some sym → 0 < p.lL.getD sym 0) ∧ (∀ sym, x.symbols.2 = some sym → 0 < p.lD.getD sym 0) := by
  rw [symbols_of_codes hx]
  refine ⟨fun sym hs => ?_, fun sym hs => ?_⟩
  · obtain rfl := Option.some.inj hs
    exact length_pos_of_buildSpec h.lL (runLitFreqs_pos hc hr.sym)
  · obtain ⟨⟨k, e, v⟩, hd, rfl⟩ := Option.map_eq_some_iff.mp hs
    exact length_pos_of_buildSpec h.lD (distFreqs_pos hc hd (hr.dist k e v hd))

end

/-- The bits of a block, part by part (spec/44_block_writer.md R439 to R441). -/
def BlockPlan.bits (final : Bool) (terms : List Term) (p : BlockPlan) : List Bool :=
  [final] ++ [false, true] ++ lowBits 5 (p.hlit - 257) ++ lowBits 5 (p.hdist - 1) ++ lowBits 4 (p.hclen - 4)
    ++ (perm.take p.hclen).flatMap (fun m => lowBits 3 (p.lM.getD m 0))
    ++ p.rle.flatMap (fun q => codeBits p.tables.metasym q.1 ++ lowBits (metaExtra q.1) q.2)
    ++ terms.flatMap (termBits p.tables) ++ codeBits p.tables.runLit 256

/-- `BW.DYNAMIC` on valid terms: what it leaves, and the bits it writes. -/
theorem writeDynamic_spec (final : Bool) {s : State} (hvalid : ∀ x ∈ s.tv, x.Valid) : ∃ (codes : List TermCodes) (p : BlockPlan) (k : Sink),
    codesOf s.tv = .ok codes ∧ (∀ c ∈ codes, c.InRange) ∧ PlanOk codes p ∧ s.bs.Writes (p.bits final s.tv) k
    ∧ writeDynamic referenceParams final s = .ok { s with
        enc := p.tables, bs := k, tv := []
        c := { s.c with emitted := s.c.emitted + s.c.termsBytes, termsBytes := 0 } } := by
  obtain ⟨codes, hcodes, hrange, -⟩ := codesOf_ok hvalid
  have hplan := planBlock_ok codes
  obtain ⟨p, hp⟩ : ∃ p, p = planBlock referenceParams codes := ⟨_, rfl⟩
  rw [← hp] at hplan
  obtain ⟨k1, h1, -⟩ := Sink.metaStream_ok p.tables.metasym p.rle (s.bs.dynamicHeader final p) fun q hq =>
    p.sized.2.2 ▸ Nat.lt_succ_of_le (hplan.metas q hq).sym
  obtain ⟨k2, h2, -⟩ := Sink.tokens_ok p.tables p.sized codes k1 hrange
  obtain ⟨k3, h3, -⟩ := Sink.code_ok p.tables.runLit 256 k2 (by rw [p.sized.1]; decide)
  refine ⟨codes, p, k3, hcodes, hrange, hplan, (((s.bs.dynamicHeader_writes final p).trans (Sink.metaStream_writes _ _ _ k1 h1)).trans
    (Sink.tokens_writes _ (forall₂_codesOf hcodes) k1 k2 h2)).trans (Sink.code_writes _ _ _ k3 h3), ?_⟩
  simp only [writeDynamic, hcodes, ← hp, ok_bind, h1, h2, h3]
  rfl

end Sys2Proof.Machine

namespace Sys2Proof.BlockWriter

open Sys2Proof.Machine

/-- Settles O42: each part of the block is what its loop writes, the code-length sequence expands to the lengths of the two tables, and
the builder's lengths are sound and give every symbol used a code. -/
theorem bwDynamic : Obligations.BwDynamic := by
  intro final s hopen hsink hvalid
  refine ⟨encode_eq 0x60 final.toNat rfl rfl (by cases final <;> decide), ?_⟩
  obtain ⟨codes, p, k, hcodes, hrange, hplan, hwrites, hrun⟩ := writeDynamic_spec final hvalid
  have hexec : exec (.bwDynamic final) s = .next (({ s with
      enc := p.tables, bs := k, tv := []
      c := { s.c with emitted := s.c.emitted + s.c.termsBytes, termsBytes := 0 } } : State).answer .ok [] []) := by
    refine (finish_opened hopen).trans ?_
    rw [hrun]
    rfl
  have hL := hplan.length_lL.le.trans (by decide : 286 ≤ 288)
  have hD := hplan.length_lD.le.trans (by decide : 30 ≤ 32)
  have hM := padTo_self hplan.length_lM
  refine ⟨_, p.hlit, p.hdist, p.hclen, padTo 288 p.lL, padTo 32 p.lD, p.lM, p.rle, hexec, rfl, ?_,
    length_padTo _ _, length_padTo _ _, hplan.length_lM, rfl, rfl, congrArg (EncTable.load .metasym) hM,
    sound_of_buildSpec hplan.lL (ne_nil_of_length (length_runLitFreqs codes)) hL,
    sound_of_buildSpec hplan.lD (ne_nil_of_length (length_distFreqs codes)) hD,
    hM ▸ sound_of_buildSpec hplan.lM (ne_nil_of_length (length_metaFreqs p.rle)) hplan.length_lM.le,
    hplan.expand.trans hplan.sequence_eq, fun q hq => ?_, hplan.head, fun k hk => ?_, fun k hk => ?_, fun k m hk hm => ?_, ?_,
    fun x hx => ?_, hplan.hlit.1, hplan.hlit.2, hplan.hdist.1, hplan.hdist.2, hplan.hclen.1, hplan.hclen.2,
    hwrites.sound hsink, hwrites.hint, hwrites.isOpen, p.sized⟩
  · refine hwrites.stream.trans ?_
    simp only [BlockPlan.bits, List.append_assoc]
    rfl
  · obtain ⟨hsym, hextra⟩ := hplan.metas q hq
    exact ⟨hsym, hextra, length_pos_of_buildSpec hplan.lM (metaFreqs_pos hq hsym)⟩
  · rw [getD_padTo hL, hplan.zeroL k hk]
  · rw [getD_padTo hD, hplan.zeroD k hk]
  · have h0 := hplan.zeroM k hk
    rwa [permuted, List.getD_eq_getElem?_getD, List.getElem?_map, hm] at h0
  · rw [getD_padTo hL]
    exact length_pos_of_buildSpec hplan.lL (getD_runLitFreqs_eob codes)
  · obtain ⟨c, hc, hxc⟩ := exists_codes hcodes hx
    simpa only [getD_padTo hL, getD_padTo hD] using hplan.symbols_pos hc (hrange c hc) hxc

end Sys2Proof.BlockWriter
end
